-- ==== Sys2Proof/Word.lean ====
section
/-! DEFINITION. The word types of the block (spec/00_scope.md R9, R10). -/

namespace Sys2Proof

/-- A command, event, result, value or time word (R9: 32 bits, unsigned). -/
abbrev Word := BitVec 32

/-- A bus byte or a register byte (R9). -/
abbrev Byte := BitVec 8

/-- A TRANSFER message descriptor (spec/30_encoding.md R55). -/
abbrev Half := BitVec 16

/-- A two-wire target address (R9). -/
abbrev Addr7 := BitVec 7

/-- A bit as a number: `false` is 0, `true` is 1. -/
def bitNat (b : Bool) : Nat := if b then 1 else 0

end Sys2Proof
end

