-- ==== Sys2Proof/Syntax.lean ====
section
/-! DEFINITION. The command set: one constructor per row of spec/opcode_table.json, and the names its
operands use (spec/30_encoding.md R52, R53; spec/41_register_interface.md R87; spec/10_state.md R31). -/

namespace Sys2Proof

/-- The bus rate of CONFIGURE (spec/10_state.md R20). -/
inductive Rate where
  | standard
  | fast
deriving DecidableEq, Repr, Inhabited

/-- The four edge-event lines (spec/10_state.md R28). -/
inductive EventKind where
  | button
  | chgIrq
  | thermal
  | hostAck
deriving DecidableEq, Repr, Inhabited

/-- The two ports a word can stand on (spec/30_encoding.md R51, R53). -/
inductive Port where
  | command
  | event
deriving DecidableEq, Repr, Inhabited

/-- The charging IC's fields, in the order of their ids 0..20 (spec/41_register_interface.md R87). -/
inductive FieldId where
  | inputCurrentLimit
  | inputVoltageLimit
  | systemVoltageLimit
  | chargeEnableMode
  | chargeCurrent
  | terminationCurrent
  | prechargeCurrent
  | chargeVoltage
  | rechargeThreshold
  | batteryLowThreshold
  | chargeTimer
  | watchdogMode
  | thermalRegulation
  | voltageClamp
  | comparatorResistance
  | batfetControl
  | status
  | fault
  | batteryAdc
  | partId
  | adcContinuous
deriving DecidableEq, Repr, Inhabited

/-- The four readable state words (spec/10_state.md R31). -/
inductive StateWord where
  | busStatus
  | ctrlStatus
  | battery
  | outputs
deriving DecidableEq, Repr, Inhabited

/-- The commands and event words. `f` is the field id and `sel` the state-word selector as the word
carries them (SEL, 8 bits); WellFormed holds their ranges. -/
inductive Instr where
  | configure (rate : Rate)
  | transfer (a : Addr7) (n : Byte)
  | regRead (a : Addr7) (r : Byte) (len : Byte)
  | regWrite (a : Addr7) (r : Byte) (len : Byte)
  | fieldRead (f : Byte)
  | fieldWrite (f : Byte)
  | probe
  | ctrlBoot
  | ctrlStep
  | readState (sel : Byte)
  | evtButton
  | evtChgIrq
  | evtThermal
  | evtHostAck
deriving DecidableEq, Repr, Inhabited

end Sys2Proof
end

