-- ==== Sys2Proof/Config.lean ====
section
/-! DEFINITION. The parameters of spec/00_scope.md R8: the fixed ones as constants, the OPEN ones as a
record of plain data that a model instance carries, and the model's free values (no body). -/

namespace Sys2Proof

/-- The decoded fault bitmask (spec/10_state.md R24). -/
structure FaultBits where
  thermal : Bool := false
  battery : Bool := false
  charger : Bool := false
  boost : Bool := false
  watchdog : Bool := false
deriving DecidableEq, Repr, Inhabited

/-- `fault = None`: all five bits are 0 (spec/10_state.md R24). -/
def FaultBits.isNone (f : FaultBits) : Bool :=
  !(f.thermal || f.battery || f.charger || f.boost || f.watchdog)

/-- spec/10_state.md R24. -/
inductive ChargeState where
  | notCharging
  | precharge
  | fastCharge
  | terminated
deriving DecidableEq, Repr, Inhabited

/-- The decoded charger status (spec/10_state.md R24). `sourceType` is a natural below 256. -/
structure ChargerStatus where
  fault : FaultBits := {}
  chargeState : ChargeState := .notCharging
  sourceType : Byte := 0#8
  busPresent : Bool := false
deriving DecidableEq, Repr, Inhabited

/-- Where a field lies and how its raw value scales (spec/41_register_interface.md R88). -/
structure FieldDesc where
  reg : Byte
  pos : Nat
  width : Nat
  step : Nat
  offset : Nat
deriving DecidableEq, Repr, Inhabited

/-- R88's ranges, and that the largest physical value fits the 32 bits of spec/00_scope.md R9
(log 14, DEDUCED). -/
def FieldDesc.wf (d : FieldDesc) : Bool :=
  1 ≤ d.width && d.width ≤ 8 && d.pos + d.width ≤ 8 && 1 ≤ d.step &&
    (2 ^ d.width - 1) * d.step + d.offset < 2 ^ 32

/-- Where a field lies, for a field whose step and offset the source fixes (R87). -/
structure FieldPlace where
  reg : Byte
  pos : Nat
  width : Nat
deriving DecidableEq, Repr, Inhabited

/-- `FieldTable` (R87, R88; D21): one entry per field id, in id order. INPUT_CURRENT_LIMIT and
CHARGE_VOLTAGE have the source's step and offset, so only their place is open. -/
structure FieldTable where
  inputCurrentLimit : FieldPlace
  inputVoltageLimit : FieldDesc
  systemVoltageLimit : FieldDesc
  chargeEnableMode : FieldDesc
  chargeCurrent : FieldDesc
  terminationCurrent : FieldDesc
  prechargeCurrent : FieldDesc
  chargeVoltage : FieldPlace
  rechargeThreshold : FieldDesc
  batteryLowThreshold : FieldDesc
  chargeTimer : FieldDesc
  watchdogMode : FieldDesc
  thermalRegulation : FieldDesc
  voltageClamp : FieldDesc
  comparatorResistance : FieldDesc
  batfetControl : FieldDesc
  status : FieldDesc
  fault : FieldDesc
  batteryAdc : FieldDesc
  partId : FieldDesc
  adcContinuous : FieldDesc
deriving DecidableEq, Repr, Inhabited

/-- A place with the source's step and offset. -/
def FieldPlace.scaled (p : FieldPlace) (step offset : Nat) : FieldDesc :=
  { reg := p.reg, pos := p.pos, width := p.width, step := step, offset := offset }

/-- `FieldTable[f]` (R88), with the two step/offset pairs of R87. -/
def FieldTable.get (t : FieldTable) : FieldId → FieldDesc
  | .inputCurrentLimit => t.inputCurrentLimit.scaled 50 100
  | .inputVoltageLimit => t.inputVoltageLimit
  | .systemVoltageLimit => t.systemVoltageLimit
  | .chargeEnableMode => t.chargeEnableMode
  | .chargeCurrent => t.chargeCurrent
  | .terminationCurrent => t.terminationCurrent
  | .prechargeCurrent => t.prechargeCurrent
  | .chargeVoltage => t.chargeVoltage.scaled 16 3840
  | .rechargeThreshold => t.rechargeThreshold
  | .batteryLowThreshold => t.batteryLowThreshold
  | .chargeTimer => t.chargeTimer
  | .watchdogMode => t.watchdogMode
  | .thermalRegulation => t.thermalRegulation
  | .voltageClamp => t.voltageClamp
  | .comparatorResistance => t.comparatorResistance
  | .batfetControl => t.batfetControl
  | .status => t.status
  | .fault => t.fault
  | .batteryAdc => t.batteryAdc
  | .partId => t.partId
  | .adcContinuous => t.adcContinuous

/-- Every field id, in id order. -/
def FieldId.all : List FieldId :=
  [.inputCurrentLimit, .inputVoltageLimit, .systemVoltageLimit, .chargeEnableMode, .chargeCurrent,
    .terminationCurrent, .prechargeCurrent, .chargeVoltage, .rechargeThreshold, .batteryLowThreshold,
    .chargeTimer, .watchdogMode, .thermalRegulation, .voltageClamp, .comparatorResistance,
    .batfetControl, .status, .fault, .batteryAdc, .partId, .adcContinuous]

/-- Every entry keeps R88's ranges. -/
def FieldTable.wf (t : FieldTable) : Bool := FieldId.all.all fun f => (t.get f).wf

/-- One explicit entry of `decodeStatus` (log 2). -/
structure StatusEntry where
  statusRaw : Byte
  faultRaw : Byte
  decoded : ChargerStatus
deriving DecidableEq, Repr, Inhabited

/-- The OPEN parameters of R8, fixed for a model instance (spec/20_memory.md R50). Delays are rational
microseconds; times are milliseconds. -/
structure Params where
  tHalfStandard : Rat
  tHalfFast : Rat
  stretchLimit : Nat
  stretchPoll : Rat
  maxMsgs : Nat
  maxLen : Nat
  chargerAddr : Addr7
  tempAddr : Addr7
  fields : FieldTable
  partIdExpected : Nat
  statusTable : List StatusEntry
  busRate : Rate
  pollMs : Nat
  debounceMs : Nat
  holdMs : Nat
  releaseTimeoutMs : Nat
  handshake : Bool
  adcOnValue : Nat
  adcOffValue : Nat
  isolateValue : Nat
  fanSpeed : Nat
  chargeCurrent : Nat
  prechargeCurrent : Nat
  terminationCurrent : Nat
  chargeVoltage : Nat
deriving DecidableEq, Repr, Inhabited

/-- The limits R8, R32 and R88 set on the OPEN parameters. -/
def Params.wf (p : Params) : Bool :=
  2 ≤ p.maxMsgs && p.maxMsgs ≤ 255 && 1 ≤ p.maxLen && p.maxLen ≤ 255 &&
    p.chargerAddr != p.tempAddr && p.fields.wf && 1 ≤ p.pollMs && 1 ≤ p.releaseTimeoutMs

namespace Config

/-- `DETECT_SAMPLES` (R8). -/
def detectSamples : Nat := 100
/-- `V_ON_MIN` (R8), millivolts. -/
def vOnMin : Nat := 2700
/-- `T_SSD_PULSE` (R8), milliseconds. -/
def tSsdPulse : Nat := 30
/-- `T_SSD_ACK` (R8), milliseconds. -/
def tSsdAck : Nat := 2500
/-- `T_COOL` (R8), milliseconds. -/
def tCool : Nat := 120000
/-- `T_FLASH` (R8), milliseconds. -/
def tFlash : Nat := 100
/-- `N_FLASH` (R8). -/
def nFlash : Nat := 5
/-- `BP[0..8]` (R8), millivolts. -/
def breakpoints : List Nat := [2684, 2864, 3064, 3264, 3444, 3644, 3824, 4024, 4204]
/-- `BAND` (R8), counts. -/
def band : Nat := 32

/-- FREE VALUE (log 3): the answer to the `n`th sample that no scripted answer covers
(spec/00_scope.md R12, R13: "a draw of the environment"). -/
opaque freeSample : Nat → Bool

/-- FREE VALUE (log 2): `decodeStatus` where an instance's table has no entry (R8, D26). -/
opaque freeStatus : Byte → Byte → ChargerStatus

/-- FREE VALUE (log 1): the OPEN parameters before their legality is looked at. -/
opaque anyParams : Params

/-- A place with every limit kept; used only where `anyParams` is not legal. -/
def legalField : FieldDesc := { reg := 0#8, pos := 0, width := 1, step := 1, offset := 0 }

/-- See `legalField`. -/
def legalPlace : FieldPlace := { reg := 0#8, pos := 0, width := 1 }

/-- Parameters with every limit of R8 kept; used only where `anyParams` is not legal (log 1). -/
def legalParams : Params where
  tHalfStandard := 5
  tHalfFast := 5 / 4
  stretchLimit := 0
  stretchPoll := 0
  maxMsgs := 2
  maxLen := 1
  chargerAddr := 0#7
  tempAddr := 1#7
  fields :=
    ⟨legalPlace, legalField, legalField, legalField, legalField, legalField, legalField, legalPlace,
      legalField, legalField, legalField, legalField, legalField, legalField, legalField, legalField,
      legalField, legalField, legalField, legalField, legalField⟩
  partIdExpected := 0
  statusTable := []
  busRate := .standard
  pollMs := 1
  debounceMs := 0
  holdMs := 0
  releaseTimeoutMs := 1
  handshake := false
  adcOnValue := 0
  adcOffValue := 0
  isolateValue := 0
  fanSpeed := 0
  chargeCurrent := 0
  prechargeCurrent := 0
  terminationCurrent := 0
  chargeVoltage := 0

/-- The parameters of the instance after reset: any legal ones (log 1). -/
def params : Params := if anyParams.wf then anyParams else legalParams

end Config

/-- `T_HALF(rate)` in microseconds (R8). No rule depends on it (spec/40_softbus.md R66). -/
def Params.tHalf (p : Params) : Rate → Rat
  | .standard => p.tHalfStandard
  | .fast => p.tHalfFast

/-- `T_FULL(rate) = 2 * T_HALF(rate)` (R8, R66). -/
def Params.tFull (p : Params) (rate : Rate) : Rat := 2 * p.tHalf rate

end Sys2Proof
end

