-- ==== Sys2Proof/WellFormed.lean ====
section
/-! DEFINITION. Which instructions the encoding admits (spec/30_encoding.md R52, R62). -/

namespace Sys2Proof

/-- FIELD_READ and FIELD_WRITE with SEL > 20, and READ_STATE with SEL > 3, are illegal (R62); every
other operand is legal at every value its field can hold (a count or length out of range is
BAD_SEQUENCE, not an ill-formed word). -/
def Instr.wf : Instr → Bool
  | .configure _ => true
  | .transfer _ _ => true
  | .regRead _ _ _ => true
  | .regWrite _ _ _ => true
  | .fieldRead f => f.toNat ≤ 20
  | .fieldWrite f => f.toNat ≤ 20
  | .probe => true
  | .ctrlBoot => true
  | .ctrlStep => true
  | .readState sel => sel.toNat ≤ 3
  | .evtButton => true
  | .evtChgIrq => true
  | .evtThermal => true
  | .evtHostAck => true

/-- The port an instruction's word stands on (R51, R53). -/
def Instr.port : Instr → Port
  | .configure _ => .command
  | .transfer _ _ => .command
  | .regRead _ _ _ => .command
  | .regWrite _ _ _ => .command
  | .fieldRead _ => .command
  | .fieldWrite _ => .command
  | .probe => .command
  | .ctrlBoot => .command
  | .ctrlStep => .command
  | .readState _ => .command
  | .evtButton => .event
  | .evtChgIrq => .event
  | .evtThermal => .event
  | .evtHostAck => .event

end Sys2Proof
end

