-- ==== Sys2Proof/Decode.lean ====
section
/-! DEFINITION. Decoding and encoding of command and event words (spec/30_encoding.md R51 to R54, R62). -/

namespace Sys2Proof

/-- Why a word is not an instruction. On the command port each of these ends the command with
ILLEGAL_COMMAND; on the event port the word is ignored (R62). -/
inductive Reject where
  | unassignedOpcode
  | reservedBit
  | nonzeroField
  | fieldIdRange
  | selectorRange
deriving DecidableEq, Repr, Inhabited

/-- OPC = cmd[31:24] (R51). -/
def opcOf (w : Word) : Byte := w.extractLsb' 24 8
/-- ADDR7 = cmd[23:17] (R51, R54). -/
def addrOf (w : Word) : Addr7 := w.extractLsb' 17 7
/-- Z = cmd[16], must be 0 (R51). -/
def zOf (w : Word) : BitVec 1 := w.extractLsb' 16 1
/-- SEL = cmd[15:8] (R51, R54). -/
def selOf (w : Word) : Byte := w.extractLsb' 8 8
/-- IMM8 = cmd[7:0] (R51, R54). -/
def immOf (w : Word) : Byte := w.extractLsb' 0 8
/-- The bits below OPC, which an event word keeps at 0 (R53). -/
def lowOf (w : Word) : BitVec 24 := w.extractLsb' 0 24

/-- A word of the command format (R51). -/
def packWord (opc : Byte) (a : Addr7) (sel imm : Byte) : Word := opc ++ a ++ 0#1 ++ sel ++ imm

/-- `i` if the fields that must be 0 are 0 (R52, R62). -/
def whenZero (zero : Bool) (i : Instr) : Except Reject Instr :=
  if zero then .ok i else .error .nonzeroField

/-- The rate bit of CONFIGURE: IMM8[0], with IMM8[7:1] = 0 (R52). -/
def decodeConfigure (w : Word) : Except Reject Instr :=
  if immOf w = 0#8 then whenZero (addrOf w = 0#7 ∧ selOf w = 0#8) (.configure .standard)
  else if immOf w = 1#8 then whenZero (addrOf w = 0#7 ∧ selOf w = 0#8) (.configure .fast)
  else .error .nonzeroField

/-- A field command: SEL is a field id 0..20 (R52, R62). -/
def decodeField (w : Word) (mk : Byte → Instr) : Except Reject Instr :=
  if (selOf w).toNat ≤ 20 then whenZero (addrOf w = 0#7 ∧ immOf w = 0#8) (mk (selOf w))
  else .error .fieldIdRange

/-- READ_STATE: SEL is a selector 0..3 (R52, R62). -/
def decodeReadState (w : Word) : Except Reject Instr :=
  if (selOf w).toNat ≤ 3 then whenZero (addrOf w = 0#7 ∧ immOf w = 0#8) (.readState (selOf w))
  else .error .selectorRange

/-- A command with no operands (R52). -/
def decodePlain (w : Word) (i : Instr) : Except Reject Instr :=
  whenZero (addrOf w = 0#7 ∧ selOf w = 0#8 ∧ immOf w = 0#8) i

/-- A word on the command port (R51, R52, R62). -/
def decodeCommand (w : Word) : Except Reject Instr :=
  if zOf w = 0#1 then
    if opcOf w = 0x01#8 then decodeConfigure w
    else if opcOf w = 0x02#8 then whenZero (selOf w = 0#8) (.transfer (addrOf w) (immOf w))
    else if opcOf w = 0x10#8 then .ok (.regRead (addrOf w) (selOf w) (immOf w))
    else if opcOf w = 0x11#8 then .ok (.regWrite (addrOf w) (selOf w) (immOf w))
    else if opcOf w = 0x12#8 then decodeField w .fieldRead
    else if opcOf w = 0x13#8 then decodeField w .fieldWrite
    else if opcOf w = 0x14#8 then decodePlain w .probe
    else if opcOf w = 0x20#8 then decodePlain w .ctrlBoot
    else if opcOf w = 0x21#8 then decodePlain w .ctrlStep
    else if opcOf w = 0x40#8 then decodeReadState w
    else .error .unassignedOpcode
  else .error .reservedBit

/-- The event kind `k` of OPC = 0x30 + k (R53). -/
def eventKindOf (opc : Byte) : Option EventKind :=
  if opc = 0x30#8 then some .button
  else if opc = 0x31#8 then some .chgIrq
  else if opc = 0x32#8 then some .thermal
  else if opc = 0x33#8 then some .hostAck
  else none

/-- The event a word on the event port presents, if it is well formed (R53, R62). -/
def eventOf (w : Word) : Option EventKind :=
  if lowOf w = 0#24 then eventKindOf (opcOf w) else none

/-- The instruction that latches an event of kind `k` (spec/42_charge_controller.md R94 to R97). -/
def evtInstr : EventKind → Instr
  | .button => .evtButton
  | .chgIrq => .evtChgIrq
  | .thermal => .evtThermal
  | .hostAck => .evtHostAck

/-- A word on the event port (R53, R62). -/
def decodeEvent (w : Word) : Except Reject Instr :=
  if lowOf w = 0#24 then
    match eventKindOf (opcOf w) with
    | some k => .ok (evtInstr k)
    | none => .error .unassignedOpcode
  else .error .nonzeroField

/-- Decoding, total on every word of either port. -/
def decode (p : Port) (w : Word) : Except Reject Instr :=
  match p with
  | .command => decodeCommand w
  | .event => decodeEvent w

/-- The OPC of an event kind (R53). -/
def eventOpc : EventKind → Byte
  | .button => 0x30#8
  | .chgIrq => 0x31#8
  | .thermal => 0x32#8
  | .hostAck => 0x33#8

/-- RATE as IMM8 of CONFIGURE: 0 Standard, 1 Fast (R52). -/
def rateImm : Rate → Byte
  | .standard => 0#8
  | .fast => 1#8

/-- The word of an instruction (R52, R53). -/
def encode : Instr → Word
  | .configure rate => packWord 0x01#8 0#7 0#8 (rateImm rate)
  | .transfer a n => packWord 0x02#8 a 0#8 n
  | .regRead a r len => packWord 0x10#8 a r len
  | .regWrite a r len => packWord 0x11#8 a r len
  | .fieldRead f => packWord 0x12#8 0#7 f 0#8
  | .fieldWrite f => packWord 0x13#8 0#7 f 0#8
  | .probe => packWord 0x14#8 0#7 0#8 0#8
  | .ctrlBoot => packWord 0x20#8 0#7 0#8 0#8
  | .ctrlStep => packWord 0x21#8 0#7 0#8 0#8
  | .readState sel => packWord 0x40#8 0#7 sel 0#8
  | .evtButton => packWord (eventOpc .button) 0#7 0#8 0#8
  | .evtChgIrq => packWord (eventOpc .chgIrq) 0#7 0#8 0#8
  | .evtThermal => packWord (eventOpc .thermal) 0#7 0#8 0#8
  | .evtHostAck => packWord (eventOpc .hostAck) 0#7 0#8 0#8

/-- The port a word of the opcode table stands on: the event port for OPC 0x30..0x33, whose rows have
format evt32, and the command port for every other (log 12, DESIGN CHOICE: a bare word names no port). -/
def portOf (w : Word) : Port :=
  if (eventKindOf (opcOf w)).isSome then .event else .command

/-- The instruction the decoder reads from the `nbits` bits `w`. A command or event is one word of 32
bits on its port, with no byte order of its own (R61; spec/20_memory.md R37). -/
def decodeTableWord (nbits w : Nat) : Option Instr :=
  if nbits ≤ 32 ∧ w < 2 ^ nbits then
    match decode (portOf (BitVec.ofNat 32 w)) (BitVec.ofNat 32 w) with
    | .ok i => some i
    | .error _ => none
  else none

end Sys2Proof
end

