-- ==== Sys2Proof/Machine/State.lean ====
section
/-! DEFINITION. The state of the block (spec/10_state.md) as plain data, its reset value, and the
reasons a step can stop. -/

namespace Sys2Proof.Machine

/-- The drive of a pin: output low, output high, or input with pull-up (spec/00_scope.md R12). -/
inductive Level where
  | low
  | high
  | float
deriving DecidableEq, Repr, Inhabited

/-- The two bus lines (R12). -/
inductive Line where
  | scl
  | sda
deriving DecidableEq, Repr, Inhabited

/-- The delays a `Wait` names: `T_HALF`, `T_FULL`, `STRETCH_POLL` (R12). -/
inductive Delay where
  | half
  | full
  | poll
deriving DecidableEq, Repr, Inhabited

/-- One event of the line trace (R14). -/
inductive LineEvent where
  | drive (line : Line) (level : Level)
  | wait (d : Delay)
  | sample (line : Line) (value : Bool)
deriving DecidableEq, Repr, Inhabited

/-- spec/10_state.md R20. -/
inductive DriveMode where
  | unknown
  | pushPull
  | openDrain
deriving DecidableEq, Repr, Inhabited

/-- The SoftBus Master's state (spec/10_state.md R20, R21). -/
structure Bus where
  mode : DriveMode
  ready : Bool
  rate : Rate
  detecting : Bool
  busOwned : Bool
  sclDrv : Level
  sdaDrv : Level
  irqMask : Bool
  shift : Byte
  bit : BitVec 3
  msg : Byte
  byte : Byte
deriving DecidableEq, Repr, Inhabited

/-- spec/10_state.md R23. -/
inductive Phase where
  | boot
  | parked
  | run
deriving DecidableEq, Repr, Inhabited

/-- spec/10_state.md R23. -/
inductive PState where
  | sleeping
  | powered
  | coolingDown
  | shippingMode
deriving DecidableEq, Repr, Inhabited

/-- spec/10_state.md R25. -/
structure Battery where
  raw : Byte
  mV : Word
  pct : Byte
deriving DecidableEq, Repr, Inhabited

/-- The Charge Controller's state (spec/10_state.md R23). -/
structure Ctl where
  phase : Phase
  pstate : PState
  charging : Bool
  ssdPending : Bool
  ssdStart : Word
  coolStart : Word
  overTemp : Bool
  status : ChargerStatus
  statusValid : Bool
  battery : Battery
  lastPoll : Word
  flashActive : Bool
  flashStart : Word
  adcCont : Bool
  batfetOff : Bool
deriving DecidableEq, Repr, Inhabited

/-- spec/10_state.md R27. -/
inductive BtnState where
  | released
  | pressed
  | held
deriving DecidableEq, Repr, Inhabited

/-- The Button Debouncer's state (spec/10_state.md R27). -/
structure Btn where
  state : BtnState
  lastRaw : Bool
  rawSince : Word
  pressStart : Word
  awaitRelease : Bool
  awaitSince : Word
deriving DecidableEq, Repr, Inhabited

/-- One bit for each event kind (spec/10_state.md R28). -/
structure EventBits where
  button : Bool
  chgIrq : Bool
  thermal : Bool
  hostAck : Bool
deriving DecidableEq, Repr, Inhabited

/-- The event latches (spec/10_state.md R28). -/
structure Latches where
  flag : EventBits
  pend : EventBits
deriving DecidableEq, Repr, Inhabited

/-- spec/10_state.md R30. -/
inductive FanMode where
  | off
  | configured
  | max
deriving DecidableEq, Repr, Inhabited

/-- The actuator outputs (spec/10_state.md R30). -/
structure Out where
  powerRail : Bool
  fanMode : FanMode
  ledMode : BitVec 3
  ledOn : Bool
  shutdownReq : Bool
  lowPower : Bool
deriving DecidableEq, Repr, Inhabited

/-- An indexed port as a sparse list: indexes strictly rising, no entry equal to `unwritten`. -/
abbrev Cells (w : Nat) := List (Nat × BitVec w)

/-- The byte store of the block, `ports.data` (spec/20_memory.md R35). -/
abbrev Memory := List Host.Cell

/-- An event word on `ports.evt` and the number of line primitives that pass before it arrives,
counted from the arrival of the word before it (log 4). -/
structure Arrival where
  delay : Nat
  word : Word
deriving DecidableEq, Repr, Inhabited

/-- The ports (spec/10_state.md R22; `evt` is spec/30_encoding.md R53). -/
structure Ports where
  cmd : Option Word
  evt : List Arrival
  desc : Cells 16
  data : Memory
  val : Word
  result : Word
  nowMs : Word
  btnLevel : Bool
deriving DecidableEq, Repr, Inhabited

/-- One act of the environment (spec/70_reset_and_hazards.md R146, R149; log 6, 16): it writes one
port, makes the bus answers to come known, or powers the block on. -/
inductive HostMove where
  | command (w : Word)
  | event (delay : Nat) (w : Word)
  | time (t : Word)
  | button (level : Bool)
  | descriptor (i : Nat) (d : Half)
  | byte (i : Nat) (b : Byte)
  | value (v : Word)
  | answers (bs : List Bool)
  | powerOn
deriving DecidableEq, Repr, Inhabited

/-- The environment as the model holds it (the MODEL's own fields, not the spec's; log 3, 6). -/
structure Env where
  /-- The answers to the samples to come; where it is empty a sample is a free value. -/
  answers : List Bool
  /-- How many free values have been drawn. -/
  drawn : Nat
  /-- What the environment does next. -/
  moves : List HostMove
deriving DecidableEq, Repr, Inhabited

/-- The state `st = (bus, ctl, btn, ev, out, ports)` of spec/10_state.md R16, then the model's own
fields: the environment, the line trace of spec/00_scope.md R14 (newest event first; log 7) and the
instance's parameters (R8, spec/20_memory.md R50; log 1). -/
structure State where
  bus : Bus
  ctl : Ctl
  btn : Btn
  ev : Latches
  out : Out
  ports : Ports
  env : Env
  trace : List LineEvent
  par : Params
deriving DecidableEq, Repr

/-- Why the machine stops with a fault: never. No command and no event stops the block ("No code is a
trap: the block goes on accepting commands after any of them", spec/60_exceptions.md R127, R132), so
the type has no constructor and nobody raises it. -/
inductive Fault : Type
deriving DecidableEq, Repr

/-- Why an instruction has no meaning in the model. -/
inductive Refusal where
  /-- Raised by a row of `exec` that has no meaning yet; safe. No row raises it: every instruction
  has its meaning. -/
  | notModelled (mnemonic : String)
deriving DecidableEq, Repr

/-- Reset values of spec/10_state.md R20; R21 gives none for the last four (log 8). -/
def Bus.reset : Bus where
  mode := .unknown
  ready := false
  rate := .standard
  detecting := false
  busOwned := false
  sclDrv := .float
  sdaDrv := .float
  irqMask := false
  shift := 0#8
  bit := 0#3
  msg := 0#8
  byte := 0#8

/-- Reset values of spec/10_state.md R23; it gives none for ssdStart, coolStart, flashStart (log 8). -/
def Ctl.reset : Ctl where
  phase := .boot
  pstate := .sleeping
  charging := false
  ssdPending := false
  ssdStart := 0#32
  coolStart := 0#32
  overTemp := false
  status := {}
  statusValid := false
  battery := { raw := 0#8, mV := 0#32, pct := 0#8 }
  lastPoll := 0#32
  flashActive := false
  flashStart := 0#32
  adcCont := false
  batfetOff := false

/-- Reset values of spec/10_state.md R27; it gives none for pressStart and awaitSince (log 8). -/
def Btn.reset : Btn where
  state := .released
  lastRaw := true
  rawSince := 0#32
  pressStart := 0#32
  awaitRelease := false
  awaitSince := 0#32

/-- No event. -/
def EventBits.none : EventBits := ⟨false, false, false, false⟩

/-- Reset values of spec/10_state.md R28. -/
def Latches.reset : Latches := { flag := .none, pend := .none }

/-- Reset values of spec/10_state.md R30. -/
def Out.reset : Out where
  powerRail := false
  fanMode := .off
  ledMode := 0#3
  ledOn := false
  shutdownReq := false
  lowPower := false

/-- Reset values of spec/10_state.md R22: no command, result 0; it gives none for desc, data and val
(log 8, 10), and nowMs and btnLevel are inputs (log 9). DESIGN CHOICE: no event word is on its way, as
neither R22 nor spec/30_encoding.md R53 gives the event port's contents at reset (log 17). -/
def Ports.reset : Ports where
  cmd := none
  evt := []
  desc := []
  data := []
  val := 0#32
  result := 0#32
  nowMs := 0#32
  btnLevel := true

/-- The environment before it has done anything (DESIGN CHOICE, log 3, 6). -/
def Env.reset : Env := { answers := [], drawn := 0, moves := [] }

/-- The block of an instance with parameters `p`, right after power-on (spec/70_reset_and_hazards.md
R146). -/
def State.resetOf (p : Params) : State where
  bus := .reset
  ctl := .reset
  btn := .reset
  ev := .reset
  out := .reset
  ports := .reset
  env := .reset
  trace := []
  par := p

/-- The machine right after reset (R146), with any legal parameters (log 1). -/
def State.reset : State := State.resetOf Config.params

/-- `s` with its SoftBus Master state changed by `f`. -/
def State.onBus (f : Bus → Bus) (s : State) : State := { s with bus := f s.bus }
/-- `s` with its Charge Controller state changed by `f`. -/
def State.onCtl (f : Ctl → Ctl) (s : State) : State := { s with ctl := f s.ctl }
/-- `s` with its Button Debouncer state changed by `f`. -/
def State.onBtn (f : Btn → Btn) (s : State) : State := { s with btn := f s.btn }
/-- `s` with its event latches changed by `f`. -/
def State.onEv (f : Latches → Latches) (s : State) : State := { s with ev := f s.ev }
/-- `s` with its outputs changed by `f`. -/
def State.onOut (f : Out → Out) (s : State) : State := { s with out := f s.out }
/-- `s` with its ports changed by `f`. -/
def State.onPorts (f : Ports → Ports) (s : State) : State := { s with ports := f s.ports }
/-- `s` with its environment changed by `f`. -/
def State.onEnv (f : Env → Env) (s : State) : State := { s with env := f s.env }
/-- `s` with one more event on its line trace (spec/00_scope.md R14). -/
def State.log (e : LineEvent) (s : State) : State := { s with trace := e :: s.trace }

/-- The line trace in the order of R14, oldest event first. -/
def State.lineTrace (s : State) : List LineEvent := s.trace.reverse

end Sys2Proof.Machine
end

