-- ==== Sys2Proof/Machine/Operands.lean ====
section
/-! DEFINITION. Every operand form: times, descriptors, the address byte, fields and their transform,
the percentage, the parameters' views, and the indexed ports (spec/30_encoding.md R54, R55, R57;
spec/41_register_interface.md R87 to R89; spec/42_charge_controller.md R105; spec/20_memory.md R35). -/

namespace Sys2Proof.Machine

/-- `elapsed(now, start) = (now - start) mod 2^32`, compared as a natural (spec/00_scope.md R11). -/
def elapsed (now start : Word) : Nat := (now - start).toNat

/-! ## Descriptors (spec/30_encoding.md R55) -/

/-- RS, bit 15: a repeated start and an address phase before the message. -/
def descRS (d : Half) : Bool := d.getLsbD 15
/-- SP, bit 14: a stop after the message. -/
def descSP (d : Half) : Bool := d.getLsbD 14
/-- RD, bit 13: 1 read, 0 write. -/
def descRD (d : Half) : Bool := d.getLsbD 13
/-- Bits 12:8, which must be 0. -/
def descZ (d : Half) : BitVec 5 := d.extractLsb' 8 5
/-- LEN, bits 7:0: the number of data bytes. -/
def descLen (d : Half) : Nat := (d.extractLsb' 0 8).toNat

/-- A descriptor from its fields. -/
def mkDesc (rs sp rd : Bool) (len : Byte) : Half :=
  BitVec.ofBool rs ++ BitVec.ofBool sp ++ BitVec.ofBool rd ++ 0#5 ++ len

/-- Rule R77, clause 2, for one descriptor. -/
def descValid (maxLen : Nat) (d : Half) : Bool :=
  descZ d == 0#5 && descLen d ≤ maxLen && (!descRD d || 1 ≤ descLen d)

/-- Rule R77, clauses 3 and 4, for a descriptor `d` and the one after it: a stop only on the last
message, and a continuation is a write that follows a write. -/
def followValid (d next : Half) : Bool :=
  !descSP d && (descRS next || (!descRD next && !descRD d))

/-- Rule R77, clauses 2 to 4, for a list of descriptors. -/
def descsValid (maxLen : Nat) : List Half → Bool
  | [] => true
  | [d] => descValid maxLen d
  | d :: next :: rest =>
    descValid maxLen d && followValid d next && descsValid maxLen (next :: rest)

/-- A TRANSFER's descriptor list is valid (spec/40_softbus.md R77). -/
def transferValid (p : Params) (ds : List Half) : Bool :=
  1 ≤ ds.length && ds.length ≤ p.maxMsgs && descsValid p.maxLen ds

/-- The address byte `{ADDR7, RW}`: RW 0 write, 1 read (spec/30_encoding.md R57). -/
def addrByte (a : Addr7) (rd : Bool) : Byte := a ++ BitVec.ofBool rd

/-! ## Indexed ports -/

/-- What an index nothing has written reads as (log 10, DESIGN CHOICE: spec/10_state.md R22 gives no
reset value). -/
def unwritten (w : Nat) : BitVec w := 0#w

/-- The value at index `i`. -/
def Cells.read {w : Nat} : Cells w → Nat → BitVec w
  | [], _ => unwritten w
  | (j, v) :: rest, i => if j = i then v else Cells.read rest i

/-- The entries of an index: none for the value an unlisted index reads as. -/
def Cells.entry {w : Nat} (i : Nat) (v : BitVec w) (rest : Cells w) : Cells w :=
  if v = unwritten w then rest else (i, v) :: rest

/-- `c` with value `v` at index `i`, in canonical form if `c` is. -/
def Cells.write {w : Nat} : Cells w → Nat → BitVec w → Cells w
  | [], i, v => Cells.entry i v []
  | (j, u) :: rest, i, v =>
    if i < j then Cells.entry i v ((j, u) :: rest)
    else if i = j then Cells.entry i v rest
    else (j, u) :: Cells.write rest i v

/-- Canonical form: indexes strictly rising, each at least `lo`, and no entry that reads as an
unlisted index does. -/
def Cells.wfFrom {w : Nat} : Nat → Cells w → Bool
  | _, [] => true
  | lo, (j, v) :: rest => lo ≤ j && v != unwritten w && Cells.wfFrom (j + 1) rest

/-- The canonical form of an indexed port. -/
def Cells.wf {w : Nat} (c : Cells w) : Bool := Cells.wfFrom 0 c

/-- One byte of `ports.data`. -/
def Memory.read (m : Memory) (i : Nat) : Byte := Cells.read (w := 8) m i

/-- `ports.data` with one byte changed. -/
def Memory.write (m : Memory) (i : Nat) (b : Byte) : Memory := Cells.write (w := 8) m i b

/-- The canonical form of `ports.data`. -/
def Memory.wf (m : Memory) : Bool := Cells.wf (w := 8) m

/-- `m` with the `n` bytes from `dst` on replaced by `src`'s from `from` on. -/
def Memory.copy (src : Memory) (start : Nat) (m : Memory) (dst : Nat) : Nat → Memory
  | 0 => m
  | n + 1 => (Memory.copy src start m dst n).write (dst + n) (src.read (start + n))

/-- The first `n` descriptors of the port, in index order. -/
def descList (c : Cells 16) (n : Nat) : List Half := (List.range n).map fun j => c.read j

/-! ## Fields -/

/-- The field a SEL byte names: ids 0..20 (spec/41_register_interface.md R87). -/
def fieldOf (sel : Byte) : Option FieldId := FieldId.all[sel.toNat]?

/-- The state word a SEL byte selects (spec/10_state.md R31). -/
def stateWordOf (sel : Byte) : Option StateWord :=
  if sel = 0#8 then some .busStatus
  else if sel = 1#8 then some .ctrlStatus
  else if sel = 2#8 then some .battery
  else if sel = 3#8 then some .outputs
  else none

/-- `FieldTable[f]` of the instance (R88). -/
def fieldDesc (p : Params) (f : FieldId) : FieldDesc := p.fields.get f

end Sys2Proof.Machine

namespace Sys2Proof

/-- The largest raw value of a field, `2^width - 1`. -/
def FieldDesc.top (d : FieldDesc) : Nat := 2 ^ d.width - 1

/-- `m = (2^width - 1) << pos` (R91). -/
def FieldDesc.mask (d : FieldDesc) : Byte := BitVec.ofNat 8 d.top <<< d.pos

/-- The field's bits of a register byte, `byte[pos+width-1 : pos]` (spec/20_memory.md R38). -/
def FieldDesc.extract (d : FieldDesc) (b : Byte) : Byte := (b >>> d.pos) &&& BitVec.ofNat 8 d.top

/-- The register byte `old` with the field's bits replaced by `raw` (R91). -/
def FieldDesc.insert (d : FieldDesc) (old raw : Byte) : Byte :=
  (old &&& (0xFF#8 ^^^ d.mask)) ||| (raw <<< d.pos)

/-- `Decode(f, raw) = raw * step + offset` (R89). -/
def FieldDesc.decodeRaw (d : FieldDesc) (raw : Nat) : Nat := raw * d.step + d.offset

/-- `Encode(f, phys)`: the inverse, rounded down and clamped (R89). -/
def FieldDesc.encodePhys (d : FieldDesc) (phys : Nat) : Nat :=
  if phys < d.offset then 0 else min ((phys - d.offset) / d.step) d.top

/-- The physical value as a 32-bit word (R90: `zext_32`; log 14). -/
def FieldDesc.physWord (d : FieldDesc) (raw : Nat) : Word := BitVec.ofNat 32 (d.decodeRaw raw)

end Sys2Proof

namespace Sys2Proof.Machine

/-! ## Charger status and battery -/

/-- `decodeStatus` (R8, D26): the instance's explicit entries first, a free value elsewhere (log 2). -/
def decodeStatusIn : List StatusEntry → Byte → Byte → ChargerStatus
  | [], s, f => Config.freeStatus s f
  | e :: rest, s, f =>
    if e.statusRaw = s ∧ e.faultRaw = f then e.decoded else decodeStatusIn rest s f

/-- `decodeStatus` of the instance. -/
def decodeStatus (p : Params) (s f : Byte) : ChargerStatus := decodeStatusIn p.statusTable s f

/-- The interpolation of R105 over the breakpoints from `lo` on; `i` is the index of `lo`. -/
def pctFrom (i lo : Nat) : List Nat → Nat → Nat
  | [], _ => 255
  | hi :: rest, mV =>
    if mV < hi then Config.band * i + (Config.band * (mV - lo)) / (hi - lo)
    else pctFrom (i + 1) hi rest mV

/-- The piecewise-linear percentage of a voltage over a list of breakpoints (R105). -/
def pctOver : List Nat → Nat → Nat
  | [], _ => 255
  | lo :: rest, mV => if mV < lo then 0 else pctFrom 0 lo rest mV

/-- `Pct(mV, cs)` (R105). -/
def pct (mV : Nat) (cs : ChargeState) : Nat :=
  match cs with
  | .terminated => 255
  | .notCharging => pctOver Config.breakpoints mV
  | .precharge => pctOver Config.breakpoints mV
  | .fastCharge => pctOver Config.breakpoints mV

/-- `Band(p)` (spec/42_charge_controller.md R118). -/
def ledBand (p : Nat) : BitVec 3 :=
  if 160 ≤ p then 1#3 else if 64 ≤ p then 2#3 else if 32 ≤ p then 3#3 else 4#3

/-- The duration of a `Wait` in microseconds at the current rate (spec/40_softbus.md R66). No rule
depends on it. -/
def Delay.micros (p : Params) (rate : Rate) : Delay → Rat
  | .half => p.tHalf rate
  | .full => p.tFull rate
  | .poll => p.stretchPoll

end Sys2Proof.Machine
end

