-- ==== Sys2Proof/Machine/Flags.lean ====
section
/-! DEFINITION. Every flag computation: result words, event latches, and the four readable state words
(spec/30_encoding.md R56; spec/10_state.md R29, R31; spec/60_exceptions.md R127). -/

namespace Sys2Proof.Machine

/-- The result codes (spec/60_exceptions.md R127). -/
inductive ResCode where
  | ok
  | noAck
  | busNotReady
  | timeout
  | badSequence
  | illegalCommand
  | hardwareAbsent
deriving DecidableEq, Repr, Inhabited

/-- CODE[3:0] (spec/30_encoding.md R56). -/
def ResCode.code : ResCode → Nat
  | .ok => 0
  | .noAck => 1
  | .busNotReady => 2
  | .timeout => 3
  | .badSequence => 4
  | .illegalCommand => 5
  | .hardwareAbsent => 6

/-- How a command ends: its code and the info fields of R56. -/
structure Result where
  code : ResCode
  ph : Bool := false
  msg : Byte := 0#8
  byte : Byte := 0#8
  txn : Bool := false
deriving DecidableEq, Repr, Inhabited

/-- OK. -/
def Result.ok : Result := { code := .ok }
/-- BUS_NOT_READY. -/
def Result.busNotReady : Result := { code := .busNotReady }
/-- BAD_SEQUENCE. -/
def Result.badSequence : Result := { code := .badSequence }
/-- ILLEGAL_COMMAND. -/
def Result.illegalCommand : Result := { code := .illegalCommand }
/-- HARDWARE_ABSENT. -/
def Result.hardwareAbsent : Result := { code := .hardwareAbsent }
/-- NO_ACK with PH, MSG, BYTE (spec/40_softbus.md R80). -/
def Result.noAck (ph : Bool) (j k : Nat) : Result :=
  { code := .noAck, ph := ph, msg := BitVec.ofNat 8 j, byte := BitVec.ofNat 8 k }
/-- TIMEOUT with PH, MSG, BYTE (spec/40_softbus.md R81). -/
def Result.timeout (ph : Bool) (j k : Nat) : Result :=
  { code := .timeout, ph := ph, msg := BitVec.ofNat 8 j, byte := BitVec.ofNat 8 k }
/-- The same result with TXN = `t` (spec/41_register_interface.md R91). -/
def Result.withTxn (r : Result) (t : Bool) : Result := { r with txn := t }

/-- The command completed. -/
def Result.isOk (r : Result) : Bool := r.code == .ok

/-- A number placed at bit `at` of a word. -/
def fieldAt (pos n : Nat) : Word := BitVec.ofNat 32 n <<< pos

/-- A bit placed at bit `at` of a word. -/
def bitAt (pos : Nat) (b : Bool) : Word := fieldAt pos (bitNat b)

/-- The result word (spec/30_encoding.md R56). -/
def Result.word (r : Result) : Word :=
  fieldAt 0 r.code.code ||| bitAt 4 r.ph ||| fieldAt 8 r.msg.toNat ||| fieldAt 16 r.byte.toNat |||
    bitAt 24 r.txn

/-! ## Event latches -/

/-- The bit of kind `k`. -/
def EventBits.get (e : EventBits) : EventKind → Bool
  | .button => e.button
  | .chgIrq => e.chgIrq
  | .thermal => e.thermal
  | .hostAck => e.hostAck

/-- `e` with the bit of kind `k` set. -/
def EventBits.raise (e : EventBits) : EventKind → EventBits
  | .button => { e with button := true }
  | .chgIrq => { e with chgIrq := true }
  | .thermal => { e with thermal := true }
  | .hostAck => { e with hostAck := true }

/-- The bits set in `e` or in `f`. -/
def EventBits.union (e f : EventBits) : EventBits where
  button := e.button || f.button
  chgIrq := e.chgIrq || f.chgIrq
  thermal := e.thermal || f.thermal
  hostAck := e.hostAck || f.hostAck

/-- `Latch(k)`: the flag when events are not masked, else the pending bit (spec/10_state.md R29). -/
def Latches.latch (mask : Bool) (k : EventKind) (l : Latches) : Latches :=
  if mask then { l with pend := l.pend.raise k } else { l with flag := l.flag.raise k }

/-- Delivery of the pending events when the mask clears (spec/10_state.md R29). -/
def Latches.deliver (l : Latches) : Latches := { flag := l.flag.union l.pend, pend := .none }

/-- The latches after a word on the event port: a malformed word is ignored (spec/30_encoding.md R62). -/
def Latches.present (mask : Bool) (w : Word) (l : Latches) : Latches :=
  match eventOf w with
  | some k => l.latch mask k
  | none => l

/-- One instant of the event port: every word whose delay has run out arrives, and the next one is an
instant nearer (log 4). -/
def arrive (mask : Bool) : List Arrival → Latches → List Arrival × Latches
  | [], l => ([], l)
  | a :: rest, l =>
    match a.delay with
    | 0 => arrive mask rest (l.present mask a.word)
    | n + 1 => ({ a with delay := n } :: rest, l)

/-! ## State words (spec/10_state.md R31) -/

/-- mode of BUS_STATUS. -/
def DriveMode.code : DriveMode → Nat
  | .unknown => 0
  | .pushPull => 1
  | .openDrain => 2

/-- rate of BUS_STATUS. -/
def rateCode : Rate → Nat
  | .standard => 0
  | .fast => 1

/-- phase of CTRL_STATUS. -/
def Phase.code : Phase → Nat
  | .boot => 0
  | .parked => 1
  | .run => 2

/-- pstate of CTRL_STATUS. -/
def PState.code : PState → Nat
  | .sleeping => 0
  | .powered => 1
  | .coolingDown => 2
  | .shippingMode => 3

/-- chargeState of CTRL_STATUS. -/
def chargeStateCode : ChargeState → Nat
  | .notCharging => 0
  | .precharge => 1
  | .fastCharge => 2
  | .terminated => 3

/-- btn.state of CTRL_STATUS. -/
def BtnState.code : BtnState → Nat
  | .released => 0
  | .pressed => 1
  | .held => 2

/-- fanMode of OUTPUTS. -/
def FanMode.code : FanMode → Nat
  | .off => 0
  | .configured => 1
  | .max => 2

/-- The four event bits from bit `pos` up: BUTTON, CHG_IRQ, THERMAL, HOST_ACK. -/
def eventBitsAt (pos : Nat) (e : EventBits) : Word :=
  bitAt pos e.button ||| bitAt (pos + 1) e.chgIrq ||| bitAt (pos + 2) e.thermal |||
    bitAt (pos + 3) e.hostAck

/-- BUS_STATUS, SEL = 0. -/
def busStatusWord (b : Bus) : Word :=
  fieldAt 0 b.mode.code ||| bitAt 2 b.ready ||| bitAt 3 b.busOwned ||| bitAt 4 b.irqMask |||
    fieldAt 5 (rateCode b.rate)

/-- The fault bits of CTRL_STATUS, bits 8 to 12. -/
def faultBitsWord (f : FaultBits) : Word :=
  bitAt 8 f.thermal ||| bitAt 9 f.battery ||| bitAt 10 f.charger ||| bitAt 11 f.boost |||
    bitAt 12 f.watchdog

/-- CTRL_STATUS, SEL = 1. -/
def ctrlStatusWord (c : Ctl) (e : Latches) (b : Btn) : Word :=
  fieldAt 0 c.phase.code ||| fieldAt 2 c.pstate.code ||| bitAt 4 c.charging |||
    bitAt 5 c.ssdPending ||| bitAt 6 c.overTemp ||| bitAt 7 c.statusValid |||
    faultBitsWord c.status.fault ||| fieldAt 13 (chargeStateCode c.status.chargeState) |||
    bitAt 15 c.status.busPresent ||| eventBitsAt 16 e.flag ||| eventBitsAt 20 e.pend |||
    fieldAt 24 b.state.code ||| bitAt 26 b.awaitRelease ||| bitAt 27 c.flashActive |||
    bitAt 28 c.adcCont ||| bitAt 29 c.batfetOff

/-- BATTERY, SEL = 2: `mV mod 2^16` in the high half. -/
def batteryWord (b : Battery) : Word :=
  fieldAt 0 b.pct.toNat ||| fieldAt 8 b.raw.toNat ||| fieldAt 16 (b.mV.toNat % 2 ^ 16)

/-- OUTPUTS, SEL = 3. -/
def outputsWord (o : Out) (c : Ctl) : Word :=
  bitAt 0 o.powerRail ||| fieldAt 1 o.fanMode.code ||| fieldAt 3 o.ledMode.toNat |||
    bitAt 6 o.ledOn ||| bitAt 7 o.shutdownReq ||| bitAt 8 o.lowPower |||
    fieldAt 16 c.status.sourceType.toNat

/-- `Word(s)` (spec/42_charge_controller.md R98). -/
def stateWord (s : State) : StateWord → Word
  | .busStatus => busStatusWord s.bus
  | .ctrlStatus => ctrlStatusWord s.ctl s.ev s.btn
  | .battery => batteryWord s.ctl.battery
  | .outputs => outputsWord s.out s.ctl

end Sys2Proof.Machine
end

