-- ==== Sys2Proof/Machine/Ops.lean ====
section
/-! DEFINITION. The named operations over the state: ending a command (the block's whole "exception
entry"), latching and unmasking events, and the primitives over the bus lines (spec/00_scope.md R12;
spec/10_state.md R29; spec/40_softbus.md R64, R67, R82; spec/60_exceptions.md R132, R133). -/

namespace Sys2Proof.Machine

/-- Ending a command with result `r`: "An error ends the current command with its code in
`ports.result`, which is the whole of 'entry'" (R132). There is no return from it: "after an error the
next command is accepted as after OK" (R133). -/
def State.finish (r : Result) (s : State) : State := s.onPorts fun p => { p with result := r.word }

/-- The value port written by a command. -/
def State.setVal (v : Word) (s : State) : State := s.onPorts fun p => { p with val := v }

/-- The byte port written by a command. -/
def State.setData (m : Memory) (s : State) : State := s.onPorts fun p => { p with data := m }

/-- `Latch(k)` (spec/10_state.md R29). -/
def State.latch (k : EventKind) (s : State) : State := s.onEv fun l => l.latch s.bus.irqMask k

/-- An instant passes: event words that are due arrive (log 4). -/
def State.tick (s : State) : State :=
  { s with
    ports := { s.ports with evt := (arrive s.bus.irqMask s.ports.evt s.ev).1 }
    ev := (arrive s.bus.irqMask s.ports.evt s.ev).2 }

/-- `bus.irqMask <- 1` (R82). -/
def State.maskIrq (s : State) : State := s.onBus fun b => { b with irqMask := true }

/-- `Unmask()`: the mask clears and the pending events become flags (R82, spec/10_state.md R29). -/
def State.unmask (s : State) : State :=
  (s.onBus fun b => { b with irqMask := false }).onEv Latches.deliver

/-! ## Line primitives -/

/-- The pin of a line set to a level. -/
def Bus.setLine (b : Bus) (line : Line) (lvl : Level) : Bus :=
  match line with
  | .scl => { b with sclDrv := lvl }
  | .sda => { b with sdaDrv := lvl }

/-- `Drive(line, lvl)` (R12, R64). -/
def drive (line : Line) (lvl : Level) (s : State) : State :=
  ((s.tick).onBus fun b => b.setLine line lvl).log (.drive line lvl)

/-- `Wait(d)`: no effect but its trace event (R66; log 15). -/
def wait (d : Delay) (s : State) : State := (s.tick).log (.wait d)

/-- The environment's answer to the next sample: the first scripted answer, or a free value (R13;
log 3). -/
def Env.answer (e : Env) : Bool :=
  match e.answers with
  | b :: _ => b
  | [] => Config.freeSample e.drawn

/-- The environment after it has answered a sample. -/
def Env.next (e : Env) : Env :=
  match e.answers with
  | _ :: rest => { e with answers := rest }
  | [] => { e with drawn := e.drawn + 1 }

/-- `Sample(line)` (R12): the value read. -/
def sampled (s : State) : Bool := s.env.answer

/-- `Sample(line)` (R12): the state after it. -/
def sample (line : Line) (s : State) : State :=
  ((s.tick).onEnv Env.next).log (.sample line (sampled s))

/-- `OD()`: open-drain handling (R64). -/
def Bus.od (b : Bus) : Bool := b.detecting || b.mode == .openDrain

/-- The level of a released or high line: `Z` in open-drain handling, else `H` (R64). -/
def Bus.highLevel (b : Bus) : Level := if b.od then .float else .high

/-- `SclLow()` (R64). -/
def sclLow (s : State) : State := drive .scl .low s

/-- `SclRelease()` (R64). -/
def sclRelease (s : State) : State := drive .scl s.bus.highLevel s

/-- `SdaSet(b)` (R64). -/
def sdaSet (b : Bool) (s : State) : State :=
  drive .sda (if b then s.bus.highLevel else .low) s

/-- `SdaFloat()` (R64). -/
def sdaFloat (s : State) : State := drive .sda .float s

/-- `bus.busOwned <- v`. -/
def setOwned (v : Bool) (s : State) : State := s.onBus fun b => { b with busOwned := v }

/-- `bus.bit <- i`. -/
def setBit (i : Nat) (s : State) : State := s.onBus fun b => { b with bit := BitVec.ofNat 3 i }

/-- `bus.shift <- v`. -/
def setShift (v : Byte) (s : State) : State := s.onBus fun b => { b with shift := v }

/-- `bus.msg <- j; bus.byte <- 0`. -/
def setMsg (j : Nat) (s : State) : State :=
  s.onBus fun b => { b with msg := BitVec.ofNat 8 j, byte := 0#8 }

/-- `bus.byte <- k`. -/
def setByte (k : Nat) (s : State) : State := s.onBus fun b => { b with byte := BitVec.ofNat 8 k }

end Sys2Proof.Machine
end

