-- ==== Sys2Proof/Machine/Button.lean ====
section
/-! DEFINITION. The Button Debouncer (spec/43_button_debouncer.md R122 to R126). -/

namespace Sys2Proof.Machine

/-- The sample taken: a changed level starts its time (R123). -/
def Btn.sampleLevel (now : Word) (level : Bool) (b : Btn) : Btn :=
  if level != b.lastRaw then { b with lastRaw := level, rawSince := now } else b

/-- `stable`: the level has lasted `DEBOUNCE_MS` (R123). -/
def Btn.stable (p : Params) (now : Word) (b : Btn) : Bool := p.debounceMs ≤ elapsed now b.rawSince

/-- The hold threshold is crossed: strictly more than `HOLD_MS` since the press began (R123). -/
def Btn.holdPassed (p : Params) (now : Word) (b : Btn) : Bool := p.holdMs < elapsed now b.pressStart

/-- The at most one transition of a sample, and `fired` (R123). -/
def Btn.advance (p : Params) (now : Word) (b : Btn) : Bool × Btn :=
  match b.state with
  | .released =>
    if b.stable p now && !b.lastRaw then (false, { b with state := .pressed, pressStart := b.rawSince })
    else (false, b)
  | .pressed =>
    if b.stable p now && b.lastRaw then (false, { b with state := .released })
    else if !b.lastRaw && b.holdPassed p now then (true, { b with state := .held })
    else (false, b)
  | .held =>
    if b.stable p now && b.lastRaw then (false, { b with state := .released }) else (false, b)

/-- `Debounce(now, L)` (R123): `fired` and the debouncer after the sample. -/
def Btn.debounce (p : Params) (now : Word) (level : Bool) (b : Btn) : Bool × Btn :=
  (b.sampleLevel now level).advance p now

/-- The debouncer's state after a hold fires: the loop blocks until release (R125). -/
def Btn.block (now : Word) (b : Btn) : Btn := { b with awaitRelease := true, awaitSince := now }

/-- The blocking ends (R125). -/
def Btn.unblock (b : Btn) : Btn := { b with awaitRelease := false }

/-- The release wait has expired (R125). -/
def Btn.waitExpired (p : Params) (now : Word) (b : Btn) : Bool :=
  p.releaseTimeoutMs ≤ elapsed now b.awaitSince

end Sys2Proof.Machine
end

