-- ==== Sys2Proof/Machine/Waveform.lean ====
section
/-! DEFINITION. The waveforms of the SoftBus Master: the bounded clock-stretch wait, start, stop, one
bit, one byte (spec/40_softbus.md R67, R69 to R74). -/

namespace Sys2Proof.Machine

/-- What a waveform returns: a value, or TIMEOUT, which "ends the waveform at once and is passed up
unchanged" (spec/40_softbus.md section 2). -/
inductive Wave (α : Type) where
  | done (a : α) (s : State)
  | timeout (s : State)

/-- The state a waveform leaves. -/
def Wave.state {α : Type} : Wave α → State
  | .done _ s => s
  | .timeout s => s

/-- The next part of a waveform. -/
def Wave.andThen {α β : Type} (w : Wave α) (f : α → State → Wave β) : Wave β :=
  match w with
  | .done a s => f a s
  | .timeout s => .timeout s

/-- The polling loop of `WaitSCLHigh` with `n` re-polls left (R67). -/
def pollScl : Nat → State → Wave Unit
  | 0, s => if sampled s then .done () (sample .scl s) else .timeout (sample .scl s)
  | n + 1, s =>
    if sampled s then .done () (sample .scl s) else pollScl n (wait .poll (sample .scl s))

/-- `WaitSCLHigh()` (R67): a bounded wait in open-drain mode, none while detecting or in push-pull. -/
def waitSclHigh (s : State) : Wave Unit :=
  if s.bus.detecting || s.bus.mode != .openDrain then .done () s
  else pollScl s.par.stretchLimit s

/-- `SclRelease(); WaitSCLHigh()`. -/
def sclRise (s : State) : Wave Unit := waitSclHigh (sclRelease s)

/-- `START()` (R69). -/
def start (s : State) : Wave Unit :=
  (sclRise (wait .half (sdaSet true s))).andThen fun _ s =>
    .done () (setOwned true (wait .half (sclLow (wait .half (sdaSet false (wait .half s))))))

/-- `STOP()` (R70). -/
def stop (s : State) : Wave Unit :=
  (sclRise (wait .half (sdaSet false (wait .half (sclLow s))))).andThen fun _ s =>
    .done () (setOwned false (wait .full (sdaSet true (wait .half s))))

/-- `WriteBit(b)` (R71). -/
def writeBit (b : Bool) (s : State) : Wave Unit :=
  (sclRise (wait .half (sdaSet b s))).andThen fun _ s => .done () (sclLow (wait .half s))

/-- The end of `ReadBit()`: the clock-high half, the sample, SCL low (R72). -/
def readBitEnd (s : State) : Wave Bool :=
  .done (sampled (wait .half s)) (sclLow (sample .sda (wait .half s)))

/-- `ReadBit()` (R72). -/
def readBit (s : State) : Wave Bool :=
  (sclRise (wait .half (sdaFloat s))).andThen fun _ s => readBitEnd s

/-- The `n` low bits of `v`, most significant first (R73). -/
def writeBits (v : Byte) : Nat → State → Wave Unit
  | 0, s => .done () s
  | i + 1, s => (writeBit (v.getLsbD i) (setBit i s)).andThen fun _ s => writeBits v i s

/-- `WriteByte(v)`: true is ACK, false NACK (R73). -/
def writeByte (v : Byte) (s : State) : Wave Bool :=
  (writeBits v 8 (setShift v s)).andThen fun _ s =>
    (readBit s).andThen fun a s => .done (!a) s

/-- `v` with bit `i` set to `b`, where it was 0 (R74: `v[i] <- b`). -/
def putBit (v : Byte) (i : Nat) (b : Bool) : Byte := v ||| (BitVec.ofNat 8 (bitNat b) <<< i)

/-- The `n` low bits of a byte received, most significant first, into `v` (R74). -/
def readBits (v : Byte) : Nat → State → Wave Byte
  | 0, s => .done v s
  | i + 1, s => (readBit (setBit i s)).andThen fun b s => readBits (putBit v i b) i s

/-- `ReadByte(last)` (R74): the acknowledge is low unless the byte is the last one. -/
def readByte (last : Bool) (s : State) : Wave Byte :=
  (readBits 0#8 8 s).andThen fun v s =>
    (writeBit last (setShift v s)).andThen fun _ s => .done v s

end Sys2Proof.Machine
end

