-- ==== Sys2Proof/Machine/SoftBus.lean ====
section
/-! DEFINITION. CONFIGURE and TRANSFER (spec/40_softbus.md R75 to R83). -/

namespace Sys2Proof.Machine

/-! ## CONFIGURE (R75) -/

/-- The detection window with `n` samples left: the answer "ever sampled low", stopping at the first
low, and the state after it. -/
def detectLow : Nat → State → Bool × State
  | 0, s => (false, s)
  | n + 1, s =>
    if sampled (wait .half s) then detectLow n (sample .scl (wait .half s))
    else (true, sample .scl (wait .half s))

/-- The mode the detection resolves to (R75, R76). -/
def detectedMode (seenLow : Bool) : DriveMode := if seenLow then .pushPull else .openDrain

/-- The end of CONFIGURE: the detected mode, its idle levels, the bus ready. -/
def configureEnd (seenLow : Bool) (s : State) : State :=
  (sclRelease (sdaSet true
      (s.onBus fun b => { b with mode := detectedMode seenLow, detecting := false }))).onBus
    fun b => { b with busOwned := false, ready := true }

/-- The start of CONFIGURE: the rate, open-drain handling, a STOP (which cannot time out while
detecting), SCL released. -/
def configureBegin (rate : Rate) (s : State) : State :=
  sclRelease (stop (s.onBus fun b => { b with rate := rate, detecting := true })).state

/-- CONFIGURE without its result word (R75; also the first step of CTRL_BOOT, R99). -/
def configure (rate : Rate) (s : State) : State :=
  configureEnd (detectLow Config.detectSamples (configureBegin rate s)).1
    (detectLow Config.detectSamples (configureBegin rate s)).2

/-- CONFIGURE (R75): it always ends OK. -/
def execConfigure (rate : Rate) (s : State) : Host.Outcome State Fault Refusal :=
  .next ((configure rate s).finish .ok)

/-! ## TRANSFER (R77 to R82) -/

/-- How far a transaction has come: it goes on with a buffer and a state, or it has ended with an
error, its STOP or abort done and only the unmasking left. -/
inductive Txn where
  | go (buf : Memory) (s : State)
  | stop (r : Result) (buf : Memory) (s : State)

/-- The lines released without a stop waveform (R81). -/
def releaseBus (s : State) : State := setOwned false (sclRelease (sdaSet true s))

/-- `Abort(ph, j, k)` but for the unmasking (R81). -/
def abort (ph : Bool) (j k : Nat) (buf : Memory) (s : State) : Txn :=
  .stop (.timeout ph j k) buf (releaseBus s)

/-- `StopNoAck(ph, j, k)` but for the unmasking (R80): a stop that times out reports TIMEOUT. -/
def stopNoAck (ph : Bool) (j k : Nat) (buf : Memory) (s : State) : Txn :=
  match stop s with
  | .done _ s => .stop (.noAck ph j k) buf s
  | .timeout s => abort false j 0 buf s

/-- What a written byte's acknowledge leads to. -/
def afterWrite (ph : Bool) (j k : Nat) (buf : Memory) (w : Wave Bool) (cont : State → Txn) : Txn :=
  match w with
  | .done true s => cont s
  | .done false s => stopNoAck ph j k buf s
  | .timeout s => abort ph j k buf s

/-- The address phase: START, then the address byte (R79). -/
def addressPhase (a : Addr7) (rd : Bool) (j : Nat) (buf : Memory) (s : State) : Txn :=
  match start s with
  | .timeout s => abort false j 0 buf s
  | .done _ s => afterWrite false j 0 buf (writeByte (addrByte a rd) s) fun s => .go buf s

/-- The write phase of message `j` from byte `k` on, `n` bytes left (R78). -/
def writePhase (buf : Memory) (off j : Nat) : Nat → Nat → State → Txn
  | 0, _, s => .go buf s
  | n + 1, k, s =>
    afterWrite true j k buf (writeByte (buf.read (off + k)) (setByte k s)) fun s =>
      writePhase buf off j n (k + 1) s

/-- The read phase of message `j` from byte `k` on, `n` bytes left; the byte with none left after it
is the last (R78, R74). -/
def readPhase (off j : Nat) : Nat → Nat → Memory → State → Txn
  | 0, _, buf, s => .go buf s
  | n + 1, k, buf, s =>
    match readByte (n == 0) (setByte k s) with
    | .timeout s => abort true j k buf s
    | .done v s => readPhase off j n (k + 1) (buf.write (off + k) v) s

/-- The next part of a transaction. -/
def Txn.andThen (t : Txn) (f : Memory → State → Txn) : Txn :=
  match t with
  | .go buf s => f buf s
  | .stop r buf s => .stop r buf s

/-- The address phase when message `j` has one: the first, and every one with RS = 1 (R79). -/
def messageAddress (a : Addr7) (j : Nat) (d : Half) (buf : Memory) (s : State) : Txn :=
  if j == 0 || descRS d then addressPhase a (descRD d) j buf s else .go buf s

/-- The data of message `j`, whose slice of the buffer starts at `off` (R78). -/
def messageBody (off j : Nat) (d : Half) (buf : Memory) (s : State) : Txn :=
  if descRD d then readPhase off j (descLen d) 0 buf s else writePhase buf off j (descLen d) 0 s

/-- The stop of message `j` when SP = 1 (R78). -/
def messageStop (j : Nat) (d : Half) (buf : Memory) (s : State) : Txn :=
  if descSP d then
    match stop s with
    | .done _ s => .go buf s
    | .timeout s => abort false j 0 buf s
  else .go buf s

/-- One message (R78). -/
def message (a : Addr7) (off j : Nat) (d : Half) (buf : Memory) (s : State) : Txn :=
  ((messageAddress a j d buf (setMsg j s)).andThen (messageBody off j d)).andThen (messageStop j d)

/-- The messages from index `j` on, the first one's slice at `off` (R78). -/
def messages (a : Addr7) : List Half → Nat → Nat → Memory → State → Txn
  | [], _, _, buf, s => .go buf s
  | d :: rest, off, j, buf, s =>
    (message a off j d buf s).andThen fun buf s => messages a rest (off + descLen d) (j + 1) buf s

/-- How a transaction ended: its result, its buffer and the state. -/
structure TxnEnd where
  res : Result
  buf : Memory
  st : State

/-- The result of a transaction, with the mask cleared on every path (R82). -/
def Txn.close : Txn → TxnEnd
  | .go buf s => ⟨.ok, buf, s.unmask⟩
  | .stop r buf s => ⟨r, buf, s.unmask⟩

/-- TRANSFER on a descriptor list and a buffer, without its result word (R78): BUS_NOT_READY, then
BAD_SEQUENCE, both before any line activity and without touching the mask (R77, R128). -/
def transferOn (a : Addr7) (ds : List Half) (buf : Memory) (s : State) : TxnEnd :=
  if s.bus.ready then
    if transferValid s.par ds then (messages a ds 0 0 buf s.maskIrq).close
    else ⟨.badSequence, buf, s⟩
  else ⟨.busNotReady, buf, s⟩

/-- The state after a transaction on the command port's own byte port. -/
def TxnEnd.commit (e : TxnEnd) : State := (e.st.setData e.buf).finish e.res

/-- TRANSFER (R78): `n` descriptors of `ports.desc`, bytes of `ports.data`. -/
def execTransfer (a : Addr7) (n : Byte) (s : State) : Host.Outcome State Fault Refusal :=
  .next (transferOn a (descList s.ports.desc n.toNat) s.ports.data s).commit

end Sys2Proof.Machine
end

