-- ==== Sys2Proof/Machine/RegisterInterface.lean ====
section
/-! DEFINITION. REG_READ, REG_WRITE, FIELD_READ, FIELD_WRITE, PROBE, each an expansion into TRANSFER
(spec/41_register_interface.md R84 to R92). -/

namespace Sys2Proof.Machine

/-- The messages of a register read: the register number without a stop, then a repeated start, the
read and a stop (R85). -/
def readDescs (len : Byte) : List Half := [mkDesc false false false 1#8, mkDesc true true true len]

/-- The messages of a register write: the register number, then its continuation and a stop (R86). -/
def writeDescs (len : Byte) : List Half := [mkDesc false false false 1#8, mkDesc false true false len]

/-- A private buffer that holds the register number (R84, R85). -/
def regBuf (r : Byte) : Memory := Memory.write [] 0 r

/-- REG_READ into a private buffer: its bytes stand from index 1 on (R85). -/
def regReadOn (a : Addr7) (r len : Byte) (s : State) : TxnEnd :=
  transferOn a (readDescs len) (regBuf r) s

/-- REG_WRITE of `len` bytes of `data` from index 0 on (R86). -/
def regWriteOn (a : Addr7) (r len : Byte) (data : Memory) (s : State) : TxnEnd :=
  transferOn a (writeDescs len) (Memory.copy data 0 (regBuf r) 1 len.toNat) s

/-- The bytes of a register read moved to `ports.data[0..len-1]`, only when the read is OK (R85). -/
def regReadCommit (len : Byte) (e : TxnEnd) : State :=
  if e.res.isOk then
    (e.st.setData (Memory.copy e.buf 1 e.st.ports.data 0 len.toNat)).finish e.res
  else e.st.finish e.res

/-- REG_READ (R85). -/
def execRegRead (a : Addr7) (r len : Byte) (s : State) : Host.Outcome State Fault Refusal :=
  .next (regReadCommit len (regReadOn a r len s))

/-- REG_WRITE (R86). -/
def execRegWrite (a : Addr7) (r len : Byte) (s : State) : Host.Outcome State Fault Refusal :=
  .next ((regWriteOn a r len s.ports.data s).st.finish (regWriteOn a r len s.ports.data s).res)

/-! ## Fields -/

/-- A one-byte register read of the charging IC: the result, the byte, the state. -/
structure ByteRead where
  res : Result
  byte : Byte
  st : State

/-- The register byte of field `f`, read in one transaction (R90). -/
def readFieldByte (f : FieldId) (s : State) : ByteRead :=
  let e := regReadOn s.par.chargerAddr (fieldDesc s.par f).reg 1#8 s
  ⟨e.res, e.buf.read 1, e.st⟩

/-- The raw bits of field `f` in a register byte (R90). -/
def rawOf (p : Params) (f : FieldId) (b : Byte) : Byte := (fieldDesc p f).extract b

/-- The end of FIELD_READ: the physical value, only when the read is OK (R90). -/
def fieldReadCommit (f : FieldId) (e : ByteRead) : State :=
  if e.res.isOk then
    (e.st.setVal ((fieldDesc e.st.par f).physWord (rawOf e.st.par f e.byte).toNat)).finish e.res
  else e.st.finish e.res

/-- FIELD_READ (R90); a field id above 20 is ILLEGAL_COMMAND (spec/30_encoding.md R62). -/
def execFieldRead (f : Byte) (s : State) : Host.Outcome State Fault Refusal :=
  match fieldOf f with
  | some f => .next (fieldReadCommit f (readFieldByte f s))
  | none => .next (s.finish .illegalCommand)

/-- How a field write ended: its result, the raw value written and the state. -/
structure FieldWriteEnd where
  res : Result
  raw : Nat
  st : State

/-- The write transaction of a field write, after the register byte `old` was read (R91). -/
def writeFieldBack (f : FieldId) (raw : Nat) (old : Byte) (s : State) : FieldWriteEnd :=
  let d := fieldDesc s.par f
  let e := regWriteOn s.par.chargerAddr d.reg 1#8
    (Memory.write [] 0 (d.insert old (BitVec.ofNat 8 raw))) s
  ⟨if e.res.isOk then e.res else e.res.withTxn true, raw, e.st⟩

/-- FIELD_WRITE of the physical value `p` without the ports (R91): a read transaction, then, only if
it was OK, a write transaction. -/
def fieldWriteOn (f : FieldId) (p : Nat) (s : State) : FieldWriteEnd :=
  let raw := (fieldDesc s.par f).encodePhys p
  let e := readFieldByte f s
  if e.res.isOk then writeFieldBack f raw e.byte e.st else ⟨e.res.withTxn false, raw, e.st⟩

/-- The end of FIELD_WRITE: the value actually written, only when both transactions are OK (R91). -/
def fieldWriteCommit (f : FieldId) (e : FieldWriteEnd) : State :=
  if e.res.isOk then (e.st.setVal ((fieldDesc e.st.par f).physWord e.raw)).finish e.res
  else e.st.finish e.res

/-- FIELD_WRITE (R91); a field id above 20 is ILLEGAL_COMMAND (spec/30_encoding.md R62). -/
def execFieldWrite (f : Byte) (s : State) : Host.Outcome State Fault Refusal :=
  match fieldOf f with
  | some f => .next (fieldWriteCommit f (fieldWriteOn f s.ports.val.toNat s))
  | none => .next (s.finish .illegalCommand)

/-! ## Probe -/

/-- The part identifier was read and is the expected one (R92); a bus error counts as absent. -/
def probePresent (e : ByteRead) : Bool :=
  e.res.isOk &&
    (fieldDesc e.st.par .partId).decodeRaw (rawOf e.st.par .partId e.byte).toNat
      == e.st.par.partIdExpected

/-- The result of a probe (R92). -/
def probeResult (present : Bool) : Result := if present then .ok else .hardwareAbsent

/-- PROBE (R92). `ports.val` is written in both cases (R92 and vector V-RI-11; log 13). -/
def execProbe (s : State) : Host.Outcome State Fault Refusal :=
  let e := readFieldByte .partId s
  .next ((e.st.setVal (BitVec.ofNat 32 (bitNat (probePresent e)))).finish (probeResult (probePresent e)))

end Sys2Proof.Machine
end

