-- ==== Sys2Proof/Machine/ChargeController.lean ====
section
/-! DEFINITION. The Charge Controller: events, READ_STATE, boot, poll, the control-loop iteration with
its transitions, entry actions and outputs (spec/42_charge_controller.md R93 to R120). -/

namespace Sys2Proof.Machine

/-! ## Event words (R93 to R97) -/

/-- EVT_BUTTON (R94). -/
def execEvtButton (s : State) : Host.Outcome State Fault Refusal := .next (s.latch .button)

/-- EVT_CHG_IRQ (R95). -/
def execEvtChgIrq (s : State) : Host.Outcome State Fault Refusal := .next (s.latch .chgIrq)

/-- EVT_THERMAL (R96). -/
def execEvtThermal (s : State) : Host.Outcome State Fault Refusal := .next (s.latch .thermal)

/-- EVT_HOST_ACK (R97). -/
def execEvtHostAck (s : State) : Host.Outcome State Fault Refusal := .next (s.latch .hostAck)

/-! ## READ_STATE (R98) -/

/-- READ_STATE (R98); a selector above 3 is ILLEGAL_COMMAND (spec/30_encoding.md R62). -/
def execReadState (sel : Byte) (s : State) : Host.Outcome State Fault Refusal :=
  match stateWordOf sel with
  | some w => .next ((s.setVal (stateWord s w)).finish .ok)
  | none => .next (s.finish .illegalCommand)

/-! ## Outputs (R117 to R119) -/

/-- `StartFlash(now)` (R117). -/
def startFlash (now : Word) (s : State) : State :=
  s.onCtl fun c => { c with flashActive := true, flashStart := now }

/-- The length of the fault pattern, `N_FLASH * 2 * T_FLASH` (R117). -/
def flashLength : Nat := Config.nFlash * 2 * Config.tFlash

/-- `FlashTimer(now)` (R117). -/
def flashTimer (now : Word) (s : State) : State :=
  if s.ctl.flashActive && flashLength ≤ elapsed now s.ctl.flashStart then
    s.onCtl fun c => { c with flashActive := false }
  else s

/-- The LED of a charging battery: 7 terminated, 6 incomplete (R118). -/
def chargingLed (c : ChargeState) : BitVec 3 := if c = .terminated then 7#3 else 6#3

/-- `SelectLed()` (R118). -/
def Ctl.selectLed (c : Ctl) : BitVec 3 :=
  match c.pstate with
  | .coolingDown => 0#3
  | .shippingMode => 0#3
  | .powered => if c.charging then chargingLed c.status.chargeState else ledBand c.battery.pct.toNat
  | .sleeping => if c.charging then chargingLed c.status.chargeState else 0#3

/-- The lit part of the fault pattern, red first (R119). -/
def flashLit (now start : Word) : Bool := elapsed now start / Config.tFlash % 2 == 0

/-- `UpdateOutputs(now)` (R119). -/
def updateOutputs (now : Word) (s : State) : State :=
  s.onOut fun o =>
    if s.ctl.flashActive then { o with ledMode := 5#3, ledOn := flashLit now s.ctl.flashStart }
    else { o with ledMode := s.ctl.selectLed, ledOn := false }

/-! ## Entry actions (R112 to R116) -/

/-- A FIELD_WRITE of the controller: private buffers, its result ignored (R116). -/
def ctlWrite (f : FieldId) (p : Nat) (s : State) : State := (fieldWriteOn f p s).st

/-- Continuous sampling commanded off, if it is on (R113, R114, R115). -/
def adcOff (s : State) : State :=
  if s.ctl.adcCont then
    ctlWrite .adcContinuous s.par.adcOffValue (s.onCtl fun c => { c with adcCont := false })
  else s

/-- The power state changed, a pending soft shutdown ended, the rail and the fan set (R113 to R115). -/
def powerDown (p : PState) (fan : FanMode) (s : State) : State :=
  (s.onCtl fun c => { c with pstate := p, ssdPending := false }).onOut fun o =>
    { o with shutdownReq := false, powerRail := false, fanMode := fan }

/-- `EnterPowered()` (R112). -/
def enterPowered (s : State) : State :=
  ctlWrite .adcContinuous s.par.adcOnValue
    ((s.onCtl fun c => { c with pstate := .powered, adcCont := true }).onOut fun o =>
      { o with powerRail := true, fanMode := .configured })

/-- `EnterSleeping()` (R113). -/
def enterSleeping (s : State) : State := adcOff (powerDown .sleeping .off s)

/-- `EnterCoolingDown(now)` (R114). -/
def enterCoolingDown (now : Word) (s : State) : State :=
  startFlash now
    (adcOff ((powerDown .coolingDown .max s).onCtl fun c => { c with coolStart := now }))

/-- Battery isolation commanded (R115). -/
def isolateBattery (s : State) : State :=
  ctlWrite .batfetControl s.par.isolateValue (s.onCtl fun c => { c with batfetOff := true })

/-- `EnterShipping(now)` (R115). -/
def enterShipping (now : Word) (s : State) : State :=
  startFlash now (isolateBattery (adcOff (powerDown .shippingMode .off s)))

/-! ## Poll (R101 to R105) -/

/-- The controller's view after a successful poll with raw field values `st`, `fl`, `b` (R101). -/
def applyPoll (p : Params) (st fl b : Byte) (c : Ctl) : Ctl :=
  let status := decodeStatus p st fl
  let mV := (fieldDesc p .batteryAdc).physWord b.toNat
  { c with
    status := status
    statusValid := true
    charging := status.chargeState != .notCharging
    battery := { raw := b, mV := mV, pct := BitVec.ofNat 8 (pct mV.toNat status.chargeState) }
    overTemp := c.overTemp || status.fault.thermal }

/-- `RawRead(f)`, then the rest of the poll with the raw bits, unless the read fails (R101). -/
def pollRead (f : FieldId) (cont : Byte → State → State) (s : State) : State :=
  let e := readFieldByte f s
  if e.res.isOk then cont (rawOf e.st.par f e.byte) e.st else e.st

/-- `Poll(now)` (R101). -/
def poll (now : Word) (s : State) : State :=
  pollRead .status
    (fun st => pollRead .fault fun fl => pollRead .batteryAdc fun b s =>
      s.onCtl (applyPoll s.par st fl b))
    (s.onCtl fun c => { c with lastPoll := now })

/-! ## Boot (R99, R100) -/

/-- The charger is absent: the block parks (R99, R100). -/
def park (s : State) : State :=
  (s.onCtl fun c => { c with phase := .parked }).onOut fun o => { o with lowPower := true }

/-- The four charge parameters written, results ignored (R99). -/
def bootWrites (s : State) : State :=
  ctlWrite .chargeVoltage s.par.chargeVoltage
    (ctlWrite .terminationCurrent s.par.terminationCurrent
      (ctlWrite .prechargeCurrent s.par.prechargeCurrent
        (ctlWrite .chargeCurrent s.par.chargeCurrent s)))

/-- The charger is present: parameters, phase Run, the first poll, the outputs (R99). -/
def bootRun (now : Word) (s : State) : State :=
  updateOutputs now (poll now ((bootWrites s).onCtl fun c => { c with phase := .run }))

/-- The bus brought up and the charging IC probed (R99). -/
def bootProbe (s : State) : ByteRead := readFieldByte .partId (configure s.par.busRate s)

/-- The end of CTRL_BOOT: the block runs if the probe `e` found the charging IC, else it parks (R99). -/
def bootEnd (now : Word) (e : ByteRead) : State :=
  if probePresent e then (bootRun now e.st).finish .ok else (park e.st).finish .hardwareAbsent

/-- CTRL_BOOT (R99). -/
def execCtrlBoot (s : State) : Host.Outcome State Fault Refusal :=
  if s.ctl.phase = .boot then .next (bootEnd s.ports.nowMs (bootProbe s))
  else .next (s.finish .illegalCommand)

/-! ## One control-loop iteration (R106 to R110) -/

/-- `PowerOnAllowed()` (R108). -/
def Ctl.powerOnAllowed (c : Ctl) : Bool :=
  c.statusValid && (Config.vOnMin < c.battery.mV.toNat || c.charging) && c.status.fault.isNone &&
    c.pstate != .coolingDown

/-- The request of a soft shutdown (R109, R110). -/
def requestShutdown (now : Word) (s : State) : State :=
  (s.onCtl fun c => { c with ssdPending := true, ssdStart := now }).onOut fun o =>
    { o with shutdownReq := true }

/-- `Arbitrate(now)` (R109). -/
def arbitrate (now : Word) (s : State) : State :=
  match s.ctl.pstate with
  | .sleeping => if s.ctl.powerOnAllowed then enterPowered s else startFlash now s
  | .powered =>
    if s.ctl.ssdPending then s
    else if s.par.handshake then requestShutdown now s
    else enterSleeping s
  | .coolingDown => s
  | .shippingMode => s

/-- `SsdTimers(now, ack)` (R110). -/
def ssdTimers (now : Word) (ack : Bool) (s : State) : State :=
  if ack then enterSleeping s
  else if Config.tSsdAck ≤ elapsed now s.ctl.ssdStart then startFlash now (enterSleeping s)
  else if s.out.shutdownReq && Config.tSsdPulse ≤ elapsed now s.ctl.ssdStart then
    s.onOut fun o => { o with shutdownReq := false }
  else s

/-- The end of the CoolingDown dwell (R106 phase 2, R104). -/
def dwellTimer (now : Word) (s : State) : State :=
  if s.ctl.pstate = .coolingDown ∧ Config.tCool ≤ elapsed now s.ctl.coolStart then
    enterSleeping (s.onCtl fun c => { c with overTemp := false })
  else s

/-- `FaultTransitions(now)` (R107). -/
def faultTransitions (now : Word) (s : State) : State :=
  if s.ctl.pstate = .coolingDown then s
  else if s.ctl.overTemp then enterCoolingDown now s
  else if s.ctl.statusValid && s.ctl.status.fault.battery then enterShipping now s
  else s

/-- A soft shutdown's timers, when one is pending (R106 phase 2). -/
def ssdPhase (now : Word) (ack : Bool) (s : State) : State :=
  if s.ctl.ssdPending then ssdTimers now ack s else s

/-- The event flags kept while the loop is blocked (R106 phase 3). -/
def keepEvents (e : EventBits) (s : State) : State :=
  s.onEv fun l => { l with flag := l.flag.union { e with button := false, hostAck := false } }

/-- The result of a blocked iteration: TIMEOUT where the release wait expires (R106, R125). -/
def blockedResult (p : Params) (now : Word) (b : Btn) : Result :=
  if b.state = .released then .ok
  else if b.waitExpired p now then .timeout false 0 0
  else .ok

/-- Whether a blocked iteration ends the blocking (R106, R125). -/
def blockedEnds (p : Params) (now : Word) (b : Btn) : Bool :=
  b.state == .released || b.waitExpired p now

/-- A blocked iteration after its debounce call (R106 phase 3). -/
def blockedStep (now : Word) (e : EventBits) (s : State) : State :=
  (updateOutputs now (keepEvents e
    (if blockedEnds s.par now s.btn then s.onBtn Btn.unblock else s))).finish
      (blockedResult s.par now s.btn)

/-- The thermal alert (R106 phase 4). -/
def thermalPhase (e : EventBits) (s : State) : State :=
  if e.thermal then s.onCtl fun c => { c with overTemp := true } else s

/-- The poll, if it is due (R106 phase 5). -/
def pollPhase (now : Word) (e : EventBits) (s : State) : State :=
  if s.ctl.pstate != .coolingDown && (e.chgIrq || s.par.pollMs ≤ elapsed now s.ctl.lastPoll) then
    poll now s
  else s

/-- The button hold (R106 phase 7). -/
def holdPhase (now : Word) (fired : Bool) (s : State) : State :=
  if fired then arbitrate now (s.onBtn (Btn.block now)) else s

/-- An iteration that is not blocked, from phase 4 on (R106). -/
def activeStep (now : Word) (e : EventBits) (fired : Bool) (s : State) : State :=
  (updateOutputs now (holdPhase now fired (faultTransitions now
    (pollPhase now e (thermalPhase e s))))).finish .ok

/-- The debounce call of an iteration (R106 phase 3). -/
def debouncePhase (now : Word) (level : Bool) (s : State) : State :=
  s.onBtn fun b => (b.debounce s.par now level).2

/-- Phase 3 and what follows it (R106). -/
def loopStep (now : Word) (level : Bool) (e : EventBits) (s : State) : State :=
  if s.btn.awaitRelease then blockedStep now e (debouncePhase now level s)
  else activeStep now e (s.btn.debounce s.par now level).1 (debouncePhase now level s)

/-- An iteration of the running controller after the snapshot `e` (R106 phases 2 to 8). -/
def runStep (now : Word) (level : Bool) (e : EventBits) (s : State) : State :=
  if s.ctl.pstate = .shippingMode then (updateOutputs now (flashTimer now s)).finish .ok
  else loopStep now level e (ssdPhase now e.hostAck (dwellTimer now (flashTimer now s)))

/-- The snapshot of the event flags (R106 phase 1). -/
def snapshot (s : State) : State := s.onEv fun l => { l with flag := .none }

/-- CTRL_STEP (R106). -/
def execCtrlStep (s : State) : Host.Outcome State Fault Refusal :=
  match s.ctl.phase with
  | .boot => .next (s.finish .illegalCommand)
  | .parked => .next ((snapshot s).finish .ok)
  | .run => .next (runStep s.ports.nowMs s.ports.btnLevel s.ev.flag (snapshot s))

end Sys2Proof.Machine
end

