-- ==== Sys2Proof/Machine/Dispatch.lean ====
section
/-! DEFINITION. The meaning of each instruction, one arm per constructor of Instr. -/

namespace Sys2Proof.Machine

def exec (i : Instr) (s : State) : Host.Outcome State Fault Refusal :=
  match i with
  | .configure rate => Sys2Proof.Machine.execConfigure rate s
  | .transfer a n => Sys2Proof.Machine.execTransfer a n s
  | .regRead a r len => Sys2Proof.Machine.execRegRead a r len s
  | .regWrite a r len => Sys2Proof.Machine.execRegWrite a r len s
  | .fieldRead f => Sys2Proof.Machine.execFieldRead f s
  | .fieldWrite f => Sys2Proof.Machine.execFieldWrite f s
  | .probe => Sys2Proof.Machine.execProbe s
  | .ctrlBoot => Sys2Proof.Machine.execCtrlBoot s
  | .ctrlStep => Sys2Proof.Machine.execCtrlStep s
  | .readState sel => Sys2Proof.Machine.execReadState sel s
  | .evtButton => Sys2Proof.Machine.execEvtButton s
  | .evtChgIrq => Sys2Proof.Machine.execEvtChgIrq s
  | .evtThermal => Sys2Proof.Machine.execEvtThermal s
  | .evtHostAck => Sys2Proof.Machine.execEvtHostAck s

end Sys2Proof.Machine
end

