-- ==== Sys2Proof/Machine/Environment.lean ====
section
/-! DEFINITION. The acts of the environment on the block's ports, and how a word comes to stand where
the next step takes it from (spec/70_reset_and_hazards.md R146, R149; log 4, 5, 6, 16). -/

namespace Sys2Proof.Machine

/-- Power-on: every element of the block at its reset value and a new line trace; the parameters, the
inputs `now_ms` and `btnLevel`, the event words still to come and the environment stay (R146; log 16). -/
def State.powerOn (s : State) : State :=
  { State.resetOf s.par with
    env := s.env
    ports := { Ports.reset with nowMs := s.ports.nowMs, btnLevel := s.ports.btnLevel, evt := s.ports.evt } }

/-- One act of the environment (R149; log 6). -/
def State.move (m : HostMove) (s : State) : State :=
  match m with
  | .command w => s.onPorts fun p => { p with cmd := some w }
  | .event n w => s.onPorts fun p => { p with evt := p.evt ++ [⟨n, w⟩] }
  | .time t => s.onPorts fun p => { p with nowMs := t }
  | .button level => s.onPorts fun p => { p with btnLevel := level }
  | .descriptor i d => s.onPorts fun p => { p with desc := p.desc.write i d }
  | .byte i b => s.onPorts fun p => { p with data := p.data.write i b }
  | .value v => s.onPorts fun p => { p with val := v }
  | .answers bs => s.onEnv fun e => { e with answers := e.answers ++ bs }
  | .powerOn => s.powerOn

/-- The event word that is due now, if one is: the words after it. -/
def dueEvent : List Arrival → Option (Word × List Arrival)
  | [] => none
  | a :: rest => match a.delay with
    | 0 => some (a.word, rest)
    | _ + 1 => none

/-- The event port's words put off by one instant, if one was due. -/
def postpone : List Arrival → List Arrival
  | [] => []
  | a :: rest => match a.delay with
    | 0 => { a with delay := 1 } :: rest
    | n + 1 => { a with delay := n + 1 } :: rest

/-- A word taken from the event port: what it decodes to runs, a malformed one is ignored (R62). -/
def takeEvent (s : State) (rest : List Arrival) : State := s.onPorts fun p => { p with evt := rest }

/-- A command accepted from the command port (spec/10_state.md R19). -/
def takeCommand (s : State) : State := s.onPorts fun p => { p with cmd := none }

/-- `s` with a word standing on the command port and no event due before it. -/
def placeCommand (w : Word) (s : State) : State :=
  s.onPorts fun p => { p with cmd := some w, evt := postpone p.evt }

/-- `s` with a word standing first on the event port. -/
def placeEvent (w : Word) (s : State) : State :=
  s.onPorts fun p => { p with evt := ⟨0, w⟩ :: p.evt }

/-- `s` with a word standing where the next step takes it from. -/
def placeWord (w : Word) (s : State) : State :=
  match portOf w with
  | .command => placeCommand w s
  | .event => placeEvent w s

end Sys2Proof.Machine
end

