-- ==== Sys2Proof/Machine/Step.lean ====
section
/-! DEFINITION. One step: whichever comes first of an event word that is due, the command on the port,
the environment's next act, and an instant in which nothing happens (log 5). -/

namespace Sys2Proof.Machine

/-- A due event word runs (spec/30_encoding.md R53), or is ignored (R62). -/
def stepEvent (w : Word) (s : State) : Host.Outcome State Fault Refusal :=
  match decodeEvent w with
  | .ok i => exec i s
  | .error _ => .next s

/-- The accepted command runs to completion (spec/10_state.md R19); an illegal word ends with
ILLEGAL_COMMAND and no other effect (spec/30_encoding.md R62). -/
def stepCommand (w : Word) (s : State) : Host.Outcome State Fault Refusal :=
  match decodeCommand w with
  | .ok i => exec i s
  | .error _ => .next (s.finish .illegalCommand)

/-- No word waits: the environment acts, or an instant passes. -/
def stepIdle (s : State) : Host.Outcome State Fault Refusal :=
  match s.env.moves with
  | m :: rest => .next ((s.onEnv fun e => { e with moves := rest }).move m)
  | [] => .next s.tick

/-- One step of the machine. -/
def step (s : State) : Host.Outcome State Fault Refusal :=
  match dueEvent s.ports.evt with
  | some (w, rest) => stepEvent w (takeEvent s rest)
  | none =>
    match s.ports.cmd with
    | some w => stepCommand w (takeCommand s)
    | none => stepIdle s

/-- `s` with the word of an opcode-table row standing where the next step takes it from. -/
def State.withFetchWord (s : State) (nbits w : Nat) : State :=
  placeWord (BitVec.ofNat 32 (w % 2 ^ nbits)) s

end Sys2Proof.Machine
end

