-- ==== Sys2Proof/Safety.lean ====
section
/-! DEFINITION. The terms the claims use: what every reachable state keeps, what a bus operation may
change, how the environment answers, and the frames of spec/30_encoding.md R60 with their line traces. -/

namespace Sys2Proof.Machine

/-! ## The environment's answers -/

/-- The next samples are answered `bs`, by scripted answers or free values alike. -/
def Env.gives : Env → List Bool → Prop
  | _, [] => True
  | e, b :: bs => e.answer = b ∧ e.next.gives bs

/-- The environment after it has answered `n` samples. -/
def Env.skip : Env → Nat → Env
  | e, 0 => e
  | e, n + 1 => e.next.skip n

/-! ## Events -/

/-- Every bit of `e` is a bit of `f`. -/
def EventBits.le (e f : EventBits) : Prop := ∀ k, e.get k = true → f.get k = true

/-- No event word is on its way and none is pending. -/
def Calm (s : State) : Prop := s.ports.evt = [] ∧ s.ev.pend = .none

/-- `n` instants of the event port in a row. -/
def arriveN (mask : Bool) : Nat → List Arrival → Latches → List Arrival × Latches
  | 0, q, l => (q, l)
  | n + 1, q, l => arriveN mask n (arrive mask q l).1 (arrive mask q l).2

/-! ## What a bus operation may change -/

/-- `t` differs from `s` at most in the SoftBus Master's own state, in the event latches, which only
gain flags, in the words on the event port, in how many samples were answered, and in the line trace,
which only grows. -/
structure BusOnly (s t : State) : Prop where
  ctl : t.ctl = s.ctl
  btn : t.btn = s.btn
  out : t.out = s.out
  par : t.par = s.par
  ports : t.ports = { s.ports with evt := t.ports.evt }
  moves : t.env.moves = s.env.moves
  flags : s.ev.flag.le t.ev.flag
  calm : Calm s → t.ev = s.ev ∧ t.ports.evt = []
  trace : ∃ new, t.trace = new ++ s.trace

/-- The drive mode, the rate and the readiness stay (only CONFIGURE writes them, spec/10_state.md
R20). -/
structure SameSetup (s t : State) : Prop where
  mode : t.bus.mode = s.bus.mode
  ready : t.bus.ready = s.bus.ready
  rate : t.bus.rate = s.bus.rate
  detecting : t.bus.detecting = s.bus.detecting

/-! ## Invariants -/

/-- The idle level of a line in a drive mode (spec/40_softbus.md R65). -/
def DriveMode.idle : DriveMode → Level
  | .unknown => .float
  | .pushPull => .high
  | .openDrain => .float

/-- Between commands: no detection and no mask, nothing pending (spec/10_state.md R20, R31), a ready
bus has a mode (R20), and the lines are idle unless the bus is owned, which holds SCL low
(spec/40_softbus.md R65; spec/70_reset_and_hazards.md R157). -/
structure BusInv (s : State) : Prop where
  detecting : s.bus.detecting = false
  unmasked : s.bus.irqMask = false
  pend : s.ev.pend = .none
  ready : s.bus.ready = true ↔ s.bus.mode ≠ .unknown
  owned : s.bus.busOwned = true → s.bus.sclDrv = .low
  idle : s.bus.busOwned = false →
    s.bus.sclDrv = s.bus.mode.idle ∧ s.bus.sdaDrv = s.bus.mode.idle

/-- The fan of a power state (spec/42_charge_controller.md R120). -/
def PState.fan : PState → FanMode
  | .sleeping => .off
  | .powered => .configured
  | .coolingDown => .max
  | .shippingMode => .off

/-- The invariants of spec/10_state.md R26 and of spec/42_charge_controller.md R100, R102, R105, R115,
R120 and spec/43_button_debouncer.md R125. -/
structure CtlInv (s : State) : Prop where
  rail : s.out.powerRail = true ↔ s.ctl.pstate = .powered
  adc : s.ctl.adcCont = true ↔ s.ctl.pstate = .powered
  fan : s.out.fanMode = s.ctl.pstate.fan
  isolated : s.ctl.batfetOff = true ↔ s.ctl.pstate = .shippingMode
  pending : s.ctl.ssdPending = true → s.ctl.pstate = .powered ∧ s.par.handshake = true
  request : s.out.shutdownReq = true → s.ctl.ssdPending = true
  stopped : s.ctl.phase ≠ .run → s.ctl.pstate = .sleeping ∧ s.out.ledMode = 0#3 ∧ s.out.ledOn = false
  parked : s.out.lowPower = true ↔ s.ctl.phase = .parked
  charging : s.ctl.charging = true ↔ s.ctl.status.chargeState ≠ .notCharging
  percent : s.ctl.battery.pct.toNat = pct s.ctl.battery.mV.toNat s.ctl.status.chargeState
  blocked : s.btn.awaitRelease = true → s.btn.state = .held

/-- `ports.data` and `ports.desc` are in canonical form. -/
def PortsWf (s : State) : Prop := Memory.wf s.ports.data = true ∧ Cells.wf s.ports.desc = true

/-- The level of a pin after a line trace (newest event first), both pins released before it. -/
def pinAfter (line : Line) : List LineEvent → Level
  | [] => .float
  | .drive l v :: rest => if l = line then v else pinAfter line rest
  | .wait _ :: rest => pinAfter line rest
  | .sample _ _ :: rest => pinAfter line rest

/-- Every sample of a line trace reads a line the block has released (spec/00_scope.md R13). -/
def SamplesReleased : List LineEvent → Prop
  | [] => True
  | .drive _ _ :: rest => SamplesReleased rest
  | .wait _ :: rest => SamplesReleased rest
  | .sample l _ :: rest => pinAfter l rest = .float ∧ SamplesReleased rest

/-- The pins are where the line trace leaves them, and the block samples only released lines. -/
structure TraceInv (s : State) : Prop where
  scl : pinAfter .scl s.trace = s.bus.sclDrv
  sda : pinAfter .sda s.trace = s.bus.sdaDrv
  released : SamplesReleased s.trace

/-! ## Frames (spec/30_encoding.md R58, R60) -/

/-- One part of a frame: a start or repeated start, a stop, a byte the block sends with the peer's
acknowledge, or a byte the peer sends, the last of its message or not. -/
inductive Sym where
  | start
  | stop
  | send (v : Byte) (ack : Bool)
  | recv (v : Byte) (last : Bool)
deriving DecidableEq, Repr

/-- The bits of a byte, most significant first (spec/20_memory.md R36). -/
def bitsOf (v : Byte) : List Bool :=
  [v.getLsbD 7, v.getLsbD 6, v.getLsbD 5, v.getLsbD 4, v.getLsbD 3, v.getLsbD 2, v.getLsbD 1,
    v.getLsbD 0]

/-- The answers to the samples of one SCL release: one 1 in open-drain mode, none in push-pull
(spec/40_softbus.md R67). -/
def riseAnswers (od : Bool) : List Bool := if od then [true] else []

/-- The answers of a peer that does not stretch the clock, for one part of a frame. -/
def Sym.answers (od : Bool) : Sym → List Bool
  | .start => riseAnswers od
  | .stop => riseAnswers od
  | .send v ack => ((bitsOf v).flatMap fun _ => riseAnswers od) ++ riseAnswers od ++ [!ack]
  | .recv v _ => ((bitsOf v).flatMap fun b => riseAnswers od ++ [b]) ++ riseAnswers od

/-- The level of a high or released line in a mode (spec/40_softbus.md R64). -/
def hiLevel (od : Bool) : Level := if od then .float else .high

/-- SCL released, with its sample in open-drain mode (R67). -/
def riseEvents (od : Bool) : List LineEvent :=
  .drive .scl (hiLevel od) :: if od then [.sample .scl true] else []

/-- The line events of one bit the block drives (R71). -/
def writeBitEvents (od b : Bool) : List LineEvent :=
  [.drive .sda (if b then hiLevel od else .low), .wait .half] ++ riseEvents od ++
    [.wait .half, .drive .scl .low]

/-- The line events of one bit the peer drives (R72). -/
def readBitEvents (od b : Bool) : List LineEvent :=
  [.drive .sda .float, .wait .half] ++ riseEvents od ++
    [.wait .half, .sample .sda b, .drive .scl .low]

/-- The line events of one part of a frame, oldest first (R69 to R74). -/
def Sym.events (od : Bool) : Sym → List LineEvent
  | .start =>
    [.drive .sda (hiLevel od), .wait .half] ++ riseEvents od ++
      [.wait .half, .drive .sda .low, .wait .half, .drive .scl .low, .wait .half]
  | .stop =>
    [.drive .scl .low, .wait .half, .drive .sda .low, .wait .half] ++ riseEvents od ++
      [.wait .half, .drive .sda (hiLevel od), .wait .full]
  | .send v ack => ((bitsOf v).flatMap (writeBitEvents od)) ++ readBitEvents od (!ack)
  | .recv v last => ((bitsOf v).flatMap (readBitEvents od)) ++ writeBitEvents od last

/-- The answers of a peer that does not stretch the clock, for a frame. -/
def frameAnswers (od : Bool) (f : List Sym) : List Bool := f.flatMap (Sym.answers od)

/-- The line events of a frame, oldest first. -/
def frameEvents (od : Bool) (f : List Sym) : List LineEvent := f.flatMap (Sym.events od)

/-- The data bytes of a write message, every one acknowledged. -/
def sendBytes (buf : Memory) (off : Nat) : Nat → List Sym
  | 0 => []
  | n + 1 => .send (buf.read off) true :: sendBytes buf (off + 1) n

/-- The data bytes of a read message, which the peer takes from `peer` at the same offsets; the last
one is not acknowledged. -/
def recvBytes (peer : Memory) (off : Nat) : Nat → List Sym
  | 0 => []
  | n + 1 => .recv (peer.read off) (n == 0) :: recvBytes peer (off + 1) n

/-- The part of the frame of one message, the first or not: its start and acknowledged address byte
when it has an address phase, its data, its stop (spec/30_encoding.md R60; spec/40_softbus.md R79). -/
def msgFrame (a : Addr7) (first : Bool) (d : Half) (off : Nat) (buf peer : Memory) : List Sym :=
  (if first || descRS d then [.start, .send (addrByte a (descRD d)) true] else []) ++
    (if descRD d then recvBytes peer off (descLen d) else sendBytes buf off (descLen d)) ++
    (if descSP d then [.stop] else [])

/-- The frame of the messages `ds`, the first one's slice at `off` (R60). -/
def framesFrom (a : Addr7) (first : Bool) : List Half → Nat → Memory → Memory → List Sym
  | [], _, _, _ => []
  | d :: rest, off, buf, peer =>
    msgFrame a first d off buf peer ++ framesFrom a false rest (off + descLen d) buf peer

/-- The frame of a TRANSFER whose every byte is acknowledged (R60). -/
def transferFrame (a : Addr7) (ds : List Half) (buf peer : Memory) : List Sym :=
  framesFrom a true ds 0 buf peer

/-- Position `i` of the buffer lies in the slice of a read message, the first message's slice at `off`
(spec/30_encoding.md R55). -/
def inReadSlice : List Half → Nat → Nat → Bool
  | [], _, _ => false
  | d :: rest, off, i =>
    (descRD d && off ≤ i && i < off + descLen d) || inReadSlice rest (off + descLen d) i

/-- The address byte `{ADDR7, RW}` (spec/30_encoding.md R57). -/
def wireAddr (a : Addr7) (rw : BitVec 1) : Byte := a ++ rw

/-- The start and address byte of an address phase, acknowledged or not (R60). -/
def addrFrame (a : Addr7) (rw : BitVec 1) (ack : Bool) : List Sym :=
  [.start, .send (wireAddr a rw) ack]

/-- The frame of a register read of `n` bytes from register `r`, answered by `peer`
(spec/41_register_interface.md R85). -/
def regReadFrame (a : Addr7) (r : Byte) (peer : Memory) (n : Nat) : List Sym :=
  List.flatten [addrFrame a 0#1 true, [.send r true], addrFrame a 1#1 true, recvBytes peer 0 n, [.stop]]

/-- The frame of a register write of the first `n` bytes of `data` (R86). -/
def regWriteFrame (a : Addr7) (r : Byte) (data : Memory) (n : Nat) : List Sym :=
  List.flatten [addrFrame a 0#1 true, [.send r true], sendBytes data 0 n, [.stop]]

/-- The frame of a register write whose byte `k` is refused (R86; spec/40_softbus.md R80). -/
def regWriteRefused (a : Addr7) (r : Byte) (data : Memory) (k : Nat) : List Sym :=
  List.flatten
    [addrFrame a 0#1 true, [.send r true], sendBytes data 0 k, [.send (data.read k) false, .stop]]

/-- The frame of a write message whose byte `k` is refused (R80). -/
def writeRefused (a : Addr7) (data : Memory) (k : Nat) : List Sym :=
  List.flatten [addrFrame a 0#1 true, sendBytes data 0 k, [.send (data.read k) false, .stop]]

/-- The frame of a transfer whose first address byte is refused (R80). -/
def addressRefused (a : Addr7) (rw : BitVec 1) : List Sym :=
  List.flatten [addrFrame a rw false, [.stop]]

/-- The line events of CONFIGURE, oldest first: a STOP with no sample, SCL released, `k` samples of 1,
then a 0 if `low`, and the idle levels of the detected mode (spec/40_softbus.md R75). -/
def configureEvents (k : Nat) (low : Bool) : List LineEvent :=
  List.flatten
    [[.drive .scl .low, .wait .half, .drive .sda .low, .wait .half, .drive .scl .float, .wait .half,
        .drive .sda .float, .wait .full, .drive .scl .float],
      (List.replicate k [LineEvent.wait .half, .sample .scl true]).flatten,
      if low = true then [.wait .half, .sample .scl false] else [],
      [.drive .sda (if low = true then .high else .float),
        .drive .scl (if low = true then .high else .float)]]

/-- The line events of a wait for the clock that samples `k` zeros and then `b`, oldest first
(spec/40_softbus.md R67). -/
def stretchEvents (b : Bool) : Nat → List LineEvent
  | 0 => [.sample .scl b]
  | k + 1 => .sample .scl false :: .wait .poll :: stretchEvents b k

/-- The line events of a START whose clock is held low past the bound `n`, and of the abort, oldest first
(spec/40_softbus.md R69, R81). -/
def heldStartEvents (n : Nat) : List LineEvent :=
  List.flatten
    [[.drive .sda .float, .wait .half, .drive .scl .float], stretchEvents false n,
      [.drive .sda .float, .drive .scl .float]]

/-- The frame of a one-byte register write of `b` to register `r` that is refused at the byte (R86). -/
def writeByteRefused (a : Addr7) (r b : Byte) : List Sym :=
  List.flatten [addrFrame a 0#1 true, [.send r true, .send b false, .stop]]

/-- The frame of a one-byte register read of register `r` answered `b` (spec/41_register_interface.md
R85). -/
def readFrame (a : Addr7) (r b : Byte) : List Sym :=
  [.start, .send (addrByte a false) true, .send r true, .start, .send (addrByte a true) true,
    .recv b true, .stop]

/-- The frame of a one-byte register write of `b` to register `r` (R86). -/
def writeFrame (a : Addr7) (r b : Byte) : List Sym :=
  [.start, .send (addrByte a false) true, .send r true, .send b true, .stop]

/-- The frame of a field write to the charging IC: the read of the field's register answered `old`, then
the write of `new` (R91). -/
def fieldWriteFrame (p : Params) (f : FieldId) (old new : Byte) : List Sym :=
  readFrame p.chargerAddr (p.fields.get f).reg old ++ writeFrame p.chargerAddr (p.fields.get f).reg new

/-- The frame of a successful poll: STATUS, FAULT and BATTERY_ADC, in this order
(spec/42_charge_controller.md R101). -/
def pollFrame (p : Params) (b1 b2 b3 : Byte) : List Sym :=
  readFrame p.chargerAddr p.fields.status.reg b1 ++ readFrame p.chargerAddr p.fields.fault.reg b2 ++
    readFrame p.chargerAddr p.fields.batteryAdc.reg b3

/-- What a poll has read before its first, second or third read (R101). -/
def readsBefore (p : Params) (b1 b2 : Byte) : List (List Sym) :=
  [[], readFrame p.chargerAddr p.fields.status.reg b1,
    readFrame p.chargerAddr p.fields.status.reg b1 ++ readFrame p.chargerAddr p.fields.fault.reg b2]

/-- The frame of a CTRL_BOOT that finds the charging IC: its part identifier answered `b`, the field
writes of the four charge parameters, each from the first byte of its pair to the second, in this order,
and the first poll (spec/42_charge_controller.md R99; spec/70_reset_and_hazards.md R150). -/
def bootFrame (p : Params) (b : Byte) (cc pc tc cv : Byte × Byte) (b1 b2 b3 : Byte) : List Sym :=
  List.flatten
    [readFrame p.chargerAddr p.fields.partId.reg b, fieldWriteFrame p .chargeCurrent cc.1 cc.2,
      fieldWriteFrame p .prechargeCurrent pc.1 pc.2, fieldWriteFrame p .terminationCurrent tc.1 tc.2,
      fieldWriteFrame p .chargeVoltage cv.1 cv.2, pollFrame p b1 b2 b3]

/-- A bus that is ready, in push-pull (`od` false) or open-drain (`od` true) mode, and not detecting. -/
def BusReady (od : Bool) (s : State) : Prop :=
  s.bus.ready = true ∧ s.bus.detecting = false ∧
    s.bus.mode = if od then .openDrain else .pushPull

/-! ## The course of a transaction, whatever the clock and the acknowledges do -/

/-- The answers that line events take, oldest first: their samples. -/
def samplesOf : List LineEvent → List Bool
  | [] => []
  | .drive _ _ :: rest => samplesOf rest
  | .wait _ :: rest => samplesOf rest
  | .sample _ b :: rest => b :: samplesOf rest

/-- What the lines can show where they show the first list on a peer that does not stretch the clock
(spec/40_softbus.md R67): at each release of the clock up to `limit` zeros come before the 1; or, with
answer `false`, one release reads `limit + 1` zeros and nothing follows. -/
inductive Stretched (limit : Nat) : List LineEvent → Bool → List LineEvent → Prop
  | nil : Stretched limit [] true []
  | other (e : LineEvent) {es fs : List LineEvent} {c : Bool} : (∀ b, e ≠ .sample .scl b) →
    Stretched limit es c fs → Stretched limit (e :: es) c (e :: fs)
  | rise (k : Nat) {es fs : List LineEvent} {c : Bool} : k ≤ limit → Stretched limit es c fs →
    Stretched limit (.sample .scl true :: es) c (stretchEvents true k ++ fs)
  | held (es : List LineEvent) :
    Stretched limit (.sample .scl true :: es) false (stretchEvents false limit)

/-- A part of a frame with its place: `PH`, `MSG` and `BYTE` of an error there (spec/30_encoding.md R56;
spec/40_softbus.md R80, R81) and, for a data byte, its position in the buffer. -/
structure Part where
  sym : Sym
  ph : Bool
  msg : Nat
  byte : Nat
  pos : Nat
deriving DecidableEq, Repr

/-- The data bytes of write message `j` from byte `k` on, `n` left, its slice at `off`. -/
def sendParts (buf : Memory) (off j : Nat) : Nat → Nat → List Part
  | 0, _ => []
  | n + 1, k => ⟨.send (buf.read (off + k)) true, true, j, k, off + k⟩ :: sendParts buf off j n (k + 1)

/-- The data bytes of read message `j` from byte `k` on, `n` left, its slice at `off`. -/
def recvParts (peer : Memory) (off j : Nat) : Nat → Nat → List Part
  | 0, _ => []
  | n + 1, k =>
    ⟨.recv (peer.read (off + k)) (n == 0), true, j, k, off + k⟩ :: recvParts peer off j n (k + 1)

/-- The start and the address byte of message `j`, if it has an address phase (R79). -/
def addrParts (a : Addr7) (j : Nat) (d : Half) : List Part :=
  if j == 0 || descRS d then
    [⟨.start, false, j, 0, 0⟩, ⟨.send (addrByte a (descRD d)) true, false, j, 0, 0⟩] else []

/-- The parts of message `j`, its slice at `off` (R78). -/
def msgParts (a : Addr7) (j : Nat) (d : Half) (off : Nat) (buf peer : Memory) : List Part :=
  addrParts a j d ++
    (if descRD d then recvParts peer off j (descLen d) 0 else sendParts buf off j (descLen d) 0) ++
    (if descSP d then [⟨.stop, false, j, 0, 0⟩] else [])

/-- The parts of the messages `ds`, the first one's index `j` and its slice at `off`. -/
def partsFrom (a : Addr7) : List Half → Nat → Nat → Memory → Memory → List Part
  | [], _, _, _, _ => []
  | d :: rest, j, off, buf, peer =>
    msgParts a j d off buf peer ++ partsFrom a rest (j + 1) (off + descLen d) buf peer

/-- The parts of a TRANSFER whose every byte is acknowledged: those of `transferFrame`, placed
(`transferParts_syms` of Laws/Course.lean). -/
def transferParts (a : Addr7) (ds : List Half) (buf peer : Memory) : List Part :=
  partsFrom a ds 0 0 buf peer

/-- How a transaction ends: OK, or NO_ACK or TIMEOUT with its `PH`, `MSG` and `BYTE`. -/
inductive Ending where
  | ok
  | noAck (ph : Bool) (msg byte : Nat)
  | timeout (ph : Bool) (msg byte : Nat)
deriving DecidableEq, Repr

/-- Both lines released, with no stop waveform (R81). -/
def releaseEvents (od : Bool) : List LineEvent :=
  [.drive .sda (hiLevel od), .drive .scl (hiLevel od)]

/-- A course of a transaction whose parts are given: its line events, its ending, and the parts that
came through. Every part comes through, the clock stretched or not; or a byte sent is refused, and a stop
ends it with NO_ACK at that byte (R80); or the clock is held low past the bound in a part, and the lines
are released with TIMEOUT at that part (R81); or in the stop after a refused byte, with TIMEOUT and not
NO_ACK, `PH` and `BYTE` 0 (R80; spec/60_exceptions.md R128). -/
inductive Course (limit : Nat) (od : Bool) :
    List Part → List LineEvent → Ending → List Part → Prop
  | done : Course limit od [] [] .ok []
  | next (y : Part) {ys got : List Part} {es fs : List LineEvent} {e : Ending} :
    Stretched limit (y.sym.events od) true es → Course limit od ys fs e got →
    Course limit od (y :: ys) (es ++ fs) e (y :: got)
  | refused (v : Byte) (y : Part) (ys : List Part) {es fs : List LineEvent} : y.sym = .send v true →
    Stretched limit ((Sym.send v false).events od) true es →
    Stretched limit (Sym.stop.events od) true fs →
    Course limit od (y :: ys) (es ++ fs) (.noAck y.ph y.msg y.byte) []
  | held (y : Part) (ys : List Part) {es : List LineEvent} :
    Stretched limit (y.sym.events od) false es →
    Course limit od (y :: ys) (es ++ releaseEvents od) (.timeout y.ph y.msg y.byte) []
  | refusedHeld (v : Byte) (y : Part) (ys : List Part) {es fs : List LineEvent} :
    y.sym = .send v true → Stretched limit ((Sym.send v false).events od) true es →
    Stretched limit (Sym.stop.events od) false fs →
    Course limit od (y :: ys) (es ++ fs ++ releaseEvents od) (.timeout false y.msg 0) []

/-- Position `i` of the buffer was received by one of these parts. -/
def received (got : List Part) (i : Nat) : Bool :=
  got.any fun y => match y.sym with
    | .recv _ _ => y.pos == i
    | .send _ _ => false
    | .start => false
    | .stop => false

/-- What a transaction that ended early leaves: the bus stopped, its lines idle, the bytes received in
`got` in the data port and nothing else changed there (R80, R81; spec/60_exceptions.md R129). -/
structure EndedEarly (got : List Part) (peer : Memory) (es : List LineEvent) (s t : State) : Prop where
  trace : t.trace = es.reverse ++ s.trace
  owned : t.bus.busOwned = false
  scl : t.bus.sclDrv = s.bus.mode.idle
  sda : t.bus.sdaDrv = s.bus.mode.idle
  unmasked : t.bus.irqMask = false
  data : ∀ i, t.ports.data.read i =
    if received got i = true then peer.read i else s.ports.data.read i
  val : t.ports.val = s.ports.val

/-! ## The wording of rules R62 and R77 -/

/-- The conditions of spec/30_encoding.md R62 under which a command word is illegal. -/
def IllegalCommandWord (w : Word) : Prop :=
  let opc := w.extractLsb' 24 8
  let addr := w.extractLsb' 17 7
  let sel := w.extractLsb' 8 8
  let imm := w.extractLsb' 0 8
  opc ∉ [0x01#8, 0x02#8, 0x10#8, 0x11#8, 0x12#8, 0x13#8, 0x14#8, 0x20#8, 0x21#8, 0x40#8] ∨
    w.extractLsb' 16 1 ≠ 0#1 ∨
    (opc ∈ [0x01#8, 0x12#8, 0x13#8, 0x14#8, 0x20#8, 0x21#8, 0x40#8] ∧ addr ≠ 0#7) ∨
    (opc ∈ [0x01#8, 0x02#8, 0x14#8, 0x20#8, 0x21#8] ∧ sel ≠ 0#8) ∨
    (opc ∈ [0x12#8, 0x13#8, 0x14#8, 0x20#8, 0x21#8, 0x40#8] ∧ imm ≠ 0#8) ∨
    (opc = 0x01#8 ∧ imm.extractLsb' 1 7 ≠ 0#7) ∨
    (opc ∈ [0x12#8, 0x13#8] ∧ 20 < sel.toNat) ∨
    (opc = 0x40#8 ∧ 3 < sel.toNat)

/-- The conditions of R62 under which an event word is ignored. -/
def MalformedEventWord (w : Word) : Prop :=
  w.extractLsb' 24 8 ∉ [0x30#8, 0x31#8, 0x32#8, 0x33#8] ∨ w.extractLsb' 0 24 ≠ 0#24

/-- The four clauses of spec/40_softbus.md R77, over the descriptor port. -/
def ValidTransfer (p : Params) (desc : Cells 16) (n : Nat) : Prop :=
  (1 ≤ n ∧ n ≤ p.maxMsgs) ∧
    (∀ j < n, (desc.read j).extractLsb' 8 5 = 0#5 ∧ ((desc.read j).extractLsb' 0 8).toNat ≤ p.maxLen ∧
      ((desc.read j).getLsbD 13 = true → 1 ≤ ((desc.read j).extractLsb' 0 8).toNat)) ∧
    (∀ j, j + 1 < n → (desc.read j).getLsbD 14 = false) ∧
    (∀ j, 1 ≤ j → j < n → (desc.read j).getLsbD 15 = false →
      (desc.read j).getLsbD 13 = false ∧ (desc.read (j - 1)).getLsbD 13 = false)

/-! ## Words and bytes read bit by bit -/

/-- The result word has these fields and 0 in every other bit (spec/30_encoding.md R56). -/
structure ResultFields (w : Word) (code : Nat) (ph : Bool) (msg byte : Nat) (txn : Bool) : Prop where
  code : (w.extractLsb' 0 4).toNat = code
  ph : w.getLsbD 4 = ph
  zLow : w.extractLsb' 5 3 = 0#3
  msg : (w.extractLsb' 8 8).toNat = msg
  byte : (w.extractLsb' 16 8).toNat = byte
  txn : w.getLsbD 24 = txn
  zHigh : w.extractLsb' 25 7 = 0#7

/-- BUS_STATUS (spec/10_state.md R31). -/
def BusStatusIs (s : State) (w : Word) : Prop :=
  (w.extractLsb' 0 2).toNat =
      (match s.bus.mode with | .unknown => 0 | .pushPull => 1 | .openDrain => 2) ∧
    w.getLsbD 2 = s.bus.ready ∧ w.getLsbD 3 = s.bus.busOwned ∧ w.getLsbD 4 = s.bus.irqMask ∧
    w.getLsbD 5 = (match s.bus.rate with | .standard => false | .fast => true) ∧
    w.extractLsb' 6 26 = 0#26

/-- CTRL_STATUS (spec/10_state.md R31). -/
def CtrlStatusIs (s : State) (w : Word) : Prop :=
  (w.extractLsb' 0 2).toNat = (match s.ctl.phase with | .boot => 0 | .parked => 1 | .run => 2) ∧
    (w.extractLsb' 2 2).toNat = (match s.ctl.pstate with
      | .sleeping => 0 | .powered => 1 | .coolingDown => 2 | .shippingMode => 3) ∧
    w.getLsbD 4 = s.ctl.charging ∧ w.getLsbD 5 = s.ctl.ssdPending ∧
    w.getLsbD 6 = s.ctl.overTemp ∧ w.getLsbD 7 = s.ctl.statusValid ∧
    w.getLsbD 8 = s.ctl.status.fault.thermal ∧ w.getLsbD 9 = s.ctl.status.fault.battery ∧
    w.getLsbD 10 = s.ctl.status.fault.charger ∧ w.getLsbD 11 = s.ctl.status.fault.boost ∧
    w.getLsbD 12 = s.ctl.status.fault.watchdog ∧
    (w.extractLsb' 13 2).toNat = (match s.ctl.status.chargeState with
      | .notCharging => 0 | .precharge => 1 | .fastCharge => 2 | .terminated => 3) ∧
    w.getLsbD 15 = s.ctl.status.busPresent ∧
    w.getLsbD 16 = s.ev.flag.button ∧ w.getLsbD 17 = s.ev.flag.chgIrq ∧
    w.getLsbD 18 = s.ev.flag.thermal ∧ w.getLsbD 19 = s.ev.flag.hostAck ∧
    w.getLsbD 20 = s.ev.pend.button ∧ w.getLsbD 21 = s.ev.pend.chgIrq ∧
    w.getLsbD 22 = s.ev.pend.thermal ∧ w.getLsbD 23 = s.ev.pend.hostAck ∧
    (w.extractLsb' 24 2).toNat = (match s.btn.state with | .released => 0 | .pressed => 1 | .held => 2) ∧
    w.getLsbD 26 = s.btn.awaitRelease ∧ w.getLsbD 27 = s.ctl.flashActive ∧
    w.getLsbD 28 = s.ctl.adcCont ∧ w.getLsbD 29 = s.ctl.batfetOff ∧ w.extractLsb' 30 2 = 0#2

/-- BATTERY (spec/10_state.md R31). -/
def BatteryIs (s : State) (w : Word) : Prop :=
  w.extractLsb' 0 8 = s.ctl.battery.pct ∧ w.extractLsb' 8 8 = s.ctl.battery.raw ∧
    (w.extractLsb' 16 16).toNat = s.ctl.battery.mV.toNat % 2 ^ 16

/-- OUTPUTS (spec/10_state.md R31). -/
def OutputsIs (s : State) (w : Word) : Prop :=
  w.getLsbD 0 = s.out.powerRail ∧
    (w.extractLsb' 1 2).toNat = (match s.out.fanMode with | .off => 0 | .configured => 1 | .max => 2) ∧
    w.extractLsb' 3 3 = s.out.ledMode ∧ w.getLsbD 6 = s.out.ledOn ∧
    w.getLsbD 7 = s.out.shutdownReq ∧ w.getLsbD 8 = s.out.lowPower ∧ w.extractLsb' 9 7 = 0#7 ∧
    w.extractLsb' 16 8 = s.ctl.status.sourceType ∧ w.extractLsb' 24 8 = 0#8

/-- The state word a selector names (R31). -/
def StateWordIs (sel : Byte) (s : State) (w : Word) : Prop :=
  (sel = 0#8 → BusStatusIs s w) ∧ (sel = 1#8 → CtrlStatusIs s w) ∧ (sel = 2#8 → BatteryIs s w) ∧
    (sel = 3#8 → OutputsIs s w)

/-- The raw value of a field in a register byte, `byte[pos+width-1 : pos]` (spec/20_memory.md R38). -/
def rawBits (d : FieldDesc) (b : Byte) : Nat := b.toNat / 2 ^ d.pos % 2 ^ d.width

/-- `new` is `old` with the field's bits those of `raw` (spec/41_register_interface.md R91). -/
def Merged (d : FieldDesc) (old : Byte) (raw : Nat) (new : Byte) : Prop :=
  ∀ i < 8, new.getLsbD i =
    if d.pos ≤ i ∧ i < d.pos + d.width then raw.testBit (i - d.pos) else old.getLsbD i

/-- `new` is `old` with field `f`'s bits those of the physical value `phys` (R89, R91). -/
def FieldMerged (p : Params) (f : FieldId) (phys : Nat) (old new : Byte) : Prop :=
  Merged (p.fields.get f) old ((p.fields.get f).encodePhys phys) new

/-- The part identifier register byte `b` holds the expected identifier (R92). -/
def PartExpected (p : Params) (b : Byte) : Prop :=
  rawBits p.fields.partId b * p.fields.partId.step + p.fields.partId.offset = p.partIdExpected

/-- The status a poll decodes from the register bytes of STATUS and FAULT (R101); `decodeStatus` is the
instance's (log 2). -/
def decodedStatus (p : Params) (b1 b2 : Byte) : ChargerStatus :=
  decodeStatus p (BitVec.ofNat 8 (rawBits p.fields.status b1)) (BitVec.ofNat 8 (rawBits p.fields.fault b2))

/-- The controller's view is the one a poll at `now` takes from the register bytes `b1` of STATUS, `b2`
of FAULT and `b3` of BATTERY_ADC (spec/42_charge_controller.md R101, R102, R105). -/
structure PolledView (p : Params) (now : Word) (b1 b2 b3 : Byte) (c : Ctl) : Prop where
  status : c.status = decodedStatus p b1 b2
  valid : c.statusValid = true
  charging : c.charging = true ↔ c.status.chargeState ≠ .notCharging
  raw : c.battery.raw.toNat = rawBits p.fields.batteryAdc b3
  mV : c.battery.mV.toNat =
    rawBits p.fields.batteryAdc b3 * p.fields.batteryAdc.step + p.fields.batteryAdc.offset
  percent : c.battery.pct.toNat = pct c.battery.mV.toNat c.status.chargeState
  time : c.lastPoll = now

/-! ## Events inside a command -/

/-- Each line event made between `s` and `t` was one instant of the event port, with the mask at
`mask`; `l` and `q` are the latches and the port after them (log 4). -/
def Instants (mask : Bool) (s t : State) (q : List Arrival) (l : Latches) : Prop :=
  ∃ new, t.trace = new ++ s.trace ∧ (q, l) = arriveN mask new.length s.ports.evt s.ev

/-! ## Frames of whole commands -/

/-- A register command's frame but for the ports it names: nothing outside the bus side of the block
changes, the bus set-up stays, and events are unmasked if they were. -/
structure BusCommand (s t : State) : Prop where
  bus : BusOnly s t
  setup : SameSetup s t
  mask : s.bus.irqMask = false → t.bus.irqMask = false

/-- `s` with the data bytes, the value and the result that `t` has. -/
def withPortsOf (t s : State) : State :=
  s.onPorts fun p => { p with data := t.ports.data, val := t.ports.val, result := t.ports.result }

/-- What a controller command leaves alone: the command port's data, value and descriptors, the inputs,
the parameters and the environment's plans (spec/42_charge_controller.md R99, R116). -/
structure CtlCommand (s t : State) : Prop where
  ports : t.ports = { s.ports with evt := t.ports.evt, result := t.ports.result }
  par : t.par = s.par
  moves : t.env.moves = s.env.moves
  trace : ∃ new, t.trace = new ++ s.trace
  mask : s.bus.irqMask = false → t.bus.irqMask = false
  calm : Calm s → t.ports.evt = [] ∧ t.ev.pend = .none

/-! ## The conditions of a control-loop iteration -/

/-- The controller runs (spec/10_state.md R23), is not in ShippingMode, and is not blocked after a hold:
its iteration reaches phase 4 (spec/42_charge_controller.md R106). -/
structure Unblocked (s : State) : Prop where
  run : s.ctl.phase = .run
  awake : s.ctl.pstate ≠ .shippingMode
  free : s.btn.awaitRelease = false

/-- The hold threshold is crossed in this sample (spec/43_button_debouncer.md R123). -/
def HoldFires (s : State) : Prop :=
  s.btn.state = .pressed ∧ s.ports.btnLevel = false ∧
    s.par.holdMs < elapsed s.ports.nowMs s.btn.pressStart

/-- A poll is due (spec/42_charge_controller.md R106 phase 5). -/
def PollDue (s : State) : Prop :=
  s.ev.flag.chgIrq = true ∨ s.par.pollMs ≤ elapsed s.ports.nowMs s.ctl.lastPoll

/-- No soft shutdown ends in this iteration: none is pending, or it is neither acknowledged nor expired
(R110). -/
def NoShutdownEnd (s : State) : Prop :=
  s.ctl.ssdPending = true → s.ev.flag.hostAck = false ∧ elapsed s.ports.nowMs s.ctl.ssdStart < 2500

/-- The iteration polls with the bus as it stands: not blocked, a poll due, no soft shutdown ending, and
the dwell over in CoolingDown (R106 phases 2 to 5). -/
structure Polls (s : State) : Prop where
  unblocked : Unblocked s
  due : PollDue s
  shutdown : NoShutdownEnd s
  dwell : s.ctl.pstate = .coolingDown → 120000 ≤ elapsed s.ports.nowMs s.ctl.coolStart

/-- The controller once a dwell is over: CoolingDown is left for Sleeping and the over-temperature flag
is clear; any other state stays (R104, R106 phase 2). -/
def dwellOver (c : Ctl) : Ctl :=
  if c.pstate = .coolingDown then { c with pstate := .sleeping, overTemp := false } else c

/-- What the poll phase of an iteration makes on the lines and leaves in the controller's view: its
frame, whether it decodes a thermal fault, and the status, voltage and validity after it. -/
structure PollOutcome where
  frame : List Sym
  hot : Bool
  status : ChargerStatus
  mV : Nat
  valid : Bool

/-- The poll phase of an iteration outside CoolingDown (R101, R106 phase 5): no poll is due; it reads
three register bytes; or its first, second or third read is refused at its address. -/
inductive PollMakes (s : State) : PollOutcome → Prop
  | idle : ¬PollDue s →
    PollMakes s ⟨[], false, s.ctl.status, s.ctl.battery.mV.toNat, s.ctl.statusValid⟩
  | done (b1 b2 b3 : Byte) : PollDue s →
    PollMakes s ⟨pollFrame s.par b1 b2 b3, (decodedStatus s.par b1 b2).fault.thermal,
      decodedStatus s.par b1 b2,
      rawBits s.par.fields.batteryAdc b3 * s.par.fields.batteryAdc.step + s.par.fields.batteryAdc.offset,
      true⟩
  | refused (b1 b2 : Byte) (pre : List Sym) : PollDue s → pre ∈ readsBefore s.par b1 b2 →
    PollMakes s ⟨pre ++ addressRefused s.par.chargerAddr 0#1, false, s.ctl.status,
      s.ctl.battery.mV.toNat, s.ctl.statusValid⟩

/-- The power-on precondition after that poll phase (R108, R102; the block is not in CoolingDown). -/
def PollOutcome.Allows (o : PollOutcome) : Prop :=
  o.valid = true ∧ (2700 < o.mV ∨ o.status.chargeState ≠ .notCharging) ∧
    o.status.fault = ⟨false, false, false, false, false⟩

/-- A battery fault is decoded (R107). -/
def BatteryFault (c : Ctl) : Prop := c.statusValid = true ∧ c.status.fault.battery = true

/-- A thermal alert is latched, or an over-temperature is, once any dwell is over (R104, R106 phase 4). -/
def Alert (s : State) : Prop := s.ev.flag.thermal = true ∨ (dwellOver s.ctl).overTemp = true

/-- A pending soft shutdown is acknowledged or expires in this iteration (R110). -/
def ShutdownEnds (s : State) : Prop :=
  s.ctl.ssdPending = true ∧
    (s.ev.flag.hostAck = true ∨ 2500 ≤ elapsed s.ports.nowMs s.ctl.ssdStart)

/-- On a peer that answers as the frame `f` says, a CTRL_STEP from `s` makes exactly that frame on the
lines and ends in power state `p`. -/
def StepMakes (od : Bool) (s : State) (f : List Sym) (p : PState) : Prop :=
  s.env.gives (frameAnswers od f) →
    ∃ t, exec .ctrlStep s = .next t ∧ t.trace = (frameEvents od f).reverse ++ s.trace ∧
      t.ctl.pstate = p

/-- The timers of an iteration, any dwell being over (R106 phase 2): a soft shutdown ends, with the frame
`off` on the lines and in Sleeping, or none does, with nothing on the lines and in the power state they
leave. -/
def TimersMake (s : State) (off pre : List Sym) (start : PState) : Prop :=
  (ShutdownEnds s ∧ pre = off ∧ start = .sleeping) ∨
    (NoShutdownEnd s ∧ pre = [] ∧ start = (dwellOver s.ctl).pstate)

/-- Nothing in this iteration polls or makes a fault transition. -/
structure NoFault (s : State) : Prop where
  cool : s.ctl.overTemp = false
  alert : s.ev.flag.thermal = false
  battery : ¬BatteryFault s.ctl
  poll : ¬PollDue s

/-- The power-on precondition in the words of R108. -/
def PowerOnWords (c : Ctl) : Prop :=
  c.statusValid = true ∧ (2700 < c.battery.mV.toNat ∨ c.charging = true) ∧
    (c.status.fault.thermal = false ∧ c.status.fault.battery = false ∧ c.status.fault.charger = false ∧
      c.status.fault.boost = false ∧ c.status.fault.watchdog = false) ∧ c.pstate ≠ .coolingDown

/-- The fault pattern still runs after this iteration's flash timer: five flashes of 2 * 100 ms (R117). -/
def flashStill (s : State) : Bool :=
  s.ctl.flashActive && decide (elapsed s.ports.nowMs s.ctl.flashStart < 1000)

/-- The LED of a controller with no pattern running (R118). -/
def ledSpec (c : Ctl) : Nat :=
  if c.pstate = .coolingDown ∨ c.pstate = .shippingMode then 0
  else if c.charging = true then (if c.status.chargeState = .terminated then 7 else 6)
  else if c.pstate = .powered then
    (if 160 ≤ c.battery.pct.toNat then 1 else if 64 ≤ c.battery.pct.toNat then 2
      else if 32 ≤ c.battery.pct.toNat then 3 else 4)
  else 0

/-- The LED outputs agree with the controller at time `now` (R119). -/
def LedSays (now : Word) (t : State) : Prop :=
  (t.ctl.flashActive = true →
      t.out.ledMode = 5#3 ∧ (t.out.ledOn = true ↔ elapsed now t.ctl.flashStart / 100 % 2 = 0)) ∧
    (t.ctl.flashActive = false → t.out.ledMode.toNat = ledSpec t.ctl ∧ t.out.ledOn = false)

/-- The debouncer after this iteration's sample (spec/43_button_debouncer.md R123). -/
def buttonAfter (s : State) : Btn := (s.btn.debounce s.par s.ports.nowMs s.ports.btnLevel).2

/-- The button after a hold that fires: held, the loop blocked from now on (R125). -/
def heldButton (s : State) : Btn :=
  { s.btn with
    state := .held
    lastRaw := false
    rawSince := if s.btn.lastRaw = true then s.ports.nowMs else s.btn.rawSince
    awaitRelease := true
    awaitSince := s.ports.nowMs }

/-- The state after phase 6 of an iteration that is not blocked (spec/42_charge_controller.md R106). -/
def afterFaults (s : State) : State :=
  faultTransitions s.ports.nowMs (pollPhase s.ports.nowMs s.ev.flag (thermalPhase s.ev.flag
    (debouncePhase s.ports.nowMs s.ports.btnLevel (ssdPhase s.ports.nowMs s.ev.flag.hostAck
      (dwellTimer s.ports.nowMs (flashTimer s.ports.nowMs (snapshot s)))))))

/-- The debouncer over a list of samples: whether any fires, and the state after the last one. -/
def samplesFire (p : Params) : List (Word × Bool) → Btn → Bool × Btn
  | [], b => (false, b)
  | (now, level) :: rest, b =>
    ((b.debounce p now level).1 || (samplesFire p rest (b.debounce p now level).2).1,
      (samplesFire p rest (b.debounce p now level).2).2)

/-- No sample of the list leaves the debouncer Released. -/
def NeverReleased (p : Params) : List (Word × Bool) → Btn → Prop
  | [], _ => True
  | (now, level) :: rest, b =>
    (b.debounce p now level).2.state ≠ .released ∧ NeverReleased p rest (b.debounce p now level).2

/-- A one-byte REG_READ of register `reg` of the charging IC from `s` leaves `r` (R85, R90). -/
def ReadsRegister (reg : Byte) (s r : State) : Prop :=
  exec (.regRead s.par.chargerAddr reg 1#8) s = .next r

/-- What a CTRL_STEP from `s` to `t` leaves whose poll failed, the lines then being as in `r`: the
controller's view but for the time of the poll; the lines of `r`, with what a transition makes on them
after it; and, where no alert, no battery fault and no hold leads to one, just these and nothing else of
the controller but its timers (R101, R106; spec/60_exceptions.md R130). -/
structure FailedPoll (s r t : State) : Prop where
  result : t.ports.result = 0#32
  status : t.ctl.status = s.ctl.status
  valid : t.ctl.statusValid = s.ctl.statusValid
  charging : t.ctl.charging = s.ctl.charging
  battery : t.ctl.battery = s.ctl.battery
  time : t.ctl.lastPoll = s.ports.nowMs
  lines : ∃ new, t.trace = new ++ r.trace
  quiet : ¬Alert s → ¬BatteryFault s.ctl → ¬HoldFires s →
    t.trace = r.trace ∧ t.bus = r.bus ∧
      t.ctl = { dwellOver s.ctl with lastPoll := s.ports.nowMs, flashActive := flashStill s } ∧
      t.out = { s.out with
        fanMode := t.ctl.pstate.fan
        shutdownReq := s.out.shutdownReq && decide (elapsed s.ports.nowMs s.ctl.ssdStart < 30)
        ledMode := t.out.ledMode, ledOn := t.out.ledOn }

/-- What a CTRL_BOOT from `s` to `t` leaves that does not find the charging IC, the lines then being as
in `r`: phase Parked, the low-power output and HARDWARE_ABSENT; nothing more is sent (R99, R100). -/
structure BootParks (s r t : State) : Prop where
  result : t.ports.result = 6#32
  ctl : t.ctl = { s.ctl with phase := .parked }
  out : t.out = { s.out with lowPower := true }
  trace : t.trace = r.trace
  bus : t.bus = r.bus

/-- The command port and the data ports given other contents. -/
def otherPorts (desc : Cells 16) (data : Memory) (val result : Word) (s : State) : State :=
  s.onPorts fun p => { p with desc := desc, data := data, val := val, result := result }

end Sys2Proof.Machine
end

