-- ==== Sys2Proof/Certificates/Slice0/Obligations.lean ====
section
/-! DEFINITION. The statements for the provers, in the order of the spec's files: encoding, reset, the
machine as a whole, invariants, events, the SoftBus Master, the Register Interface, the Charge
Controller, the Button Debouncer. -/

section

open Sys2Proof Sys2Proof.Machine

/-! ## Encoding -/

/-- Every well-formed instruction's word decodes to it, on its own port, with every operand at every
value (spec/30_encoding.md R51 to R54). -/
def Obligations.DecodeOfEncode : Prop :=
  ∀ i : Instr, i.wf = true → decode i.port (encode i) = .ok i

/-- A word that decodes is the word of what it decodes to, which is well formed and belongs to that
port: no two words share a meaning (R52, R53, R62). -/
def Obligations.EncodeOfDecode : Prop :=
  ∀ (p : Port) (w : Word) (i : Instr), decode p w = .ok i → encode i = w ∧ i.wf = true ∧ i.port = p

/-- Words written out from the tables of R52 and R53. -/
def Obligations.WrittenWordsDecode : Prop :=
  decode .command 0x01000001#32 = .ok (.configure .fast) ∧
    decode .command 0x02D40002#32 = .ok (.transfer 0x6A#7 2#8) ∧
    decode .command 0x10D40B01#32 = .ok (.regRead 0x6A#7 0x0B#8 1#8) ∧
    decode .command 0x11D40403#32 = .ok (.regWrite 0x6A#7 0x04#8 3#8) ∧
    decode .command 0x13000700#32 = .ok (.fieldWrite 7#8) ∧
    decode .command 0x21000000#32 = .ok .ctrlStep ∧
    decode .command 0x40000100#32 = .ok (.readState 1#8) ∧
    decode .event 0x32000000#32 = .ok .evtThermal

/-- R62: exactly the listed words are illegal; a step that takes one ends with ILLEGAL_COMMAND and
changes nothing else (the command leaves its port); a TRANSFER of no message is BAD_SEQUENCE, not
illegal; exactly the listed event words are ignored. -/
def Obligations.IllegalWordsHaveNoEffect : Prop :=
  (∀ w : Word, (∃ i, decodeCommand w = .ok i) ↔ ¬IllegalCommandWord w) ∧
    (∀ (s : State) (w : Word), dueEvent s.ports.evt = none → s.ports.cmd = some w →
      IllegalCommandWord w →
      step s = .next (s.onPorts fun p => { p with cmd := none, result := 5#32 })) ∧
    (∀ (s : State) (a : Addr7), s.bus.ready = true →
      exec (.transfer a 0#8) s = .next (s.onPorts fun p => { p with result := 4#32 })) ∧
    (∀ w : Word, (∃ i, decodeEvent w = .ok i) ↔ ¬MalformedEventWord w) ∧
    (∀ (s : State) (w : Word) (rest : List Arrival), s.ports.evt = ⟨0, w⟩ :: rest →
      MalformedEventWord w → step s = .next (s.onPorts fun p => { p with evt := rest }))

/-- The result word's layout, and that every command writes one: a code of 0 to 6 and 0 in the reserved
bits; PH, MSG and BYTE are 0 unless the code is NO_ACK or TIMEOUT, and TXN is 0 but for an error of
FIELD_WRITE (R56). -/
def Obligations.EveryCommandWritesItsResult : Prop :=
  (∀ (c : ResCode) (ph txn : Bool) (msg byte : Byte),
      ResultFields (Result.word ⟨c, ph, msg, byte, txn⟩) c.code ph msg.toNat byte.toNat txn) ∧
    [ResCode.ok, .noAck, .busNotReady, .timeout, .badSequence, .illegalCommand, .hardwareAbsent].map
      ResCode.code = [0, 1, 2, 3, 4, 5, 6] ∧
    ∀ (i : Instr) (s : State), i.port = .command →
      ∃ t code ph msg byte txn, exec i s = .next t ∧
        ResultFields t.ports.result code ph msg byte txn ∧ code ≤ 6 ∧
        (code ≠ 1 → code ≠ 3 → ph = false ∧ msg = 0 ∧ byte = 0) ∧
        (txn = true → code ≠ 0 ∧ ∃ f, i = .fieldWrite f)

/-! ## The machine as a whole -/

/-- A word that decodes runs as `exec` of it: a due event word first, else the command on the port;
what step adds is that the word leaves its port. The order is log 5 (DESIGN CHOICE). -/
def Obligations.StepRunsTheDecodedWord : Prop :=
  (∀ (s : State) (w : Word) (rest : List Arrival) (i : Instr), s.ports.evt = ⟨0, w⟩ :: rest →
      decode .event w = .ok i → step s = exec i (s.onPorts fun p => { p with evt := rest })) ∧
    (∀ (s : State) (w : Word) (i : Instr), (∀ a rest, s.ports.evt = a :: rest → a.delay ≠ 0) →
      s.ports.cmd = some w → decode .command w = .ok i →
      step s = exec i (s.onPorts fun p => { p with cmd := none }))

/-- No code is a trap: from every state the machine goes on (spec/60_exceptions.md R127, R132, R133).
With no command and no act of the environment it changes nothing but the event latches and which event
words are still to come (spec/10_state.md R19, R29). -/
def Obligations.NoStepStops : Prop :=
  (∀ s : State, ∃ t, step s = .next t) ∧
    ∀ s : State, s.ports.cmd = none → s.env.moves = [] →
      ∃ t, step s = .next t ∧
        t = { s with ev := t.ev, ports := { s.ports with evt := t.ports.evt } }

/-- R146: the state after a power-on has every reset value the spec gives, whatever the parameters and
whether it is the first one or an act of the environment; after it the block waits. -/
def Obligations.ResetLeavesTheStatedValues : Prop :=
  ∀ (p : Params) (s : State), (s = State.resetOf p ∨ s = State.reset ∨
      ∃ u : State, s = u.move .powerOn) →
    (s.bus.mode = .unknown ∧ s.bus.ready = false ∧ s.bus.rate = .standard ∧
        s.bus.detecting = false ∧ s.bus.busOwned = false ∧ s.bus.sclDrv = .float ∧
        s.bus.sdaDrv = .float ∧ s.bus.irqMask = false) ∧
      (s.ctl.phase = .boot ∧ s.ctl.pstate = .sleeping ∧ s.ctl.charging = false ∧
        s.ctl.ssdPending = false ∧ s.ctl.overTemp = false ∧
        s.ctl.status = ⟨⟨false, false, false, false, false⟩, .notCharging, 0#8, false⟩ ∧
        s.ctl.statusValid = false ∧ s.ctl.battery = ⟨0#8, 0#32, 0#8⟩ ∧ s.ctl.lastPoll = 0#32 ∧
        s.ctl.flashActive = false ∧ s.ctl.adcCont = false ∧ s.ctl.batfetOff = false) ∧
      (s.btn.state = .released ∧ s.btn.lastRaw = true ∧ s.btn.rawSince = 0#32 ∧
        s.btn.awaitRelease = false) ∧
      (s.ev.flag = ⟨false, false, false, false⟩ ∧ s.ev.pend = ⟨false, false, false, false⟩) ∧
      s.out = ⟨false, .off, 0#3, false, false, false⟩ ∧
      (s.ports.cmd = none ∧ s.ports.result = 0#32) ∧
      (s.ports.evt = [] → s.env.moves = [] → step s = .next s)

/-- R148: what each command does right after reset. -/
def Obligations.CommandsRightAfterReset : Prop :=
  ∀ (p : Params) (s : State), s = State.resetOf p →
    exec .ctrlStep s = .next (s.onPorts fun q => { q with result := 5#32 }) ∧
      (∀ a n, exec (.transfer a n) s = .next (s.onPorts fun q => { q with result := 2#32 })) ∧
      (∀ a r len, exec (.regRead a r len) s = .next (s.onPorts fun q => { q with result := 2#32 })) ∧
      (∀ a r len, exec (.regWrite a r len) s = .next (s.onPorts fun q => { q with result := 2#32 })) ∧
      (∀ f : Byte, f.toNat ≤ 20 →
        exec (.fieldRead f) s = .next (s.onPorts fun q => { q with result := 2#32 }) ∧
          exec (.fieldWrite f) s = .next (s.onPorts fun q => { q with result := 2#32 })) ∧
      (∃ t, exec .probe s = .next t ∧ t.ports.result = 6#32 ∧ t.trace = s.trace) ∧
      (∀ rate, ∃ t, exec (.configure rate) s = .next t ∧ t.ports.result = 0#32 ∧ t.bus.ready = true) ∧
      (∀ sel : Byte, sel.toNat ≤ 3 →
        exec (.readState sel) s = .next (s.onPorts fun q => { q with val := 0#32, result := 0#32 })) ∧
      (∃ t, exec .ctrlBoot s = .next t ∧ t.bus.ready = true ∧ t.ctl.phase ≠ .boot) ∧
      exec .evtButton s = .next { s with ev := ⟨⟨true, false, false, false⟩, s.ev.pend⟩ } ∧
      exec .evtChgIrq s = .next { s with ev := ⟨⟨false, true, false, false⟩, s.ev.pend⟩ } ∧
      exec .evtThermal s = .next { s with ev := ⟨⟨false, false, true, false⟩, s.ev.pend⟩ } ∧
      exec .evtHostAck s = .next { s with ev := ⟨⟨false, false, false, true⟩, s.ev.pend⟩ }

/-- The parameters of an instance are legal after reset and never written (spec/00_scope.md R8;
spec/20_memory.md R50). -/
def Obligations.ParametersAreFixed : Prop :=
  State.reset.par.wf = true ∧ ∀ s t : State, step s = .next t → t.par = s.par

/-- Only CTRL_BOOT and CTRL_STEP write the controller, the debouncer and the outputs, and only a
power-on else (spec/20_memory.md R47; spec/10_state.md R26 item 7): a step that takes an event word, or
any other command word, or in which the environment does anything but a power-on, leaves them alone,
whatever the environment has planned next. -/
def Obligations.OnlyTheMainLoopWritesTheController : Prop :=
  (∀ (i : Instr) (s t : State), i ≠ .ctrlBoot → i ≠ .ctrlStep → exec i s = .next t →
      t.ctl = s.ctl ∧ t.btn = s.btn ∧ t.out = s.out) ∧
    ∀ s t : State, step s = .next t →
      ((∃ w rest, s.ports.evt = ⟨0, w⟩ :: rest) ∨
        (∃ w, s.ports.cmd = some w ∧ w ≠ 0x20000000#32 ∧ w ≠ 0x21000000#32) ∨
        s.ports.cmd = none ∧ ∀ rest, s.env.moves ≠ .powerOn :: rest) →
      t.ctl = s.ctl ∧ t.btn = s.btn ∧ t.out = s.out

/-! ## Invariants -/

/-- After reset the four invariants hold. -/
def Obligations.InvariantsHoldAtReset : Prop :=
  ∀ p : Params, BusInv (State.resetOf p) ∧ CtlInv (State.resetOf p) ∧ TraceInv (State.resetOf p) ∧
    PortsWf (State.resetOf p)

/-- Between commands, from every state that is so: no detection and no mask, nothing pending, a ready
bus has a mode, the lines are idle or the bus is owned with SCL low (spec/40_softbus.md R65, R82;
spec/70_reset_and_hazards.md R157). -/
def Obligations.StepKeepsTheBusInvariant : Prop :=
  ∀ s t : State, BusInv s → step s = .next t → BusInv t

/-- Every step keeps the controller's invariants (spec/10_state.md R26; spec/42_charge_controller.md
R100, R102, R105, R120; spec/43_button_debouncer.md R125). -/
def Obligations.StepKeepsTheControllerInvariant : Prop :=
  ∀ s t : State, CtlInv s → step s = .next t → CtlInv t

/-- Every step keeps the pins where the line trace leaves them, and the block samples a line only while
it has released it (spec/00_scope.md R13, R14; spec/40_softbus.md R64). -/
def Obligations.StepSamplesOnlyReleasedLines : Prop :=
  ∀ s t : State, TraceInv s → step s = .next t → TraceInv t

/-- Every step keeps the data and descriptor ports in canonical form. -/
def Obligations.StepKeepsThePortsCanonical : Prop :=
  ∀ s t : State, PortsWf s → step s = .next t → PortsWf t

/-- Phase Parked is terminal: only a power-on leaves it, and until then the controller, the debouncer
and the outputs stay (spec/42_charge_controller.md R100; spec/60_exceptions.md R144). In it every output
but `lowPower` is at its reset value. -/
def Obligations.OnlyResetLeavesParked : Prop :=
  (∀ s t : State, step s = .next t →
      ((∃ w rest, s.ports.evt = ⟨0, w⟩ :: rest) ∨ s.ports.cmd ≠ none ∨
        ∀ rest, s.env.moves ≠ .powerOn :: rest) → s.ctl.phase = .parked →
      t.ctl = s.ctl ∧ t.out = s.out ∧ t.btn = s.btn) ∧
    ∀ s : State, CtlInv s → s.ctl.phase = .parked → s.out = ⟨false, .off, 0#3, false, false, true⟩

/-! ## Events -/

/-- R93: an event word performs the latch of its kind and nothing else, at any instant: as a step of
its own, and at every line primitive of a running command. -/
def Obligations.EventWordsOnlyLatch : Prop :=
  (∀ s : State, s.bus.irqMask = false →
      exec .evtButton s = .next { s with ev := { s.ev with flag := { s.ev.flag with button := true } } } ∧
        exec .evtChgIrq s =
          .next { s with ev := { s.ev with flag := { s.ev.flag with chgIrq := true } } } ∧
        exec .evtThermal s =
          .next { s with ev := { s.ev with flag := { s.ev.flag with thermal := true } } } ∧
        exec .evtHostAck s =
          .next { s with ev := { s.ev with flag := { s.ev.flag with hostAck := true } } }) ∧
    (∀ s : State, s.bus.irqMask = true →
      exec .evtButton s = .next { s with ev := { s.ev with pend := { s.ev.pend with button := true } } } ∧
        exec .evtChgIrq s =
          .next { s with ev := { s.ev with pend := { s.ev.pend with chgIrq := true } } } ∧
        exec .evtThermal s =
          .next { s with ev := { s.ev with pend := { s.ev.pend with thermal := true } } } ∧
        exec .evtHostAck s =
          .next { s with ev := { s.ev with pend := { s.ev.pend with hostAck := true } } }) ∧
    ∀ (s t : State) (w : Word) (rest : List Arrival) (i : Instr), s.ports.evt = ⟨0, w⟩ :: rest →
      decode .event w = .ok i → exec i (s.onPorts fun p => { p with evt := rest }) = .next t →
      (∀ l v, drive l v s = drive l v t) ∧ (∀ d, wait d s = wait d t) ∧ ∀ l, sample l s = sample l t

/-- Events that arrive during a valid TRANSFER are held pending, instant by instant, and become flags
when it returns by whatever path; the mask is then clear. CONFIGURE leaves the mask alone: events that
arrive during it become flags at once if they did before (spec/40_softbus.md R82, R75; spec/10_state.md
R29; spec/60_exceptions.md R138). How the instants are counted is log 4. -/
def Obligations.EventsWaitForTheTransfer : Prop :=
  (∀ (s : State) (a : Addr7) (n : Byte), s.bus.ready = true →
      ValidTransfer s.par s.ports.desc n.toNat →
      ∃ t l, exec (.transfer a n) s = .next t ∧ Instants true s t t.ports.evt l ∧
        l.flag = s.ev.flag ∧ t.ev.flag = s.ev.flag.union l.pend ∧ t.ev.pend = .none ∧
        t.bus.irqMask = false) ∧
    ∀ (s : State) (rate : Rate), ∃ t, exec (.configure rate) s = .next t ∧
      t.bus.irqMask = s.bus.irqMask ∧ Instants s.bus.irqMask s t t.ports.evt t.ev

/-! ## READ_STATE -/

/-- R98 with the layouts of R31: the value port gets the selected word, the result is OK and nothing
else changes, in every state; a selector above 3 is ILLEGAL_COMMAND; `irqMask` reads 0 between
commands. -/
def Obligations.ReadStateCopiesTheStateWord : Prop :=
  (∀ (s : State) (sel : Byte), sel.toNat ≤ 3 → ∃ w, StateWordIs sel s w ∧
      exec (.readState sel) s = .next (s.onPorts fun p => { p with val := w, result := 0#32 })) ∧
    (∀ (s : State) (sel : Byte), 3 < sel.toNat →
      exec (.readState sel) s = .next (s.onPorts fun p => { p with result := 5#32 })) ∧
    (∀ (s : State) (w : Word), BusInv s → BusStatusIs s w → w.getLsbD 4 = false) ∧
    ∀ p : Params, exec (.readState 1#8) (State.resetOf p) =
      .next ((State.resetOf p).onPorts fun q => { q with val := 0#32, result := 0#32 })

/-! ## SoftBus Master -/

/-- R67: the wait for the clock. It samples nothing while detecting or outside open-drain mode; else it
ends OK at the first 1, or with TIMEOUT after `STRETCH_LIMIT + 1` samples of 0. -/
def Obligations.ClockStretchWaitIsBounded : Prop :=
  (∀ s : State, s.bus.detecting = true ∨ s.bus.mode ≠ .openDrain → waitSclHigh s = .done () s) ∧
    (∀ (s : State) (k : Nat), s.bus.detecting = false → s.bus.mode = .openDrain →
      k ≤ s.par.stretchLimit → s.env.gives (List.replicate k false ++ [true]) →
      ∃ t, waitSclHigh s = .done () t ∧ t.env = s.env.skip (k + 1) ∧ t.bus = s.bus ∧
        t.trace = (stretchEvents true k).reverse ++ s.trace) ∧
    ∀ s : State, s.bus.detecting = false → s.bus.mode = .openDrain →
      s.env.gives (List.replicate (s.par.stretchLimit + 1) false) →
      ∃ t, waitSclHigh s = .timeout t ∧ t.env = s.env.skip (s.par.stretchLimit + 1) ∧
        t.bus = s.bus ∧
        t.trace = (stretchEvents false s.par.stretchLimit).reverse ++ s.trace

/-- One byte sent and one byte received on a peer that does not stretch the clock: most significant bit
first, the acknowledge sampled 0 as ACK and driven low on every byte but the last (spec/40_softbus.md
R71 to R74, whose bit waveforms are general knowledge; spec/30_encoding.md R58, R59). -/
def Obligations.BytesAreSentAndReceivedMsbFirst : Prop :=
  (∀ (od : Bool) (s : State) (v : Byte) (ack : Bool), BusReady od s →
      s.env.gives ((Sym.send v ack).answers od) →
      ∃ t, writeByte v s = .done ack t ∧ t.trace = ((Sym.send v ack).events od).reverse ++ s.trace ∧
        t.bus.sclDrv = .low ∧ t.bus.shift = v) ∧
    ∀ (od : Bool) (s : State) (v : Byte) (last : Bool), BusReady od s →
      s.env.gives ((Sym.recv v last).answers od) →
      ∃ t, readByte last s = .done v t ∧ t.trace = ((Sym.recv v last).events od).reverse ++ s.trace ∧
        t.bus.sclDrv = .low ∧ t.bus.shift = v

/-- In push-pull mode no command but a new CONFIGURE ever samples SCL (spec/40_softbus.md R67;
spec/70_reset_and_hazards.md R152). -/
def Obligations.PushPullNeverSamplesTheClock : Prop :=
  ∀ (i : Instr) (s t : State), s.bus.mode = .pushPull → (∀ rate, i ≠ .configure rate) →
    i ≠ .ctrlBoot → exec i s = .next t →
    ∃ new, t.trace = new ++ s.trace ∧ ∀ b, LineEvent.sample .scl b ∉ new

/-- R75 and R76: CONFIGURE samples SCL up to 100 times after a STOP made without samples; the first 0
makes the bus push-pull, 100 ones make it open-drain; it always ends OK and changes nothing else. -/
def Obligations.ConfigureDetectsTheDriveMode : Prop :=
  ∀ (s : State) (rate : Rate) (k : Nat) (low : Bool),
    (if low = true then k < 100 else k = 100) →
    s.env.gives (List.replicate k true ++ (if low = true then [false] else [])) →
    ∃ t, exec (.configure rate) s = .next t ∧
      t.bus = { s.bus with
        rate := rate
        mode := if low = true then .pushPull else .openDrain
        detecting := false
        ready := true
        busOwned := false
        sclDrv := if low = true then .high else .float
        sdaDrv := if low = true then .high else .float } ∧
      t.trace = (configureEvents k low).reverse ++ s.trace ∧
      t.env = s.env.skip (k + if low = true then 1 else 0) ∧
      BusOnly (s.onPorts fun p => { p with result := 0#32 }) t

/-- R77: exactly the descriptor lists of its four clauses are run; another ends with BAD_SEQUENCE and
changes nothing else; RS of the first descriptor makes no difference. -/
def Obligations.InvalidTransferIsBadSequence : Prop :=
  (∀ (s : State) (a : Addr7) (n : Byte), s.bus.ready = true →
      ¬ValidTransfer s.par s.ports.desc n.toNat →
      exec (.transfer a n) s = .next (s.onPorts fun p => { p with result := 4#32 })) ∧
    (∀ (s : State) (a : Addr7) (n : Byte), s.bus.ready = true →
      ValidTransfer s.par s.ports.desc n.toNat →
      ∃ t, exec (.transfer a n) s = .next t ∧ t.ports.result ≠ 4#32 ∧ t.trace ≠ s.trace) ∧
    ∀ (s : State) (a : Addr7) (d : Half) (rest : List Half) (buf : Memory),
      transferOn a ((d ^^^ 0x8000#16) :: rest) buf s = transferOn a (d :: rest) buf s

/-- A bus that is not ready: every bus command ends with BUS_NOT_READY before anything else is looked
at, PROBE with HARDWARE_ABSENT, and no line moves (spec/40_softbus.md R78; spec/60_exceptions.md R128;
spec/41_register_interface.md R92). The 0 PROBE writes to the value port is log 13. -/
def Obligations.UnconfiguredBusIsNotReady : Prop :=
  ∀ s : State, s.bus.ready = false →
    (∀ a n, exec (.transfer a n) s = .next (s.onPorts fun p => { p with result := 2#32 })) ∧
      (∀ a r len, exec (.regRead a r len) s = .next (s.onPorts fun p => { p with result := 2#32 })) ∧
      (∀ a r len, exec (.regWrite a r len) s = .next (s.onPorts fun p => { p with result := 2#32 })) ∧
      (∀ f : Byte, f.toNat ≤ 20 →
        exec (.fieldRead f) s = .next (s.onPorts fun p => { p with result := 2#32 }) ∧
          exec (.fieldWrite f) s = .next (s.onPorts fun p => { p with result := 2#32 })) ∧
      exec .probe s = .next (s.onPorts fun p => { p with val := 0#32, result := 6#32 })

/-- A valid TRANSFER whose every byte is acknowledged and whose clock is not stretched runs through
exactly the frame of spec/30_encoding.md R60, ends OK, takes the peer's bytes into the read slices
(R55) and changes no other byte; the bus is owned after it iff its last message has no stop
(spec/40_softbus.md R78, R79, R82). On any course on which every part of that frame comes through, the
clock stretched up to the bound at any of its releases, it ends OK as well, with just the samples of the
stretched clock more on the lines (R67; V-SB-13 of spec/95_test_vectors.md). -/
def Obligations.TransferRunsItsFrame : Prop :=
  (∀ (od : Bool) (s : State) (a : Addr7) (n : Byte) (peer : Memory), BusReady od s → PortsWf s →
    ValidTransfer s.par s.ports.desc n.toNat →
    s.env.gives (frameAnswers od (transferFrame a (descList s.ports.desc n.toNat) s.ports.data peer)) →
    ∃ t, exec (.transfer a n) s = .next t ∧ t.ports.result = 0#32 ∧
      t.trace = (frameEvents od
        (transferFrame a (descList s.ports.desc n.toNat) s.ports.data peer)).reverse ++ s.trace ∧
      (∀ i, inReadSlice (descList s.ports.desc n.toNat) 0 i = true →
        t.ports.data.read i = peer.read i) ∧
      (∀ i, inReadSlice (descList s.ports.desc n.toNat) 0 i = false →
        t.ports.data.read i = s.ports.data.read i) ∧
      (t.bus.busOwned = true ↔ (s.ports.desc.read (n.toNat - 1)).getLsbD 14 = false) ∧
      t.bus.irqMask = false ∧ BusCommand (withPortsOf t s) t ∧ t.ports.val = s.ports.val) ∧
  ∀ (od : Bool) (s : State) (a : Addr7) (n : Byte) (peer : Memory) (es : List LineEvent)
    (got : List Part), BusReady od s → PortsWf s → ValidTransfer s.par s.ports.desc n.toNat →
    Course s.par.stretchLimit od
      (transferParts a (descList s.ports.desc n.toNat) s.ports.data peer) es .ok got →
    s.env.gives (samplesOf es) →
    ∃ t, exec (.transfer a n) s = .next t ∧ t.ports.result = 0#32 ∧
      t.trace = es.reverse ++ s.trace ∧
      (∀ i, t.ports.data.read i =
        if received got i = true then peer.read i else s.ports.data.read i) ∧
      t.ports.val = s.ports.val

/-- Whatever the peer answers, a valid TRANSFER ends with OK, NO_ACK or TIMEOUT: after NO_ACK and
TIMEOUT the bus is not owned and its lines are idle; TIMEOUT comes only in open-drain mode; bytes are
changed only in read slices (spec/40_softbus.md R80, R81; spec/60_exceptions.md R129). -/
def Obligations.TransferEndsCleanly : Prop :=
  ∀ (s : State) (a : Addr7) (n : Byte), BusInv s → PortsWf s → s.bus.ready = true →
    ValidTransfer s.par s.ports.desc n.toNat →
    ∃ t code ph msg byte, exec (.transfer a n) s = .next t ∧
      ResultFields t.ports.result code ph msg byte false ∧ (code = 0 ∨ code = 1 ∨ code = 3) ∧
      (code = 0 → (t.bus.busOwned = true ↔ (s.ports.desc.read (n.toNat - 1)).getLsbD 14 = false)) ∧
      (code ≠ 0 → t.bus.busOwned = false ∧ t.bus.sclDrv = s.bus.mode.idle ∧
        t.bus.sdaDrv = s.bus.mode.idle ∧ msg < n.toNat) ∧
      (code = 3 → s.bus.mode = .openDrain) ∧
      (∀ i, inReadSlice (descList s.ports.desc n.toNat) 0 i = false →
        t.ports.data.read i = s.ports.data.read i) ∧
      t.bus.irqMask = false ∧ BusCommand (withPortsOf t s) t ∧ t.ports.val = s.ports.val

/-- R83: a write of N bytes whose byte k is not acknowledged ends with NO_ACK, leaves the bus stopped
and transmits no byte after k; k runs over every data byte. A refused first address byte ends any
transfer with NO_ACK at message 0 after its stop: no data byte is sent (R80). And wherever a byte is
refused, an address byte or a data byte of any message, the clock stretched or not: NO_ACK names the
phase, the message and the byte of exactly that one, the lines show the parts before it, it, and the stop,
and of the data port just the bytes read before it are changed. -/
def Obligations.RefusedByteStopsTheTransfer : Prop :=
  (∀ (od : Bool) (s : State) (a : Addr7) (k : Nat), BusReady od s →
      ValidTransfer s.par s.ports.desc 1 → (s.ports.desc.read 0).getLsbD 13 = false →
      k < ((s.ports.desc.read 0).extractLsb' 0 8).toNat →
      s.env.gives (frameAnswers od (writeRefused a s.ports.data k)) →
      ∃ t, exec (.transfer a 1#8) s = .next t ∧ ResultFields t.ports.result 1 true 0 k false ∧
        t.trace = (frameEvents od (writeRefused a s.ports.data k)).reverse ++ s.trace ∧
        t.bus.busOwned = false ∧ t.bus.sclDrv = s.bus.mode.idle ∧ t.bus.sdaDrv = s.bus.mode.idle ∧
        t.ports.data = s.ports.data) ∧
    (∀ (od : Bool) (s : State) (a : Addr7) (n : Byte) (rw : BitVec 1), BusReady od s →
      ValidTransfer s.par s.ports.desc n.toNat → rw = (s.ports.desc.read 0).extractLsb' 13 1 →
      s.env.gives (frameAnswers od (addressRefused a rw)) →
      ∃ t, exec (.transfer a n) s = .next t ∧ ResultFields t.ports.result 1 false 0 0 false ∧
        t.trace = (frameEvents od (addressRefused a rw)).reverse ++ s.trace ∧
        t.bus.busOwned = false ∧ t.bus.sclDrv = s.bus.mode.idle ∧ t.bus.sdaDrv = s.bus.mode.idle ∧
        t.ports.data = s.ports.data) ∧
    ∀ (od : Bool) (s : State) (a : Addr7) (n : Byte) (peer : Memory) (es : List LineEvent) (ph : Bool)
      (msg byte : Nat) (got : List Part), BusReady od s → PortsWf s →
      ValidTransfer s.par s.ports.desc n.toNat →
      Course s.par.stretchLimit od
        (transferParts a (descList s.ports.desc n.toNat) s.ports.data peer) es (.noAck ph msg byte) got →
      s.env.gives (samplesOf es) →
      ∃ t, exec (.transfer a n) s = .next t ∧ ResultFields t.ports.result 1 ph msg byte false ∧
        EndedEarly got peer es s t

/-- A clock held low past the bound in the first START aborts the transfer: both lines are released, no
stop is made, the result is TIMEOUT at message 0 (spec/40_softbus.md R81, R67). And wherever the clock is
held so: in a START, in an address byte or a data byte of any message (there PH, MSG and BYTE name that
byte), in a STOP, and in the STOP that follows a refused byte, where the result is TIMEOUT and not NO_ACK
(R80; spec/60_exceptions.md R128; V-SB-12 and V-SB-14 of spec/95_test_vectors.md). -/
def Obligations.HeldClockAbortsTheTransfer : Prop :=
  (∀ (s : State) (a : Addr7) (n : Byte), BusReady true s →
    ValidTransfer s.par s.ports.desc n.toNat →
    s.env.gives (List.replicate (s.par.stretchLimit + 1) false) →
    ∃ t, exec (.transfer a n) s = .next t ∧ ResultFields t.ports.result 3 false 0 0 false ∧
      t.trace = (heldStartEvents s.par.stretchLimit).reverse ++ s.trace ∧
      t.bus.busOwned = false ∧ t.bus.sclDrv = .float ∧ t.bus.sdaDrv = .float ∧
      t.ports.data = s.ports.data) ∧
  ∀ (od : Bool) (s : State) (a : Addr7) (n : Byte) (peer : Memory) (es : List LineEvent) (ph : Bool)
    (msg byte : Nat) (got : List Part), BusReady od s → PortsWf s →
    ValidTransfer s.par s.ports.desc n.toNat →
    Course s.par.stretchLimit od
      (transferParts a (descList s.ports.desc n.toNat) s.ports.data peer) es (.timeout ph msg byte) got →
    s.env.gives (samplesOf es) →
    ∃ t, exec (.transfer a n) s = .next t ∧ ResultFields t.ports.result 3 ph msg byte false ∧
      EndedEarly got peer es s t

/-! ## Register Interface -/

/-- REG_READ on a peer that acknowledges: the register number, a repeated start, `LEN` bytes with the
last one not acknowledged, a stop; the bytes stand in `ports.data[0..LEN-1]` (R85). -/
def Obligations.RegReadFillsTheDataPort : Prop :=
  ∀ (od : Bool) (s : State) (a : Addr7) (r len : Byte) (peer : Memory), BusReady od s → PortsWf s →
    s.par.wf = true → 1 ≤ len.toNat → len.toNat ≤ s.par.maxLen →
    s.env.gives (frameAnswers od (regReadFrame a r peer len.toNat)) →
    ∃ t, exec (.regRead a r len) s = .next t ∧ t.ports.result = 0#32 ∧
      t.trace = (frameEvents od (regReadFrame a r peer len.toNat)).reverse ++ s.trace ∧
      (∀ i < len.toNat, t.ports.data.read i = peer.read i) ∧
      (∀ i, len.toNat ≤ i → t.ports.data.read i = s.ports.data.read i) ∧
      t.bus.busOwned = false ∧ t.ports.val = s.ports.val ∧ BusCommand (withPortsOf t s) t

/-- REG_WRITE on a peer that acknowledges: the register number and its continuation, `LEN` bytes of
`ports.data`, a stop; `LEN` may be 0. A refused data byte k is NO_ACK at message 1, byte k, and ends the
frame (R86; P2 of spec/95_test_vectors.md). -/
def Obligations.RegWriteSendsTheDataPort : Prop :=
  (∀ (od : Bool) (s : State) (a : Addr7) (r len : Byte), BusReady od s → s.par.wf = true →
      len.toNat ≤ s.par.maxLen →
      s.env.gives (frameAnswers od (regWriteFrame a r s.ports.data len.toNat)) →
      ∃ t, exec (.regWrite a r len) s = .next t ∧
        t.trace = (frameEvents od (regWriteFrame a r s.ports.data len.toNat)).reverse ++ s.trace ∧
        t.bus.busOwned = false ∧ BusCommand (s.onPorts fun p => { p with result := 0#32 }) t) ∧
    ∀ (od : Bool) (s : State) (a : Addr7) (r len : Byte) (k : Nat), BusReady od s →
      s.par.wf = true → k < len.toNat → len.toNat ≤ s.par.maxLen →
      s.env.gives (frameAnswers od (regWriteRefused a r s.ports.data k)) →
      ∃ t, exec (.regWrite a r len) s = .next t ∧ ResultFields t.ports.result 1 true 1 k false ∧
        t.trace = (frameEvents od (regWriteRefused a r s.ports.data k)).reverse ++ s.trace ∧
        t.bus.busOwned = false

/-- What the register commands leave alone, whatever the peer answers: outside the bus side of the block
only the data bytes a successful REG_READ reads, the value port of a successful field command or of
PROBE, and the result (spec/41_register_interface.md R84 to R92; spec/60_exceptions.md R129). A length
out of range is BAD_SEQUENCE with no line activity; a field id above 20 is ILLEGAL_COMMAND (R62). -/
def Obligations.RegisterCommandFrames : Prop :=
  (∀ (s : State) (a : Addr7) (r len : Byte), PortsWf s →
      ∃ t, exec (.regRead a r len) s = .next t ∧ BusCommand (withPortsOf t s) t ∧
        t.ports.val = s.ports.val ∧ (t.ports.result ≠ 0#32 → t.ports.data = s.ports.data) ∧
        (∀ i, len.toNat ≤ i → t.ports.data.read i = s.ports.data.read i)) ∧
    (∀ (s : State) (a : Addr7) (r len : Byte),
      ∃ t, exec (.regWrite a r len) s = .next t ∧ BusCommand (withPortsOf t s) t ∧
        t.ports.val = s.ports.val ∧ t.ports.data = s.ports.data) ∧
    (∀ (s : State) (a : Addr7) (r len : Byte), s.bus.ready = true →
      (len.toNat = 0 ∨ s.par.maxLen < len.toNat →
        exec (.regRead a r len) s = .next (s.onPorts fun p => { p with result := 4#32 })) ∧
      (s.par.maxLen < len.toNat →
        exec (.regWrite a r len) s = .next (s.onPorts fun p => { p with result := 4#32 }))) ∧
    (∀ (s : State) (f : Byte), f.toNat ≤ 20 →
      (∃ t, exec (.fieldRead f) s = .next t ∧ BusCommand (withPortsOf t s) t ∧
        t.ports.data = s.ports.data ∧ (t.ports.result ≠ 0#32 → t.ports.val = s.ports.val)) ∧
      ∃ t, exec (.fieldWrite f) s = .next t ∧ BusCommand (withPortsOf t s) t ∧
        t.ports.data = s.ports.data ∧ (t.ports.result ≠ 0#32 → t.ports.val = s.ports.val)) ∧
    (∀ (s : State) (f : Byte), 20 < f.toNat →
      exec (.fieldRead f) s = .next (s.onPorts fun p => { p with result := 5#32 }) ∧
        exec (.fieldWrite f) s = .next (s.onPorts fun p => { p with result := 5#32 })) ∧
    ∀ s : State, ∃ t, exec .probe s = .next t ∧ BusCommand (withPortsOf t s) t ∧
      t.ports.data = s.ports.data

/-- R89: the affine transform, its clamped inverse, and their two laws. -/
def Obligations.AffineTransformLaws : Prop :=
  (∀ (d : FieldDesc) (raw : Nat), d.decodeRaw raw = raw * d.step + d.offset) ∧
    (∀ (d : FieldDesc) (p : Nat), p < d.offset → d.encodePhys p = 0) ∧
    (∀ (d : FieldDesc) (p : Nat), d.offset ≤ p →
      d.encodePhys p = min ((p - d.offset) / d.step) (2 ^ d.width - 1)) ∧
    (∀ (d : FieldDesc) (p : Nat), 1 ≤ d.step → d.offset ≤ p → p ≤ d.decodeRaw (2 ^ d.width - 1) →
      d.decodeRaw (d.encodePhys p) ≤ p) ∧
    ∀ (d : FieldDesc) (raw : Nat), 1 ≤ d.step → raw ≤ 2 ^ d.width - 1 →
      d.encodePhys (d.decodeRaw raw) = raw

/-- The two scales the source fixes: 50 mA steps from 100 mA and 16 mV steps from 3840 mV, whatever the
field table (R87), with the values of W1 and W2 of spec/95_test_vectors.md. -/
def Obligations.SourceScalesAreFixed : Prop :=
  (∀ (t : FieldTable) (raw : Nat),
      (t.get .inputCurrentLimit).decodeRaw raw = raw * 50 + 100 ∧
        (t.get .chargeVoltage).decodeRaw raw = raw * 16 + 3840) ∧
    ∀ t : FieldTable, t.inputCurrentLimit.width = 6 → t.chargeVoltage.width = 6 →
      (t.get .inputCurrentLimit).encodePhys 1520 = 28 ∧
        (t.get .inputCurrentLimit).encodePhys 90 = 0 ∧
        (t.get .inputCurrentLimit).encodePhys 5000 = 63 ∧ (t.get .chargeVoltage).encodePhys 4200 = 22 ∧
        (t.get .chargeVoltage).encodePhys 4900 = 63

/-- FIELD_READ on a peer that acknowledges reads one register of the charging IC and returns the field's
physical value (R90). -/
def Obligations.FieldReadReturnsThePhysicalValue : Prop :=
  ∀ (od : Bool) (s : State) (f : Byte) (id : FieldId) (b : Byte), BusReady od s → s.par.wf = true →
    FieldId.all[f.toNat]? = some id →
    s.env.gives (frameAnswers od (readFrame s.par.chargerAddr (s.par.fields.get id).reg b)) →
    ∃ t, exec (.fieldRead f) s = .next t ∧ t.ports.result = 0#32 ∧
      t.ports.val.toNat = rawBits (s.par.fields.get id) b * (s.par.fields.get id).step +
        (s.par.fields.get id).offset ∧
      t.trace = (frameEvents od
        (readFrame s.par.chargerAddr (s.par.fields.get id).reg b)).reverse ++ s.trace ∧
      t.bus.busOwned = false ∧ t.ports.data = s.ports.data ∧ BusCommand (withPortsOf t s) t

/-- FIELD_WRITE on a peer that acknowledges reads the register, writes it back with only the field's bits
replaced by the encoded value, and returns the value actually written (R91). -/
def Obligations.FieldWriteReplacesOnlyTheField : Prop :=
  ∀ (od : Bool) (s : State) (f : Byte) (id : FieldId) (old new : Byte) (raw : Nat), BusReady od s →
    s.par.wf = true → FieldId.all[f.toNat]? = some id →
    raw = (s.par.fields.get id).encodePhys s.ports.val.toNat →
    Merged (s.par.fields.get id) old raw new →
    s.env.gives (frameAnswers od (readFrame s.par.chargerAddr (s.par.fields.get id).reg old ++
      writeFrame s.par.chargerAddr (s.par.fields.get id).reg new)) →
    ∃ t, exec (.fieldWrite f) s = .next t ∧ t.ports.result = 0#32 ∧
      t.ports.val.toNat = raw * (s.par.fields.get id).step + (s.par.fields.get id).offset ∧
      t.trace = (frameEvents od (readFrame s.par.chargerAddr (s.par.fields.get id).reg old ++
        writeFrame s.par.chargerAddr (s.par.fields.get id).reg new)).reverse ++ s.trace ∧
      t.bus.busOwned = false ∧ t.ports.data = s.ports.data ∧ BusCommand (withPortsOf t s) t

/-- Every failing FIELD_WRITE, against the register transactions it is made of. Its read transaction is
REG_READ of the field's register; where that fails, with whatever code at whatever byte, FIELD_WRITE ends
just as it does, result word and all, TXN 0. Else its write transaction is REG_WRITE, after that read, of
the merged byte; where that fails, FIELD_WRITE ends with its lines and its result word but for TXN, which
is 1, and the value port stays (R91). The two refusals of V-RI-9 and V-RI-10 of
spec/95_test_vectors.md, with their frames: NO_ACK at the read's address byte, and NO_ACK at message 1 of
the write. -/
def Obligations.FieldWriteNamesTheFailedTransaction : Prop :=
  (∀ (s r : State) (f : Byte) (id : FieldId), PortsWf s → s.par.wf = true →
      FieldId.all[f.toNat]? = some id →
      exec (.regRead s.par.chargerAddr (s.par.fields.get id).reg 1#8) s = .next r →
      (r.ports.result ≠ 0#32 → exec (.fieldWrite f) s = .next r ∧ r.ports.result.getLsbD 24 = false) ∧
      ∀ (new : Byte) (w : State), r.ports.result = 0#32 →
        Merged (s.par.fields.get id) (r.ports.data.read 0)
          ((s.par.fields.get id).encodePhys s.ports.val.toNat) new →
        exec (.regWrite s.par.chargerAddr (s.par.fields.get id).reg 1#8)
          (r.onPorts fun p => { p with data := Memory.write [] 0 new }) = .next w →
        ∃ t, exec (.fieldWrite f) s = .next t ∧ t.trace = w.trace ∧ t.bus = w.bus ∧ t.ev = w.ev ∧
          t.env = w.env ∧ (w.ports.result = 0#32 → t.ports.result = 0#32) ∧
          (w.ports.result ≠ 0#32 → t.ports.val = s.ports.val ∧
            ∃ code ph msg byte, code ≠ 0 ∧ ResultFields w.ports.result code ph msg byte false ∧
              ResultFields t.ports.result code ph msg byte true)) ∧
    (∀ (od : Bool) (s : State) (f : Byte) (id : FieldId), BusReady od s → s.par.wf = true →
      FieldId.all[f.toNat]? = some id →
      s.env.gives (frameAnswers od (addressRefused s.par.chargerAddr 0#1)) →
      ∃ t, exec (.fieldWrite f) s = .next t ∧ ResultFields t.ports.result 1 false 0 0 false ∧
        t.trace = (frameEvents od (addressRefused s.par.chargerAddr 0#1)).reverse ++ s.trace ∧
        t.ports.val = s.ports.val) ∧
    ∀ (od : Bool) (s : State) (f : Byte) (id : FieldId) (old new : Byte), BusReady od s →
      s.par.wf = true → FieldId.all[f.toNat]? = some id →
      Merged (s.par.fields.get id) old ((s.par.fields.get id).encodePhys s.ports.val.toNat) new →
      s.env.gives (frameAnswers od (readFrame s.par.chargerAddr (s.par.fields.get id).reg old ++
        writeByteRefused s.par.chargerAddr (s.par.fields.get id).reg new)) →
      ∃ t, exec (.fieldWrite f) s = .next t ∧ ResultFields t.ports.result 1 true 1 0 true ∧
        t.ports.val = s.ports.val

/-- PROBE: present iff the part identifier is read and is the expected one; the value port and the result
say so (R92). The 0 written when absent is log 13. -/
def Obligations.ProbeComparesThePartIdentifier : Prop :=
  (∀ (od : Bool) (s : State) (b : Byte), BusReady od s → s.par.wf = true →
      s.env.gives (frameAnswers od (readFrame s.par.chargerAddr s.par.fields.partId.reg b)) →
      ∃ t, exec .probe s = .next t ∧
        t.trace = (frameEvents od
          (readFrame s.par.chargerAddr s.par.fields.partId.reg b)).reverse ++ s.trace ∧
        (rawBits s.par.fields.partId b * s.par.fields.partId.step + s.par.fields.partId.offset =
            s.par.partIdExpected → t.ports.val = 1#32 ∧ t.ports.result = 0#32) ∧
        (rawBits s.par.fields.partId b * s.par.fields.partId.step + s.par.fields.partId.offset ≠
            s.par.partIdExpected → t.ports.val = 0#32 ∧ t.ports.result = 6#32)) ∧
    (∀ (od : Bool) (s : State), BusReady od s → s.par.wf = true →
      s.env.gives (frameAnswers od (addressRefused s.par.chargerAddr 0#1)) →
      ∃ t, exec .probe s = .next t ∧ t.ports.val = 0#32 ∧ t.ports.result = 6#32) ∧
    ∀ s t : State, exec .probe s = .next t →
      (t.ports.val = 1#32 ∧ t.ports.result = 0#32) ∨ (t.ports.val = 0#32 ∧ t.ports.result = 6#32)

/-! ## Charge Controller: boot, poll, percentage, outputs -/

/-- CTRL_BOOT outside phase Boot is ILLEGAL_COMMAND and changes nothing else; in phase Boot it always
leaves a ready bus and either runs or parks, with the power state, the rail and the fan as they were
(R99, R100). -/
def Obligations.BootRunsOrParks : Prop :=
  (∀ s : State, s.ctl.phase ≠ .boot →
      exec .ctrlBoot s = .next (s.onPorts fun p => { p with result := 5#32 })) ∧
    ∀ s : State, s.ctl.phase = .boot →
      ∃ t, exec .ctrlBoot s = .next t ∧ CtlCommand s t ∧ t.bus.ready = true ∧
        t.bus.rate = s.par.busRate ∧ t.btn = s.btn ∧
        ((t.ctl = { s.ctl with phase := .parked } ∧ t.out = { s.out with lowPower := true } ∧
            t.ports.result = 6#32) ∨
          (t.ctl.phase = .run ∧ t.ctl.pstate = s.ctl.pstate ∧ t.ctl.lastPoll = s.ports.nowMs ∧
            t.ctl.adcCont = s.ctl.adcCont ∧ t.ctl.batfetOff = s.ctl.batfetOff ∧
            t.out = { s.out with ledMode := t.out.ledMode, ledOn := t.out.ledOn } ∧
            LedSays s.ports.nowMs t ∧ t.ports.result = 0#32))

/-- CTRL_BOOT, whichever drive mode it detects. A charging IC whose part identifier is not the expected
one: the block parks, and the lines show the detection and the read of PART_ID, no more. One whose
identifier is the expected one: phase Run with OK. On a peer that acknowledges, the lines then show the
detection, the read of PART_ID, the FIELD_WRITEs of CHARGE_CURRENT, PRECHARGE_CURRENT,
TERMINATION_CURRENT and CHARGE_VOLTAGE, in this order, each replacing only its field by the instance's
value, and the reads of the first poll, whose view the controller takes; a thermal fault it decodes
latches, and the power state, the rail and the fan wait for the first CTRL_STEP (R99, R100, R101;
spec/70_reset_and_hazards.md R150). And whatever the peer answers: CTRL_BOOT goes as CONFIGURE at the
instance's rate and then REG_READ of the register of PART_ID go; where that read fails, with whatever code
at whatever byte (a refused address, a refused register number, TIMEOUT), or reads another identifier, it
parks with just their lines, and else it runs (R92; spec/60_exceptions.md R130). -/
def Obligations.BootNeedsTheChargingIC : Prop :=
  (∀ (s : State) (k : Nat) (low : Bool) (b : Byte), s.ctl.phase = .boot → s.par.wf = true →
    (if low = true then k < 100 else k = 100) →
    s.env.gives (List.replicate k true ++ (if low = true then [false] else []) ++
      frameAnswers (!low) (readFrame s.par.chargerAddr s.par.fields.partId.reg b)) →
    (¬PartExpected s.par b →
      ∃ t, exec .ctrlBoot s = .next t ∧ BusReady (!low) t ∧ t.ports.result = 6#32 ∧
        t.ctl = { s.ctl with phase := .parked } ∧ t.out = { s.out with lowPower := true } ∧
        t.trace = (configureEvents k low ++ frameEvents (!low)
          (readFrame s.par.chargerAddr s.par.fields.partId.reg b)).reverse ++ s.trace) ∧
      (PartExpected s.par b →
        ∃ t, exec .ctrlBoot s = .next t ∧ BusReady (!low) t ∧ t.ports.result = 0#32 ∧
          t.ctl.phase = .run) ∧
      ∀ (cc pc tc cv : Byte × Byte) (b1 b2 b3 : Byte), PartExpected s.par b →
        FieldMerged s.par .chargeCurrent s.par.chargeCurrent cc.1 cc.2 →
        FieldMerged s.par .prechargeCurrent s.par.prechargeCurrent pc.1 pc.2 →
        FieldMerged s.par .terminationCurrent s.par.terminationCurrent tc.1 tc.2 →
        FieldMerged s.par .chargeVoltage s.par.chargeVoltage cv.1 cv.2 →
        s.env.gives (List.replicate k true ++ (if low = true then [false] else []) ++
          frameAnswers (!low) (bootFrame s.par b cc pc tc cv b1 b2 b3)) →
        ∃ t, exec .ctrlBoot s = .next t ∧ t.ports.result = 0#32 ∧ t.ctl.phase = .run ∧
          t.trace = (configureEvents k low ++
            frameEvents (!low) (bootFrame s.par b cc pc tc cv b1 b2 b3)).reverse ++ s.trace ∧
          PolledView s.par s.ports.nowMs b1 b2 b3 t.ctl ∧
          (t.ctl.overTemp = true ↔
            s.ctl.overTemp = true ∨ (decodedStatus s.par b1 b2).fault.thermal = true) ∧
          t.ctl.pstate = s.ctl.pstate ∧ t.out.powerRail = s.out.powerRail ∧
          t.out.fanMode = s.out.fanMode) ∧
    ∀ s c r : State, s.ctl.phase = .boot → s.par.wf = true → PortsWf s →
      exec (.configure s.par.busRate) s = .next c → ReadsRegister s.par.fields.partId.reg c r →
      ∃ t, exec .ctrlBoot s = .next t ∧
        (r.ports.result ≠ 0#32 → BootParks s r t) ∧
        (r.ports.result = 0#32 → ¬PartExpected s.par (r.ports.data.read 0) → BootParks s r t) ∧
        (r.ports.result = 0#32 → PartExpected s.par (r.ports.data.read 0) →
          t.ctl.phase = .run ∧ t.ports.result = 0#32 ∧ ∃ new, t.trace = new ++ r.trace)

/-- CTRL_STEP before boot is ILLEGAL_COMMAND and changes nothing else; in phase Parked it consumes the
event flags and does nothing else (R106, R100). -/
def Obligations.StepBeforeBootAndParked : Prop :=
  (∀ s : State, s.ctl.phase = .boot →
      exec .ctrlStep s = .next (s.onPorts fun p => { p with result := 5#32 })) ∧
    ∀ s : State, s.ctl.phase = .parked →
      exec .ctrlStep s = .next ((s.onEv fun l => { l with flag := ⟨false, false, false, false⟩ }).onPorts
        fun p => { p with result := 0#32 })

/-- What every CTRL_STEP leaves alone, and that its LED outputs agree with the controller it leaves
(R106, R116, R118, R119). -/
def Obligations.StepFrameAndLed : Prop :=
  ∀ s : State, s.ctl.phase = .run →
    ∃ t, exec .ctrlStep s = .next t ∧ CtlCommand s t ∧ SameSetup s t ∧ t.ctl.phase = .run ∧
      t.out.lowPower = s.out.lowPower ∧ LedSays s.ports.nowMs t ∧
      (t.ports.result = 0#32 ∨ t.ports.result = 3#32)

/-- A due poll on a peer that acknowledges, in every state that polls, a dwell that ends in this
iteration and a pending soft shutdown among them: the lines first show the reads of STATUS, FAULT and
BATTERY_ADC, in this order, and nothing else where no transition follows; the controller's view is what
they answer (R101, R102, R104, R105); a decoded thermal fault or a latched over-temperature then gives
CoolingDown, else a decoded battery fault gives ShippingMode (R103, R107). `decodeStatus` is the
instance's (log 2). -/
def Obligations.PollUpdatesTheView : Prop :=
  ∀ (od : Bool) (s : State) (b1 b2 b3 : Byte), CtlInv s → Polls s → BusReady od s →
    s.par.wf = true → s.env.gives (frameAnswers od (pollFrame s.par b1 b2 b3)) →
    ∃ t, exec .ctrlStep s = .next t ∧ t.ports.result = 0#32 ∧
      PolledView s.par s.ports.nowMs b1 b2 b3 t.ctl ∧
      (∃ new, t.trace = new ++ (frameEvents od (pollFrame s.par b1 b2 b3)).reverse ++ s.trace ∧
        (t.ctl.overTemp = false → t.ctl.status.fault.battery = false → ¬HoldFires s → new = [])) ∧
      (t.ctl.overTemp = true ↔ (dwellOver s.ctl).overTemp = true ∨ s.ev.flag.thermal = true ∨
        t.ctl.status.fault.thermal = true) ∧
      (t.ctl.overTemp = true → t.ctl.pstate = .coolingDown ∧ t.out.powerRail = false ∧
        t.out.fanMode = .max ∧ t.ctl.coolStart = s.ports.nowMs) ∧
      (t.ctl.overTemp = false → t.ctl.status.fault.battery = true →
        t.ctl.pstate = .shippingMode ∧ t.out.powerRail = false ∧ t.ctl.batfetOff = true)

/-- A due poll whose read of STATUS, of FAULT or of BATTERY_ADC fails makes no further read, changes only
the time of the last poll in the controller's view, and CTRL_STEP still ends OK. First, a read refused at
its address byte, with its lines. Then any failure at all, against the register reads the poll is made
of, each REG_READ from the state the one before leaves: the first that ends with any code but OK, at
whatever byte, ends the poll there and the view stays; where all three end OK the view is taken from just
the bytes they read (R101, V-CC-5; spec/60_exceptions.md R130). So, whatever the peer answers, the view
stays but for the time or is taken whole. `decodeStatus` is the instance's (log 2). -/
def Obligations.FailedPollKeepsTheView : Prop :=
  (∀ (od : Bool) (s : State) (b1 b2 : Byte) (pre : List Sym), CtlInv s → Polls s →
      (dwellOver s.ctl).overTemp = false → s.ev.flag.thermal = false → ¬BatteryFault s.ctl →
      ¬HoldFires s → BusReady od s → s.par.wf = true →
      pre ∈ readsBefore s.par b1 b2 →
      s.env.gives (frameAnswers od (pre ++ addressRefused s.par.chargerAddr 0#1)) →
      ∃ t, exec .ctrlStep s = .next t ∧ t.ports.result = 0#32 ∧
        t.trace = (frameEvents od (pre ++ addressRefused s.par.chargerAddr 0#1)).reverse ++ s.trace ∧
        t.ctl = { dwellOver s.ctl with lastPoll := s.ports.nowMs, flashActive := flashStill s } ∧
        t.out = { s.out with
          fanMode := t.ctl.pstate.fan
          shutdownReq := s.out.shutdownReq && decide (elapsed s.ports.nowMs s.ctl.ssdStart < 30)
          ledMode := t.out.ledMode, ledOn := t.out.ledOn }) ∧
    (∀ s r1 r2 r3 : State, CtlInv s → Polls s → PortsWf s → s.par.wf = true →
      ReadsRegister s.par.fields.status.reg s r1 → ReadsRegister s.par.fields.fault.reg r1 r2 →
      ReadsRegister s.par.fields.batteryAdc.reg r2 r3 →
      ∃ t, exec .ctrlStep s = .next t ∧
        (r1.ports.result ≠ 0#32 → FailedPoll s r1 t) ∧
        (r1.ports.result = 0#32 → r2.ports.result ≠ 0#32 → FailedPoll s r2 t) ∧
        (r1.ports.result = 0#32 → r2.ports.result = 0#32 → r3.ports.result ≠ 0#32 →
          FailedPoll s r3 t) ∧
        (r1.ports.result = 0#32 → r2.ports.result = 0#32 → r3.ports.result = 0#32 →
          t.ports.result = 0#32 ∧ (∃ new, t.trace = new ++ r3.trace) ∧
            PolledView s.par s.ports.nowMs (r1.ports.data.read 0) (r2.ports.data.read 0)
              (r3.ports.data.read 0) t.ctl)) ∧
    ∀ s : State, CtlInv s → Polls s → s.par.wf = true →
      ∃ t, exec .ctrlStep s = .next t ∧ t.ports.result = 0#32 ∧ t.ctl.lastPoll = s.ports.nowMs ∧
        ((t.ctl.status = s.ctl.status ∧ t.ctl.statusValid = s.ctl.statusValid ∧
            t.ctl.charging = s.ctl.charging ∧ t.ctl.battery = s.ctl.battery) ∨
          ∃ b1 b2 b3, PolledView s.par s.ports.nowMs b1 b2 b3 t.ctl)

/-- R105: the percentage. -/
def Obligations.PercentageIsPiecewiseLinear : Prop :=
  (∀ mV, pct mV .terminated = 255) ∧
    (∀ mV cs, cs ≠ ChargeState.terminated → mV < 2684 → pct mV cs = 0) ∧
    (∀ mV cs, 4204 ≤ mV → pct mV cs = 255) ∧
    (∀ (mV i lo hi : Nat) (cs : ChargeState), cs ≠ .terminated → i < 8 →
      [2684, 2864, 3064, 3264, 3444, 3644, 3824, 4024, 4204][i]? = some lo →
      [2684, 2864, 3064, 3264, 3444, 3644, 3824, 4024, 4204][i + 1]? = some hi →
      lo ≤ mV → mV < hi →
      pct mV cs = 32 * i + (32 * (mV - lo)) / (hi - lo) ∧ pct lo cs = 32 * i ∧
        [180, 200, 200, 180, 200, 180, 200, 180][i]? = some (hi - lo)) ∧
    (∀ mV mV' cs, mV ≤ mV' → pct mV cs ≤ pct mV' cs) ∧
    ∀ mV cs, pct mV cs ≤ 255

/-! ## Charge Controller: transitions -/

/-- R108, R109, R121 item 1: whatever the timers, the poll and the fault transitions of the iteration
did, a hold that fires when they leave Sleeping gives Powered iff the precondition holds at that point.
With no fault acting nothing else of the controller changes, and a refused power-on starts the fault
pattern. -/
def Obligations.HoldPowersOnIffAllowed : Prop :=
  (∀ s : State, Unblocked s → HoldFires s → (afterFaults s).ctl.pstate = .sleeping →
    ∃ t, exec .ctrlStep s = .next t ∧ t.ports.result = 0#32 ∧
      (t.ctl.pstate = .powered ↔ PowerOnWords (afterFaults s).ctl) ∧
      (t.ctl.pstate = .powered ∨ t.ctl.pstate = .sleeping)) ∧
  ∀ s : State, CtlInv s → Unblocked s → s.ctl.pstate = .sleeping → HoldFires s → NoFault s →
    ∃ t, exec .ctrlStep s = .next t ∧ t.ports.result = 0#32 ∧ t.btn = heldButton s ∧
      (Calm s → t.ev.flag = .none) ∧
      (PowerOnWords s.ctl →
        t.ctl = { s.ctl with pstate := .powered, adcCont := true, flashActive := flashStill s } ∧
          t.out = { s.out with
            powerRail := true, fanMode := .configured, ledMode := t.out.ledMode, ledOn := t.out.ledOn }) ∧
      (¬PowerOnWords s.ctl →
        t.ctl = { s.ctl with flashActive := true, flashStart := s.ports.nowMs } ∧
          t.out = { s.out with ledMode := 5#3, ledOn := true } ∧ t.trace = s.trace)

/-- A thermal alert, or an over-temperature already latched, gives CoolingDown in the first iteration
that is not blocked, ahead of a hold: rail off, fan at maximum, the fault pattern, the dwell from now
(R104, R107, R114; spec/60_exceptions.md R137). -/
def Obligations.ThermalAlertCoolsDown : Prop :=
  ∀ s : State, Unblocked s → s.ctl.pstate ≠ .coolingDown →
    s.ev.flag.thermal = true ∨ s.ctl.overTemp = true →
    ∃ t, exec .ctrlStep s = .next t ∧ t.ports.result = 0#32 ∧ t.ctl.pstate = .coolingDown ∧
      t.ctl.coolStart = s.ports.nowMs ∧ t.ctl.ssdPending = false ∧ t.ctl.overTemp = true ∧
      t.ctl.flashActive = true ∧ t.ctl.flashStart = s.ports.nowMs ∧ t.ctl.adcCont = false ∧
      t.ctl.batfetOff = s.ctl.batfetOff ∧
      t.out = ⟨false, .max, 5#3, true, false, s.out.lowPower⟩

/-- A decoded battery fault without over-temperature gives ShippingMode: rail and fan off, isolation
commanded, the fault pattern (R107, R115). -/
def Obligations.BatteryFaultShips : Prop :=
  ∀ s : State, CtlInv s → Unblocked s → s.ctl.pstate ≠ .coolingDown → s.ctl.overTemp = false →
    s.ev.flag.thermal = false → ¬PollDue s → BatteryFault s.ctl →
    ∃ t, exec .ctrlStep s = .next t ∧ t.ports.result = 0#32 ∧
      t.ctl = { s.ctl with
        pstate := .shippingMode, ssdPending := false, adcCont := false, batfetOff := true
        flashActive := true, flashStart := s.ports.nowMs } ∧
      t.out = ⟨false, .off, 5#3, true, false, s.out.lowPower⟩

/-- CoolingDown lasts: before 120 000 ms have passed no iteration leaves it, restarts its dwell, polls,
or changes the rail and the fan, whatever events arrive (R107, R114, R121 item 3). -/
def Obligations.CoolingDownLastsItsDwell : Prop :=
  ∀ s : State, CtlInv s → s.ctl.phase = .run → s.ctl.pstate = .coolingDown →
    elapsed s.ports.nowMs s.ctl.coolStart < 120000 →
    ∃ t, exec .ctrlStep s = .next t ∧ t.btn.state = (buttonAfter s).state ∧ t.trace = s.trace ∧
      t.ctl = { s.ctl with overTemp := t.ctl.overTemp, flashActive := flashStill s } ∧
      (s.ctl.overTemp = true → t.ctl.overTemp = true) ∧
      t.out = { s.out with ledMode := t.out.ledMode, ledOn := t.out.ledOn }

/-- The end of the dwell clears the over-temperature flag whatever the sensor says and gives Sleeping,
where phases 4 to 7 still run (R104, R113, R106; spec/70_reset_and_hazards.md R159). As no poll runs in
CoolingDown, the first poll is due in this iteration: with no thermal fault it decodes, no alert and no
hold, nothing but its view and Sleeping follows, or ShippingMode where it decodes a battery fault
(V-CC-8; P3 of spec/95_test_vectors.md). In a run of a machine with POLL_MS above 120 000 ms no poll may
be due: then, with no event and no fault, nothing more happens. -/
def Obligations.DwellEndsInSleeping : Prop :=
  (∀ (od : Bool) (s : State) (b1 b2 b3 : Byte), CtlInv s → Unblocked s → s.ctl.pstate = .coolingDown →
      120000 ≤ elapsed s.ports.nowMs s.ctl.coolStart → s.ev.flag.thermal = false → PollDue s →
      BusReady od s → s.par.wf = true → s.env.gives (frameAnswers od (pollFrame s.par b1 b2 b3)) →
      (decodedStatus s.par b1 b2).fault.thermal = false →
      ∃ t, exec .ctrlStep s = .next t ∧ t.ports.result = 0#32 ∧ t.ctl.overTemp = false ∧
        PolledView s.par s.ports.nowMs b1 b2 b3 t.ctl ∧
        ((decodedStatus s.par b1 b2).fault.battery = false → ¬HoldFires s →
          t.btn = buttonAfter s ∧
            t.trace = (frameEvents od (pollFrame s.par b1 b2 b3)).reverse ++ s.trace ∧
            t.ctl = { s.ctl with
              pstate := .sleeping, overTemp := false, flashActive := flashStill s
              status := t.ctl.status, statusValid := true, charging := t.ctl.charging
              battery := t.ctl.battery, lastPoll := s.ports.nowMs } ∧
            t.out = { s.out with
              powerRail := false, fanMode := .off, shutdownReq := false
              ledMode := t.out.ledMode, ledOn := t.out.ledOn }) ∧
        ((decodedStatus s.par b1 b2).fault.battery = true →
          t.ctl.pstate = .shippingMode ∧ t.ctl.batfetOff = true ∧
            t.out = ⟨false, .off, 5#3, true, false, s.out.lowPower⟩)) ∧
    ∀ s : State, CtlInv s → Unblocked s → s.ctl.pstate = .coolingDown →
      120000 ≤ elapsed s.ports.nowMs s.ctl.coolStart → s.ev.flag.thermal = false → ¬PollDue s →
      ¬BatteryFault s.ctl → ¬HoldFires s →
      ∃ t, exec .ctrlStep s = .next t ∧ t.ports.result = 0#32 ∧ t.btn = buttonAfter s ∧
        t.ctl = { s.ctl with pstate := .sleeping, overTemp := false, flashActive := flashStill s } ∧
        t.out = { s.out with
          powerRail := false, fanMode := .off, shutdownReq := false
          ledMode := t.out.ledMode, ledOn := t.out.ledOn }

/-- R111: in ShippingMode an iteration consumes the event flags, runs the flash timer, updates the LED
and does nothing else, and no step but a power-on leaves the state. -/
def Obligations.ShippingModeIsTerminal : Prop :=
  (∀ s : State, s.ctl.phase = .run → s.ctl.pstate = .shippingMode →
      ∃ t, exec .ctrlStep s = .next t ∧ LedSays s.ports.nowMs t ∧
        t = { s with
          ctl := { s.ctl with flashActive := flashStill s }
          ev := { s.ev with flag := ⟨false, false, false, false⟩ }
          out := { s.out with ledMode := t.out.ledMode, ledOn := t.out.ledOn }
          ports := { s.ports with result := 0#32 } }) ∧
    ∀ s t : State, step s = .next t →
      ((∃ w rest, s.ports.evt = ⟨0, w⟩ :: rest) ∨ s.ports.cmd ≠ none ∨
        ∀ rest, s.env.moves ≠ .powerOn :: rest) → s.ctl.pstate = .shippingMode →
      t.ctl.pstate = .shippingMode

/-- A hold that fires in Powered: with a handshake it requests a soft shutdown, without one it gives
Sleeping at once, and while a soft shutdown is pending it does nothing (R109, R110, R113). The first
clause is for every iteration whose timers, poll and fault transitions leave Powered, whatever the poll
read (P4, command 3, of spec/95_test_vectors.md polls); the second for one that makes none of these. -/
def Obligations.HoldInPoweredShutsDown : Prop :=
  (∀ s : State, CtlInv s → Unblocked s → HoldFires s → (afterFaults s).ctl.pstate = .powered →
    ∃ t, exec .ctrlStep s = .next t ∧ t.ports.result = 0#32 ∧ t.btn = heldButton s ∧
      (PollDue s → t.ctl.lastPoll = s.ports.nowMs) ∧
      (¬PollDue s → t.ctl.status = s.ctl.status ∧ t.ctl.statusValid = s.ctl.statusValid ∧
        t.ctl.charging = s.ctl.charging ∧ t.ctl.battery = s.ctl.battery ∧
        t.ctl.lastPoll = s.ctl.lastPoll) ∧
      (s.ctl.ssdPending = true →
        t.ctl = { s.ctl with
          flashActive := flashStill s
          status := t.ctl.status, statusValid := t.ctl.statusValid, charging := t.ctl.charging
          battery := t.ctl.battery, lastPoll := t.ctl.lastPoll } ∧
        t.out = { s.out with
          shutdownReq := s.out.shutdownReq && decide (elapsed s.ports.nowMs s.ctl.ssdStart < 30)
          ledMode := t.out.ledMode, ledOn := t.out.ledOn }) ∧
      (s.ctl.ssdPending = false → s.par.handshake = true →
        t.ctl = { s.ctl with
          ssdPending := true, ssdStart := s.ports.nowMs, flashActive := flashStill s
          status := t.ctl.status, statusValid := t.ctl.statusValid, charging := t.ctl.charging
          battery := t.ctl.battery, lastPoll := t.ctl.lastPoll } ∧
        t.out = { s.out with
          shutdownReq := true, ledMode := t.out.ledMode, ledOn := t.out.ledOn }) ∧
      (s.par.handshake = false →
        t.ctl = { s.ctl with
          pstate := .sleeping, adcCont := false, flashActive := flashStill s
          status := t.ctl.status, statusValid := t.ctl.statusValid, charging := t.ctl.charging
          battery := t.ctl.battery, lastPoll := t.ctl.lastPoll } ∧
        t.out = { s.out with
          powerRail := false, fanMode := .off, shutdownReq := false
          ledMode := t.out.ledMode, ledOn := t.out.ledOn })) ∧
  ∀ s : State, CtlInv s → Unblocked s → s.ctl.pstate = .powered → HoldFires s → NoFault s →
    (s.ctl.ssdPending = true → s.ev.flag.hostAck = false ∧
      elapsed s.ports.nowMs s.ctl.ssdStart < 2500) →
    ∃ t, exec .ctrlStep s = .next t ∧ t.ports.result = 0#32 ∧ t.btn = heldButton s ∧
      (s.ctl.ssdPending = true → t.ctl = { s.ctl with flashActive := flashStill s } ∧
        t.out.powerRail = true) ∧
      (s.ctl.ssdPending = false → s.par.handshake = true →
        t.ctl = { s.ctl with
          ssdPending := true, ssdStart := s.ports.nowMs, flashActive := flashStill s } ∧
          t.out = { s.out with
            shutdownReq := true, ledMode := t.out.ledMode, ledOn := t.out.ledOn }) ∧
      (s.par.handshake = false →
        t.ctl = { s.ctl with pstate := .sleeping, adcCont := false, flashActive := flashStill s } ∧
          t.out = { s.out with
            powerRail := false, fanMode := .off, shutdownReq := false
            ledMode := t.out.ledMode, ledOn := t.out.ledOn })

/-- R110: a pending soft shutdown ends in Sleeping on an acknowledge, or, with the fault pattern, when
2500 ms have passed; the request line drops after 30 ms; before that nothing changes. First, blocked or
not, whatever the poll reads and whatever fault acts: one that ends, with no hold firing, leaves Powered
with rail, request line and sampling off; one that does not end stays pending in Powered, its request
line timed, unless a fault transition cancels it. Then exactly, with no fault acting and no hold: where
no poll is due, blocked or not, and where one is due in the iteration that ends it. -/
def Obligations.SoftShutdownTimers : Prop :=
  (∀ s : State, CtlInv s → s.ctl.phase = .run → ShutdownEnds s → ¬HoldFires s →
    ∃ t, exec .ctrlStep s = .next t ∧ t.ctl.pstate ≠ .powered ∧ t.ctl.ssdPending = false ∧
      t.ctl.adcCont = false ∧ t.out.powerRail = false ∧ t.out.shutdownReq = false) ∧
  (∀ s : State, CtlInv s → s.ctl.phase = .run → s.ctl.ssdPending = true → NoShutdownEnd s →
    ∃ t, exec .ctrlStep s = .next t ∧
      ((t.ctl.pstate = .powered ∧ t.ctl.ssdPending = true ∧ t.ctl.ssdStart = s.ctl.ssdStart ∧
          t.out.powerRail = true ∧ t.out.shutdownReq =
            (s.out.shutdownReq && decide (elapsed s.ports.nowMs s.ctl.ssdStart < 30))) ∨
        ((t.ctl.overTemp = true ∧ t.ctl.pstate = .coolingDown ∨
            BatteryFault t.ctl ∧ t.ctl.pstate = .shippingMode) ∧
          t.ctl.ssdPending = false ∧ t.out.powerRail = false ∧ t.out.shutdownReq = false))) ∧
  (∀ (od : Bool) (s : State) (off : Byte × Byte) (b1 b2 b3 : Byte), CtlInv s → Unblocked s →
    ShutdownEnds s → PollDue s → ¬Alert s → ¬HoldFires s → BusReady od s → s.par.wf = true →
    FieldMerged s.par .adcContinuous s.par.adcOffValue off.1 off.2 →
    s.env.gives (frameAnswers od
      (fieldWriteFrame s.par .adcContinuous off.1 off.2 ++ pollFrame s.par b1 b2 b3)) →
    (decodedStatus s.par b1 b2).fault.thermal = false →
    (decodedStatus s.par b1 b2).fault.battery = false →
    ∃ t, exec .ctrlStep s = .next t ∧ t.ports.result = 0#32 ∧ t.btn = buttonAfter s ∧
      PolledView s.par s.ports.nowMs b1 b2 b3 t.ctl ∧
      t.ctl = { s.ctl with
        pstate := .sleeping, ssdPending := false, adcCont := false
        flashActive := t.ctl.flashActive, flashStart := t.ctl.flashStart
        status := t.ctl.status, statusValid := true, charging := t.ctl.charging
        battery := t.ctl.battery, lastPoll := s.ports.nowMs } ∧
      (s.ev.flag.hostAck = true →
        t.ctl.flashActive = flashStill s ∧ t.ctl.flashStart = s.ctl.flashStart) ∧
      (s.ev.flag.hostAck = false → t.ctl.flashActive = true ∧ t.ctl.flashStart = s.ports.nowMs) ∧
      t.out = { s.out with
        powerRail := false, fanMode := .off, shutdownReq := false
        ledMode := t.out.ledMode, ledOn := t.out.ledOn }) ∧
  ∀ s : State, CtlInv s → s.ctl.phase = .run → s.ctl.ssdPending = true → NoFault s → ¬HoldFires s →
    ∃ t, exec .ctrlStep s = .next t ∧
      (s.ev.flag.hostAck = true →
        t.ctl = { s.ctl with
          pstate := .sleeping, ssdPending := false, adcCont := false, flashActive := flashStill s } ∧
          t.out = { s.out with
            powerRail := false, fanMode := .off, shutdownReq := false
            ledMode := t.out.ledMode, ledOn := t.out.ledOn }) ∧
      (s.ev.flag.hostAck = false → 2500 ≤ elapsed s.ports.nowMs s.ctl.ssdStart →
        t.ctl = { s.ctl with
          pstate := .sleeping, ssdPending := false, adcCont := false
          flashActive := true, flashStart := s.ports.nowMs } ∧
          t.out = ⟨false, .off, 5#3, true, false, s.out.lowPower⟩) ∧
      (s.ev.flag.hostAck = false → elapsed s.ports.nowMs s.ctl.ssdStart < 2500 →
        t.ctl = { s.ctl with flashActive := flashStill s } ∧ t.trace = s.trace ∧
          t.out = { s.out with
            shutdownReq := s.out.shutdownReq && decide (elapsed s.ports.nowMs s.ctl.ssdStart < 30)
            ledMode := t.out.ledMode, ledOn := t.out.ledOn })

/-- The bus traffic of every iteration of a running controller outside the dwell and ShippingMode, on a
peer that acknowledges its field writes, each of which replaces only its field, and answers its poll or
refuses one of its reads at the address (R106, R107, R109, R112 to R116). It is, in this order: the write
of ADC_CONTINUOUS with ADC_OFF_VALUE if a soft shutdown ends; then, unless the loop is blocked, the reads of
the poll, if one is due, up to a refused one; and what the entry action writes. On over-temperature and,
without it, on a battery fault: that write from Powered, and for ShippingMode the write of BATFET_CONTROL
with ISOLATE_VALUE. On a hold with neither: the write of ADC_CONTINUOUS with ADC_ON_VALUE from Sleeping if
the precondition of R108 then holds, that with ADC_OFF_VALUE from Powered without a handshake, and else
none. Inside the dwell and in ShippingMode nothing is on the bus: CoolingDownLastsItsDwell and
ShippingModeIsTerminal. -/
def Obligations.EntryActionsWriteTheirFields : Prop :=
  ∀ (od : Bool) (s : State) (off on iso : Byte × Byte) (pre : List Sym) (start : PState), CtlInv s →
    BusReady od s → s.par.wf = true → s.ctl.phase = .run → s.ctl.pstate ≠ .shippingMode →
    (s.ctl.pstate = .coolingDown → 120000 ≤ elapsed s.ports.nowMs s.ctl.coolStart) →
    FieldMerged s.par .adcContinuous s.par.adcOffValue off.1 off.2 →
    FieldMerged s.par .adcContinuous s.par.adcOnValue on.1 on.2 →
    FieldMerged s.par .batfetControl s.par.isolateValue iso.1 iso.2 →
    TimersMake s (fieldWriteFrame s.par .adcContinuous off.1 off.2) pre start →
    (s.btn.awaitRelease = true → StepMakes od s pre start) ∧
    (s.btn.awaitRelease = false → ∀ o : PollOutcome, PollMakes s o →
      let offIfPowered :=
        if start = .powered then fieldWriteFrame s.par .adcContinuous off.1 off.2 else []
      (Alert s ∨ o.hot = true →
        StepMakes od s (pre ++ o.frame ++ offIfPowered) .coolingDown) ∧
      (¬Alert s → o.hot = false → o.valid = true → o.status.fault.battery = true →
        StepMakes od s (pre ++ o.frame ++ offIfPowered ++
          fieldWriteFrame s.par .batfetControl iso.1 iso.2) .shippingMode) ∧
      (¬Alert s → o.hot = false → ¬(o.valid = true ∧ o.status.fault.battery = true) →
        (¬HoldFires s → StepMakes od s (pre ++ o.frame) start) ∧
        (HoldFires s → start = .sleeping → o.Allows →
          StepMakes od s (pre ++ o.frame ++ fieldWriteFrame s.par .adcContinuous on.1 on.2)
            .powered) ∧
        (HoldFires s → start = .sleeping → ¬o.Allows → StepMakes od s (pre ++ o.frame) .sleeping) ∧
        (HoldFires s → start = .powered → s.par.handshake = true →
          StepMakes od s (pre ++ o.frame) .powered) ∧
        (HoldFires s → start = .powered → s.par.handshake = false →
          StepMakes od s (pre ++ o.frame ++ offIfPowered) .sleeping)))

/-- R125: while blocked, an iteration ends the blocking when the button is released, or, with TIMEOUT,
when the release wait expires; it keeps the charger and thermal flags, drops the other two, and polls
and takes fault transitions only after the blocking. -/
def Obligations.BlockedLoopWaitsForRelease : Prop :=
  ∀ s : State, CtlInv s → s.ctl.phase = .run → s.ctl.pstate ≠ .shippingMode →
    s.btn.awaitRelease = true →
    ∃ t, exec .ctrlStep s = .next t ∧
      ((buttonAfter s).state = .released →
        t.btn = { buttonAfter s with awaitRelease := false } ∧ t.ports.result = 0#32) ∧
      ((buttonAfter s).state ≠ .released →
        s.par.releaseTimeoutMs ≤ elapsed s.ports.nowMs s.btn.awaitSince →
        t.btn = { buttonAfter s with awaitRelease := false } ∧
          ResultFields t.ports.result 3 false 0 0 false) ∧
      ((buttonAfter s).state ≠ .released →
        elapsed s.ports.nowMs s.btn.awaitSince < s.par.releaseTimeoutMs →
        t.btn = buttonAfter s ∧ t.ports.result = 0#32) ∧
      (s.ev.flag.chgIrq = true → t.ev.flag.chgIrq = true) ∧
      (s.ev.flag.thermal = true → t.ev.flag.thermal = true) ∧
      (Calm s → t.ev.flag = ⟨false, s.ev.flag.chgIrq, s.ev.flag.thermal, false⟩) ∧
      t.ctl.lastPoll = s.ctl.lastPoll ∧ t.ctl.status = s.ctl.status ∧
      (t.ctl.pstate = s.ctl.pstate ∨ t.ctl.pstate = .sleeping)

/-- CTRL_STEP with nothing to do: no poll, no fault, no hold, no soft shutdown (R106). -/
def Obligations.QuietStepOnlyDebounces : Prop :=
  ∀ s : State, CtlInv s → Unblocked s → s.ctl.pstate ≠ .coolingDown → s.ctl.ssdPending = false →
    NoFault s → ¬HoldFires s →
    ∃ t, exec .ctrlStep s = .next t ∧
      t = { s with
        ctl := { s.ctl with flashActive := flashStill s }
        btn := buttonAfter s
        ev := { s.ev with flag := ⟨false, false, false, false⟩ }
        out := { s.out with ledMode := t.out.ledMode, ledOn := t.out.ledOn }
        ports := { s.ports with result := 0#32 } }

/-- The controller's commands neither read nor write what stands on the command port's own data ports:
two states that differ only there differ only there afterwards (R84, R99, R116). -/
def Obligations.ControllerIgnoresTheDataPorts : Prop :=
  ∀ (i : Instr) (s t u : State) (desc : Cells 16) (data : Memory) (val result : Word),
    i = .ctrlBoot ∨ i = .ctrlStep → exec i s = .next t →
    exec i (otherPorts desc data val result s) = .next u →
    u = otherPorts desc data val t.ports.result t

/-! ## Button Debouncer -/

/-- One sample of the debouncer (R123): what it does to the level, and each transition with its
condition. -/
def Obligations.DebounceTransitions : Prop :=
  ∀ (p : Params) (now : Word) (level fired : Bool) (b c : Btn), b.debounce p now level = (fired, c) →
    c.lastRaw = level ∧ c.rawSince = (if level = b.lastRaw then b.rawSince else now) ∧
      c.awaitRelease = b.awaitRelease ∧ c.awaitSince = b.awaitSince ∧
      (b.state = .released →
        (c.state = .pressed ↔ level = false ∧ p.debounceMs ≤ elapsed now c.rawSince) ∧
          (c.state = .pressed ∨ c.state = .released) ∧
          c.pressStart = (if c.state = .pressed then c.rawSince else b.pressStart)) ∧
      (b.state = .pressed → c.pressStart = b.pressStart ∧
        (c.state = .released ↔ level = true ∧ p.debounceMs ≤ elapsed now c.rawSince) ∧
          (c.state = .held ↔ level = false ∧ p.holdMs < elapsed now b.pressStart) ∧
          (c.state = .held ∨ c.state = .pressed ∨ c.state = .released)) ∧
      (b.state = .held → c.pressStart = b.pressStart ∧
        (c.state = .released ↔ level = true ∧ p.debounceMs ≤ elapsed now c.rawSince) ∧
          (c.state = .held ∨ c.state = .released)) ∧
      (fired = true ↔ b.state = .pressed ∧ c.state = .held)

/-- R124: a press fires at most once, since Held is left only to Released and does not fire; and a press
released before the threshold is passed never fires. -/
def Obligations.PressFiresAtMostOnce : Prop :=
  (∀ (p : Params) (now : Word) (level : Bool) (b c : Btn), b.debounce p now level = (true, c) →
      b.state = .pressed ∧ c.state = .held) ∧
    (∀ (p : Params) (now : Word) (level fired : Bool) (b c : Btn),
      b.debounce p now level = (fired, c) → b.state = .held → c.state = .held ∨ c.state = .released) ∧
    (∀ (p : Params) (xs : List (Word × Bool)) (b : Btn), b.state = .held → NeverReleased p xs b →
      samplesFire p xs b = (false, (samplesFire p xs b).2) ∧ (samplesFire p xs b).2.state = .held) ∧
    ∀ (p : Params) (xs : List (Word × Bool)) (b : Btn), b.state = .pressed →
      (∀ x ∈ xs, x.2 = false → elapsed x.1 b.pressStart ≤ p.holdMs) → NeverReleased p xs b →
      (samplesFire p xs b).1 = false

end
end

