-- ==== Sys2Proof/Laws/Memory.lean ====
section
/-! SUPPORT. The indexed ports: reading after writing, and that a write keeps the canonical form. -/

namespace Sys2Proof.Machine

variable {w : Nat}

@[simp] theorem Cells.read_nil (i : Nat) : Cells.read ([] : Cells w) i = unwritten w := rfl

@[simp] theorem Cells.read_cons (j : Nat) (v : BitVec w) (rest : Cells w) (i : Nat) :
    Cells.read ((j, v) :: rest) i = if j = i then v else Cells.read rest i := rfl

/-- A canonical port's indexes are at least `lo`, so a lower index reads as unlisted. -/
theorem Cells.read_below {c : Cells w} {lo i : Nat} (h : Cells.wfFrom lo c = true) (hi : i < lo) :
    c.read i = unwritten w := by
  induction c generalizing lo with
  | nil => rfl
  | cons e rest ih =>
    obtain ⟨j, v⟩ := e
    simp only [Cells.wfFrom, Bool.and_eq_true, decide_eq_true_eq] at h
    rw [Cells.read_cons, if_neg (by omega)]
    exact ih h.2 (by omega)

/-- A lower bound of a canonical port can be lowered. -/
theorem Cells.wfFrom_mono {c : Cells w} {lo lo' : Nat} (h : Cells.wfFrom lo c = true) (hl : lo' ≤ lo) :
    Cells.wfFrom lo' c = true := by
  cases c with
  | nil => rfl
  | cons e rest =>
    simp only [Cells.wfFrom, Bool.and_eq_true, decide_eq_true_eq] at h ⊢
    exact ⟨⟨by omega, h.1.2⟩, h.2⟩

theorem Cells.entry_wf {rest : Cells w} {lo i : Nat} (v : BitVec w)
    (h : Cells.wfFrom (i + 1) rest = true) (hi : lo ≤ i) :
    Cells.wfFrom lo (Cells.entry i v rest) = true := by
  unfold Cells.entry
  split
  · exact Cells.wfFrom_mono h (by omega)
  · simp_all [Cells.wfFrom]

theorem Cells.write_wfFrom {c : Cells w} {lo i : Nat} (v : BitVec w)
    (h : Cells.wfFrom lo c = true) (hi : lo ≤ i) : Cells.wfFrom lo (c.write i v) = true := by
  induction c generalizing lo with
  | nil => exact Cells.entry_wf v rfl hi
  | cons e rest ih =>
    obtain ⟨j, u⟩ := e
    simp only [Cells.wfFrom, Bool.and_eq_true, decide_eq_true_eq] at h
    simp only [Cells.write]
    split
    · exact Cells.entry_wf v (by simp [Cells.wfFrom, h.1.2, h.2]; omega) hi
    · split
      · subst i; exact Cells.entry_wf v h.2 hi
      · simp only [Cells.wfFrom, Bool.and_eq_true, decide_eq_true_eq]
        exact ⟨h.1, ih h.2 (by omega)⟩

/-- A write keeps the canonical form. -/
theorem Cells.write_wf {c : Cells w} (h : c.wf = true) (i : Nat) (v : BitVec w) :
    (c.write i v).wf = true := Cells.write_wfFrom v h (Nat.zero_le i)

theorem Cells.entry_read (i : Nat) (v : BitVec w) {rest : Cells w} (k : Nat)
    (h : Cells.wfFrom (i + 1) rest = true) :
    (Cells.entry i v rest).read k = if i = k then v else rest.read k := by
  unfold Cells.entry
  split
  · split
    · subst k; rw [Cells.read_below h (by omega)]; simp_all
    · rfl
  · rfl

theorem Cells.read_write_from {c : Cells w} {lo : Nat} (h : Cells.wfFrom lo c = true) (i : Nat)
    (v : BitVec w) (k : Nat) : (c.write i v).read k = if i = k then v else c.read k := by
  induction c generalizing lo with
  | nil => exact Cells.entry_read i v k rfl
  | cons e rest ih =>
    obtain ⟨j, u⟩ := e
    simp only [Cells.wfFrom, Bool.and_eq_true, decide_eq_true_eq] at h
    simp only [Cells.write]
    split
    · rw [Cells.entry_read i v k (by simp [Cells.wfFrom, h.1.2, h.2]; omega)]
    · split
      · subst i; rw [Cells.entry_read j v k h.2]; simp only [Cells.read_cons]; split <;> rfl
      · rw [Cells.read_cons, ih h.2, Cells.read_cons]
        split
        · subst k; rw [if_neg (by omega)]
        · rfl

/-- A read after a write: the value at the index written, the old value at every other. -/
theorem Cells.read_write {c : Cells w} (h : c.wf = true) (i : Nat) (v : BitVec w) (k : Nat) :
    (c.write i v).read k = if i = k then v else c.read k := Cells.read_write_from h i v k

@[simp] theorem Memory.wf_nil : Memory.wf [] = true := rfl

theorem Memory.write_wf {m : Memory} (h : m.wf = true) (i : Nat) (b : Byte) :
    (m.write i b).wf = true := Cells.write_wf h i b

theorem Memory.read_write {m : Memory} (h : m.wf = true) (i : Nat) (b : Byte) (k : Nat) :
    (m.write i b).read k = if i = k then b else m.read k := Cells.read_write h i b k

@[simp] theorem Memory.read_nil (k : Nat) : Memory.read [] k = 0#8 := rfl

theorem Memory.copy_wf {m : Memory} (src : Memory) (start dst n : Nat) (h : m.wf = true) :
    (Memory.copy src start m dst n).wf = true := by
  induction n with
  | zero => exact h
  | succ n ih => exact Memory.write_wf ih _ _

/-- What a copy leaves at an index: the source's byte inside the range, the old byte outside. -/
theorem Memory.read_copy {m : Memory} (src : Memory) (start dst n : Nat) (h : m.wf = true) (k : Nat) :
    (Memory.copy src start m dst n).read k =
      if dst ≤ k ∧ k < dst + n then src.read (start + (k - dst)) else m.read k := by
  induction n with
  | zero => simp [Memory.copy]
  | succ n ih =>
    rw [Memory.copy, Memory.read_write (Memory.copy_wf src start dst n h), ih]
    by_cases hk : dst + n = k
    · subst hk; simp
    · rw [if_neg hk]
      by_cases h2 : dst ≤ k ∧ k < dst + n
      · rw [if_pos h2, if_pos (by omega)]
      · rw [if_neg h2, if_neg (by omega)]

end Sys2Proof.Machine
end

