-- ==== Sys2Proof/Laws/State.lean ====
section
/-! SUPPORT. One lemma per field per update of State, so that no proof unfolds a record update. -/

namespace Sys2Proof.Machine

variable (s : State)

@[simp] theorem onBus_bus (f : Bus → Bus) : (s.onBus f).bus = f s.bus := rfl
@[simp] theorem onBus_ctl (f : Bus → Bus) : (s.onBus f).ctl = s.ctl := rfl
@[simp] theorem onBus_btn (f : Bus → Bus) : (s.onBus f).btn = s.btn := rfl
@[simp] theorem onBus_ev (f : Bus → Bus) : (s.onBus f).ev = s.ev := rfl
@[simp] theorem onBus_out (f : Bus → Bus) : (s.onBus f).out = s.out := rfl
@[simp] theorem onBus_ports (f : Bus → Bus) : (s.onBus f).ports = s.ports := rfl
@[simp] theorem onBus_env (f : Bus → Bus) : (s.onBus f).env = s.env := rfl
@[simp] theorem onBus_trace (f : Bus → Bus) : (s.onBus f).trace = s.trace := rfl
@[simp] theorem onBus_par (f : Bus → Bus) : (s.onBus f).par = s.par := rfl

@[simp] theorem onCtl_bus (f : Ctl → Ctl) : (s.onCtl f).bus = s.bus := rfl
@[simp] theorem onCtl_ctl (f : Ctl → Ctl) : (s.onCtl f).ctl = f s.ctl := rfl
@[simp] theorem onCtl_btn (f : Ctl → Ctl) : (s.onCtl f).btn = s.btn := rfl
@[simp] theorem onCtl_ev (f : Ctl → Ctl) : (s.onCtl f).ev = s.ev := rfl
@[simp] theorem onCtl_out (f : Ctl → Ctl) : (s.onCtl f).out = s.out := rfl
@[simp] theorem onCtl_ports (f : Ctl → Ctl) : (s.onCtl f).ports = s.ports := rfl
@[simp] theorem onCtl_env (f : Ctl → Ctl) : (s.onCtl f).env = s.env := rfl
@[simp] theorem onCtl_trace (f : Ctl → Ctl) : (s.onCtl f).trace = s.trace := rfl
@[simp] theorem onCtl_par (f : Ctl → Ctl) : (s.onCtl f).par = s.par := rfl

@[simp] theorem onBtn_bus (f : Btn → Btn) : (s.onBtn f).bus = s.bus := rfl
@[simp] theorem onBtn_ctl (f : Btn → Btn) : (s.onBtn f).ctl = s.ctl := rfl
@[simp] theorem onBtn_btn (f : Btn → Btn) : (s.onBtn f).btn = f s.btn := rfl
@[simp] theorem onBtn_ev (f : Btn → Btn) : (s.onBtn f).ev = s.ev := rfl
@[simp] theorem onBtn_out (f : Btn → Btn) : (s.onBtn f).out = s.out := rfl
@[simp] theorem onBtn_ports (f : Btn → Btn) : (s.onBtn f).ports = s.ports := rfl
@[simp] theorem onBtn_env (f : Btn → Btn) : (s.onBtn f).env = s.env := rfl
@[simp] theorem onBtn_trace (f : Btn → Btn) : (s.onBtn f).trace = s.trace := rfl
@[simp] theorem onBtn_par (f : Btn → Btn) : (s.onBtn f).par = s.par := rfl

@[simp] theorem onEv_bus (f : Latches → Latches) : (s.onEv f).bus = s.bus := rfl
@[simp] theorem onEv_ctl (f : Latches → Latches) : (s.onEv f).ctl = s.ctl := rfl
@[simp] theorem onEv_btn (f : Latches → Latches) : (s.onEv f).btn = s.btn := rfl
@[simp] theorem onEv_ev (f : Latches → Latches) : (s.onEv f).ev = f s.ev := rfl
@[simp] theorem onEv_out (f : Latches → Latches) : (s.onEv f).out = s.out := rfl
@[simp] theorem onEv_ports (f : Latches → Latches) : (s.onEv f).ports = s.ports := rfl
@[simp] theorem onEv_env (f : Latches → Latches) : (s.onEv f).env = s.env := rfl
@[simp] theorem onEv_trace (f : Latches → Latches) : (s.onEv f).trace = s.trace := rfl
@[simp] theorem onEv_par (f : Latches → Latches) : (s.onEv f).par = s.par := rfl

@[simp] theorem onOut_bus (f : Out → Out) : (s.onOut f).bus = s.bus := rfl
@[simp] theorem onOut_ctl (f : Out → Out) : (s.onOut f).ctl = s.ctl := rfl
@[simp] theorem onOut_btn (f : Out → Out) : (s.onOut f).btn = s.btn := rfl
@[simp] theorem onOut_ev (f : Out → Out) : (s.onOut f).ev = s.ev := rfl
@[simp] theorem onOut_out (f : Out → Out) : (s.onOut f).out = f s.out := rfl
@[simp] theorem onOut_ports (f : Out → Out) : (s.onOut f).ports = s.ports := rfl
@[simp] theorem onOut_env (f : Out → Out) : (s.onOut f).env = s.env := rfl
@[simp] theorem onOut_trace (f : Out → Out) : (s.onOut f).trace = s.trace := rfl
@[simp] theorem onOut_par (f : Out → Out) : (s.onOut f).par = s.par := rfl

@[simp] theorem onPorts_bus (f : Ports → Ports) : (s.onPorts f).bus = s.bus := rfl
@[simp] theorem onPorts_ctl (f : Ports → Ports) : (s.onPorts f).ctl = s.ctl := rfl
@[simp] theorem onPorts_btn (f : Ports → Ports) : (s.onPorts f).btn = s.btn := rfl
@[simp] theorem onPorts_ev (f : Ports → Ports) : (s.onPorts f).ev = s.ev := rfl
@[simp] theorem onPorts_out (f : Ports → Ports) : (s.onPorts f).out = s.out := rfl
@[simp] theorem onPorts_ports (f : Ports → Ports) : (s.onPorts f).ports = f s.ports := rfl
@[simp] theorem onPorts_env (f : Ports → Ports) : (s.onPorts f).env = s.env := rfl
@[simp] theorem onPorts_trace (f : Ports → Ports) : (s.onPorts f).trace = s.trace := rfl
@[simp] theorem onPorts_par (f : Ports → Ports) : (s.onPorts f).par = s.par := rfl

@[simp] theorem onEnv_bus (f : Env → Env) : (s.onEnv f).bus = s.bus := rfl
@[simp] theorem onEnv_ctl (f : Env → Env) : (s.onEnv f).ctl = s.ctl := rfl
@[simp] theorem onEnv_btn (f : Env → Env) : (s.onEnv f).btn = s.btn := rfl
@[simp] theorem onEnv_ev (f : Env → Env) : (s.onEnv f).ev = s.ev := rfl
@[simp] theorem onEnv_out (f : Env → Env) : (s.onEnv f).out = s.out := rfl
@[simp] theorem onEnv_ports (f : Env → Env) : (s.onEnv f).ports = s.ports := rfl
@[simp] theorem onEnv_env (f : Env → Env) : (s.onEnv f).env = f s.env := rfl
@[simp] theorem onEnv_trace (f : Env → Env) : (s.onEnv f).trace = s.trace := rfl
@[simp] theorem onEnv_par (f : Env → Env) : (s.onEnv f).par = s.par := rfl

@[simp] theorem log_bus (e : LineEvent) : (s.log e).bus = s.bus := rfl
@[simp] theorem log_ctl (e : LineEvent) : (s.log e).ctl = s.ctl := rfl
@[simp] theorem log_btn (e : LineEvent) : (s.log e).btn = s.btn := rfl
@[simp] theorem log_ev (e : LineEvent) : (s.log e).ev = s.ev := rfl
@[simp] theorem log_out (e : LineEvent) : (s.log e).out = s.out := rfl
@[simp] theorem log_ports (e : LineEvent) : (s.log e).ports = s.ports := rfl
@[simp] theorem log_env (e : LineEvent) : (s.log e).env = s.env := rfl
@[simp] theorem log_trace (e : LineEvent) : (s.log e).trace = e :: s.trace := rfl
@[simp] theorem log_par (e : LineEvent) : (s.log e).par = s.par := rfl

@[simp] theorem finish_bus (r : Result) : (s.finish r).bus = s.bus := rfl
@[simp] theorem finish_ctl (r : Result) : (s.finish r).ctl = s.ctl := rfl
@[simp] theorem finish_btn (r : Result) : (s.finish r).btn = s.btn := rfl
@[simp] theorem finish_ev (r : Result) : (s.finish r).ev = s.ev := rfl
@[simp] theorem finish_out (r : Result) : (s.finish r).out = s.out := rfl
@[simp] theorem finish_ports (r : Result) : (s.finish r).ports = { s.ports with result := r.word } := rfl
@[simp] theorem finish_env (r : Result) : (s.finish r).env = s.env := rfl
@[simp] theorem finish_trace (r : Result) : (s.finish r).trace = s.trace := rfl
@[simp] theorem finish_par (r : Result) : (s.finish r).par = s.par := rfl

@[simp] theorem setVal_bus (v : Word) : (s.setVal v).bus = s.bus := rfl
@[simp] theorem setVal_ctl (v : Word) : (s.setVal v).ctl = s.ctl := rfl
@[simp] theorem setVal_btn (v : Word) : (s.setVal v).btn = s.btn := rfl
@[simp] theorem setVal_ev (v : Word) : (s.setVal v).ev = s.ev := rfl
@[simp] theorem setVal_out (v : Word) : (s.setVal v).out = s.out := rfl
@[simp] theorem setVal_ports (v : Word) : (s.setVal v).ports = { s.ports with val := v } := rfl
@[simp] theorem setVal_env (v : Word) : (s.setVal v).env = s.env := rfl
@[simp] theorem setVal_trace (v : Word) : (s.setVal v).trace = s.trace := rfl
@[simp] theorem setVal_par (v : Word) : (s.setVal v).par = s.par := rfl

@[simp] theorem setData_bus (m : Memory) : (s.setData m).bus = s.bus := rfl
@[simp] theorem setData_ctl (m : Memory) : (s.setData m).ctl = s.ctl := rfl
@[simp] theorem setData_btn (m : Memory) : (s.setData m).btn = s.btn := rfl
@[simp] theorem setData_ev (m : Memory) : (s.setData m).ev = s.ev := rfl
@[simp] theorem setData_out (m : Memory) : (s.setData m).out = s.out := rfl
@[simp] theorem setData_ports (m : Memory) : (s.setData m).ports = { s.ports with data := m } := rfl
@[simp] theorem setData_env (m : Memory) : (s.setData m).env = s.env := rfl
@[simp] theorem setData_trace (m : Memory) : (s.setData m).trace = s.trace := rfl
@[simp] theorem setData_par (m : Memory) : (s.setData m).par = s.par := rfl

@[simp] theorem latch_bus (k : EventKind) : (s.latch k).bus = s.bus := rfl
@[simp] theorem latch_ctl (k : EventKind) : (s.latch k).ctl = s.ctl := rfl
@[simp] theorem latch_btn (k : EventKind) : (s.latch k).btn = s.btn := rfl
@[simp] theorem latch_ev (k : EventKind) : (s.latch k).ev = s.ev.latch s.bus.irqMask k := rfl
@[simp] theorem latch_out (k : EventKind) : (s.latch k).out = s.out := rfl
@[simp] theorem latch_ports (k : EventKind) : (s.latch k).ports = s.ports := rfl
@[simp] theorem latch_env (k : EventKind) : (s.latch k).env = s.env := rfl
@[simp] theorem latch_trace (k : EventKind) : (s.latch k).trace = s.trace := rfl
@[simp] theorem latch_par (k : EventKind) : (s.latch k).par = s.par := rfl

@[simp] theorem tick_bus : (s.tick).bus = s.bus := rfl
@[simp] theorem tick_ctl : (s.tick).ctl = s.ctl := rfl
@[simp] theorem tick_btn : (s.tick).btn = s.btn := rfl
@[simp] theorem tick_ev : (s.tick).ev = (arrive s.bus.irqMask s.ports.evt s.ev).2 := rfl
@[simp] theorem tick_out : (s.tick).out = s.out := rfl
@[simp] theorem tick_ports : (s.tick).ports = { s.ports with evt := (arrive s.bus.irqMask s.ports.evt s.ev).1 } := rfl
@[simp] theorem tick_env : (s.tick).env = s.env := rfl
@[simp] theorem tick_trace : (s.tick).trace = s.trace := rfl
@[simp] theorem tick_par : (s.tick).par = s.par := rfl

@[simp] theorem maskIrq_bus : (s.maskIrq).bus = { s.bus with irqMask := true } := rfl
@[simp] theorem maskIrq_ctl : (s.maskIrq).ctl = s.ctl := rfl
@[simp] theorem maskIrq_btn : (s.maskIrq).btn = s.btn := rfl
@[simp] theorem maskIrq_ev : (s.maskIrq).ev = s.ev := rfl
@[simp] theorem maskIrq_out : (s.maskIrq).out = s.out := rfl
@[simp] theorem maskIrq_ports : (s.maskIrq).ports = s.ports := rfl
@[simp] theorem maskIrq_env : (s.maskIrq).env = s.env := rfl
@[simp] theorem maskIrq_trace : (s.maskIrq).trace = s.trace := rfl
@[simp] theorem maskIrq_par : (s.maskIrq).par = s.par := rfl

@[simp] theorem unmask_bus : (s.unmask).bus = { s.bus with irqMask := false } := rfl
@[simp] theorem unmask_ctl : (s.unmask).ctl = s.ctl := rfl
@[simp] theorem unmask_btn : (s.unmask).btn = s.btn := rfl
@[simp] theorem unmask_ev : (s.unmask).ev = s.ev.deliver := rfl
@[simp] theorem unmask_out : (s.unmask).out = s.out := rfl
@[simp] theorem unmask_ports : (s.unmask).ports = s.ports := rfl
@[simp] theorem unmask_env : (s.unmask).env = s.env := rfl
@[simp] theorem unmask_trace : (s.unmask).trace = s.trace := rfl
@[simp] theorem unmask_par : (s.unmask).par = s.par := rfl

/-- Two updates of the SoftBus Master's state are one. -/
theorem onBus_onBus (f g : Bus → Bus) : (s.onBus f).onBus g = s.onBus fun b => g (f b) := rfl

end Sys2Proof.Machine
end

