-- ==== Sys2Proof/Laws/Ops.lean ====
section
/-! SUPPORT. What the line primitives and the event port can do, said once: each changes only the bus
side of the state (BusOnly), keeps the bus set-up (SameSetup), and how the latches move. -/

namespace Sys2Proof.Machine

/-! ## Event bits and latches -/

@[simp] theorem EventBits.get_raise (e : EventBits) (k j : EventKind) :
    (e.raise k).get j = (decide (j = k) || e.get j) := by cases k <;> cases j <;> simp [get, raise]

@[simp] theorem EventBits.get_union (e f : EventBits) (k : EventKind) :
    (e.union f).get k = (e.get k || f.get k) := by cases k <;> rfl

@[simp] theorem EventBits.get_none (k : EventKind) : EventBits.none.get k = false := by
  cases k <;> rfl

@[simp] theorem EventBits.union_none (e : EventBits) : e.union .none = e := by
  simp [union, EventBits.none]

@[ext] theorem EventBits.ext_get {e f : EventBits} (h : ∀ k, e.get k = f.get k) : e = f := by
  obtain ⟨a, b, c, d⟩ := e
  obtain ⟨a', b', c', d'⟩ := f
  have h1 : a = a' := h .button
  have h2 : b = b' := h .chgIrq
  have h3 : c = c' := h .thermal
  have h4 : d = d' := h .hostAck
  simp [h1, h2, h3, h4]

theorem EventBits.le_refl (e : EventBits) : e.le e := fun _ h => h

theorem EventBits.le.trans {e f g : EventBits} (h : e.le f) (h' : f.le g) : e.le g :=
  fun k hk => h' k (h k hk)

theorem EventBits.le_raise (e : EventBits) (k : EventKind) : e.le (e.raise k) := by
  intro j h; simp [h]

theorem EventBits.le_union (e f : EventBits) : e.le (e.union f) := by intro j h; simp [h]

theorem Latches.deliver_of_pend_none {l : Latches} (h : l.pend = .none) : l.deliver = l := by
  obtain ⟨f, p⟩ := l
  simp_all [deliver]

theorem Latches.le_present (mask : Bool) (w : Word) (l : Latches) :
    l.flag.le (l.present mask w).flag := by
  unfold present latch
  split
  · split
    · exact l.flag.le_refl
    · exact l.flag.le_raise _
  · exact l.flag.le_refl

@[simp] theorem arrive_nil (mask : Bool) (l : Latches) : arrive mask [] l = ([], l) := rfl

/-- An instant only adds flags. -/
theorem arrive_le (mask : Bool) (q : List Arrival) (l : Latches) :
    l.flag.le (arrive mask q l).2.flag := by
  induction q generalizing l with
  | nil => exact l.flag.le_refl
  | cons a rest ih =>
    unfold arrive
    split
    · exact (l.le_present mask a.word).trans (ih _)
    · exact l.flag.le_refl

/-- Under the mask an instant leaves the flags alone. -/
theorem arrive_masked_flag (q : List Arrival) (l : Latches) : (arrive true q l).2.flag = l.flag := by
  induction q generalizing l with
  | nil => rfl
  | cons a rest ih =>
    unfold arrive
    split
    · rw [ih]; unfold Latches.present Latches.latch; split <;> rfl
    · rfl

/-- With events unmasked an instant leaves the pending bits alone. -/
theorem arrive_unmasked_pend (q : List Arrival) (l : Latches) :
    (arrive false q l).2.pend = l.pend := by
  induction q generalizing l with
  | nil => rfl
  | cons a rest ih =>
    unfold arrive
    split
    · rw [ih]; unfold Latches.present Latches.latch; split <;> rfl
    · rfl

/-! ## BusOnly and SameSetup -/

theorem BusOnly.refl (s : State) : BusOnly s s :=
  ⟨rfl, rfl, rfl, rfl, rfl, rfl, s.ev.flag.le_refl, fun h => ⟨rfl, h.1⟩, [], rfl⟩

theorem BusOnly.trans {s t u : State} (h : BusOnly s t) (h' : BusOnly t u) : BusOnly s u where
  ctl := h'.ctl.trans h.ctl
  btn := h'.btn.trans h.btn
  out := h'.out.trans h.out
  par := h'.par.trans h.par
  ports := by rw [h'.ports, h.ports]
  moves := h'.moves.trans h.moves
  flags := h.flags.trans h'.flags
  calm := fun hc => by
    have h1 := h.calm hc
    have h2 := h'.calm ⟨h1.2, by rw [h1.1]; exact hc.2⟩
    exact ⟨h2.1.trans h1.1, h2.2⟩
  trace := by
    obtain ⟨n, hn⟩ := h.trace
    obtain ⟨m, hm⟩ := h'.trace
    exact ⟨m ++ n, by rw [hm, hn, List.append_assoc]⟩

theorem SameSetup.refl (s : State) : SameSetup s s := ⟨rfl, rfl, rfl, rfl⟩

theorem SameSetup.trans {s t u : State} (h : SameSetup s t) (h' : SameSetup t u) : SameSetup s u :=
  ⟨h'.mode.trans h.mode, h'.ready.trans h.ready, h'.rate.trans h.rate,
    h'.detecting.trans h.detecting⟩

theorem tick_busOnly (s : State) : BusOnly s s.tick where
  ctl := rfl
  btn := rfl
  out := rfl
  par := rfl
  ports := rfl
  moves := rfl
  flags := arrive_le _ _ _
  calm := fun h => by simp [h.1]
  trace := ⟨[], rfl⟩

theorem onBus_busOnly (s : State) (f : Bus → Bus) : BusOnly s (s.onBus f) :=
  ⟨rfl, rfl, rfl, rfl, rfl, rfl, s.ev.flag.le_refl, fun h => ⟨rfl, h.1⟩, [], rfl⟩

theorem log_busOnly (s : State) (e : LineEvent) : BusOnly s (s.log e) :=
  ⟨rfl, rfl, rfl, rfl, rfl, rfl, s.ev.flag.le_refl, fun h => ⟨rfl, h.1⟩, [e], rfl⟩

theorem Env.next_moves (e : Env) : e.next.moves = e.moves := by unfold Env.next; split <;> rfl

theorem onEnv_next_busOnly (s : State) : BusOnly s (s.onEnv Env.next) :=
  ⟨rfl, rfl, rfl, rfl, rfl, s.env.next_moves, s.ev.flag.le_refl, fun h => ⟨rfl, h.1⟩, [], rfl⟩

theorem maskIrq_busOnly (s : State) : BusOnly s s.maskIrq := onBus_busOnly s _

theorem unmask_busOnly (s : State) : BusOnly s s.unmask where
  ctl := rfl
  btn := rfl
  out := rfl
  par := rfl
  ports := rfl
  moves := rfl
  flags := s.ev.flag.le_union s.ev.pend
  calm := fun h => ⟨Latches.deliver_of_pend_none h.2, h.1⟩
  trace := ⟨[], rfl⟩

theorem drive_busOnly (line : Line) (lvl : Level) (s : State) : BusOnly s (drive line lvl s) :=
  ((tick_busOnly s).trans (onBus_busOnly _ _)).trans (log_busOnly _ _)

theorem wait_busOnly (d : Delay) (s : State) : BusOnly s (wait d s) :=
  (tick_busOnly s).trans (log_busOnly _ _)

theorem sample_busOnly (line : Line) (s : State) : BusOnly s (sample line s) :=
  ((tick_busOnly s).trans (onEnv_next_busOnly _)).trans (log_busOnly _ _)

theorem drive_sameSetup (line : Line) (lvl : Level) (s : State) : SameSetup s (drive line lvl s) := by
  cases line <;> exact ⟨rfl, rfl, rfl, rfl⟩

theorem wait_sameSetup (d : Delay) (s : State) : SameSetup s (wait d s) := ⟨rfl, rfl, rfl, rfl⟩

theorem sample_sameSetup (line : Line) (s : State) : SameSetup s (sample line s) :=
  ⟨rfl, rfl, rfl, rfl⟩

/-! ## The fields of a state after a line primitive -/

@[simp] theorem drive_ctl (line : Line) (lvl : Level) (s : State) : (drive line lvl s).ctl = s.ctl := rfl
@[simp] theorem drive_par (line : Line) (lvl : Level) (s : State) : (drive line lvl s).par = s.par := rfl
@[simp] theorem drive_env (line : Line) (lvl : Level) (s : State) : (drive line lvl s).env = s.env := rfl
@[simp] theorem drive_bus (line : Line) (lvl : Level) (s : State) :
    (drive line lvl s).bus = s.bus.setLine line lvl := rfl
@[simp] theorem drive_trace (line : Line) (lvl : Level) (s : State) :
    (drive line lvl s).trace = .drive line lvl :: s.trace := rfl
@[simp] theorem wait_par (d : Delay) (s : State) : (wait d s).par = s.par := rfl
@[simp] theorem wait_env (d : Delay) (s : State) : (wait d s).env = s.env := rfl
@[simp] theorem wait_bus (d : Delay) (s : State) : (wait d s).bus = s.bus := rfl
@[simp] theorem wait_trace (d : Delay) (s : State) : (wait d s).trace = .wait d :: s.trace := rfl
@[simp] theorem sample_par (line : Line) (s : State) : (sample line s).par = s.par := rfl
@[simp] theorem sample_env (line : Line) (s : State) : (sample line s).env = s.env.next := rfl
@[simp] theorem sample_bus (line : Line) (s : State) : (sample line s).bus = s.bus := rfl
@[simp] theorem sample_trace (line : Line) (s : State) :
    (sample line s).trace = .sample line (sampled s) :: s.trace := rfl

end Sys2Proof.Machine
end

