-- ==== Sys2Proof/Laws/Waveform.lean ====
section
/-! SUPPORT. What every waveform can do, proved once for every relation the line primitives keep, and
the pins a waveform leaves. -/

namespace Sys2Proof.Machine

/-- `c` is `b` but for the bookkeeping of a transfer: busOwned, shift, bit, msg, byte. -/
structure Bus.SameLines (b c : Bus) : Prop where
  mode : c.mode = b.mode
  ready : c.ready = b.ready
  rate : c.rate = b.rate
  detecting : c.detecting = b.detecting
  sclDrv : c.sclDrv = b.sclDrv
  sdaDrv : c.sdaDrv = b.sdaDrv
  irqMask : c.irqMask = b.irqMask

/-- A relation that every line primitive a waveform uses keeps. SCL is sampled only in open-drain mode
outside a detection, and a line only while released. -/
structure LineRel (R : State → State → Prop) : Prop where
  refl : ∀ s, R s s
  trans : ∀ {s t u}, R s t → R t u → R s u
  drive : ∀ l v s, R s (drive l v s)
  wait : ∀ d s, R s (wait d s)
  sampleScl : ∀ s, s.bus.mode = .openDrain → s.bus.detecting = false → s.bus.sclDrv = .float →
    R s (sample .scl s)
  sampleSda : ∀ s, s.bus.sdaDrv = .float → R s (sample .sda s)
  inner : ∀ s f, (∀ b, Bus.SameLines b (f b)) → R s (s.onBus f)

variable {R : State → State → Prop}

/-- The relation of a composed waveform, from its parts'. -/
theorem LineRel.andThen {α β : Type} (h : LineRel R) {s : State} {w : Wave α}
    {f : α → State → Wave β} (hw : R s w.state) (hf : ∀ a t, w = .done a t → R t (f a t).state) :
    R s (w.andThen f).state := by
  cases w with
  | done a t => exact h.trans hw (hf a t rfl)
  | timeout t => exact hw

theorem LineRel.setOwned (h : LineRel R) (v : Bool) (s : State) : R s (setOwned v s) :=
  h.inner s _ fun _ => ⟨rfl, rfl, rfl, rfl, rfl, rfl, rfl⟩

theorem LineRel.setBit (h : LineRel R) (i : Nat) (s : State) : R s (setBit i s) :=
  h.inner s _ fun _ => ⟨rfl, rfl, rfl, rfl, rfl, rfl, rfl⟩

theorem LineRel.setShift (h : LineRel R) (v : Byte) (s : State) : R s (setShift v s) :=
  h.inner s _ fun _ => ⟨rfl, rfl, rfl, rfl, rfl, rfl, rfl⟩

theorem LineRel.setMsg (h : LineRel R) (j : Nat) (s : State) : R s (setMsg j s) :=
  h.inner s _ fun _ => ⟨rfl, rfl, rfl, rfl, rfl, rfl, rfl⟩

theorem LineRel.setByte (h : LineRel R) (k : Nat) (s : State) : R s (setByte k s) :=
  h.inner s _ fun _ => ⟨rfl, rfl, rfl, rfl, rfl, rfl, rfl⟩

/-- The polling loop changes neither the pins nor the set-up. -/
theorem pollScl_bus (n : Nat) (s : State) : (pollScl n s).state.bus = s.bus := by
  induction n generalizing s with
  | zero => unfold pollScl; split <;> rfl
  | succ n ih =>
    unfold pollScl
    split
    · rfl
    · exact (ih _).trans rfl

theorem waitSclHigh_bus (s : State) : (waitSclHigh s).state.bus = s.bus := by
  unfold waitSclHigh
  split
  · rfl
  · exact pollScl_bus _ _

/-- A rise of SCL leaves SCL at its released level and every other part of the bus alone. -/
theorem sclRise_bus (s : State) : (sclRise s).state.bus = { s.bus with sclDrv := s.bus.highLevel } := by
  unfold sclRise
  rw [waitSclHigh_bus]
  rfl

theorem LineRel.pollScl (h : LineRel R) (n : Nat) (s : State) (hm : s.bus.mode = .openDrain)
    (hd : s.bus.detecting = false) (hs : s.bus.sclDrv = .float) : R s (pollScl n s).state := by
  induction n generalizing s with
  | zero => unfold Machine.pollScl; split <;> exact h.sampleScl s hm hd hs
  | succ n ih =>
    unfold Machine.pollScl
    split
    · exact h.sampleScl s hm hd hs
    · exact h.trans (h.trans (h.sampleScl s hm hd hs) (h.wait _ _)) (ih _ hm hd hs)

theorem LineRel.sclRise (h : LineRel R) (s : State) : R s (sclRise s).state := by
  refine h.trans (h.drive .scl s.bus.highLevel s) ?_
  unfold Machine.sclRise waitSclHigh
  split
  · exact h.refl _
  · rename_i hc
    simp only [Bool.or_eq_true, bne_iff_ne, not_or, ne_eq, Decidable.not_not, Bool.not_eq_true] at hc
    refine h.pollScl _ _ hc.2 hc.1 ?_
    have hm : s.bus.mode = .openDrain := hc.2
    show s.bus.highLevel = .float
    simp [Bus.highLevel, Bus.od, hm]

theorem LineRel.start (h : LineRel R) (s : State) : R s (start s).state := by
  unfold Machine.start
  refine h.andThen
    (h.trans (h.trans (h.drive _ _ _) (h.wait _ _)) (h.sclRise _)) ?_
  intro _ t _
  exact h.trans (h.trans (h.trans (h.trans (h.trans (h.wait _ _) (h.drive _ _ _)) (h.wait _ _))
    (h.drive _ _ _)) (h.wait _ _)) (h.setOwned _ _)

theorem LineRel.stop (h : LineRel R) (s : State) : R s (stop s).state := by
  unfold Machine.stop
  refine h.andThen (h.trans (h.trans (h.trans (h.trans (h.drive _ _ _) (h.wait _ _))
    (h.drive _ _ _)) (h.wait _ _)) (h.sclRise _)) ?_
  intro _ t _
  exact h.trans (h.trans (h.trans (h.wait _ _) (h.drive _ _ _)) (h.wait _ _)) (h.setOwned _ _)

theorem LineRel.writeBit (h : LineRel R) (b : Bool) (s : State) : R s (writeBit b s).state := by
  unfold Machine.writeBit
  refine h.andThen
    (h.trans (h.trans (h.drive _ _ _) (h.wait _ _)) (h.sclRise _)) ?_
  intro _ t _
  exact h.trans (h.wait _ _) (h.drive _ _ _)

theorem LineRel.readBit (h : LineRel R) (s : State) : R s (readBit s).state := by
  unfold Machine.readBit
  refine h.andThen
    (h.trans (h.trans (h.drive _ _ _) (h.wait _ _)) (h.sclRise _)) ?_
  intro _ t ht
  have hb : t.bus.sdaDrv = .float := by
    have := sclRise_bus (Machine.wait .half (sdaFloat s))
    rw [ht] at this
    simp only [Wave.state] at this
    rw [this]
    rfl
  exact h.trans (h.trans (h.wait _ _) (h.sampleSda _ hb)) (h.drive _ _ _)

theorem LineRel.writeBits (h : LineRel R) (v : Byte) (n : Nat) (s : State) :
    R s (writeBits v n s).state := by
  induction n generalizing s with
  | zero => exact h.refl s
  | succ n ih =>
    exact h.andThen (h.trans (h.setBit _ _) (h.writeBit _ _)) fun _ t _ => ih t

theorem LineRel.writeByte (h : LineRel R) (v : Byte) (s : State) : R s (writeByte v s).state := by
  refine h.andThen (h.trans (h.setShift _ _) (h.writeBits _ _ _)) fun _ t _ => ?_
  exact h.andThen (h.readBit _) fun _ u _ => h.refl u

theorem LineRel.readBits (h : LineRel R) (v : Byte) (n : Nat) (s : State) :
    R s (readBits v n s).state := by
  induction n generalizing v s with
  | zero => exact h.refl s
  | succ n ih =>
    exact h.andThen (h.trans (h.setBit _ _) (h.readBit _)) fun b t _ => ih _ t

theorem LineRel.readByte (h : LineRel R) (last : Bool) (s : State) : R s (readByte last s).state := by
  refine h.andThen (h.readBits _ _ _) fun v t _ => ?_
  refine h.andThen (h.trans (h.setShift _ _) (h.writeBit _ _)) fun _ u _ => h.refl u

/-! ## The pins a waveform leaves -/

/-- The value of a composed waveform comes from values of its parts. -/
theorem Wave.andThen_done {α β : Type} {w : Wave α} {f : α → State → Wave β} {b : β} {t : State}
    (h : w.andThen f = .done b t) : ∃ a u, w = .done a u ∧ f a u = .done b t := by
  cases w with
  | done a u => exact ⟨a, u, rfl, h⟩
  | timeout u => simp [Wave.andThen] at h

/-- SCL is low and the bus owned after a start. -/
theorem start_done {s t : State} {u : Unit} (h : start s = .done u t) :
    t.bus.sclDrv = .low ∧ t.bus.busOwned = true := by
  obtain ⟨_, v, _, hv⟩ := Wave.andThen_done h
  cases hv
  exact ⟨rfl, rfl⟩

/-- The lines are at their released levels and the bus is not owned after a stop. -/
theorem stop_done {s t : State} {u : Unit} (h : stop s = .done u t) :
    t.bus.busOwned = false ∧ t.bus.sclDrv = t.bus.highLevel ∧ t.bus.sdaDrv = t.bus.highLevel := by
  obtain ⟨_, v, hw, hv⟩ := Wave.andThen_done h
  have hb := sclRise_bus (wait .half (sdaSet false (wait .half (sclLow s))))
  rw [hw] at hb
  cases hv
  have hb' : v.bus = _ := hb
  refine ⟨rfl, ?_, rfl⟩
  show v.bus.sclDrv = v.bus.highLevel
  rw [hb']
  rfl

/-- SCL is low after a bit. -/
theorem writeBit_done {b : Bool} {s t : State} {u : Unit} (h : writeBit b s = .done u t) :
    t.bus.sclDrv = .low ∧ t.bus.busOwned = s.bus.busOwned := by
  obtain ⟨_, v, hw, hv⟩ := Wave.andThen_done h
  have hb := sclRise_bus (wait .half (sdaSet b s))
  rw [hw] at hb
  cases hv
  refine ⟨rfl, ?_⟩
  show v.bus.busOwned = _
  rw [show v.bus = _ from hb]
  rfl

theorem readBit_done {b : Bool} {s t : State} (h : readBit s = .done b t) :
    t.bus.sclDrv = .low ∧ t.bus.busOwned = s.bus.busOwned := by
  obtain ⟨_, v, hw, hv⟩ := Wave.andThen_done h
  have hb := sclRise_bus (wait .half (sdaFloat s))
  rw [hw] at hb
  cases hv
  refine ⟨rfl, ?_⟩
  show v.bus.busOwned = _
  rw [show v.bus = _ from hb]
  rfl

theorem writeBits_owned {v : Byte} {n : Nat} {s t : State} {u : Unit}
    (h : writeBits v n s = .done u t) : t.bus.busOwned = s.bus.busOwned := by
  induction n generalizing s with
  | zero => cases h; rfl
  | succ n ih =>
    obtain ⟨_, w, hw, hv⟩ := Wave.andThen_done h
    exact (ih hv).trans (writeBit_done hw).2

theorem readBits_owned {v w : Byte} {n : Nat} {s t : State} (h : readBits v n s = .done w t) :
    t.bus.busOwned = s.bus.busOwned := by
  induction n generalizing v s with
  | zero => cases h; rfl
  | succ n ih =>
    obtain ⟨_, x, hw, hv⟩ := Wave.andThen_done h
    exact (ih hv).trans (readBit_done hw).2

/-- SCL is low after a byte sent, and the ownership stays. -/
theorem writeByte_done {v : Byte} {a : Bool} {s t : State} (h : writeByte v s = .done a t) :
    t.bus.sclDrv = .low ∧ t.bus.busOwned = s.bus.busOwned := by
  obtain ⟨_, u, hu, hr⟩ := Wave.andThen_done h
  obtain ⟨_, x, hx, hf⟩ := Wave.andThen_done hr
  cases hf
  exact ⟨(readBit_done hx).1, (readBit_done hx).2.trans (writeBits_owned (s := setShift v s) hu)⟩

/-- SCL is low after a byte received, and the ownership stays. -/
theorem readByte_done {last : Bool} {v : Byte} {s t : State} (h : readByte last s = .done v t) :
    t.bus.sclDrv = .low ∧ t.bus.busOwned = s.bus.busOwned := by
  obtain ⟨_, u, hu, hr⟩ := Wave.andThen_done h
  obtain ⟨_, x, hx, hf⟩ := Wave.andThen_done hr
  cases hf
  exact ⟨(writeBit_done hx).1, (writeBit_done hx).2.trans (show u.bus.busOwned = _ from readBits_owned hu)⟩

/-- A bus released without a stop: the lines at their released levels, not owned. -/
theorem releaseBus_pins (s : State) : (releaseBus s).bus.busOwned = false ∧
    (releaseBus s).bus.sclDrv = (releaseBus s).bus.highLevel ∧
    (releaseBus s).bus.sdaDrv = (releaseBus s).bus.highLevel := ⟨rfl, rfl, rfl⟩

theorem LineRel.releaseBus (h : LineRel R) (s : State) : R s (releaseBus s) :=
  h.trans (h.trans (h.drive _ _ _) (h.drive _ _ _)) (h.setOwned _ _)

end Sys2Proof.Machine
end

