-- ==== Sys2Proof/Laws/Transfer.lean ====
section
/-! SUPPORT. What a transaction can do: every relation the line primitives, the mask and the unmasking
keep, it keeps; its buffer stays canonical; the lines it leaves; and the same for the register commands
built on it and for CONFIGURE. -/

namespace Sys2Proof.Machine

/-- The state a part of a transaction leaves. -/
def Txn.st : Txn → State
  | .go _ s => s
  | .stop _ _ s => s

/-- The buffer a part of a transaction leaves. -/
def Txn.buf : Txn → Memory
  | .go b _ => b
  | .stop _ b _ => b

variable {R : State → State → Prop}

theorem LineRel.txnThen (h : LineRel R) {s : State} {t : Txn} {f : Memory → State → Txn}
    (ht : R s t.st) (hf : ∀ b u, t = .go b u → R u (f b u).st) : R s (t.andThen f).st := by
  cases t with
  | go b u => exact h.trans ht (hf b u rfl)
  | stop r b u => exact ht

theorem LineRel.stopNoAck (h : LineRel R) (ph : Bool) (j k : Nat) (buf : Memory) (s : State) :
    R s (stopNoAck ph j k buf s).st := by
  have hs := h.stop s
  unfold Machine.stopNoAck
  split
  · rename_i hw; rw [hw] at hs; exact hs
  · rename_i hw; rw [hw] at hs; exact h.trans hs (h.releaseBus _)

theorem LineRel.afterWrite (h : LineRel R) {s : State} (ph : Bool) (j k : Nat) (buf : Memory)
    {w : Wave Bool} {cont : State → Txn} (hw : R s w.state)
    (hc : ∀ t, w = .done true t → R t (cont t).st) : R s (afterWrite ph j k buf w cont).st := by
  unfold Machine.afterWrite
  split
  · exact h.trans hw (hc _ rfl)
  · exact h.trans hw (h.stopNoAck _ _ _ _ _)
  · exact h.trans hw (h.releaseBus _)

theorem LineRel.addressPhase (h : LineRel R) (a : Addr7) (rd : Bool) (j : Nat) (buf : Memory)
    (s : State) : R s (addressPhase a rd j buf s).st := by
  have hs := h.start s
  unfold Machine.addressPhase
  split
  · rename_i hw; rw [hw] at hs; exact h.trans hs (h.releaseBus _)
  · rename_i hw; rw [hw] at hs
    exact h.trans hs (h.afterWrite _ _ _ _ (h.writeByte _ _) fun t _ => h.refl t)

theorem LineRel.writePhase (h : LineRel R) (buf : Memory) (off j n k : Nat) (s : State) :
    R s (writePhase buf off j n k s).st := by
  induction n generalizing k s with
  | zero => exact h.refl s
  | succ n ih =>
    exact h.afterWrite _ _ _ _ (h.trans (h.setByte _ _) (h.writeByte _ _)) fun t _ => ih _ t

theorem LineRel.readPhase (h : LineRel R) (off j n k : Nat) (buf : Memory) (s : State) :
    R s (readPhase off j n k buf s).st := by
  induction n generalizing k buf s with
  | zero => exact h.refl s
  | succ n ih =>
    have hr := h.trans (h.setByte k s) (h.readByte (n == 0) (Machine.setByte k s))
    unfold Machine.readPhase
    split
    · rename_i hw; rw [hw] at hr; exact h.trans hr (h.releaseBus _)
    · rename_i hw; rw [hw] at hr; exact h.trans hr (ih _ _ _)

theorem LineRel.messageAddress (h : LineRel R) (a : Addr7) (j : Nat) (d : Half) (buf : Memory)
    (s : State) : R s (messageAddress a j d buf s).st := by
  unfold Machine.messageAddress
  split
  · exact h.addressPhase _ _ _ _ _
  · exact h.refl s

theorem LineRel.messageBody (h : LineRel R) (off j : Nat) (d : Half) (buf : Memory) (s : State) :
    R s (messageBody off j d buf s).st := by
  unfold Machine.messageBody
  split
  · exact h.readPhase _ _ _ _ _ _
  · exact h.writePhase _ _ _ _ _ _

theorem LineRel.messageStop (h : LineRel R) (j : Nat) (d : Half) (buf : Memory) (s : State) :
    R s (messageStop j d buf s).st := by
  unfold Machine.messageStop
  split
  · have hs := h.stop s
    split
    · rename_i hw; rw [hw] at hs; exact hs
    · rename_i hw; rw [hw] at hs; exact h.trans hs (h.releaseBus _)
  · exact h.refl s

theorem LineRel.message (h : LineRel R) (a : Addr7) (off j : Nat) (d : Half) (buf : Memory)
    (s : State) : R s (message a off j d buf s).st :=
  h.txnThen (h.txnThen (h.trans (h.setMsg _ _) (h.messageAddress _ _ _ _ _))
    fun b u _ => h.messageBody off j d b u) fun b u _ => h.messageStop j d b u

theorem LineRel.messages (h : LineRel R) (a : Addr7) (ds : List Half) (off j : Nat) (buf : Memory)
    (s : State) : R s (messages a ds off j buf s).st := by
  induction ds generalizing off j buf s with
  | nil => exact h.refl s
  | cons d rest ih => exact h.txnThen (h.message _ _ _ _ _ _) fun b u _ => ih _ _ b u

/-- A relation the line primitives, the mask and the unmasking keep. -/
structure TxnRel (R : State → State → Prop) : Prop extends LineRel R where
  mask : ∀ s, R s s.maskIrq
  unmask : ∀ s, R s s.unmask

theorem TxnRel.close (h : TxnRel R) {s : State} {t : Txn} (ht : R s t.st) : R s t.close.st := by
  cases t <;> exact h.trans ht (h.unmask _)

/-- Every relation of this kind holds across a transaction. -/
theorem TxnRel.transferOn (h : TxnRel R) (a : Addr7) (ds : List Half) (buf : Memory) (s : State) :
    R s (transferOn a ds buf s).st := by
  unfold Machine.transferOn
  split
  · split
    · exact h.close (h.trans (h.mask s) (h.messages _ _ _ _ _ _))
    · exact h.refl s
  · exact h.refl s

theorem TxnRel.regReadOn (h : TxnRel R) (a : Addr7) (r len : Byte) (s : State) :
    R s (regReadOn a r len s).st := h.transferOn _ _ _ _

theorem TxnRel.regWriteOn (h : TxnRel R) (a : Addr7) (r len : Byte) (data : Memory) (s : State) :
    R s (regWriteOn a r len data s).st := h.transferOn _ _ _ _

theorem TxnRel.readFieldByte (h : TxnRel R) (f : FieldId) (s : State) :
    R s (readFieldByte f s).st := h.regReadOn _ _ _ _

/-- Every relation of this kind holds across the one or two transactions of a field write. -/
theorem TxnRel.fieldWriteOn (h : TxnRel R) (f : FieldId) (p : Nat) (s : State) :
    R s (fieldWriteOn f p s).st := by
  have hr := h.readFieldByte f s
  unfold Machine.fieldWriteOn
  dsimp only
  split
  · exact h.trans hr (h.regWriteOn _ _ _ _ _)
  · exact hr

theorem TxnRel.ctlWrite (h : TxnRel R) (f : FieldId) (p : Nat) (s : State) :
    R s (ctlWrite f p s) := h.fieldWriteOn f p s

/-- A relation that also holds across a change of the set-up that leaves the pins and the mask, and
across any sample of a released line: CONFIGURE keeps it. -/
structure ConfRel (R : State → State → Prop) : Prop extends LineRel R where
  sample : ∀ l s, (match l with | .scl => s.bus.sclDrv | .sda => s.bus.sdaDrv) = .float →
    R s (sample l s)
  setup : ∀ s f, (∀ b : Bus, (f b).sclDrv = b.sclDrv ∧ (f b).sdaDrv = b.sdaDrv ∧
    (f b).irqMask = b.irqMask) → R s (s.onBus f)

theorem ConfRel.detectLow (h : ConfRel R) (n : Nat) (s : State) (hs : s.bus.sclDrv = .float) :
    R s (detectLow n s).2 := by
  induction n generalizing s with
  | zero => exact h.refl s
  | succ n ih =>
    have h1 := h.trans (h.wait .half s) (h.sample .scl (Machine.wait .half s) hs)
    unfold Machine.detectLow
    split
    · exact h.trans h1 (ih _ hs)
    · exact h1

/-- While detecting, a stop ends: no wait for the clock is made (spec/40_softbus.md R67). -/
theorem stop_detecting {s : State} (hd : s.bus.detecting = true) :
    (stop s).state.bus.detecting = true := by
  unfold stop sclRise waitSclHigh
  rw [if_pos (by simp [sclRelease, sdaSet, sclLow, Bus.setLine, hd])]
  simp [Wave.andThen, Wave.state, setOwned, sdaSet, sclRelease, sclLow, Bus.setLine, hd]

/-- SCL is released when the detection window begins. -/
theorem configureBegin_scl (rate : Rate) (s : State) : (configureBegin rate s).bus.sclDrv = .float := by
  have h := stop_detecting
    (s := s.onBus fun b => { b with rate := rate, detecting := true }) rfl
  simp [configureBegin, sclRelease, Bus.setLine, Bus.highLevel, Bus.od, h]

theorem ConfRel.configureBegin (h : ConfRel R) (rate : Rate) (s : State) :
    R s (configureBegin rate s) := by
  unfold Machine.configureBegin
  refine h.trans (h.trans (h.setup s _ ?_) (h.stop _)) (h.drive _ _ _)
  exact fun _ => ⟨rfl, rfl, rfl⟩

theorem ConfRel.configureEnd (h : ConfRel R) (low : Bool) (s : State) : R s (configureEnd low s) := by
  unfold Machine.configureEnd
  refine h.trans ?_ (h.setup _ _ ?_)
  · refine h.trans (h.trans (h.setup s _ ?_) (h.drive _ _ _)) (h.drive _ _ _)
    exact fun _ => ⟨rfl, rfl, rfl⟩
  · exact fun _ => ⟨rfl, rfl, rfl⟩

/-- Every relation of this kind holds across CONFIGURE. -/
theorem ConfRel.configure (h : ConfRel R) (rate : Rate) (s : State) : R s (configure rate s) := by
  unfold Machine.configure
  exact h.trans (h.trans (h.configureBegin rate s)
    (h.detectLow Config.detectSamples _ (configureBegin_scl rate s))) (h.configureEnd _ _)

/-! ## The relations of the claims -/

theorem busOnly_lineRel : LineRel BusOnly where
  refl := BusOnly.refl
  trans := BusOnly.trans
  drive := drive_busOnly
  wait := wait_busOnly
  sampleScl := fun s _ _ _ => sample_busOnly .scl s
  sampleSda := fun s _ => sample_busOnly .sda s
  inner := fun s f _ => onBus_busOnly s f

theorem busOnly_txnRel : TxnRel BusOnly :=
  { busOnly_lineRel with mask := maskIrq_busOnly, unmask := unmask_busOnly }

theorem busOnly_confRel : ConfRel BusOnly :=
  { busOnly_lineRel with
    sample := fun l s _ => sample_busOnly l s
    setup := fun s f _ => onBus_busOnly s f }

theorem sameSetup_txnRel : TxnRel SameSetup where
  refl := SameSetup.refl
  trans := SameSetup.trans
  drive := drive_sameSetup
  wait := wait_sameSetup
  sampleScl := fun s _ _ _ => sample_sameSetup .scl s
  sampleSda := fun s _ => sample_sameSetup .sda s
  inner := fun s _ h => ⟨(h s.bus).mode, (h s.bus).ready, (h s.bus).rate, (h s.bus).detecting⟩
  mask := fun _ => ⟨rfl, rfl, rfl, rfl⟩
  unmask := fun _ => ⟨rfl, rfl, rfl, rfl⟩

/-- `irqMask` is the same. -/
def SameMask (s t : State) : Prop := t.bus.irqMask = s.bus.irqMask

theorem sameMask_lineRel : LineRel SameMask where
  refl := fun _ => rfl
  trans := fun h h' => h'.trans h
  drive := fun l _ _ => by cases l <;> rfl
  wait := fun _ _ => rfl
  sampleScl := fun _ _ _ _ => rfl
  sampleSda := fun _ _ => rfl
  inner := fun s _ h => (h s.bus).irqMask

/-! ## The buffer -/

theorem stopNoAck_buf (ph : Bool) (j k : Nat) (buf : Memory) (s : State) :
    (stopNoAck ph j k buf s).buf = buf := by unfold stopNoAck; split <;> rfl

theorem writePhase_buf (buf : Memory) (off j n k : Nat) (s : State) :
    (writePhase buf off j n k s).buf = buf := by
  induction n generalizing k s with
  | zero => rfl
  | succ n ih =>
    unfold writePhase afterWrite
    split
    · exact ih _ _
    · exact stopNoAck_buf _ _ _ _ _
    · rfl

theorem addressPhase_buf (a : Addr7) (rd : Bool) (j : Nat) (buf : Memory) (s : State) :
    (addressPhase a rd j buf s).buf = buf := by
  unfold addressPhase afterWrite
  split
  · rfl
  · split
    · rfl
    · exact stopNoAck_buf _ _ _ _ _
    · rfl

/-- A read phase writes only its own slice, and keeps the buffer canonical. -/
theorem readPhase_buf (off j n k : Nat) {buf : Memory} (s : State) (h : buf.wf = true) :
    (readPhase off j n k buf s).buf.wf = true ∧
      ∀ i, ¬(off + k ≤ i ∧ i < off + k + n) → (readPhase off j n k buf s).buf.read i = buf.read i := by
  induction n generalizing k buf s with
  | zero => exact ⟨h, fun _ _ => rfl⟩
  | succ n ih =>
    unfold readPhase
    split
    · exact ⟨h, fun _ _ => rfl⟩
    · rename_i v t _
      have hi := ih (k := k + 1) t (Memory.write_wf h (off + k) v)
      refine ⟨hi.1, fun i hn => ?_⟩
      rw [hi.2 i (by omega), Memory.read_write h, if_neg (by omega)]

theorem Txn.andThen_buf {t : Txn} {f : Memory → State → Txn} {P : Memory → Prop} (ht : P t.buf)
    (hf : ∀ b u, P b → P (f b u).buf) : P (t.andThen f).buf := by
  cases t with
  | go b u => exact hf b u ht
  | stop r b u => exact ht

/-- A message writes the buffer only in the slice of a read message, and keeps it canonical. -/
theorem message_buf (a : Addr7) (off j : Nat) (d : Half) {buf : Memory} (s : State)
    (h : buf.wf = true) :
    (message a off j d buf s).buf.wf = true ∧
      ∀ i, ¬(descRD d = true ∧ off ≤ i ∧ i < off + descLen d) →
        (message a off j d buf s).buf.read i = buf.read i := by
  have key : ∀ P : Memory → Prop, P buf → (∀ b u, P b → P (messageBody off j d b u).buf) →
      P (message a off j d buf s).buf := by
    intro P hp hb
    refine Txn.andThen_buf (Txn.andThen_buf ?_ hb) ?_
    · unfold messageAddress
      split
      · rw [addressPhase_buf]; exact hp
      · exact hp
    · intro b u hbu
      unfold messageStop
      split
      · split
        · exact hbu
        · exact hbu
      · exact hbu
  refine key (fun b => b.wf = true ∧ ∀ i, ¬(descRD d = true ∧ off ≤ i ∧ i < off + descLen d) →
      b.read i = buf.read i) ⟨h, fun _ _ => rfl⟩ fun b u hb => ?_
  unfold messageBody
  split
  · rename_i hrd
    have hr := readPhase_buf off j (descLen d) 0 u hb.1
    exact ⟨hr.1, fun i hn => (hr.2 i (by simpa [hrd] using hn)).trans (hb.2 i hn)⟩
  · rw [writePhase_buf]; exact hb

/-- The messages write the buffer only in read slices (spec/30_encoding.md R55). -/
theorem messages_buf (a : Addr7) (ds : List Half) (off j : Nat) {buf : Memory} (s : State)
    (h : buf.wf = true) :
    (messages a ds off j buf s).buf.wf = true ∧
      ∀ i, inReadSlice ds off i = false → (messages a ds off j buf s).buf.read i = buf.read i := by
  induction ds generalizing off j buf s with
  | nil => exact ⟨h, fun _ _ => rfl⟩
  | cons d rest ih =>
    have hm := message_buf a off j d s h
    unfold messages
    cases hmsg : message a off j d buf s with
    | stop r b u =>
      rw [hmsg] at hm
      refine ⟨hm.1, fun i hi => hm.2 i ?_⟩
      simp only [inReadSlice, Bool.or_eq_false_iff] at hi
      intro hc
      simp [hc.1, hc.2.1, hc.2.2] at hi
    | go b u =>
      rw [hmsg] at hm
      have hr := ih (off := off + descLen d) (j := j + 1) u hm.1
      refine ⟨hr.1, fun i hi => ?_⟩
      simp only [inReadSlice, Bool.or_eq_false_iff] at hi
      refine (hr.2 i hi.2).trans (hm.2 i ?_)
      intro hc
      simp [hc.1, hc.2.1, hc.2.2] at hi

theorem Txn.close_buf (t : Txn) : t.close.buf = t.buf := by cases t <;> rfl

/-- A transaction writes its buffer only in read slices, and keeps it canonical. -/
theorem transferOn_buf (a : Addr7) (ds : List Half) {buf : Memory} (s : State) (h : buf.wf = true) :
    (transferOn a ds buf s).buf.wf = true ∧
      ∀ i, inReadSlice ds 0 i = false → (transferOn a ds buf s).buf.read i = buf.read i := by
  unfold transferOn
  split
  · split
    · rw [Txn.close_buf]; exact messages_buf a ds 0 0 s.maskIrq h
    · exact ⟨h, fun _ _ => rfl⟩
  · exact ⟨h, fun _ _ => rfl⟩

end Sys2Proof.Machine
end

