-- ==== Sys2Proof/Laws/Lines.lean ====
section
/-! SUPPORT. The line trace follows the pins, samples read released lines, push-pull mode never samples
SCL, and the bus is owned or idle between commands. -/

namespace Sys2Proof.Machine

/-! ## The line trace -/

/-- `TraceInv` carries over. -/
def KeepsTrace (s t : State) : Prop := TraceInv s → TraceInv t

theorem drive_traceInv (l : Line) (v : Level) {s : State} (h : TraceInv s) :
    TraceInv (drive l v s) := by
  cases l
  · exact ⟨rfl, h.sda, h.released⟩
  · exact ⟨h.scl, rfl, h.released⟩

theorem sample_traceInv (l : Line) {s : State}
    (hp : (match l with | .scl => s.bus.sclDrv | .sda => s.bus.sdaDrv) = .float) (h : TraceInv s) :
    TraceInv (sample l s) := by
  cases l
  · exact ⟨h.scl, h.sda, h.scl.trans hp, h.released⟩
  · exact ⟨h.scl, h.sda, h.sda.trans hp, h.released⟩

theorem keepsTrace_lineRel : LineRel KeepsTrace where
  refl := fun _ h => h
  trans := fun h h' hs => h' (h hs)
  drive := fun l v _ h => drive_traceInv l v h
  wait := fun _ _ h => ⟨h.scl, h.sda, h.released⟩
  sampleScl := fun _ _ _ hp h => sample_traceInv .scl hp h
  sampleSda := fun _ hp h => sample_traceInv .sda hp h
  inner := fun s _ hf h =>
    ⟨h.scl.trans (hf s.bus).sclDrv.symm, h.sda.trans (hf s.bus).sdaDrv.symm, h.released⟩

theorem keepsTrace_txnRel : TxnRel KeepsTrace :=
  { keepsTrace_lineRel with
    mask := fun _ h => ⟨h.scl, h.sda, h.released⟩
    unmask := fun _ h => ⟨h.scl, h.sda, h.released⟩ }

theorem keepsTrace_confRel : ConfRel KeepsTrace :=
  { keepsTrace_lineRel with
    sample := fun l _ hp h => sample_traceInv l hp h
    setup := fun s _ hf h =>
      ⟨h.scl.trans (hf s.bus).1.symm, h.sda.trans (hf s.bus).2.1.symm, h.released⟩ }

/-- In push-pull mode the new line events hold no sample of SCL, and the mode stays. -/
def NoSclSample (s t : State) : Prop :=
  s.bus.mode = .pushPull → t.bus.mode = .pushPull ∧
    ∃ new, t.trace = new ++ s.trace ∧ ∀ b, LineEvent.sample .scl b ∉ new

theorem NoSclSample.trans {s t u : State} (h : NoSclSample s t) (h' : NoSclSample t u) :
    NoSclSample s u := by
  intro hs
  obtain ⟨ht, n, hn, hb⟩ := h hs
  obtain ⟨hu, m, hm, hc⟩ := h' ht
  refine ⟨hu, m ++ n, by rw [hm, hn, List.append_assoc], fun b hmem => ?_⟩
  rcases List.mem_append.mp hmem with h1 | h1
  · exact hc b h1
  · exact hb b h1

theorem noSclSample_txnRel : TxnRel NoSclSample where
  refl := fun _ h => ⟨h, [], rfl, by simp⟩
  trans := NoSclSample.trans
  drive := fun l v s h => ⟨by cases l <;> exact h, [.drive l v], rfl, by simp⟩
  wait := fun d _ h => ⟨h, [.wait d], rfl, by simp⟩
  sampleScl := fun _ hm _ _ h => by rw [hm] at h; cases h
  sampleSda := fun s _ h => ⟨h, [.sample .sda (sampled s)], rfl, by simp⟩
  inner := fun s _ hf h => ⟨(hf s.bus).mode.trans h, [], rfl, by simp⟩
  mask := fun _ h => ⟨h, [], rfl, by simp⟩
  unmask := fun _ h => ⟨h, [], rfl, by simp⟩

/-! ## Ownership -/

/-- The bus is owned and SCL held low. -/
def Held (s : State) : Prop := s.bus.busOwned = true ∧ s.bus.sclDrv = .low

/-- The bus is not owned and both lines are at their released levels. -/
def Idle (s : State) : Prop :=
  s.bus.busOwned = false ∧ s.bus.sclDrv = s.bus.highLevel ∧ s.bus.sdaDrv = s.bus.highLevel

/-- A part of a transaction goes on with `P` or ends with the bus idle. -/
def Txn.Leaves (P : State → Prop) : Txn → Prop
  | .go _ s => P s
  | .stop _ _ s => Idle s

theorem abort_leaves (P : State → Prop) (ph : Bool) (j k : Nat) (buf : Memory) (s : State) :
    (abort ph j k buf s).Leaves P := releaseBus_pins s

theorem stopNoAck_leaves (P : State → Prop) (ph : Bool) (j k : Nat) (buf : Memory) (s : State) :
    (stopNoAck ph j k buf s).Leaves P := by
  unfold stopNoAck
  split
  · rename_i hs; exact stop_done hs
  · exact releaseBus_pins _

theorem afterWrite_leaves {P : State → Prop} (ph : Bool) (j k : Nat) (buf : Memory) {w : Wave Bool}
    {cont : State → Txn} (hc : ∀ t, w = .done true t → (cont t).Leaves P) :
    (afterWrite ph j k buf w cont).Leaves P := by
  unfold afterWrite
  split
  · exact hc _ rfl
  · exact stopNoAck_leaves P _ _ _ _ _
  · exact releaseBus_pins _

theorem addressPhase_leaves (a : Addr7) (rd : Bool) (j : Nat) (buf : Memory) (s : State) :
    (addressPhase a rd j buf s).Leaves Held := by
  unfold addressPhase
  split
  · exact releaseBus_pins _
  · rename_i hs
    refine afterWrite_leaves _ _ _ _ fun t ht => ?_
    exact ⟨(writeByte_done ht).2.trans (start_done hs).2, (writeByte_done ht).1⟩

theorem writePhase_leaves (buf : Memory) (off j n k : Nat) {s : State} (h : Held s) :
    (writePhase buf off j n k s).Leaves Held := by
  induction n generalizing k s with
  | zero => exact h
  | succ n ih =>
    refine afterWrite_leaves _ _ _ _ fun t ht => ih _ ?_
    exact ⟨(writeByte_done ht).2.trans h.1, (writeByte_done ht).1⟩

theorem readPhase_leaves (off j n k : Nat) (buf : Memory) {s : State} (h : Held s) :
    (readPhase off j n k buf s).Leaves Held := by
  induction n generalizing k buf s with
  | zero => exact h
  | succ n ih =>
    unfold readPhase
    split
    · exact releaseBus_pins _
    · rename_i ht
      exact ih _ _ ⟨(readByte_done ht).2.trans h.1, (readByte_done ht).1⟩

theorem Txn.andThen_leaves {P Q : State → Prop} {t : Txn} {f : Memory → State → Txn}
    (ht : t.Leaves P) (hf : ∀ b u, P u → (f b u).Leaves Q) : (t.andThen f).Leaves Q := by
  cases t with
  | go b u => exact hf b u ht
  | stop r b u => exact ht

/-- A message leaves the bus held, or idle where it stops. -/
theorem message_leaves (a : Addr7) (off j : Nat) (d : Half) (buf : Memory) {s : State}
    (h : j = 0 ∨ Held s) :
    (message a off j d buf s).Leaves fun t => if descSP d then Idle t else Held t := by
  refine Txn.andThen_leaves (P := Held) (Txn.andThen_leaves (P := Held) ?_ ?_) ?_
  · unfold messageAddress
    split
    · exact addressPhase_leaves _ _ _ _ _
    · rename_i hj
      rcases h with h | h
      · simp [h] at hj
      · exact h
  · intro b u hu
    unfold messageBody
    split
    · exact readPhase_leaves _ _ _ _ _ hu
    · exact writePhase_leaves _ _ _ _ _ hu
  · intro b u hu
    unfold messageStop
    by_cases hsp : descSP d = true
    · simp only [hsp, if_true]
      split
      · rename_i hs; exact stop_done hs
      · exact releaseBus_pins _
    · simp only [hsp, if_false, Bool.false_eq_true]; exact hu

/-- A valid list of messages leaves the bus idle where it stops or its last message has SP = 1, and held
otherwise. -/
theorem messages_leaves (a : Addr7) (ds : List Half) {maxLen : Nat} (hv : descsValid maxLen ds = true)
    (hne : ds ≠ []) (off j : Nat) (buf : Memory) {s : State} (h : j = 0 ∨ Held s) :
    (messages a ds off j buf s).Leaves fun t =>
      if descSP (ds.getLast hne) then Idle t else Held t := by
  induction ds generalizing off j buf s with
  | nil => exact absurd rfl hne
  | cons d rest ih =>
    refine Txn.andThen_leaves (message_leaves a off j d buf h) fun b u hu => ?_
    cases rest with
    | nil => exact hu
    | cons e rest' =>
      simp only [descsValid, followValid, Bool.and_eq_true, Bool.not_eq_true'] at hv
      rw [hv.1.2.1] at hu
      exact ih hv.2 (by simp) _ _ b (.inr hu)

/-- The released level of a line on a bus that has a mode and is not detecting (spec/40_softbus.md
R65). -/
theorem highLevel_eq_idle {b : Bus} (hd : b.detecting = false) (hm : b.mode ≠ .unknown) :
    b.highLevel = b.mode.idle := by
  unfold Bus.highLevel Bus.od
  cases h : b.mode <;> simp_all [DriveMode.idle]

theorem Txn.close_st (t : Txn) : t.close.st = t.st.unmask := by cases t <;> rfl

/-- `BusInv` holds after a transaction from any state where it holds. -/
theorem transferOn_busInv (a : Addr7) (ds : List Half) (buf : Memory) {s : State} (h : BusInv s) :
    BusInv (transferOn a ds buf s).st := by
  unfold transferOn
  split
  · rename_i hr
    split
    · rename_i hv
      have hsame := sameSetup_txnRel.trans (sameSetup_txnRel.mask s)
        (sameSetup_txnRel.messages a ds 0 0 buf s.maskIrq)
      simp only [transferValid, Bool.and_eq_true, decide_eq_true_eq] at hv
      have hl := messages_leaves a ds hv.2 (by rintro rfl; simp at hv) 0 0 buf
        (s := s.maskIrq) (.inl rfl)
      rw [Txn.close_st]
      have hd : (messages a ds 0 0 buf s.maskIrq).st.bus.detecting = false :=
        hsame.detecting.trans h.detecting
      have hm : (messages a ds 0 0 buf s.maskIrq).st.bus.mode ≠ .unknown := by
        rw [hsame.mode]; exact h.ready.mp hr
      have hcase : Held (messages a ds 0 0 buf s.maskIrq).st ∨
          Idle (messages a ds 0 0 buf s.maskIrq).st := by
        cases hmsg : messages a ds 0 0 buf s.maskIrq with
        | go b u =>
          rw [hmsg] at hl
          simp only [Txn.Leaves] at hl
          split at hl
          · exact .inr hl
          · exact .inl hl
        | stop r b u => rw [hmsg] at hl; exact .inr hl
      refine ⟨hd, rfl, rfl, ?_, ?_, ?_⟩
      · show (messages a ds 0 0 buf s.maskIrq).st.bus.ready = true ↔ _
        rw [hsame.ready]
        exact ⟨fun _ => hm, fun _ => hr⟩
      · intro ho
        rcases hcase with hc | hc
        · exact hc.2
        · exact absurd (ho.symm.trans hc.1) (by simp)
      · intro ho
        rcases hcase with hc | hc
        · exact absurd (ho.symm.trans hc.1) (by simp)
        · exact ⟨hc.2.1.trans (highLevel_eq_idle hd hm), hc.2.2.trans (highLevel_eq_idle hd hm)⟩
    · exact h
  · exact h

/-- Unmasked events: the mask and the pending bits stay. -/
def Unmasked (s t : State) : Prop :=
  s.bus.irqMask = false → t.bus.irqMask = false ∧ t.ev.pend = s.ev.pend

theorem tick_unmasked (s : State) : Unmasked s s.tick := by
  intro h
  refine ⟨h, ?_⟩
  show (arrive s.bus.irqMask s.ports.evt s.ev).2.pend = _
  rw [h]
  exact arrive_unmasked_pend _ _

theorem unmasked_confRel : ConfRel Unmasked where
  refl := fun _ h => ⟨h, rfl⟩
  trans := fun h h' hs => ⟨(h' (h hs).1).1, ((h' (h hs).1).2).trans (h hs).2⟩
  drive := fun l _ s h => ⟨by cases l <;> exact h, (tick_unmasked s h).2⟩
  wait := fun _ s h => ⟨h, (tick_unmasked s h).2⟩
  sampleScl := fun s _ _ _ h => ⟨h, (tick_unmasked s h).2⟩
  sampleSda := fun s _ h => ⟨h, (tick_unmasked s h).2⟩
  inner := fun s _ hf h => ⟨(hf s.bus).irqMask.trans h, rfl⟩
  sample := fun _ s _ h => ⟨h, (tick_unmasked s h).2⟩
  setup := fun s _ hf h => ⟨(hf s.bus).2.2.trans h, rfl⟩

/-- What CONFIGURE leaves of the bus, whatever is sampled (spec/40_softbus.md R75). -/
theorem configure_bus (rate : Rate) (s : State) :
    (configure rate s).bus.ready = true ∧ (configure rate s).bus.detecting = false ∧
      (configure rate s).bus.busOwned = false ∧ (configure rate s).bus.mode ≠ .unknown ∧
      (configure rate s).bus.sclDrv = (configure rate s).bus.mode.idle ∧
      (configure rate s).bus.sdaDrv = (configure rate s).bus.mode.idle := by
  refine ⟨rfl, rfl, rfl, ?_, ?_, ?_⟩ <;>
    simp only [configure, configureEnd, onBus_bus, sclRelease, sdaSet, drive_bus, Bus.setLine] <;>
    cases (detectLow Config.detectSamples (configureBegin rate s)).1 <;>
    simp [detectedMode, DriveMode.idle, Bus.highLevel, Bus.od]

/-- `BusInv` holds after CONFIGURE. -/
theorem configure_busInv (rate : Rate) {s : State} (h : BusInv s) : BusInv (configure rate s) := by
  obtain ⟨h1, h2, h3, h4, h5, h6⟩ := configure_bus rate s
  have hu := unmasked_confRel.configure rate s h.unmasked
  exact ⟨h2, hu.1, hu.2.trans h.pend, ⟨fun _ => h4, fun _ => h1⟩, fun ho => (by rw [h3] at ho; cases ho),
    fun _ => ⟨h5, h6⟩⟩

end Sys2Proof.Machine
end

