-- ==== Sys2Proof/Laws/Controller.lean ====
section
/-! SUPPORT. What the controller's operations can do, said once for every relation their parts keep:
the bus operations, and writes to the controller, the debouncer, the outputs and the event flags. -/

namespace Sys2Proof.Machine

/-- A relation kept by a whole transaction and by every write a control-loop iteration makes. -/
structure LoopRel (R : State → State → Prop) : Prop where
  refl : ∀ s, R s s
  trans : ∀ {s t u}, R s t → R t u → R s u
  transferOn : ∀ a ds buf s, R s (transferOn a ds buf s).st
  ctl : ∀ s f, R s (s.onCtl f)
  btn : ∀ s f, R s (s.onBtn f)
  out : ∀ s f, R s (s.onOut f)
  flags : ∀ s (f : EventBits → EventBits), R s (s.onEv fun l => { l with flag := f l.flag })
  finish : ∀ s r, R s (s.finish r)

/-- A relation that CONFIGURE keeps too. -/
structure CtlRel (R : State → State → Prop) : Prop extends LoopRel R where
  configure : ∀ rate s, R s (configure rate s)

variable {R : State → State → Prop}

theorem LoopRel.readFieldByte (h : LoopRel R) (f : FieldId) (s : State) : R s (readFieldByte f s).st :=
  h.transferOn _ _ _ _

theorem LoopRel.fieldWriteOn (h : LoopRel R) (f : FieldId) (p : Nat) (s : State) :
    R s (fieldWriteOn f p s).st := by
  have hr := h.readFieldByte f s
  unfold Machine.fieldWriteOn
  dsimp only
  split
  · exact h.trans hr (h.transferOn _ _ _ _)
  · exact hr

theorem LoopRel.ctlWrite (h : LoopRel R) (f : FieldId) (p : Nat) (s : State) : R s (ctlWrite f p s) :=
  h.fieldWriteOn f p s

theorem LoopRel.startFlash (h : LoopRel R) (now : Word) (s : State) : R s (startFlash now s) := h.ctl s _

theorem LoopRel.flashTimer (h : LoopRel R) (now : Word) (s : State) : R s (flashTimer now s) := by
  unfold Machine.flashTimer
  split
  · exact h.ctl s _
  · exact h.refl s

theorem LoopRel.updateOutputs (h : LoopRel R) (now : Word) (s : State) : R s (updateOutputs now s) :=
  h.out s _

theorem LoopRel.adcOff (h : LoopRel R) (s : State) : R s (adcOff s) := by
  unfold Machine.adcOff
  split
  · exact h.trans (h.ctl s _) (h.ctlWrite _ _ _)
  · exact h.refl s

theorem LoopRel.powerDown (h : LoopRel R) (p : PState) (fan : FanMode) (s : State) :
    R s (powerDown p fan s) := h.trans (h.ctl s _) (h.out _ _)

theorem LoopRel.enterPowered (h : LoopRel R) (s : State) : R s (enterPowered s) :=
  h.trans (h.trans (h.ctl s _) (h.out _ _)) (h.ctlWrite _ _ _)

theorem LoopRel.enterSleeping (h : LoopRel R) (s : State) : R s (enterSleeping s) :=
  h.trans (h.powerDown _ _ s) (h.adcOff _)

theorem LoopRel.enterCoolingDown (h : LoopRel R) (now : Word) (s : State) :
    R s (enterCoolingDown now s) :=
  h.trans (h.trans (h.trans (h.powerDown _ _ s) (h.ctl _ _)) (h.adcOff _)) (h.startFlash _ _)

theorem LoopRel.isolateBattery (h : LoopRel R) (s : State) : R s (isolateBattery s) :=
  h.trans (h.ctl s _) (h.ctlWrite _ _ _)

theorem LoopRel.enterShipping (h : LoopRel R) (now : Word) (s : State) : R s (enterShipping now s) :=
  h.trans (h.trans (h.trans (h.powerDown _ _ s) (h.adcOff _)) (h.isolateBattery _)) (h.startFlash _ _)

theorem LoopRel.pollRead (h : LoopRel R) (f : FieldId) {cont : Byte → State → State}
    (hc : ∀ b t, R t (cont b t)) (s : State) : R s (pollRead f cont s) := by
  have hr := h.readFieldByte f s
  unfold Machine.pollRead
  dsimp only
  split
  · exact h.trans hr (hc _ _)
  · exact hr

theorem LoopRel.poll (h : LoopRel R) (now : Word) (s : State) : R s (poll now s) :=
  h.trans (h.ctl s _) (h.pollRead _ (fun _ t => h.pollRead _ (fun _ u =>
    h.pollRead _ (fun _ v => h.ctl v _) u) t) _)

theorem LoopRel.bootWrites (h : LoopRel R) (s : State) : R s (bootWrites s) :=
  h.trans (h.trans (h.trans (h.ctlWrite _ _ s) (h.ctlWrite _ _ _)) (h.ctlWrite _ _ _))
    (h.ctlWrite _ _ _)

theorem LoopRel.bootRun (h : LoopRel R) (now : Word) (s : State) : R s (bootRun now s) :=
  h.trans (h.trans (h.trans (h.bootWrites s) (h.ctl _ _)) (h.poll _ _)) (h.updateOutputs _ _)

theorem LoopRel.park (h : LoopRel R) (s : State) : R s (park s) := h.trans (h.ctl s _) (h.out _ _)

theorem CtlRel.bootProbe (h : CtlRel R) (s : State) : R s (bootProbe s).st :=
  h.trans (h.configure _ s) (h.readFieldByte _ _)

theorem LoopRel.bootEnd (h : LoopRel R) (now : Word) (e : ByteRead) : R e.st (bootEnd now e) := by
  unfold Machine.bootEnd
  split
  · exact h.trans (h.bootRun _ _) (h.finish _ _)
  · exact h.trans (h.park _) (h.finish _ _)

/-- Every relation of this kind holds across CTRL_BOOT. -/
theorem CtlRel.execCtrlBoot (h : CtlRel R) {s t : State} (ht : execCtrlBoot s = .next t) : R s t := by
  unfold Machine.execCtrlBoot at ht
  split at ht
  · rw [← Host.Outcome.next.inj ht]
    exact h.trans (h.bootProbe s) (h.bootEnd _ _)
  · rw [← Host.Outcome.next.inj ht]
    exact h.finish _ _

theorem LoopRel.requestShutdown (h : LoopRel R) (now : Word) (s : State) : R s (requestShutdown now s) :=
  h.trans (h.ctl s _) (h.out _ _)

theorem LoopRel.arbitrate (h : LoopRel R) (now : Word) (s : State) : R s (arbitrate now s) := by
  unfold Machine.arbitrate
  split
  · split
    · exact h.enterPowered s
    · exact h.startFlash _ s
  · split
    · exact h.refl s
    · split
      · exact h.requestShutdown _ s
      · exact h.enterSleeping s
  · exact h.refl s
  · exact h.refl s

theorem LoopRel.ssdPhase (h : LoopRel R) (now : Word) (ack : Bool) (s : State) :
    R s (ssdPhase now ack s) := by
  unfold Machine.ssdPhase ssdTimers
  split
  · split
    · exact h.enterSleeping s
    · split
      · exact h.trans (h.enterSleeping s) (h.startFlash _ _)
      · split
        · exact h.out s _
        · exact h.refl s
  · exact h.refl s

theorem LoopRel.dwellTimer (h : LoopRel R) (now : Word) (s : State) : R s (dwellTimer now s) := by
  unfold Machine.dwellTimer
  split
  · exact h.trans (h.ctl s _) (h.enterSleeping _)
  · exact h.refl s

theorem LoopRel.faultTransitions (h : LoopRel R) (now : Word) (s : State) :
    R s (faultTransitions now s) := by
  unfold Machine.faultTransitions
  split
  · exact h.refl s
  · split
    · exact h.enterCoolingDown _ s
    · split
      · exact h.enterShipping _ s
      · exact h.refl s

theorem LoopRel.keepEvents (h : LoopRel R) (e : EventBits) (s : State) : R s (keepEvents e s) :=
  h.flags s fun f => f.union { e with button := false, hostAck := false }

theorem LoopRel.snapshot (h : LoopRel R) (s : State) : R s (snapshot s) := h.flags s fun _ => .none

theorem LoopRel.debouncePhase (h : LoopRel R) (now : Word) (level : Bool) (s : State) :
    R s (debouncePhase now level s) := h.btn s _

theorem LoopRel.blockedStep (h : LoopRel R) (now : Word) (e : EventBits) (s : State) :
    R s (blockedStep now e s) := by
  unfold Machine.blockedStep
  refine h.trans (h.trans (h.trans ?_ (h.keepEvents _ _)) (h.updateOutputs _ _)) (h.finish _ _)
  split
  · exact h.btn s _
  · exact h.refl s

theorem LoopRel.thermalPhase (h : LoopRel R) (e : EventBits) (s : State) : R s (thermalPhase e s) := by
  unfold Machine.thermalPhase
  split
  · exact h.ctl s _
  · exact h.refl s

theorem LoopRel.pollPhase (h : LoopRel R) (now : Word) (e : EventBits) (s : State) :
    R s (pollPhase now e s) := by
  unfold Machine.pollPhase
  split
  · exact h.poll _ s
  · exact h.refl s

theorem LoopRel.holdPhase (h : LoopRel R) (now : Word) (fired : Bool) (s : State) :
    R s (holdPhase now fired s) := by
  unfold Machine.holdPhase
  split
  · exact h.trans (h.btn s _) (h.arbitrate _ _)
  · exact h.refl s

theorem LoopRel.activeStep (h : LoopRel R) (now : Word) (e : EventBits) (fired : Bool) (s : State) :
    R s (activeStep now e fired s) :=
  h.trans (h.trans (h.trans (h.trans (h.trans (h.thermalPhase e s) (h.pollPhase _ _ _))
    (h.faultTransitions _ _)) (h.holdPhase _ _ _)) (h.updateOutputs _ _)) (h.finish _ _)

theorem LoopRel.loopStep (h : LoopRel R) (now : Word) (level : Bool) (e : EventBits) (s : State) :
    R s (loopStep now level e s) := by
  unfold Machine.loopStep
  split
  · exact h.trans (h.debouncePhase _ _ s) (h.blockedStep _ _ _)
  · exact h.trans (h.debouncePhase _ _ s) (h.activeStep _ _ _ _)

theorem LoopRel.runStep (h : LoopRel R) (now : Word) (level : Bool) (e : EventBits) (s : State) :
    R s (runStep now level e s) := by
  unfold Machine.runStep
  split
  · exact h.trans (h.trans (h.flashTimer _ s) (h.updateOutputs _ _)) (h.finish _ _)
  · exact h.trans (h.trans (h.trans (h.flashTimer _ s) (h.dwellTimer _ _)) (h.ssdPhase _ _ _))
      (h.loopStep _ _ _ _)

/-- Every relation of this kind holds across CTRL_STEP. -/
theorem LoopRel.execCtrlStep (h : LoopRel R) {s t : State} (ht : execCtrlStep s = .next t) : R s t := by
  unfold Machine.execCtrlStep at ht
  split at ht <;> cases ht
  · exact h.finish _ _
  · exact h.trans (h.snapshot s) (h.finish _ _)
  · exact h.trans (h.snapshot s) (h.runStep _ _ _ _)

/-! ## The fields of a state after a controller operation -/

theorem ctlWrite_busOnly (f : FieldId) (p : Nat) (s : State) : BusOnly s (ctlWrite f p s) :=
  busOnly_txnRel.ctlWrite f p s

theorem readFieldByte_busOnly (f : FieldId) (s : State) : BusOnly s (readFieldByte f s).st :=
  busOnly_txnRel.readFieldByte f s

@[simp] theorem ctlWrite_ctl (f : FieldId) (p : Nat) (s : State) : (ctlWrite f p s).ctl = s.ctl :=
  (ctlWrite_busOnly f p s).ctl
@[simp] theorem ctlWrite_btn (f : FieldId) (p : Nat) (s : State) : (ctlWrite f p s).btn = s.btn :=
  (ctlWrite_busOnly f p s).btn
@[simp] theorem ctlWrite_out (f : FieldId) (p : Nat) (s : State) : (ctlWrite f p s).out = s.out :=
  (ctlWrite_busOnly f p s).out
@[simp] theorem ctlWrite_par (f : FieldId) (p : Nat) (s : State) : (ctlWrite f p s).par = s.par :=
  (ctlWrite_busOnly f p s).par
@[simp] theorem readFieldByte_ctl (f : FieldId) (s : State) :
    (readFieldByte f s).st.ctl = s.ctl := (readFieldByte_busOnly f s).ctl
@[simp] theorem readFieldByte_btn (f : FieldId) (s : State) :
    (readFieldByte f s).st.btn = s.btn := (readFieldByte_busOnly f s).btn
@[simp] theorem readFieldByte_out (f : FieldId) (s : State) :
    (readFieldByte f s).st.out = s.out := (readFieldByte_busOnly f s).out
@[simp] theorem readFieldByte_par (f : FieldId) (s : State) :
    (readFieldByte f s).st.par = s.par := (readFieldByte_busOnly f s).par
@[simp] theorem configure_ctl (rate : Rate) (s : State) : (configure rate s).ctl = s.ctl :=
  (busOnly_confRel.configure rate s).ctl
@[simp] theorem configure_btn (rate : Rate) (s : State) : (configure rate s).btn = s.btn :=
  (busOnly_confRel.configure rate s).btn
@[simp] theorem configure_out (rate : Rate) (s : State) : (configure rate s).out = s.out :=
  (busOnly_confRel.configure rate s).out
@[simp] theorem configure_par (rate : Rate) (s : State) : (configure rate s).par = s.par :=
  (busOnly_confRel.configure rate s).par

@[simp] theorem flashTimer_ctl (now : Word) (s : State) : (flashTimer now s).ctl =
    { s.ctl with flashActive := s.ctl.flashActive && decide (elapsed now s.ctl.flashStart < 1000) } := by
  have hl : flashLength = 1000 := rfl
  unfold flashTimer
  by_cases h : elapsed now s.ctl.flashStart < 1000
  · rw [if_neg (by simp [hl, h])]
    simp [h]
  · cases hf : s.ctl.flashActive
    · rw [if_neg (by simp), Bool.false_and, ← hf]
    · rw [if_pos (by simp [hl]; omega)]
      simp [h]
@[simp] theorem flashTimer_bus (now : Word) (s : State) : (flashTimer now s).bus = s.bus := by
  unfold flashTimer; split <;> rfl
@[simp] theorem flashTimer_btn (now : Word) (s : State) : (flashTimer now s).btn = s.btn := by
  unfold flashTimer; split <;> rfl
@[simp] theorem flashTimer_ev (now : Word) (s : State) : (flashTimer now s).ev = s.ev := by
  unfold flashTimer; split <;> rfl
@[simp] theorem flashTimer_out (now : Word) (s : State) : (flashTimer now s).out = s.out := by
  unfold flashTimer; split <;> rfl
@[simp] theorem flashTimer_ports (now : Word) (s : State) : (flashTimer now s).ports = s.ports := by
  unfold flashTimer; split <;> rfl
@[simp] theorem flashTimer_env (now : Word) (s : State) : (flashTimer now s).env = s.env := by
  unfold flashTimer; split <;> rfl
@[simp] theorem flashTimer_trace (now : Word) (s : State) : (flashTimer now s).trace = s.trace := by
  unfold flashTimer; split <;> rfl
@[simp] theorem flashTimer_par (now : Word) (s : State) : (flashTimer now s).par = s.par := by
  unfold flashTimer; split <;> rfl

@[simp] theorem adcOff_ctl (s : State) : (adcOff s).ctl = { s.ctl with adcCont := false } := by
  unfold adcOff
  split
  · simp
  · rename_i h
    simp only [Bool.not_eq_true] at h
    rw [← h]
@[simp] theorem adcOff_btn (s : State) : (adcOff s).btn = s.btn := by unfold adcOff; split <;> simp
@[simp] theorem adcOff_out (s : State) : (adcOff s).out = s.out := by unfold adcOff; split <;> simp
@[simp] theorem adcOff_par (s : State) : (adcOff s).par = s.par := by unfold adcOff; split <;> simp

theorem adcOff_busOnly (s : State) : BusOnly (s.onCtl fun c => { c with adcCont := false }) (adcOff s) := by
  unfold adcOff
  split
  · exact ctlWrite_busOnly _ _ _
  · rename_i h
    simp only [Bool.not_eq_true] at h
    have : s.onCtl (fun c => { c with adcCont := false }) = s := by
      unfold State.onCtl; rw [← h]
    rw [this]
    exact BusOnly.refl s

@[simp] theorem enterPowered_ctl (s : State) : (enterPowered s).ctl =
    { s.ctl with pstate := .powered, adcCont := true } := by
  simp [enterPowered]
@[simp] theorem enterPowered_out (s : State) : (enterPowered s).out =
    { s.out with powerRail := true, fanMode := .configured } := by
  simp [enterPowered]
@[simp] theorem enterPowered_btn (s : State) : (enterPowered s).btn = s.btn := by simp [enterPowered]
@[simp] theorem enterPowered_par (s : State) : (enterPowered s).par = s.par := by simp [enterPowered]

@[simp] theorem enterSleeping_ctl (s : State) : (enterSleeping s).ctl =
    { s.ctl with pstate := .sleeping, ssdPending := false, adcCont := false } := by
  simp [enterSleeping, powerDown]
@[simp] theorem enterSleeping_out (s : State) : (enterSleeping s).out =
    { s.out with shutdownReq := false, powerRail := false, fanMode := .off } := by
  simp [enterSleeping, powerDown]
@[simp] theorem enterSleeping_btn (s : State) : (enterSleeping s).btn = s.btn := by simp [enterSleeping, powerDown]
@[simp] theorem enterSleeping_par (s : State) : (enterSleeping s).par = s.par := by simp [enterSleeping, powerDown]

@[simp] theorem enterCoolingDown_ctl (now : Word) (s : State) : (enterCoolingDown now s).ctl =
    { s.ctl with
      pstate := .coolingDown, ssdPending := false, adcCont := false, coolStart := now
      flashActive := true, flashStart := now } := by
  simp [enterCoolingDown, powerDown, startFlash]
@[simp] theorem enterCoolingDown_out (now : Word) (s : State) : (enterCoolingDown now s).out =
    { s.out with shutdownReq := false, powerRail := false, fanMode := .max } := by
  simp [enterCoolingDown, powerDown, startFlash]
@[simp] theorem enterCoolingDown_btn (now : Word) (s : State) : (enterCoolingDown now s).btn = s.btn := by simp [enterCoolingDown, powerDown, startFlash]
@[simp] theorem enterCoolingDown_par (now : Word) (s : State) : (enterCoolingDown now s).par = s.par := by simp [enterCoolingDown, powerDown, startFlash]

@[simp] theorem enterShipping_ctl (now : Word) (s : State) : (enterShipping now s).ctl =
    { s.ctl with
      pstate := .shippingMode, ssdPending := false, adcCont := false, batfetOff := true
      flashActive := true, flashStart := now } := by
  simp [enterShipping, powerDown, startFlash, isolateBattery]
@[simp] theorem enterShipping_out (now : Word) (s : State) : (enterShipping now s).out =
    { s.out with shutdownReq := false, powerRail := false, fanMode := .off } := by
  simp [enterShipping, powerDown, startFlash, isolateBattery]
@[simp] theorem enterShipping_btn (now : Word) (s : State) : (enterShipping now s).btn = s.btn := by simp [enterShipping, powerDown, startFlash, isolateBattery]
@[simp] theorem enterShipping_par (now : Word) (s : State) : (enterShipping now s).par = s.par := by simp [enterShipping, powerDown, startFlash, isolateBattery]

@[simp] theorem dwellTimer_par (now : Word) (s : State) : (dwellTimer now s).par = s.par := by
  unfold dwellTimer; split <;> simp
@[simp] theorem dwellTimer_btn (now : Word) (s : State) : (dwellTimer now s).btn = s.btn := by
  unfold dwellTimer; split <;> simp
@[simp] theorem ssdPhase_par (now : Word) (ack : Bool) (s : State) : (ssdPhase now ack s).par = s.par := by
  unfold ssdPhase ssdTimers; (repeat' split) <;> simp [startFlash]
@[simp] theorem ssdPhase_btn (now : Word) (ack : Bool) (s : State) : (ssdPhase now ack s).btn = s.btn := by
  unfold ssdPhase ssdTimers; (repeat' split) <;> simp [startFlash]
@[simp] theorem faultTransitions_par (now : Word) (s : State) : (faultTransitions now s).par = s.par := by
  unfold faultTransitions; (repeat' split) <;> simp
@[simp] theorem faultTransitions_btn (now : Word) (s : State) : (faultTransitions now s).btn = s.btn := by
  unfold faultTransitions; (repeat' split) <;> simp

end Sys2Proof.Machine
end

