-- ==== Sys2Proof/Laws/Frames.lean ====
section
/-! SUPPORT. The exact run of each waveform on a peer that does not stretch the clock: the answers it
takes and the line events it makes. -/

namespace Sys2Proof.Machine

theorem Env.skip_add (e : Env) (m n : Nat) : e.skip (m + n) = (e.skip m).skip n := by
  induction m generalizing e with
  | zero => simp [Env.skip]
  | succ m ih => rw [Nat.succ_add]; exact ih e.next

/-- Answers given in two parts. -/
theorem Env.gives_append (e : Env) (as bs : List Bool) :
    e.gives (as ++ bs) ↔ e.gives as ∧ (e.skip as.length).gives bs := by
  induction as generalizing e with
  | nil => simp [Env.gives, Env.skip]
  | cons a as ih => simp only [List.cons_append, Env.gives, ih, List.length_cons, Env.skip, and_assoc]

/-- From `s` the machine took the answers `as` and made the line events `es`, oldest first, and kept
the bus set-up. -/
structure Ran (as : List Bool) (es : List LineEvent) (s t : State) : Prop where
  env : t.env = s.env.skip as.length
  trace : t.trace = es.reverse ++ s.trace
  setup : SameSetup s t

theorem Ran.refl (s : State) : Ran [] [] s s := ⟨rfl, rfl, .refl s⟩

theorem Ran.trans {as bs : List Bool} {es fs : List LineEvent} {s t u : State}
    (h : Ran as es s t) (h' : Ran bs fs t u) : Ran (as ++ bs) (es ++ fs) s u where
  env := by rw [h'.env, h.env, List.length_append, Env.skip_add]
  trace := by rw [h'.trace, h.trace, List.reverse_append, List.append_assoc]
  setup := h.setup.trans h'.setup

theorem BusReady.ran {od : Bool} {as : List Bool} {es : List LineEvent} {s t : State}
    (h : BusReady od s) (r : Ran as es s t) : BusReady od t :=
  ⟨r.setup.ready.trans h.1, r.setup.detecting.trans h.2.1, r.setup.mode.trans h.2.2⟩

theorem BusReady.highLevel {od : Bool} {s : State} (h : BusReady od s) :
    s.bus.highLevel = hiLevel od := by
  obtain ⟨_, hd, hm⟩ := h
  cases od <;> simp_all [Bus.highLevel, Bus.od, hiLevel]

theorem drive_ran (l : Line) (v : Level) (s : State) : Ran [] [.drive l v] s (drive l v s) :=
  ⟨rfl, rfl, drive_sameSetup l v s⟩

theorem wait_ran (d : Delay) (s : State) : Ran [] [.wait d] s (wait d s) :=
  ⟨rfl, rfl, wait_sameSetup d s⟩

theorem sample_ran (l : Line) {s : State} {b : Bool} (h : s.env.answer = b) :
    Ran [b] [.sample l b] s (sample l s) := by
  subst h; exact ⟨rfl, rfl, sample_sameSetup l s⟩

theorem setOwned_ran (v : Bool) (s : State) : Ran [] [] s (setOwned v s) :=
  ⟨rfl, rfl, rfl, rfl, rfl, rfl⟩

theorem setBit_ran (i : Nat) (s : State) : Ran [] [] s (setBit i s) := ⟨rfl, rfl, rfl, rfl, rfl, rfl⟩

theorem setShift_ran (v : Byte) (s : State) : Ran [] [] s (setShift v s) :=
  ⟨rfl, rfl, rfl, rfl, rfl, rfl⟩

theorem setMsg_ran (j : Nat) (s : State) : Ran [] [] s (setMsg j s) := ⟨rfl, rfl, rfl, rfl, rfl, rfl⟩

theorem setByte_ran (k : Nat) (s : State) : Ran [] [] s (setByte k s) :=
  ⟨rfl, rfl, rfl, rfl, rfl, rfl⟩

/-- SCL rises at once (spec/40_softbus.md R67). -/
theorem sclRise_ran {od : Bool} {s : State} (h : BusReady od s) (hg : s.env.gives (riseAnswers od)) :
    ∃ t, sclRise s = .done () t ∧ Ran (riseAnswers od) (riseEvents od) s t := by
  have hhi := h.highLevel
  obtain ⟨_, hd, hm⟩ := h
  cases od with
  | false =>
    refine ⟨sclRelease s, ?_, ?_⟩
    · unfold sclRise waitSclHigh
      rw [if_pos]
      simp [sclRelease, Bus.setLine, hm]
    · exact ⟨rfl, by simp [sclRelease, hhi, riseEvents], drive_sameSetup _ _ _⟩
  | true =>
    have hb : s.env.answer = true := hg.1
    refine ⟨sample .scl (sclRelease s), ?_, ?_⟩
    · unfold sclRise waitSclHigh
      rw [if_neg (by simp [sclRelease, Bus.setLine, hm, hd])]
      unfold pollScl
      split <;> rw [if_pos (show sampled (sclRelease s) = true from hb)]
    · have hr := (drive_ran .scl s.bus.highLevel s).trans
        (sample_ran .scl (s := sclRelease s) (b := true) hb)
      rw [hhi] at hr
      exact ⟨hr.env, hr.trace, hr.setup⟩

/-- A start on a ready bus. -/
theorem start_ran {od : Bool} {s : State} (h : BusReady od s)
    (hg : s.env.gives (Sym.start.answers od)) :
    ∃ t, start s = .done () t ∧ Ran (Sym.start.answers od) (Sym.start.events od) s t := by
  have h1 := (drive_ran .sda s.bus.highLevel s).trans (wait_ran .half (sdaSet true s))
  obtain ⟨u, hu, hr⟩ := sclRise_ran (h.ran h1) (by rw [h1.env]; exact hg)
  refine ⟨_, by simp only [start, hu]; rfl, ?_⟩
  have h2 := ((h1.trans hr).trans (((((wait_ran .half u).trans (drive_ran .sda .low _)).trans
    (wait_ran .half _)).trans (drive_ran .scl .low _)).trans (wait_ran .half _))).trans
      (setOwned_ran true _)
  rw [h.highLevel] at h2
  simpa [Sym.answers, Sym.events, sdaSet, sclLow] using h2

/-- A stop on a ready bus. -/
theorem stop_ran {od : Bool} {s : State} (h : BusReady od s)
    (hg : s.env.gives (Sym.stop.answers od)) :
    ∃ t, stop s = .done () t ∧ Ran (Sym.stop.answers od) (Sym.stop.events od) s t := by
  have h1 := (((drive_ran .scl .low s).trans (wait_ran .half _)).trans
    (drive_ran .sda .low _)).trans (wait_ran .half _)
  obtain ⟨u, hu, hr⟩ := sclRise_ran (h.ran h1) (by rw [h1.env]; exact hg)
  refine ⟨_, by
    simp only [stop]
    rw [show sclRise (wait .half (sdaSet false (wait .half (sclLow s)))) = .done () u from hu]
    rfl, ?_⟩
  have hw := (h.ran h1).ran (hr.trans (wait_ran .half u))
  have h2 := ((h1.trans hr).trans (((wait_ran .half u).trans
    (drive_ran .sda (wait .half u).bus.highLevel _)).trans (wait_ran .full _))).trans
      (setOwned_ran false _)
  rw [hw.highLevel] at h2
  simp only [sdaSet, hw.highLevel]
  simpa [Sym.answers, Sym.events] using h2

theorem writeBit_ran {od : Bool} {s : State} (b : Bool) (h : BusReady od s)
    (hg : s.env.gives (riseAnswers od)) :
    ∃ t, writeBit b s = .done () t ∧ Ran (riseAnswers od) (writeBitEvents od b) s t := by
  have h1 := (drive_ran .sda (if b then s.bus.highLevel else .low) s).trans (wait_ran .half _)
  obtain ⟨u, hu, hr⟩ := sclRise_ran (h.ran h1) (by rw [h1.env]; exact hg)
  refine ⟨_, by
    simp only [writeBit]
    rw [show sclRise (wait .half (sdaSet b s)) = .done () u from hu]
    rfl, ?_⟩
  have h2 := (h1.trans hr).trans ((wait_ran .half u).trans (drive_ran .scl .low _))
  rw [h.highLevel] at h2
  simpa [writeBitEvents, sclLow] using h2

theorem readBit_ran {od : Bool} {s : State} {b : Bool} (h : BusReady od s)
    (hg : s.env.gives (riseAnswers od ++ [b])) :
    ∃ t, readBit s = .done b t ∧ Ran (riseAnswers od ++ [b]) (readBitEvents od b) s t := by
  rw [Env.gives_append] at hg
  have h1 := (drive_ran .sda .float s).trans (wait_ran .half _)
  obtain ⟨u, hu, hr⟩ := sclRise_ran (h.ran h1) (by rw [h1.env]; exact hg.1)
  have hb : (wait .half u).env.answer = b := by
    have : u.env = s.env.skip (riseAnswers od).length := by rw [hr.env, h1.env]; rfl
    rw [wait_env, this]
    exact hg.2.1
  refine ⟨sclLow (sample .sda (wait .half u)), by
    simp only [readBit]
    rw [show sclRise (wait .half (sdaFloat s)) = .done () u from hu]
    simp only [Wave.andThen, readBitEnd]
    rw [show sampled (wait .half u) = b from hb], ?_⟩
  have h2 := (h1.trans hr).trans (((wait_ran .half u).trans (sample_ran .sda hb)).trans
    (drive_ran .scl .low _))
  simpa [readBitEvents, sclLow] using h2

/-- The `n` low bits of a byte, most significant first. -/
def bitsBelow (v : Byte) : Nat → List Bool
  | 0 => []
  | n + 1 => v.getLsbD n :: bitsBelow v n

theorem bitsBelow_eight (v : Byte) : bitsBelow v 8 = bitsOf v := rfl

theorem writeBits_ran {od : Bool} (v : Byte) (n : Nat) {s : State} (h : BusReady od s)
    (hg : s.env.gives ((bitsBelow v n).flatMap fun _ => riseAnswers od)) :
    ∃ t, writeBits v n s = .done () t ∧
      Ran ((bitsBelow v n).flatMap fun _ => riseAnswers od)
        ((bitsBelow v n).flatMap (writeBitEvents od)) s t := by
  induction n generalizing s with
  | zero => exact ⟨s, rfl, .refl s⟩
  | succ n ih =>
    simp only [bitsBelow, List.flatMap_cons] at hg ⊢
    rw [Env.gives_append] at hg
    have h0 := setBit_ran n s
    obtain ⟨t, ht, hr⟩ := writeBit_ran (v.getLsbD n) (h.ran h0) hg.1
    obtain ⟨u, hu, hs⟩ := ih ((h.ran h0).ran hr) (by rw [hr.env]; exact hg.2)
    refine ⟨u, by unfold writeBits; rw [ht]; exact hu, ?_⟩
    simpa using (h0.trans hr).trans hs

/-- A byte sent and acknowledged or not. -/
theorem writeByte_ran {od : Bool} (v : Byte) (ack : Bool) {s : State} (h : BusReady od s)
    (hg : s.env.gives ((Sym.send v ack).answers od)) :
    ∃ t, writeByte v s = .done ack t ∧
      Ran ((Sym.send v ack).answers od) ((Sym.send v ack).events od) s t := by
  simp only [Sym.answers, ← bitsBelow_eight, List.append_assoc] at hg
  rw [Env.gives_append] at hg
  have h0 := setShift_ran v s
  obtain ⟨t, ht, hr⟩ := writeBits_ran v 8 (h.ran h0) hg.1
  obtain ⟨u, hu, hs⟩ := readBit_ran (b := !ack) ((h.ran h0).ran hr)
    (by rw [hr.env]; exact hg.2)
  refine ⟨u, by
    unfold writeByte
    rw [ht]
    simp only [Wave.andThen]
    rw [hu]
    simp, ?_⟩
  simpa [Sym.answers, Sym.events, ← bitsBelow_eight] using (h0.trans hr).trans hs

/-- The byte `readBits` gathers from the low bits of `v`. -/
def gather (acc v : Byte) : Nat → Byte
  | 0 => acc
  | n + 1 => gather (putBit acc n (v.getLsbD n)) v n

theorem gather_all (v : Byte) : gather 0#8 v 8 = v := by revert v; decide

theorem readBits_ran {od : Bool} (acc v : Byte) (n : Nat) {s : State} (h : BusReady od s)
    (hg : s.env.gives ((bitsBelow v n).flatMap fun b => riseAnswers od ++ [b])) :
    ∃ t, readBits acc n s = .done (gather acc v n) t ∧
      Ran ((bitsBelow v n).flatMap fun b => riseAnswers od ++ [b])
        ((bitsBelow v n).flatMap (readBitEvents od)) s t := by
  induction n generalizing acc s with
  | zero => exact ⟨s, rfl, .refl s⟩
  | succ n ih =>
    simp only [bitsBelow, List.flatMap_cons] at hg ⊢
    rw [Env.gives_append] at hg
    have h0 := setBit_ran n s
    obtain ⟨t, ht, hr⟩ := readBit_ran (h.ran h0) hg.1
    obtain ⟨u, hu, hs⟩ := ih (putBit acc n (v.getLsbD n)) ((h.ran h0).ran hr)
      (by rw [hr.env]; exact hg.2)
    refine ⟨u, by unfold readBits; rw [ht]; exact hu, ?_⟩
    simpa using (h0.trans hr).trans hs

/-- A byte received, with its acknowledge driven. -/
theorem readByte_ran {od : Bool} (v : Byte) (last : Bool) {s : State} (h : BusReady od s)
    (hg : s.env.gives ((Sym.recv v last).answers od)) :
    ∃ t, readByte last s = .done v t ∧
      Ran ((Sym.recv v last).answers od) ((Sym.recv v last).events od) s t := by
  simp only [Sym.answers, ← bitsBelow_eight] at hg
  rw [Env.gives_append] at hg
  obtain ⟨t, ht, hr⟩ := readBits_ran 0#8 v 8 h hg.1
  rw [gather_all] at ht
  have h0 := setShift_ran v t
  obtain ⟨u, hu, hs⟩ := writeBit_ran last ((h.ran hr).ran h0) (by
    show t.env.gives _
    rw [hr.env]; exact hg.2)
  refine ⟨u, by
    unfold readByte
    rw [ht]
    simp only [Wave.andThen]
    rw [hu], ?_⟩
  simpa [Sym.answers, Sym.events, ← bitsBelow_eight] using (hr.trans h0).trans hs

/-! ## Phases and messages -/

theorem writePhase_ran {od : Bool} (buf : Memory) (off j n k : Nat) {s : State} (h : BusReady od s)
    (hg : s.env.gives (frameAnswers od (sendBytes buf (off + k) n))) :
    ∃ t, writePhase buf off j n k s = .go buf t ∧
      Ran (frameAnswers od (sendBytes buf (off + k) n))
        (frameEvents od (sendBytes buf (off + k) n)) s t := by
  induction n generalizing k s with
  | zero => exact ⟨s, rfl, .refl s⟩
  | succ n ih =>
    simp only [sendBytes, frameAnswers, frameEvents, List.flatMap_cons] at hg ⊢
    rw [Env.gives_append] at hg
    have h0 := setByte_ran k s
    obtain ⟨t, ht, hr⟩ := writeByte_ran (buf.read (off + k)) true (h.ran h0) hg.1
    obtain ⟨u, hu, hs⟩ := ih (k + 1) ((h.ran h0).ran hr) (by rw [hr.env]; exact hg.2)
    refine ⟨u, by unfold writePhase; rw [ht]; exact hu, ?_⟩
    simpa [frameAnswers, frameEvents, Nat.add_assoc] using (h0.trans hr).trans hs

theorem readPhase_ran {od : Bool} (peer : Memory) (off j n k : Nat) {buf : Memory} {s : State}
    (hb : buf.wf = true) (h : BusReady od s)
    (hg : s.env.gives (frameAnswers od (recvBytes peer (off + k) n))) :
    ∃ b t, readPhase off j n k buf s = .go b t ∧
      Ran (frameAnswers od (recvBytes peer (off + k) n))
        (frameEvents od (recvBytes peer (off + k) n)) s t ∧ b.wf = true ∧
      ∀ i, b.read i = if off + k ≤ i ∧ i < off + k + n then peer.read i else buf.read i := by
  induction n generalizing k buf s with
  | zero => exact ⟨buf, s, rfl, .refl s, hb, fun i => by rw [if_neg (by omega)]⟩
  | succ n ih =>
    simp only [recvBytes, frameAnswers, frameEvents, List.flatMap_cons] at hg ⊢
    rw [Env.gives_append] at hg
    have h0 := setByte_ran k s
    obtain ⟨t, ht, hr⟩ := readByte_ran (peer.read (off + k)) (n == 0) (h.ran h0) hg.1
    obtain ⟨b, u, hu, hs, hw, hv⟩ := ih (k + 1) (Memory.write_wf hb (off + k) (peer.read (off + k)))
      ((h.ran h0).ran hr) (by rw [hr.env]; exact hg.2)
    refine ⟨b, u, by unfold readPhase; rw [ht]; exact hu, ?_, hw, fun i => ?_⟩
    · simpa [frameAnswers, frameEvents, Nat.add_assoc] using (h0.trans hr).trans hs
    · rw [hv i, Memory.read_write hb]
      by_cases hi : off + k = i
      · subst hi; simp
      · rw [if_neg hi]; congr 1; apply propext; omega

theorem addressPhase_ran {od : Bool} (a : Addr7) (rd : Bool) (j : Nat) (buf : Memory) {s : State}
    (h : BusReady od s)
    (hg : s.env.gives (frameAnswers od [.start, .send (addrByte a rd) true])) :
    ∃ t, addressPhase a rd j buf s = .go buf t ∧
      Ran (frameAnswers od [.start, .send (addrByte a rd) true])
        (frameEvents od [.start, .send (addrByte a rd) true]) s t := by
  simp only [frameAnswers, frameEvents, List.flatMap_cons, List.flatMap_nil, List.append_nil] at hg ⊢
  rw [Env.gives_append] at hg
  obtain ⟨t, ht, hr⟩ := start_ran h hg.1
  obtain ⟨u, hu, hs⟩ := writeByte_ran (addrByte a rd) true (h.ran hr) (by rw [hr.env]; exact hg.2)
  refine ⟨u, ?_, hr.trans hs⟩
  unfold addressPhase
  rw [ht]
  simp only [afterWrite]
  rw [hu]

theorem frameAnswers_append (od : Bool) (f g : List Sym) :
    frameAnswers od (f ++ g) = frameAnswers od f ++ frameAnswers od g := List.flatMap_append

theorem frameEvents_append (od : Bool) (f g : List Sym) :
    frameEvents od (f ++ g) = frameEvents od f ++ frameEvents od g := List.flatMap_append

theorem messageAddress_ran {od : Bool} (a : Addr7) (j : Nat) (d : Half) (buf : Memory) {s : State}
    (h : BusReady od s)
    (hg : s.env.gives (frameAnswers od
      (if j == 0 || descRS d then [.start, .send (addrByte a (descRD d)) true] else []))) :
    ∃ t, messageAddress a j d buf s = .go buf t ∧
      Ran (frameAnswers od
          (if j == 0 || descRS d then [.start, .send (addrByte a (descRD d)) true] else []))
        (frameEvents od
          (if j == 0 || descRS d then [.start, .send (addrByte a (descRD d)) true] else [])) s t := by
  unfold messageAddress
  split at hg
  · rename_i hc
    simp only [hc, if_true]
    exact addressPhase_ran a (descRD d) j buf h hg
  · rename_i hc
    simp only [hc]
    exact ⟨s, rfl, .refl s⟩

theorem messageBody_ran {od : Bool} (peer : Memory) (off j : Nat) (d : Half) {buf : Memory}
    {s : State} (hb : buf.wf = true) (h : BusReady od s)
    (hg : s.env.gives (frameAnswers od
      (if descRD d then recvBytes peer off (descLen d) else sendBytes buf off (descLen d)))) :
    ∃ b t, messageBody off j d buf s = .go b t ∧
      Ran (frameAnswers od
          (if descRD d then recvBytes peer off (descLen d) else sendBytes buf off (descLen d)))
        (frameEvents od
          (if descRD d then recvBytes peer off (descLen d) else sendBytes buf off (descLen d))) s t ∧
      b.wf = true ∧
      ∀ i, b.read i =
        if (descRD d && off ≤ i && i < off + descLen d) = true then peer.read i else buf.read i := by
  unfold messageBody
  split at hg
  · rename_i hc
    simp only [hc, if_true]
    obtain ⟨b, t, h1, h2, h3, h4⟩ := readPhase_ran peer off j (descLen d) 0 hb h (by simpa using hg)
    refine ⟨b, t, h1, by simpa using h2, h3, fun i => ?_⟩
    rw [h4 i]
    simp
  · rename_i hc
    simp only [hc]
    obtain ⟨t, h1, h2⟩ := writePhase_ran buf off j (descLen d) 0 h (by simpa using hg)
    exact ⟨buf, t, h1, by simpa using h2, hb, fun i => by simp⟩

theorem messageStop_ran {od : Bool} (j : Nat) (d : Half) (buf : Memory) {s : State}
    (h : BusReady od s) (hg : s.env.gives (frameAnswers od (if descSP d then [.stop] else []))) :
    ∃ t, messageStop j d buf s = .go buf t ∧
      Ran (frameAnswers od (if descSP d then [.stop] else []))
        (frameEvents od (if descSP d then [.stop] else [])) s t := by
  unfold messageStop
  split at hg
  · rename_i hc
    simp only [hc, if_true]
    obtain ⟨t, ht, hr⟩ := stop_ran h (by simpa [frameAnswers] using hg)
    exact ⟨t, by rw [ht], by simpa [frameAnswers, frameEvents] using hr⟩
  · rename_i hc
    simp only [hc]
    exact ⟨s, rfl, .refl s⟩

/-- One message on a peer that acknowledges every byte: its part of the frame, its slice read. -/
theorem message_ran {od : Bool} (peer : Memory) (a : Addr7) (off j : Nat) (d : Half) {buf : Memory}
    {s : State} (hb : buf.wf = true) (h : BusReady od s)
    (hg : s.env.gives (frameAnswers od (msgFrame a (j == 0) d off buf peer))) :
    ∃ b t, message a off j d buf s = .go b t ∧
      Ran (frameAnswers od (msgFrame a (j == 0) d off buf peer))
        (frameEvents od (msgFrame a (j == 0) d off buf peer)) s t ∧ b.wf = true ∧
      ∀ i, b.read i =
        if (descRD d && off ≤ i && i < off + descLen d) = true then peer.read i else buf.read i := by
  simp only [msgFrame, frameAnswers_append, frameEvents_append, Env.gives_append] at hg ⊢
  have h0 := setMsg_ran j s
  obtain ⟨t, ht, hr⟩ := messageAddress_ran a j d buf (h.ran h0) hg.1.1
  have ht2 := (h.ran h0).ran hr
  obtain ⟨b, u, hu, hs, hw, hv⟩ := messageBody_ran peer off j d hb ht2 (by rw [hr.env]; exact hg.1.2)
  obtain ⟨v, hx, hy⟩ := messageStop_ran j d b (ht2.ran hs) (by
    rw [hs.env, hr.env, ← Env.skip_add, ← List.length_append]; exact hg.2)
  refine ⟨b, v, ?_, ?_, hw, hv⟩
  · unfold message
    rw [ht]
    simp only [Txn.andThen]
    rw [hu]
    exact hx
  · simpa using ((h0.trans hr).trans hs).trans hy

theorem sendBytes_congr {b c : Memory} (off n : Nat) (h : ∀ i, off ≤ i → b.read i = c.read i) :
    sendBytes b off n = sendBytes c off n := by
  induction n generalizing off with
  | zero => rfl
  | succ n ih =>
    simp only [sendBytes]
    rw [h off (Nat.le_refl _), ih (off + 1) fun i hi => h i (by omega)]

/-- A frame reads the buffer only from its own slice on. -/
theorem framesFrom_congr (a : Addr7) (first : Bool) (ds : List Half) (off : Nat) {b c : Memory}
    (peer : Memory) (h : ∀ i, off ≤ i → b.read i = c.read i) :
    framesFrom a first ds off b peer = framesFrom a first ds off c peer := by
  induction ds generalizing first off with
  | nil => rfl
  | cons d rest ih =>
    simp only [framesFrom, msgFrame]
    rw [sendBytes_congr off _ h, ih false (off + descLen d) fun i hi => h i (by omega)]

/-- A list of messages on a peer that acknowledges every byte and does not stretch the clock runs
through exactly its frame (spec/30_encoding.md R60) and reads the peer's bytes into the read slices. -/
theorem messages_ran {od : Bool} (peer : Memory) (a : Addr7) (ds : List Half) (off j : Nat)
    {buf : Memory} {s : State} (hb : buf.wf = true) (h : BusReady od s)
    (hg : s.env.gives (frameAnswers od (framesFrom a (j == 0) ds off buf peer))) :
    ∃ b t, messages a ds off j buf s = .go b t ∧
      Ran (frameAnswers od (framesFrom a (j == 0) ds off buf peer))
        (frameEvents od (framesFrom a (j == 0) ds off buf peer)) s t ∧ b.wf = true ∧
      ∀ i, b.read i = if inReadSlice ds off i = true then peer.read i else buf.read i := by
  induction ds generalizing off j buf s with
  | nil => exact ⟨buf, s, rfl, .refl s, hb, fun i => by simp [inReadSlice]⟩
  | cons d rest ih =>
    simp only [framesFrom, frameAnswers_append, frameEvents_append, Env.gives_append] at hg ⊢
    obtain ⟨b, t, ht, hr, hw, hv⟩ := message_ran peer a off j d hb h hg.1
    have hfr : framesFrom a (j + 1 == 0) rest (off + descLen d) b peer =
        framesFrom a false rest (off + descLen d) buf peer := by
      rw [show (j + 1 == 0) = false from rfl]
      refine framesFrom_congr a false rest _ peer fun i hi => ?_
      rw [hv i, if_neg]
      simp
      omega
    obtain ⟨c, u, hu, hs, hx, hy⟩ := ih (off + descLen d) (j + 1) hw (h.ran hr)
      (by rw [hfr, hr.env]; exact hg.2)
    rw [hfr] at hs
    refine ⟨c, u, ?_, hr.trans hs, hx, fun i => ?_⟩
    · simp only [messages, ht, Txn.andThen]
      exact hu
    · rw [hy i, hv i]
      simp only [inReadSlice]
      by_cases hin : inReadSlice rest (off + descLen d) i = true <;> simp [hin]

end Sys2Proof.Machine
end

