-- ==== Sys2Proof/Laws/Words.lean ====
section
/-! SUPPORT. The bits of the words the block writes: numbers and bits placed in a word, the result word
and the state words (spec/30_encoding.md R56; spec/10_state.md R31). -/

namespace Sys2Proof.Machine

/-- The bits of a number placed at `pos`. -/
theorem fieldAt_getLsbD (pos n i : Nat) :
    (fieldAt pos n).getLsbD i = (decide (i < 32) && decide (pos ≤ i) && n.testBit (i - pos)) := by
  unfold fieldAt
  rw [BitVec.getLsbD_shiftLeft, BitVec.getLsbD_ofNat]
  by_cases h1 : i < 32
  · by_cases h2 : pos ≤ i
    · simp [h1, h2, Nat.not_lt.mpr h2, show i - pos < 32 by omega]
    · simp [h1, h2, Nat.lt_of_not_le h2]
  · simp [h1]

/-- The bits of a bit read as a number. -/
theorem testBit_bitNat (b : Bool) (k : Nat) : (bitNat b).testBit k = (decide (k = 0) && b) := by
  cases b <;> cases k <;> simp [bitNat, Nat.testBit_succ]

/-- The bits of a bit placed at `pos`. -/
theorem bitAt_getLsbD (pos : Nat) (b : Bool) (i : Nat) :
    (bitAt pos b).getLsbD i = (decide (i < 32) && decide (i = pos) && b) := by
  unfold bitAt
  rw [fieldAt_getLsbD, testBit_bitNat]
  by_cases h : i = pos
  · subst h; simp
  · by_cases h2 : pos ≤ i <;> simp [h, h2]
    intro _ _; omega

/-- A number below `2 ^ w` has no bit from `w` on. -/
theorem testBit_high {n i w : Nat} (h : n < 2 ^ w) (hi : w ≤ i) : n.testBit i = false :=
  Nat.testBit_lt_two_pow (Nat.lt_of_lt_of_le h (Nat.pow_le_pow_right (by decide) hi))

/-- A field of a word is a number below `2 ^ len` if it has its bits. -/
theorem extract_eq {w : Word} {lo len n : Nat} (hn : n < 2 ^ len)
    (h : ∀ i < len, w.getLsbD (lo + i) = n.testBit i) : (w.extractLsb' lo len).toNat = n := by
  have : w.extractLsb' lo len = BitVec.ofNat len n := by
    apply BitVec.eq_of_getLsbD_eq
    intro i hi
    rw [BitVec.getLsbD_extractLsb', BitVec.getLsbD_ofNat, h i hi]
  rw [this, BitVec.toNat_ofNat, Nat.mod_eq_of_lt hn]

/-- A code fits its four bits. -/
theorem ResCode.code_lt (c : ResCode) : c.code < 2 ^ 4 := by cases c <;> decide

/-- The bits of a result word. -/
theorem Result.word_getLsbD (r : Result) (i : Nat) : r.word.getLsbD i =
    (decide (i < 32) && (r.code.code.testBit i || (decide (i = 4) && r.ph) ||
      (decide (8 ≤ i) && r.msg.toNat.testBit (i - 8)) ||
      (decide (16 ≤ i) && r.byte.toNat.testBit (i - 16)) || (decide (i = 24) && r.txn))) := by
  simp only [Result.word, BitVec.getLsbD_or, fieldAt_getLsbD, bitAt_getLsbD, Nat.zero_le, decide_true,
    Nat.sub_zero, Bool.and_true]
  cases decide (i < 32) <;> simp

/-- The result word's layout (spec/30_encoding.md R56). -/
theorem Result.word_fields (r : Result) :
    ResultFields r.word r.code.code r.ph r.msg.toNat r.byte.toNat r.txn := by
  have hc := r.code.code_lt
  have hm := r.msg.isLt
  have hb := r.byte.isLt
  have hc' : ∀ i, 4 ≤ i → r.code.code.testBit i = false := fun i h => testBit_high hc h
  have hm' : ∀ i, 8 ≤ i → r.msg.toNat.testBit i = false := fun i h => testBit_high hm h
  have hb' : ∀ i, 8 ≤ i → r.byte.toNat.testBit i = false := fun i h => testBit_high hb h
  constructor
  · refine extract_eq hc fun i hi => ?_
    rw [Result.word_getLsbD]
    simp [show i < 32 by omega, show ¬ 8 ≤ i by omega, show ¬ 16 ≤ i by omega,
      show i ≠ 4 by omega, show i ≠ 24 by omega]
  · rw [Result.word_getLsbD]; simp [hc']
  · apply BitVec.eq_of_getLsbD_eq; intro i hi
    rw [BitVec.getLsbD_extractLsb', Result.word_getLsbD]
    simp [hc' (5 + i) (by omega), show ¬ 8 ≤ 5 + i by omega, show ¬ 16 ≤ 5 + i by omega,
      show 5 + i ≠ 4 by omega, show 5 + i ≠ 24 by omega]
  · refine extract_eq hm fun i hi => ?_
    rw [Result.word_getLsbD]
    simp [hc' (8 + i) (by omega), show 8 + i < 32 by omega, show ¬ 16 ≤ 8 + i by omega,
      show 8 + i ≠ 4 by omega, show 8 + i ≠ 24 by omega]
  · refine extract_eq hb fun i hi => ?_
    rw [Result.word_getLsbD]
    simp [hc' (16 + i) (by omega), hm' (16 + i - 8) (by omega), show 16 + i < 32 by omega,
      show 8 ≤ 16 + i by omega, show 16 + i ≠ 4 by omega, show 16 + i ≠ 24 by omega]
  · rw [Result.word_getLsbD]; simp [hc', hm', hb']
  · apply BitVec.eq_of_getLsbD_eq; intro i hi
    rw [BitVec.getLsbD_extractLsb', Result.word_getLsbD]
    simp [hc' (25 + i) (by omega), hm' (25 + i - 8) (by omega), hb' (25 + i - 16) (by omega),
      show 25 + i ≠ 4 by omega, show 25 + i ≠ 24 by omega]

/-- The values the result word takes where no info is recorded. -/
theorem Result.word_plain : Result.ok.word = 0#32 ∧ Result.busNotReady.word = 2#32 ∧
    Result.badSequence.word = 4#32 ∧ Result.illegalCommand.word = 5#32 ∧
    Result.hardwareAbsent.word = 6#32 ∧ (Result.timeout false 0 0).word = 3#32 := by decide

/-! ## State words -/

/-- The layout of BUS_STATUS (spec/10_state.md R31). -/
theorem busStatusWord_is (s : State) : BusStatusIs s (busStatusWord s.bus) := by
  have hm : s.bus.mode.code < 2 ^ 2 := by cases s.bus.mode <;> decide
  have hr : rateCode s.bus.rate < 2 ^ 1 := by cases s.bus.rate <;> decide
  have hm' : ∀ i, 2 ≤ i → s.bus.mode.code.testBit i = false := fun i h => testBit_high hm h
  have hr' : ∀ i, 1 ≤ i → (rateCode s.bus.rate).testBit i = false := fun i h => testBit_high hr h
  have key : ∀ i, (busStatusWord s.bus).getLsbD i = (decide (i < 32) && (s.bus.mode.code.testBit i || (decide (i = 2) && s.bus.ready) || (decide (i = 3) && s.bus.busOwned) || (decide (i = 4) && s.bus.irqMask) || (decide (5 ≤ i) && (rateCode s.bus.rate).testBit (i - 5)))) := by
    intro i
    simp only [busStatusWord, BitVec.getLsbD_or, fieldAt_getLsbD, bitAt_getLsbD, Nat.zero_le, decide_true, Nat.sub_zero, Bool.and_true]
    cases decide (i < 32) <;> simp
  refine ⟨?_, ?_, ?_, ?_, ?_, ?_⟩
  · rw [extract_eq (n := s.bus.mode.code) hm]
    · cases s.bus.mode <;> rfl
    · intro i hi
      rw [key]
      have : i = 0 ∨ i = 1 := by omega
      rcases this with rfl | rfl <;> simp
  · rw [key]; simp [hm']
  · rw [key]; simp [hm']
  · rw [key]; simp [hm']
  · rw [key]; simp [hm']; cases s.bus.rate <;> rfl
  · apply BitVec.eq_of_getLsbD_eq; intro i hi
    rw [BitVec.getLsbD_extractLsb', key, hm' _ (by omega)]
    simp [hi, hr' (6 + i - 5) (by omega), show 6 + i ≠ 2 by omega, show 6 + i ≠ 3 by omega, show 6 + i ≠ 4 by omega]

/-- The layout of BATTERY (spec/10_state.md R31). -/
theorem batteryWord_is (s : State) : BatteryIs s (batteryWord s.ctl.battery) := by
  have hp := s.ctl.battery.pct.isLt
  have hr := s.ctl.battery.raw.isLt
  have hm : s.ctl.battery.mV.toNat % 2 ^ 16 < 2 ^ 16 := Nat.mod_lt _ (by decide)
  have hp' : ∀ i, 8 ≤ i → s.ctl.battery.pct.toNat.testBit i = false := fun i h => testBit_high hp h
  have hr' : ∀ i, 8 ≤ i → s.ctl.battery.raw.toNat.testBit i = false := fun i h => testBit_high hr h
  have hm' : ∀ i, 16 ≤ i → (s.ctl.battery.mV.toNat % 2 ^ 16).testBit i = false := fun i h => testBit_high hm h
  have key : ∀ i, (batteryWord s.ctl.battery).getLsbD i = (decide (i < 32) && (s.ctl.battery.pct.toNat.testBit i || (decide (8 ≤ i) && s.ctl.battery.raw.toNat.testBit (i - 8)) || (decide (16 ≤ i) && (s.ctl.battery.mV.toNat % 2 ^ 16).testBit (i - 16)))) := by
    intro i
    simp only [batteryWord, BitVec.getLsbD_or, fieldAt_getLsbD, Nat.zero_le, decide_true, Nat.sub_zero, Bool.and_true]
    cases decide (i < 32) <;> simp
  refine ⟨?_, ?_, ?_⟩
  · apply BitVec.eq_of_toNat_eq; apply extract_eq hp
    intro i hi
    rw [key]; simp [show i < 32 by omega, show ¬ 8 ≤ i by omega, show ¬ 16 ≤ i by omega]
  · apply BitVec.eq_of_toNat_eq; apply extract_eq hr
    intro i hi
    rw [key]; simp [show 8 + i < 32 by omega, hp', show ¬ 16 ≤ 8 + i by omega]
  · apply extract_eq hm
    intro i hi
    rw [key, hp' _ (by omega)]; simp only [Bool.false_or]
    rw [hr' _ (by omega)]
    simp [show 16 + i < 32 by omega]

/-- The layout of OUTPUTS (spec/10_state.md R31). -/
theorem outputsWord_is (s : State) : OutputsIs s (outputsWord s.out s.ctl) := by
  have hf : s.out.fanMode.code < 2 ^ 2 := by cases s.out.fanMode <;> decide
  have hl := s.out.ledMode.isLt
  have ht := s.ctl.status.sourceType.isLt
  have hf' : ∀ i, 2 ≤ i → s.out.fanMode.code.testBit i = false := fun i h => testBit_high hf h
  have hl' : ∀ i, 3 ≤ i → s.out.ledMode.toNat.testBit i = false := fun i h => testBit_high hl h
  have ht' : ∀ i, 8 ≤ i → s.ctl.status.sourceType.toNat.testBit i = false := fun i h => testBit_high ht h
  have key : ∀ i, (outputsWord s.out s.ctl).getLsbD i = (decide (i < 32) && ((decide (i = 0) && s.out.powerRail) || (decide (1 ≤ i) && s.out.fanMode.code.testBit (i-1)) || (decide (3 ≤ i) && s.out.ledMode.toNat.testBit (i-3)) || (decide (i = 6) && s.out.ledOn) || (decide (i = 7) && s.out.shutdownReq) || (decide (i = 8) && s.out.lowPower) || (decide (16 ≤ i) && s.ctl.status.sourceType.toNat.testBit (i - 16)))) := by
    intro i
    simp only [outputsWord, BitVec.getLsbD_or, fieldAt_getLsbD, bitAt_getLsbD]
    cases decide (i < 32) <;> simp
  refine ⟨?_, ?_, ?_, ?_, ?_, ?_, ?_, ?_, ?_⟩
  · rw [key]; simp
  · rw [extract_eq (n := s.out.fanMode.code) hf]
    · cases s.out.fanMode <;> rfl
    · intro i hi; rw [key]
      simp [show 1 + i < 32 by omega, show ¬ 3 ≤ 1 + i by omega, show 1 + i ≠ 6 by omega, show 1 + i ≠ 7 by omega, show 1 + i ≠ 8 by omega, show ¬ 16 ≤ 1 + i by omega]
  · apply BitVec.eq_of_toNat_eq; apply extract_eq hl
    intro i hi; rw [key, hf' _ (by omega)]
    simp [show 3 + i < 32 by omega, show 3 + i ≠ 6 by omega, show 3 + i ≠ 7 by omega, show 3 + i ≠ 8 by omega, show ¬ 16 ≤ 3 + i by omega]
  · rw [key]; simp [hf', hl']
  · rw [key]; simp [hf', hl']
  · rw [key]; simp [hf', hl']
  · apply BitVec.eq_of_getLsbD_eq; intro i hi
    rw [BitVec.getLsbD_extractLsb', key, hf' _ (by omega), hl' _ (by omega)]
    simp [show ¬ 16 ≤ 9 + i by omega, show 9 + i ≠ 6 by omega, show 9 + i ≠ 7 by omega, show 9 + i ≠ 8 by omega]
  · apply BitVec.eq_of_toNat_eq; apply extract_eq ht
    intro i hi; rw [key, hf' _ (by omega), hl' _ (by omega)]
    simp [show 16 + i < 32 by omega, show 16 + i ≠ 6 by omega, show 16 + i ≠ 7 by omega, show 16 + i ≠ 8 by omega]
  · apply BitVec.eq_of_getLsbD_eq; intro i hi
    rw [BitVec.getLsbD_extractLsb', key, hf' _ (by omega), hl' _ (by omega), ht' _ (by omega)]
    simp [show 24 + i ≠ 6 by omega, show 24 + i ≠ 7 by omega, show 24 + i ≠ 8 by omega]

/-- The layout of CTRL_STATUS (spec/10_state.md R31). -/
theorem ctrlStatusWord_is (s : State) : CtrlStatusIs s (ctrlStatusWord s.ctl s.ev s.btn) := by
  have h1 : s.ctl.phase.code < 2 ^ 2 := by cases s.ctl.phase <;> decide
  have h2 : s.ctl.pstate.code < 2 ^ 2 := by cases s.ctl.pstate <;> decide
  have h3 : chargeStateCode s.ctl.status.chargeState < 2 ^ 2 := by cases s.ctl.status.chargeState <;> decide
  have h4 : s.btn.state.code < 2 ^ 2 := by cases s.btn.state <;> decide
  have g1 : ∀ i, 2 ≤ i → s.ctl.phase.code.testBit i = false := fun i h => testBit_high h1 h
  have g2 : ∀ i, 2 ≤ i → s.ctl.pstate.code.testBit i = false := fun i h => testBit_high h2 h
  have g3 : ∀ i, 2 ≤ i → (chargeStateCode s.ctl.status.chargeState).testBit i = false := fun i h => testBit_high h3 h
  have g4 : ∀ i, 2 ≤ i → s.btn.state.code.testBit i = false := fun i h => testBit_high h4 h
  have two : ∀ {i : Nat}, i < 2 → i = 0 ∨ i = 1 := by omega
  refine ⟨?_, ?_, ?_, ?_, ?_, ?_, ?_, ?_, ?_, ?_, ?_, ?_, ?_, ?_, ?_, ?_, ?_, ?_, ?_, ?_, ?_, ?_, ?_, ?_, ?_, ?_, ?_⟩
  · rw [extract_eq (n := s.ctl.phase.code) h1]
    · cases s.ctl.phase <;> rfl
    · intro i hi
      rcases two hi with rfl | rfl <;> (simp only [ctrlStatusWord, faultBitsWord, eventBitsAt, BitVec.getLsbD_or, fieldAt_getLsbD, bitAt_getLsbD]; simp [])
  · rw [extract_eq (n := s.ctl.pstate.code) h2]
    · cases s.ctl.pstate <;> rfl
    · intro i hi
      rcases two hi with rfl | rfl <;> (simp only [ctrlStatusWord, faultBitsWord, eventBitsAt, BitVec.getLsbD_or, fieldAt_getLsbD, bitAt_getLsbD]; simp [g1])
  all_goals try ((simp only [ctrlStatusWord, faultBitsWord, eventBitsAt, BitVec.getLsbD_or, fieldAt_getLsbD, bitAt_getLsbD]; simp [g1, g2, g3, g4]); done)
  · rw [extract_eq (n := chargeStateCode s.ctl.status.chargeState) h3]
    · cases s.ctl.status.chargeState <;> rfl
    · intro i hi
      rcases two hi with rfl | rfl <;> (simp only [ctrlStatusWord, faultBitsWord, eventBitsAt, BitVec.getLsbD_or, fieldAt_getLsbD, bitAt_getLsbD]; simp [g1, g2])
  · rw [extract_eq (n := s.btn.state.code) h4]
    · cases s.btn.state <;> rfl
    · intro i hi
      rcases two hi with rfl | rfl <;> (simp only [ctrlStatusWord, faultBitsWord, eventBitsAt, BitVec.getLsbD_or, fieldAt_getLsbD, bitAt_getLsbD]; simp [g1, g2, g3])
  · apply BitVec.eq_of_getLsbD_eq; intro i hi
    rcases two hi with rfl | rfl <;> (simp only [BitVec.getLsbD_extractLsb', ctrlStatusWord, faultBitsWord, eventBitsAt, BitVec.getLsbD_or, fieldAt_getLsbD, bitAt_getLsbD]; simp [g1, g2, g3, g4])

end Sys2Proof.Machine
end

