-- ==== Sys2Proof/Laws/Endings.lean ====
section
/-! SUPPORT. How a waveform can time out and how a transaction can end with an error
(spec/40_softbus.md R67, R80, R81). -/

namespace Sys2Proof.Machine

/-! ## A TIMEOUT comes only in open-drain mode -/

/-- If `w` times out, the bus is open-drain. -/
def Wave.OdTimeout {α : Type} (w : Wave α) : Prop := ∀ t, w = .timeout t → t.bus.mode = .openDrain

theorem Wave.andThen_odTimeout {α β : Type} {w : Wave α} {f : α → State → Wave β}
    (hw : w.OdTimeout) (hf : ∀ a t, (f a t).OdTimeout) : (w.andThen f).OdTimeout := by
  intro t ht
  cases w with
  | done a s => exact hf a s t ht
  | timeout s => exact hw t (by simpa [Wave.andThen] using ht)

theorem done_odTimeout {α : Type} (a : α) (s : State) : (Wave.done a s).OdTimeout := by
  intro t ht; cases ht

theorem sclRise_odTimeout (s : State) : (sclRise s).OdTimeout := by
  intro t ht
  have hb := sclRise_bus s
  rw [ht] at hb
  simp only [Wave.state] at hb
  rw [hb]
  unfold sclRise waitSclHigh at ht
  split at ht
  · cases ht
  · rename_i hc
    simp only [Bool.or_eq_true, bne_iff_ne, not_or, ne_eq, Decidable.not_not] at hc
    exact hc.2

theorem start_odTimeout (s : State) : (start s).OdTimeout :=
  Wave.andThen_odTimeout (sclRise_odTimeout _) fun _ _ => done_odTimeout _ _

theorem stop_odTimeout (s : State) : (stop s).OdTimeout :=
  Wave.andThen_odTimeout (sclRise_odTimeout _) fun _ _ => done_odTimeout _ _

theorem writeBit_odTimeout (b : Bool) (s : State) : (writeBit b s).OdTimeout :=
  Wave.andThen_odTimeout (sclRise_odTimeout _) fun _ _ => done_odTimeout _ _

theorem readBit_odTimeout (s : State) : (readBit s).OdTimeout :=
  Wave.andThen_odTimeout (sclRise_odTimeout _) fun _ _ => done_odTimeout _ _

theorem writeBits_odTimeout (v : Byte) (n : Nat) (s : State) : (writeBits v n s).OdTimeout := by
  induction n generalizing s with
  | zero => exact done_odTimeout _ _
  | succ n ih => exact Wave.andThen_odTimeout (writeBit_odTimeout _ _) fun _ t => ih t

theorem writeByte_odTimeout (v : Byte) (s : State) : (writeByte v s).OdTimeout :=
  Wave.andThen_odTimeout (writeBits_odTimeout _ _ _) fun _ t =>
    Wave.andThen_odTimeout (readBit_odTimeout t) fun _ _ => done_odTimeout _ _

theorem readBits_odTimeout (v : Byte) (n : Nat) (s : State) : (readBits v n s).OdTimeout := by
  induction n generalizing v s with
  | zero => exact done_odTimeout _ _
  | succ n ih => exact Wave.andThen_odTimeout (readBit_odTimeout _) fun _ t => ih _ t

theorem readByte_odTimeout (last : Bool) (s : State) : (readByte last s).OdTimeout :=
  Wave.andThen_odTimeout (readBits_odTimeout _ _ _) fun _ _ =>
    Wave.andThen_odTimeout (writeBit_odTimeout _ _) fun _ _ => done_odTimeout _ _

/-! ## The errors of a transaction -/

/-- `r` is NO_ACK, or TIMEOUT on an open-drain bus, at a message from `lo` up to `hi`. -/
structure TxnError (lo hi : Nat) (r : Result) (s : State) : Prop where
  lo : lo ≤ r.msg.toNat
  hi : r.msg.toNat < hi
  txn : r.txn = false
  code : r.code = .noAck ∨ r.code = .timeout ∧ s.bus.mode = .openDrain

/-- A transaction that ends with an error ends with one of messages `lo` to `hi - 1`. -/
def Txn.Errs (lo hi : Nat) : Txn → Prop
  | .go _ _ => True
  | .stop r _ s => TxnError lo hi r s

theorem abort_errs (ph : Bool) {j : Nat} (k : Nat) (buf : Memory) {s : State} (hj : j < 256)
    (hm : s.bus.mode = .openDrain) : (abort ph j k buf s).Errs j (j + 1) :=
  ⟨by simp [Result.timeout, Nat.mod_eq_of_lt hj], by simp [Result.timeout, Nat.mod_eq_of_lt hj], rfl,
    .inr ⟨rfl, hm⟩⟩

theorem stopNoAck_errs (ph : Bool) {j : Nat} (k : Nat) (buf : Memory) (s : State) (hj : j < 256) :
    (stopNoAck ph j k buf s).Errs j (j + 1) := by
  unfold stopNoAck
  split
  · exact ⟨by simp [Result.noAck, Nat.mod_eq_of_lt hj], by simp [Result.noAck, Nat.mod_eq_of_lt hj],
      rfl, .inl rfl⟩
  · rename_i hs; exact abort_errs _ _ _ hj (stop_odTimeout _ _ hs)

theorem afterWrite_errs (ph : Bool) {j : Nat} (k : Nat) (buf : Memory) {w : Wave Bool}
    {cont : State → Txn} (hj : j < 256) (hw : w.OdTimeout) (hc : ∀ t, (cont t).Errs j (j + 1)) :
    (afterWrite ph j k buf w cont).Errs j (j + 1) := by
  unfold afterWrite
  split
  · exact hc _
  · exact stopNoAck_errs _ _ _ _ hj
  · exact abort_errs _ _ _ hj (hw _ rfl)

theorem Txn.andThen_errs {lo hi : Nat} {t : Txn} {f : Memory → State → Txn} (ht : t.Errs lo hi)
    (hf : ∀ b s, (f b s).Errs lo hi) : (t.andThen f).Errs lo hi := by
  cases t with
  | go b s => exact hf b s
  | stop r b s => exact ht

theorem writePhase_errs (buf : Memory) (off : Nat) {j : Nat} (n k : Nat) (s : State) (hj : j < 256) :
    (writePhase buf off j n k s).Errs j (j + 1) := by
  induction n generalizing k s with
  | zero => trivial
  | succ n ih => exact afterWrite_errs _ _ _ hj (writeByte_odTimeout _ _) fun t => ih _ t

theorem readPhase_errs (off : Nat) {j : Nat} (n k : Nat) (buf : Memory) (s : State) (hj : j < 256) :
    (readPhase off j n k buf s).Errs j (j + 1) := by
  induction n generalizing k buf s with
  | zero => trivial
  | succ n ih =>
    unfold readPhase
    split
    · rename_i hs; exact abort_errs _ _ _ hj (readByte_odTimeout _ _ _ hs)
    · exact ih _ _ _

theorem message_errs (a : Addr7) (off : Nat) {j : Nat} (d : Half) (buf : Memory) (s : State)
    (hj : j < 256) : (message a off j d buf s).Errs j (j + 1) := by
  refine Txn.andThen_errs (Txn.andThen_errs ?_ ?_) ?_
  · unfold messageAddress
    split
    · unfold addressPhase
      split
      · rename_i hs; exact abort_errs _ _ _ hj (start_odTimeout _ _ hs)
      · exact afterWrite_errs _ _ _ hj (writeByte_odTimeout _ _) fun _ => trivial
    · trivial
  · intro b t
    unfold messageBody
    split
    · exact readPhase_errs _ _ _ _ _ hj
    · exact writePhase_errs _ _ _ _ _ hj
  · intro b t
    unfold messageStop
    split
    · split
      · trivial
      · rename_i hs; exact abort_errs _ _ _ hj (stop_odTimeout _ _ hs)
    · trivial

/-- How a list of messages from index `j` on can end with an error. -/
theorem messages_errs (a : Addr7) (ds : List Half) (off j : Nat) (buf : Memory) (s : State)
    (hj : j + ds.length ≤ 256) : (messages a ds off j buf s).Errs j (j + ds.length) := by
  induction ds generalizing off j buf s with
  | nil => trivial
  | cons d rest ih =>
    simp only [List.length_cons] at hj ⊢
    unfold messages
    have hm := message_errs a off (j := j) d buf s (by omega)
    cases h : message a off j d buf s with
    | go b t =>
      have := ih (off + descLen d) (j + 1) b t (by omega)
      simp only [Txn.andThen]
      cases h2 : messages a rest (off + descLen d) (j + 1) b t with
      | go b' t' => trivial
      | stop r b' t' =>
        rw [h2] at this
        exact ⟨by have := this.lo; omega, by have := this.hi; omega, this.txn, this.code⟩
    | stop r b t =>
      rw [h] at hm
      exact ⟨hm.lo, by have := hm.hi; omega, hm.txn, hm.code⟩

/-- A transaction ends OK, refused before any line activity, or with an error of one of its messages. -/
theorem transferOn_ends (a : Addr7) (ds : List Half) (buf : Memory) (s : State)
    (hv : transferValid s.par ds = true) (hn : ds.length ≤ 256) (hr : s.bus.ready = true) :
    (transferOn a ds buf s).res = .ok ∨
      TxnError 0 ds.length (transferOn a ds buf s).res (transferOn a ds buf s).st := by
  unfold transferOn
  rw [if_pos hr, if_pos hv]
  have h := messages_errs a ds 0 0 buf s.maskIrq (by omega)
  cases hm : messages a ds 0 0 buf s.maskIrq with
  | go b t => exact .inl rfl
  | stop r b t =>
    rw [hm, Nat.zero_add] at h
    exact .inr ⟨h.lo, h.hi, h.txn, h.code⟩

/-- A transaction that runs makes line events: the first message always has a start. -/
theorem messages_trace (a : Addr7) (d : Half) (rest : List Half) (off : Nat) (buf : Memory)
    (s : State) : ∃ e new, (messages a (d :: rest) off 0 buf s).st.trace = new ++ e :: s.trace := by
  have grow : LineRel fun s t => ∃ new, t.trace = new ++ s.trace := by
    refine ⟨fun _ => ⟨[], rfl⟩, ?_, fun l v s => ⟨[_], rfl⟩, fun d s => ⟨[_], rfl⟩,
      fun s _ _ _ => ⟨[_], rfl⟩, fun s _ => ⟨[_], rfl⟩, fun s f _ => ⟨[], rfl⟩⟩
    rintro s t u ⟨n, hn⟩ ⟨m, hm⟩
    exact ⟨m ++ n, by rw [hm, hn, List.append_assoc]⟩
  have hs : ∃ new, (start (setMsg 0 s)).state.trace =
      new ++ (sdaSet true (setMsg 0 s)).trace := by
    unfold start
    refine grow.andThen (s := sdaSet true (setMsg 0 s)) (grow.trans (grow.wait _ _) (grow.sclRise _))
      fun _ t _ => ?_
    exact grow.trans (grow.trans (grow.trans (grow.trans (grow.trans (grow.wait _ _)
      (grow.drive _ _ _)) (grow.wait _ _)) (grow.drive _ _ _)) (grow.wait _ _)) (grow.setOwned _ _)
  have ha : ∃ new, (messageAddress a 0 d buf (setMsg 0 s)).st.trace =
      new ++ (sdaSet true (setMsg 0 s)).trace := by
    unfold messageAddress addressPhase
    rw [if_pos (by rfl)]
    cases h : start (setMsg 0 s) with
    | timeout t =>
      rw [h] at hs
      exact grow.trans (s := sdaSet true (setMsg 0 s)) hs (grow.releaseBus t)
    | done u t =>
      rw [h] at hs
      exact grow.afterWrite _ _ _ _ (grow.trans (s := sdaSet true (setMsg 0 s)) hs
        (grow.writeByte _ _)) fun _ _ => grow.refl _
  have := grow.txnThen (s := sdaSet true (setMsg 0 s)) (grow.txnThen (grow.txnThen ha
    fun b t _ => grow.messageBody off 0 d b t) fun b t _ => grow.messageStop 0 d b t)
      fun b t _ => grow.messages a rest (off + descLen d) (0 + 1) b t
  obtain ⟨n, hn⟩ := this
  exact ⟨_, n, hn⟩

/-! ## The run of a transaction that is refused or held -/

/-- A refused byte: its frame ends with a stop (R80). -/
theorem refused_ran {od : Bool} (ph : Bool) (j k : Nat) (buf : Memory) (v : Byte) (cont : State → Txn)
    {s : State} (h : BusReady od s) (hg : s.env.gives (frameAnswers od [.send v false, .stop])) :
    ∃ t, afterWrite ph j k buf (writeByte v s) cont = .stop (.noAck ph j k) buf t ∧
      Ran (frameAnswers od [.send v false, .stop]) (frameEvents od [.send v false, .stop]) s t ∧
      Idle t := by
  simp only [frameAnswers, frameEvents, List.flatMap_cons, List.flatMap_nil, List.append_nil] at hg ⊢
  rw [Env.gives_append] at hg
  obtain ⟨t, ht, hr⟩ := writeByte_ran v false h hg.1
  obtain ⟨u, hu, hs⟩ := stop_ran (h.ran hr) (by rw [hr.env]; exact hg.2)
  refine ⟨u, ?_, hr.trans hs, stop_done hu⟩
  rw [ht]
  simp only [afterWrite, stopNoAck]
  rw [hu]

/-- A refused address byte. -/
theorem addressPhase_refused {od : Bool} (a : Addr7) (rd : Bool) (j : Nat) (buf : Memory) {s : State}
    (h : BusReady od s)
    (hg : s.env.gives (frameAnswers od [.start, .send (addrByte a rd) false, .stop])) :
    ∃ t, addressPhase a rd j buf s = .stop (.noAck false j 0) buf t ∧
      Ran (frameAnswers od [.start, .send (addrByte a rd) false, .stop])
        (frameEvents od [.start, .send (addrByte a rd) false, .stop]) s t ∧ Idle t := by
  rw [show ([Sym.start, .send (addrByte a rd) false, .stop] : List Sym) =
    [.start] ++ [.send (addrByte a rd) false, .stop] from rfl] at hg ⊢
  rw [frameAnswers_append, Env.gives_append] at hg
  rw [frameAnswers_append, frameEvents_append]
  simp only [frameAnswers, frameEvents, List.flatMap_cons, List.flatMap_nil, List.append_nil] at hg ⊢
  obtain ⟨t, ht, hr⟩ := start_ran h hg.1
  obtain ⟨u, hu, hs, hi⟩ := refused_ran false j 0 buf (addrByte a rd) (fun s => .go buf s) (h.ran hr)
    (by rw [hr.env]; simpa [frameAnswers] using hg.2)
  refine ⟨u, ?_, hr.trans (by simpa [frameAnswers, frameEvents] using hs), hi⟩
  unfold addressPhase
  rw [ht]
  exact hu

/-- A write phase whose byte `k + m` is refused. -/
theorem writePhase_refused {od : Bool} (buf : Memory) (off j m n k : Nat) {s : State} (hm : m < n)
    (h : BusReady od s) (hg : s.env.gives (frameAnswers od
      (sendBytes buf (off + k) m ++ [.send (buf.read (off + k + m)) false, .stop]))) :
    ∃ t, writePhase buf off j n k s = .stop (.noAck true j (k + m)) buf t ∧
      Ran (frameAnswers od
          (sendBytes buf (off + k) m ++ [.send (buf.read (off + k + m)) false, .stop]))
        (frameEvents od
          (sendBytes buf (off + k) m ++ [.send (buf.read (off + k + m)) false, .stop])) s t ∧
      Idle t := by
  obtain ⟨n, rfl⟩ : ∃ i, n = i + 1 := ⟨n - 1, by omega⟩
  have h0 := setByte_ran k s
  induction m generalizing n k s with
  | zero =>
    obtain ⟨t, ht, hr, hi⟩ := refused_ran true j k buf (buf.read (off + k))
      (fun s => writePhase buf off j n (k + 1) s) (h.ran h0) hg
    exact ⟨t, ht, by simpa [sendBytes] using h0.trans hr, hi⟩
  | succ m ih =>
    obtain ⟨n, rfl⟩ : ∃ i, n = i + 1 := ⟨n - 1, by omega⟩
    simp only [sendBytes, List.cons_append, frameAnswers, frameEvents, List.flatMap_cons] at hg ⊢
    rw [Env.gives_append] at hg
    obtain ⟨t, ht, hr⟩ := writeByte_ran (buf.read (off + k)) true (h.ran h0) hg.1
    have e : off + k + (m + 1) = off + (k + 1) + m := by omega
    obtain ⟨u, hu, hs, hi⟩ := ih (k + 1) ((h.ran h0).ran hr)
      (by
        rw [hr.env, show (setByte k s).env = s.env from rfl]
        rw [e] at hg
        simpa [frameAnswers, Nat.add_assoc] using hg.2) n (by omega)
      (setByte_ran _ _)
    refine ⟨u, ?_, ?_, hi⟩
    · rw [show k + (m + 1) = k + 1 + m by omega, ← hu]
      conv_lhs => unfold writePhase
      rw [ht]
      rfl
    · rw [e]
      simpa [frameAnswers, frameEvents, Nat.add_assoc] using (h0.trans hr).trans hs

end Sys2Proof.Machine
end

