-- ==== Sys2Proof/Laws/Step.lean ====
section
/-! SUPPORT. What one step can do, said once: its cases, and that every relation its parts keep holds
across every instruction. -/

namespace Sys2Proof.Machine

/-- A relation kept by every write an instruction other than CONFIGURE and CTRL_BOOT makes; a write of
the data port keeps its canonical form. -/
structure CmdRel (R : State → State → Prop) : Prop extends LoopRel R where
  val : ∀ s v, R s (s.setVal v)
  data : ∀ s m, (Memory.wf s.ports.data = true → Memory.wf m = true) → R s (s.setData m)
  latch : ∀ s k, R s (s.latch k)

/-- A relation kept by every write an instruction makes. -/
structure ExecRel (R : State → State → Prop) : Prop extends CmdRel R where
  configure : ∀ rate s, R s (configure rate s)

/-- A transaction leaves the data port to its caller. -/
theorem transferOn_data (a : Addr7) (ds : List Half) (buf : Memory) (s : State) :
    (transferOn a ds buf s).st.ports.data = s.ports.data := by
  rw [(busOnly_txnRel.transferOn a ds buf s).ports]

/-- Every relation of this kind holds across every instruction that does not bring the bus up. -/
theorem CmdRel.exec {R : State → State → Prop} (h : CmdRel R) {i : Instr} {s t : State}
    (hc : ∀ rate, i ≠ .configure rate) (hb : i ≠ .ctrlBoot) (ht : exec i s = .next t) : R s t := by
  cases i with
  | configure r => exact absurd rfl (hc r)
  | transfer a n =>
    simp only [Machine.exec, execTransfer, Host.Outcome.next.injEq] at ht; subst ht
    refine h.trans (h.trans (h.transferOn _ _ _ _) (h.data _ _ ?_)) (h.finish _ _)
    rw [transferOn_data]
    exact fun hw => (transferOn_buf _ _ _ hw).1
  | regRead a r l =>
    simp only [Machine.exec, execRegRead, Host.Outcome.next.injEq] at ht; subst ht
    unfold regReadCommit
    split
    · refine h.trans (h.trans (h.transferOn _ _ _ _) (h.data _ _ ?_)) (h.finish _ _)
      exact fun hw => Memory.copy_wf _ _ _ _ hw
    · exact h.trans (h.transferOn _ _ _ _) (h.finish _ _)
  | regWrite a r l =>
    simp only [Machine.exec, execRegWrite, Host.Outcome.next.injEq] at ht; subst ht
    exact h.trans (h.transferOn _ _ _ _) (h.finish _ _)
  | fieldRead f =>
    simp only [Machine.exec, execFieldRead] at ht
    split at ht <;> simp only [Host.Outcome.next.injEq] at ht <;> subst ht
    · unfold fieldReadCommit
      split
      · exact h.trans (h.trans (h.readFieldByte _ _) (h.val _ _)) (h.finish _ _)
      · exact h.trans (h.readFieldByte _ _) (h.finish _ _)
    · exact h.finish _ _
  | fieldWrite f =>
    simp only [Machine.exec, execFieldWrite] at ht
    split at ht <;> simp only [Host.Outcome.next.injEq] at ht <;> subst ht
    · unfold fieldWriteCommit
      split
      · exact h.trans (h.trans (h.fieldWriteOn _ _ _) (h.val _ _)) (h.finish _ _)
      · exact h.trans (h.fieldWriteOn _ _ _) (h.finish _ _)
    · exact h.finish _ _
  | probe =>
    simp only [Machine.exec, execProbe, Host.Outcome.next.injEq] at ht; subst ht
    exact h.trans (h.trans (h.readFieldByte _ _) (h.val _ _)) (h.finish _ _)
  | ctrlBoot => exact absurd rfl hb
  | ctrlStep => exact h.execCtrlStep ht
  | readState f =>
    simp only [Machine.exec, execReadState] at ht
    split at ht <;> simp only [Host.Outcome.next.injEq] at ht <;> subst ht
    · exact h.trans (h.val _ _) (h.finish _ _)
    · exact h.finish _ _
  | evtButton =>
    simp only [Machine.exec, execEvtButton, Host.Outcome.next.injEq] at ht; subst ht
    exact h.latch _ _
  | evtChgIrq =>
    simp only [Machine.exec, execEvtChgIrq, Host.Outcome.next.injEq] at ht; subst ht
    exact h.latch _ _
  | evtThermal =>
    simp only [Machine.exec, execEvtThermal, Host.Outcome.next.injEq] at ht; subst ht
    exact h.latch _ _
  | evtHostAck =>
    simp only [Machine.exec, execEvtHostAck, Host.Outcome.next.injEq] at ht; subst ht
    exact h.latch _ _

/-- Every relation of this kind holds across every instruction. -/
theorem ExecRel.exec {R : State → State → Prop} (h : ExecRel R) {i : Instr} {s t : State}
    (ht : exec i s = .next t) : R s t := by
  by_cases hb : i = .ctrlBoot
  · subst hb
    exact CtlRel.execCtrlBoot { h.toCmdRel.toLoopRel with configure := h.configure } ht
  by_cases hc : ∃ rate, i = .configure rate
  · obtain ⟨r, rfl⟩ := hc
    simp only [Machine.exec, execConfigure, Host.Outcome.next.injEq] at ht; subst ht
    exact h.trans (h.configure r s) (h.finish _ _)
  · exact h.toCmdRel.exec (fun r hr => hc ⟨r, hr⟩) hb ht

/-- What one step can do: a due event word runs or is ignored, the command on the port runs or is
illegal, the environment acts, or an instant passes. -/
theorem step_cases {s t : State} (h : step s = .next t) :
    (∃ w rest i, dueEvent s.ports.evt = some (w, rest) ∧ decodeEvent w = .ok i ∧
      exec i (takeEvent s rest) = .next t) ∨
    (∃ w rest, dueEvent s.ports.evt = some (w, rest) ∧ t = takeEvent s rest) ∨
    (∃ w i, s.ports.cmd = some w ∧ decodeCommand w = .ok i ∧ exec i (takeCommand s) = .next t) ∨
    (∃ w, s.ports.cmd = some w ∧ t = (takeCommand s).finish .illegalCommand) ∨
    (s.ports.cmd = none ∧ ∃ m rest, s.env.moves = m :: rest ∧
      t = (s.onEnv fun e => { e with moves := rest }).move m) ∨
    (s.ports.cmd = none ∧ s.env.moves = [] ∧ t = s.tick) := by
  unfold step at h
  split at h
  · rename_i w rest hd
    unfold stepEvent at h
    split at h
    · rename_i i hi; exact .inl ⟨w, rest, i, hd, hi, h⟩
    · exact .inr (.inl ⟨w, rest, hd, (Host.Outcome.next.inj h).symm⟩)
  · split at h
    · rename_i w hw
      unfold stepCommand at h
      split at h
      · rename_i i hi; exact .inr (.inr (.inl ⟨w, i, hw, hi, h⟩))
      · exact .inr (.inr (.inr (.inl ⟨w, hw, (Host.Outcome.next.inj h).symm⟩)))
    · rename_i hw
      unfold stepIdle at h
      split at h
      · rename_i m rest hm
        exact .inr (.inr (.inr (.inr (.inl ⟨hw, m, rest, hm, (Host.Outcome.next.inj h).symm⟩))))
      · rename_i hm
        exact .inr (.inr (.inr (.inr (.inr ⟨hw, hm, (Host.Outcome.next.inj h).symm⟩))))

/-- An event word that decodes runs as the latch of its kind. -/
theorem decodeEvent_latch {w : Word} {i : Instr} (h : decodeEvent w = .ok i) :
    ∃ k, ∀ s, exec i s = .next (s.latch k) := by
  simp only [decodeEvent] at h
  split at h <;> [skip; cases h]
  split at h <;> [skip; cases h]
  rename_i k _
  cases h
  exact ⟨k, fun s => by cases k <;> rfl⟩

/-! ## Forms that end before any line activity -/

/-- A step that finds an event word due latches its kind or ignores it, whatever else stands ready. -/
theorem step_due {s t : State} {w : Word} {rest : List Arrival} (he : s.ports.evt = ⟨0, w⟩ :: rest)
    (h : step s = .next t) : t = takeEvent s rest ∨ ∃ k, t = (takeEvent s rest).latch k := by
  unfold step at h
  rw [he] at h
  change stepEvent w (takeEvent s rest) = .next t at h
  unfold stepEvent at h
  split at h
  · rename_i i hi
    obtain ⟨k, hk⟩ := decodeEvent_latch hi
    rw [hk] at h
    exact .inr ⟨k, (Host.Outcome.next.inj h).symm⟩
  · exact .inl (Host.Outcome.next.inj h).symm

/-- An unready bus ends a transaction at once. -/
theorem transferOn_notReady {s : State} (h : s.bus.ready = false) (a : Addr7) (ds : List Half)
    (buf : Memory) : transferOn a ds buf s = ⟨.busNotReady, buf, s⟩ := by
  unfold transferOn; simp [h]

/-- An invalid list ends a transaction at once. -/
theorem transferOn_invalid {s : State} (h : s.bus.ready = true) (a : Addr7) {ds : List Half}
    (hv : transferValid s.par ds = false) (buf : Memory) :
    transferOn a ds buf s = ⟨.badSequence, buf, s⟩ := by
  unfold transferOn; simp [h, hv]

/-- A valid list on a ready bus runs its messages under the mask. -/
theorem transferOn_runs {s : State} (h : s.bus.ready = true) (a : Addr7) {ds : List Half}
    (hv : transferValid s.par ds = true) (buf : Memory) :
    transferOn a ds buf s = (messages a ds 0 0 buf s.maskIrq).close := by
  unfold transferOn; simp [h, hv]

theorem fieldOf_some {f : Byte} (h : f.toNat ≤ 20) : ∃ id, fieldOf f = some id := by
  have : f.toNat < FieldId.all.length := by simp [FieldId.all]; omega
  exact ⟨_, List.getElem?_eq_getElem this⟩

theorem fieldOf_none {f : Byte} (h : 20 < f.toNat) : fieldOf f = none :=
  List.getElem?_eq_none (by simp [FieldId.all]; omega)

end Sys2Proof.Machine
end

