-- ==== Sys2Proof/Laws/Course.lean ====
section
/-! SUPPORT. Every course of a transaction: what the machine does on a clock that is stretched or held and
on bytes that are refused (spec/40_softbus.md R67, R78 to R81). -/

namespace Sys2Proof.Machine

theorem samplesOf_append (es fs : List LineEvent) :
    samplesOf (es ++ fs) = samplesOf es ++ samplesOf fs := by
  induction es with
  | nil => rfl
  | cons e es ih => cases e <;> simp [samplesOf, ih]

/-! ## Stretched line events -/

/-- Events without a sample of the clock stay as they are. -/
theorem Stretched.eq_of_quiet {limit : Nat} {es fs : List LineEvent} {c : Bool}
    (h : Stretched limit es c fs) (hq : ∀ e ∈ es, ∀ b, e ≠ .sample .scl b) : c = true ∧ fs = es := by
  induction h with
  | nil => exact ⟨rfl, rfl⟩
  | other e _ _ ih =>
    obtain ⟨rfl, rfl⟩ := ih fun e he => hq e (List.mem_cons_of_mem _ he)
    exact ⟨rfl, rfl⟩
  | rise _ _ _ _ => exact absurd rfl (hq _ (List.mem_cons_self ..) true)
  | held _ => exact absurd rfl (hq _ (List.mem_cons_self ..) true)

/-- Stretched events of two parts: the first is held, or both follow each other. -/
theorem Stretched.append {limit : Nat} {es fs gs : List LineEvent} {c : Bool}
    (h : Stretched limit (es ++ fs) c gs) :
    (c = false ∧ Stretched limit es false gs) ∨
      ∃ as bs, gs = as ++ bs ∧ Stretched limit es true as ∧ Stretched limit fs c bs := by
  induction es generalizing gs with
  | nil => exact .inr ⟨[], gs, rfl, .nil, h⟩
  | cons e es ih =>
    cases h with
    | other _ hne h =>
      rcases ih h with ⟨rfl, h'⟩ | ⟨as, bs, rfl, ha, hb⟩
      · exact .inl ⟨rfl, .other e hne h'⟩
      · exact .inr ⟨e :: as, bs, rfl, .other e hne ha, hb⟩
    | rise k hk h =>
      rcases ih h with ⟨rfl, h'⟩ | ⟨as, bs, rfl, ha, hb⟩
      · exact .inl ⟨rfl, .rise k hk h'⟩
      · exact .inr ⟨stretchEvents true k ++ as, bs, (List.append_assoc ..).symm, .rise k hk ha, hb⟩
    | held _ => exact .inl ⟨rfl, .held es⟩

/-! ## Waveforms -/

/-- From `s` the machine made the line events `es` and took their samples; parameters stay. -/
structure Led (es : List LineEvent) (s t : State) : Prop where
  ran : Ran (samplesOf es) es s t
  par : t.par = s.par

theorem Led.refl (s : State) : Led [] s s := ⟨.refl s, rfl⟩

theorem Led.trans {es fs : List LineEvent} {s t u : State} (h : Led es s t) (h' : Led fs t u) :
    Led (es ++ fs) s u :=
  ⟨by rw [samplesOf_append]; exact h.ran.trans h'.ran, h'.par.trans h.par⟩

theorem drive_led (l : Line) (v : Level) (s : State) : Led [.drive l v] s (drive l v s) :=
  ⟨drive_ran l v s, rfl⟩

theorem wait_led (d : Delay) (s : State) : Led [.wait d] s (wait d s) := ⟨wait_ran d s, rfl⟩

theorem sample_led (l : Line) {s : State} {b : Bool} (h : s.env.answer = b) :
    Led [.sample l b] s (sample l s) := ⟨sample_ran l h, rfl⟩

theorem onBus_led {s : State} {f : Bus → Bus} (h : Bus.SameLines s.bus (f s.bus)) :
    Led [] s (s.onBus f) := ⟨⟨rfl, rfl, h.mode, h.ready, h.rate, h.detecting⟩, rfl⟩

/-- The waveform `w`, begun in `s`, follows the events `es` with value `a`: stretched, it makes them and
ends with `a`; held, it times out there. -/
def Wave.Follows {α : Type} (w : Wave α) (es : List LineEvent) (a : α) (s : State) : Prop :=
  ∀ c fs, Stretched s.par.stretchLimit es c fs → s.env.gives (samplesOf fs) →
    ∃ t, Led fs s t ∧ w = if c then .done a t else .timeout t

theorem Wave.Follows.andThen {α β : Type} {w : Wave α} {f : α → State → Wave β}
    {es fs : List LineEvent} {a : α} {b : β} {s : State} (hw : w.Follows es a s)
    (hf : ∀ gs t, Led gs s t → w = .done a t → (f a t).Follows fs b t) :
    (w.andThen f).Follows (es ++ fs) b s := by
  intro c gs h hg
  rcases h.append with ⟨rfl, h'⟩ | ⟨as, bs, rfl, ha, hb⟩
  · obtain ⟨t, hl, ht⟩ := hw false gs h' hg
    exact ⟨t, hl, by rw [ht]; rfl⟩
  · rw [samplesOf_append, Env.gives_append] at hg
    obtain ⟨t, hl, ht⟩ := hw true as ha hg.1
    have ht : w = .done a t := ht
    obtain ⟨u, hm, hu⟩ := hf as t hl ht c bs (by rw [hl.par]; exact hb) (by rw [hl.ran.env]; exact hg.2)
    exact ⟨u, hl.trans hm, by rw [ht]; exact hu⟩

/-- Events before a waveform that sample nothing. -/
theorem Wave.Follows.after {α : Type} {w : Wave α} {es fs : List LineEvent} {a : α} {s t : State}
    (hl : Led es s t) (hq : samplesOf es = []) (hn : ∀ e ∈ es, ∀ b, e ≠ .sample .scl b)
    (hw : w.Follows fs a t) : w.Follows (es ++ fs) a s := by
  intro c gs h hg
  rcases h.append with ⟨rfl, h'⟩ | ⟨as, bs, rfl, ha, hb⟩
  · exact absurd (h'.eq_of_quiet hn).1 (by decide)
  · obtain ⟨-, rfl⟩ := ha.eq_of_quiet hn
    have he := hl.ran.env
    rw [hq] at he
    rw [samplesOf_append, hq] at hg
    obtain ⟨u, hm, hu⟩ := hw c bs (by rw [hl.par]; exact hb) (by rw [he]; exact hg)
    exact ⟨u, hl.trans hm, hu⟩

/-- The end of a waveform that samples nothing. -/
theorem done_follows {α : Type} (a : α) {es : List LineEvent} {s t : State} (hl : Led es s t)
    (hn : ∀ e ∈ es, ∀ b, e ≠ .sample .scl b) : (Wave.done a t).Follows es a s := by
  intro c fs h hg
  obtain ⟨rfl, rfl⟩ := h.eq_of_quiet hn
  exact ⟨t, hl, rfl⟩

/-- The wait for the clock that reads `k` zeros, then 1 (R67). -/
theorem pollScl_rises (k n : Nat) {s : State} (hk : k ≤ n)
    (hg : s.env.gives (samplesOf (stretchEvents true k))) :
    ∃ t, pollScl n s = .done () t ∧ Led (stretchEvents true k) s t := by
  induction k generalizing n s with
  | zero =>
    refine ⟨sample .scl s, ?_, sample_led .scl hg.1⟩
    have : sampled s = true := hg.1
    cases n <;> (unfold pollScl; rw [if_pos this])
  | succ k ih =>
    obtain ⟨n, rfl⟩ : ∃ m, n = m + 1 := ⟨n - 1, by omega⟩
    have h0 : sampled s = false := hg.1
    have hl := (sample_led .scl (s := s) hg.1).trans (wait_led .poll _)
    obtain ⟨t, ht, hm⟩ := ih n (s := wait .poll (sample .scl s)) (by omega) hg.2
    refine ⟨t, ?_, hl.trans hm⟩
    unfold pollScl; rw [if_neg (by rw [h0]; decide)]; exact ht

/-- The wait for the clock that reads one zero more than its bound (R67). -/
theorem pollScl_holds (n : Nat) {s : State} (hg : s.env.gives (samplesOf (stretchEvents false n))) :
    ∃ t, pollScl n s = .timeout t ∧ Led (stretchEvents false n) s t := by
  induction n generalizing s with
  | zero =>
    refine ⟨sample .scl s, ?_, sample_led .scl hg.1⟩
    have : sampled s = false := hg.1
    unfold pollScl; rw [if_neg (by rw [this]; decide)]
  | succ n ih =>
    have h0 : sampled s = false := hg.1
    have hl := (sample_led .scl (s := s) hg.1).trans (wait_led .poll _)
    obtain ⟨t, ht, hm⟩ := ih (s := wait .poll (sample .scl s)) hg.2
    refine ⟨t, ?_, hl.trans hm⟩
    unfold pollScl; rw [if_neg (by rw [h0]; decide)]; exact ht

theorem BusReady.led {od : Bool} {es : List LineEvent} {s t : State} (h : BusReady od s)
    (hl : Led es s t) : BusReady od t := h.ran hl.ran

theorem sclRise_follows {od : Bool} {s : State} (h : BusReady od s) :
    (sclRise s).Follows (riseEvents od) () s := by
  have hhi := h.highLevel
  have hl : Led [.drive .scl (hiLevel od)] s (sclRelease s) := by
    rw [← hhi]; exact drive_led _ _ _
  have hu := h.led hl
  obtain ⟨_, hd, hm⟩ := hu
  cases od with
  | false =>
    have : sclRise s = .done () (sclRelease s) := by
      unfold sclRise waitSclHigh; rw [if_pos (by rw [hm]; simp)]
    rw [this]
    exact done_follows () hl (by simp [riseEvents])
  | true =>
    have hs : sclRise s = pollScl (sclRelease s).par.stretchLimit (sclRelease s) := by
      unfold sclRise waitSclHigh; rw [if_neg (by rw [hm, hd]; simp)]
    show (sclRise s).Follows ([.drive .scl (hiLevel true)] ++ [.sample .scl true]) () s
    refine Wave.Follows.after hl rfl (by simp) ?_
    rw [hs]
    intro c fs hf hg
    cases hf with
    | other _ hne _ => exact absurd rfl (hne true)
    | rise k hk hn =>
      cases hn
      rw [List.append_nil] at hg ⊢
      obtain ⟨t, ht, hm⟩ := pollScl_rises k _ hk hg
      exact ⟨t, hm, ht⟩
    | held _ =>
      obtain ⟨t, ht, hm⟩ := pollScl_holds _ hg
      exact ⟨t, hm, ht⟩

theorem start_follows {od : Bool} {s : State} (h : BusReady od s) :
    (start s).Follows (Sym.start.events od) () s := by
  have h1 := (drive_led .sda s.bus.highLevel s).trans (wait_led .half (sdaSet true s))
  rw [h.highLevel] at h1
  show (start s).Follows ([.drive .sda (hiLevel od), .wait .half] ++ riseEvents od ++ _) () s
  unfold start
  refine Wave.Follows.andThen (Wave.Follows.after h1 rfl (by simp) (sclRise_follows (h.led h1))) ?_
  intro gs t _ _
  refine done_follows () ?_ (by simp)
  exact ((((((wait_led .half t).trans (drive_led .sda .low _)).trans (wait_led .half _)).trans
    (drive_led .scl .low _)).trans (wait_led .half _)).trans
      (onBus_led (f := fun b => { b with busOwned := true }) ⟨rfl, rfl, rfl, rfl, rfl, rfl, rfl⟩))

theorem stop_follows {od : Bool} {s : State} (h : BusReady od s) :
    (stop s).Follows (Sym.stop.events od) () s := by
  have h1 := (((drive_led .scl .low s).trans (wait_led .half _)).trans
    (drive_led .sda .low _)).trans (wait_led .half _)
  show (stop s).Follows
    ([.drive .scl .low, .wait .half, .drive .sda .low, .wait .half] ++ riseEvents od ++ _) () s
  unfold stop
  refine Wave.Follows.andThen (Wave.Follows.after h1 rfl (by simp) (sclRise_follows (h.led h1))) ?_
  intro gs t hl _
  refine done_follows () ?_ (by simp)
  have h2 := (((wait_led .half t).trans (drive_led .sda (wait .half t).bus.highLevel _)).trans
    (wait_led .full _)).trans
      (onBus_led (f := fun b => { b with busOwned := false }) ⟨rfl, rfl, rfl, rfl, rfl, rfl, rfl⟩)
  rw [show (wait .half t).bus.highLevel = t.bus.highLevel from rfl, (h.led hl).highLevel] at h2
  have e : sdaSet true (wait .half t) = drive .sda (hiLevel od) (wait .half t) := by
    unfold sdaSet
    rw [show (wait .half t).bus.highLevel = t.bus.highLevel from rfl, (h.led hl).highLevel]; rfl
  rw [e]
  exact h2

theorem writeBit_follows {od : Bool} {s : State} (b : Bool) (h : BusReady od s) :
    (writeBit b s).Follows (writeBitEvents od b) () s := by
  have h1 := (drive_led .sda (if b then s.bus.highLevel else .low) s).trans (wait_led .half _)
  rw [h.highLevel] at h1
  unfold writeBit writeBitEvents
  have e : sdaSet b s = drive .sda (if b then hiLevel od else .low) s := by
    unfold sdaSet; rw [h.highLevel]
  rw [e]
  refine Wave.Follows.andThen (Wave.Follows.after h1 rfl (by simp) (sclRise_follows (h.led h1))) ?_
  intro gs t _ _
  exact done_follows () ((wait_led .half t).trans (drive_led .scl .low _)) (by simp)

theorem readBitEnd_follows (b : Bool) (s : State) :
    (readBitEnd s).Follows [.wait .half, .sample .sda b, .drive .scl .low] b s := by
  intro c fs h hg
  obtain ⟨rfl, rfl⟩ := h.eq_of_quiet (by simp)
  have hb : s.env.answer = b := hg.1
  refine ⟨_, ((wait_led .half s).trans (sample_led .sda (s := wait .half s) hb)).trans
    (drive_led .scl .low _), ?_⟩
  unfold readBitEnd
  rw [show sampled (wait .half s) = b from hb]; rfl

theorem readBit_follows {od : Bool} {s : State} (b : Bool) (h : BusReady od s) :
    (readBit s).Follows (readBitEvents od b) b s := by
  have h1 := (drive_led .sda .float s).trans (wait_led .half _)
  unfold readBit readBitEvents
  refine Wave.Follows.andThen (Wave.Follows.after h1 rfl (by simp) (sclRise_follows (h.led h1))) ?_
  intro gs t _ _
  exact readBitEnd_follows b t

/-- A change of the bookkeeping before a waveform. -/
theorem Wave.Follows.prep {α : Type} {w : Wave α} {es : List LineEvent} {a : α} {s t : State}
    (h : Led [] s t) (hw : w.Follows es a t) : w.Follows es a s :=
  Wave.Follows.after (es := []) h rfl (by simp) hw

theorem writeBits_follows {od : Bool} (v : Byte) (n : Nat) {s : State} (h : BusReady od s) :
    (writeBits v n s).Follows ((bitsBelow v n).flatMap (writeBitEvents od)) () s := by
  induction n generalizing s with
  | zero => exact done_follows () (.refl s) (by simp [bitsBelow])
  | succ n ih =>
    unfold writeBits bitsBelow
    rw [List.flatMap_cons]
    have h0 : Led [] s (setBit n s) := onBus_led ⟨rfl, rfl, rfl, rfl, rfl, rfl, rfl⟩
    refine Wave.Follows.andThen (Wave.Follows.prep h0 (writeBit_follows _ (h.led h0))) ?_
    intro gs t hl _
    exact ih (h.led hl)

/-- A byte sent, acknowledged or not. -/
theorem writeByte_follows {od : Bool} (v : Byte) (ack : Bool) {s : State} (h : BusReady od s) :
    (writeByte v s).Follows ((Sym.send v ack).events od) ack s := by
  unfold writeByte
  simp only [Sym.events, ← bitsBelow_eight]
  have h0 : Led [] s (setShift v s) := onBus_led ⟨rfl, rfl, rfl, rfl, rfl, rfl, rfl⟩
  refine Wave.Follows.andThen (Wave.Follows.prep h0 (writeBits_follows v 8 (h.led h0))) ?_
  intro gs t hl _
  rw [← List.append_nil (readBitEvents od (!ack))]
  refine Wave.Follows.andThen (readBit_follows (!ack) (h.led hl)) ?_
  intro hs u _ _
  rw [Bool.not_not]
  exact done_follows ack (.refl u) (by simp)

theorem readBits_follows {od : Bool} (acc v : Byte) (n : Nat) {s : State} (h : BusReady od s) :
    (readBits acc n s).Follows ((bitsBelow v n).flatMap (readBitEvents od)) (gather acc v n) s := by
  induction n generalizing acc s with
  | zero => exact done_follows acc (.refl s) (by simp [bitsBelow])
  | succ n ih =>
    unfold readBits bitsBelow gather
    rw [List.flatMap_cons]
    have h0 : Led [] s (setBit n s) := onBus_led ⟨rfl, rfl, rfl, rfl, rfl, rfl, rfl⟩
    refine Wave.Follows.andThen (Wave.Follows.prep h0 (readBit_follows (v.getLsbD n) (h.led h0))) ?_
    intro gs t hl _
    exact ih _ (h.led hl)

/-- A byte received, with its acknowledge driven. -/
theorem readByte_follows {od : Bool} (v : Byte) (last : Bool) {s : State} (h : BusReady od s) :
    (readByte last s).Follows ((Sym.recv v last).events od) v s := by
  unfold readByte
  simp only [Sym.events, ← bitsBelow_eight]
  have hr := readBits_follows (od := od) 0#8 v 8 h
  rw [gather_all] at hr
  refine Wave.Follows.andThen hr ?_
  intro gs t hl _
  rw [← List.append_nil (writeBitEvents od last)]
  have h0 : Led [] t (setShift v t) := onBus_led ⟨rfl, rfl, rfl, rfl, rfl, rfl, rfl⟩
  refine Wave.Follows.andThen (Wave.Follows.prep h0 (writeBit_follows last ((h.led hl).led h0))) ?_
  intro hs u _ _
  exact done_follows v (.refl u) (by simp)

/-! ## Transactions -/

/-- The result word's parts of an ending. -/
def Ending.result : Ending → Result
  | .ok => .ok
  | .noAck ph j k => .noAck ph j k
  | .timeout ph j k => .timeout ph j k

/-- The buffer `c` is `b` with the peer's bytes where they were received. -/
def Took (got : List Part) (peer b c : Memory) : Prop :=
  c.wf = true ∧ ∀ i, c.read i = if received got i = true then peer.read i else b.read i

theorem Took.refl {peer b : Memory} (h : b.wf = true) : Took [] peer b b := ⟨h, fun _ => rfl⟩

theorem received_append (xs ys : List Part) (i : Nat) :
    received (xs ++ ys) i = (received xs i || received ys i) := List.any_append

theorem Took.trans {xs ys : List Part} {peer b c d : Memory} (h : Took xs peer b c)
    (h' : Took ys peer c d) : Took (xs ++ ys) peer b d := by
  refine ⟨h'.1, fun i => ?_⟩
  rw [h'.2 i, h.2 i, received_append]
  cases received xs i <;> cases received ys i <;> rfl

/-- The part `T` of a transaction, begun in `s` with the buffer `buf`, follows `ys`: on every course of
these parts it makes its events and ends as it does. -/
def Txn.Follows (T : Txn) (od : Bool) (ys : List Part) (peer buf : Memory) (s : State) : Prop :=
  ∀ es e got, Course s.par.stretchLimit od ys es e got → s.env.gives (samplesOf es) →
    ∃ b t, Led es s t ∧ Took got peer buf b ∧ (e = .ok → T = .go b t) ∧
      (e ≠ .ok → T = .stop e.result b t ∧ Idle t)

/-- A course of two lists of parts: it ends early in the first, or goes through it. -/
theorem Course.append {limit : Nat} {od : Bool} {xs ys : List Part} {es : List LineEvent} {e : Ending}
    {got : List Part} (h : Course limit od (xs ++ ys) es e got) :
    (e ≠ .ok ∧ Course limit od xs es e got) ∨
      ∃ as bs g k, es = as ++ bs ∧ got = g ++ k ∧ Course limit od xs as .ok g ∧
        Course limit od ys bs e k := by
  induction xs generalizing es got with
  | nil => exact .inr ⟨[], es, [], got, rfl, rfl, .done, h⟩
  | cons x xs ih =>
    cases h with
    | next _ hs h =>
      rcases ih h with ⟨hne, h'⟩ | ⟨as, bs, g, k, rfl, rfl, ha, hb⟩
      · exact .inl ⟨hne, .next x hs h'⟩
      · exact .inr ⟨_ ++ as, bs, x :: g, k, (List.append_assoc ..).symm, rfl, .next x hs ha, hb⟩
    | refused v _ _ hy hs ht => exact .inl ⟨by simp, .refused v x xs hy hs ht⟩
    | held _ _ hs => exact .inl ⟨by simp, .held x xs hs⟩
    | refusedHeld v _ _ hy hs ht => exact .inl ⟨by simp, .refusedHeld v x xs hy hs ht⟩

theorem go_follows {od : Bool} {peer buf : Memory} (hb : buf.wf = true) (s : State) :
    (Txn.go buf s).Follows od [] peer buf s := by
  intro es e got h hg
  cases h
  exact ⟨buf, s, .refl s, .refl hb, fun _ => rfl, fun h => absurd rfl h⟩

theorem Txn.Follows.andThen {T : Txn} {f : Memory → State → Txn} {od : Bool} {xs ys : List Part}
    {peer buf : Memory} {s : State} (hT : T.Follows od xs peer buf s)
    (hf : ∀ es got b t, Led es s t → Course s.par.stretchLimit od xs es .ok got → Took got peer buf b →
      T = .go b t → (f b t).Follows od ys peer b t) :
    (T.andThen f).Follows od (xs ++ ys) peer buf s := by
  intro es e got h hg
  rcases h.append with ⟨hne, h'⟩ | ⟨as, bs, g, k, rfl, rfl, ha, hb⟩
  · obtain ⟨b, t, hl, ht, -, hs⟩ := hT es e got h' hg
    refine ⟨b, t, hl, ht, fun h => absurd h hne, fun _ => ?_⟩
    obtain ⟨e1, hi⟩ := hs hne
    exact ⟨by rw [e1]; rfl, hi⟩
  · rw [samplesOf_append, Env.gives_append] at hg
    obtain ⟨b, t, hl, ht, hgo, -⟩ := hT as .ok g ha hg.1
    have e1 := hgo rfl
    obtain ⟨c, u, hm, hu, h1, h2⟩ := hf as g b t hl ha ht e1 bs e k (by rw [hl.par]; exact hb)
      (by rw [hl.ran.env]; exact hg.2)
    exact ⟨c, u, hl.trans hm, ht.trans hu, fun h => by rw [e1]; exact h1 h,
      fun h => by rw [e1]; exact h2 h⟩

theorem Txn.Follows.prep {T : Txn} {od : Bool} {ys : List Part} {peer buf : Memory} {s t : State}
    (h : Led [] s t) (hT : T.Follows od ys peer buf t) : T.Follows od ys peer buf s := by
  intro es e got hc hg
  obtain ⟨b, u, hl, hr⟩ := hT es e got (by rw [h.par]; exact hc) (by rw [h.ran.env]; exact hg)
  exact ⟨b, u, h.trans hl, hr⟩

theorem releaseBus_led {od : Bool} {s : State} (h : BusReady od s) :
    Led (releaseEvents od) s (releaseBus s) := by
  have h1 : Led [.drive .sda s.bus.highLevel] s (sdaSet true s) := drive_led .sda s.bus.highLevel s
  have h2 := (h1.trans (drive_led .scl (sdaSet true s).bus.highLevel (sdaSet true s))).trans
    (onBus_led (f := fun b => { b with busOwned := false }) ⟨rfl, rfl, rfl, rfl, rfl, rfl, rfl⟩)
  unfold releaseBus sclRelease
  rw [(h.led h1).highLevel] at h2 ⊢
  rw [h.highLevel] at h2
  exact h2

/-- A written byte: acknowledged, refused, or held. -/
theorem afterWrite_follows {od : Bool} (ph : Bool) (j k pos : Nat) (v : Byte) {ys : List Part}
    {peer buf : Memory} {s : State} {cont : State → Txn} (hb : buf.wf = true) (h : BusReady od s)
    (hc : ∀ es t, Led es s t → (cont t).Follows od ys peer buf t) :
    (afterWrite ph j k buf (writeByte v s) cont).Follows od
      (⟨.send v true, ph, j, k, pos⟩ :: ys) peer buf s := by
  intro es e got hco hg
  have refuse : ∀ {w : Byte} {es : List LineEvent}, (Part.mk (.send v true) ph j k pos).sym = .send w true →
      Stretched s.par.stretchLimit ((Sym.send w false).events od) true es →
      s.env.gives (samplesOf es) → ∃ t, writeByte v s = .done false t ∧ Led es s t := by
    intro w es hw hs hg
    cases hw
    obtain ⟨t, hl, ht⟩ := writeByte_follows v false h true es hs hg
    exact ⟨t, ht, hl⟩
  cases hco with
  | next _ hs hr =>
    rw [samplesOf_append, Env.gives_append] at hg
    obtain ⟨t, hl, ht⟩ := writeByte_follows v true h true _ hs hg.1
    obtain ⟨b, u, hm, hk, h1, h2⟩ := hc _ t hl _ _ _ (by rw [hl.par]; exact hr)
      (by rw [hl.ran.env]; exact hg.2)
    have e1 : afterWrite ph j k buf (writeByte v s) cont = cont t := by rw [ht]; rfl
    exact ⟨b, u, hl.trans hm, hk, fun h => e1.trans (h1 h), fun h => by rw [e1]; exact h2 h⟩
  | refused w _ _ hy hs hst =>
    rw [samplesOf_append, Env.gives_append] at hg
    obtain ⟨t, ht, hl⟩ := refuse hy hs hg.1
    obtain ⟨u, hm, hu⟩ := stop_follows (h.led hl) true _ (by rw [hl.par]; exact hst)
      (by rw [hl.ran.env]; exact hg.2)
    have hu : stop t = .done () u := hu
    refine ⟨buf, u, hl.trans hm, .refl hb, fun h => (nomatch h), fun _ => ⟨?_, stop_done hu⟩⟩
    rw [ht]
    show stopNoAck ph j k buf t = _
    unfold stopNoAck
    rw [hu]; rfl
  | held _ _ hs =>
    rw [samplesOf_append, Env.gives_append] at hg
    obtain ⟨t, hl, ht⟩ := writeByte_follows v true h false _ hs hg.1
    have ht : writeByte v s = .timeout t := ht
    refine ⟨buf, releaseBus t, hl.trans (releaseBus_led (h.led hl)), .refl hb, fun h => (nomatch h),
      fun _ => ⟨?_, releaseBus_pins t⟩⟩
    rw [ht]; rfl
  | refusedHeld w _ _ hy hs hst =>
    rw [List.append_assoc] at hg
    rw [samplesOf_append, Env.gives_append, samplesOf_append, Env.gives_append] at hg
    obtain ⟨t, ht, hl⟩ := refuse hy hs hg.1
    obtain ⟨u, hm, hu⟩ := stop_follows (h.led hl) false _ (by rw [hl.par]; exact hst)
      (by rw [hl.ran.env]; exact hg.2.1)
    have hu : stop t = .timeout u := hu
    refine ⟨buf, releaseBus u, (hl.trans hm).trans (releaseBus_led ((h.led hl).led hm)), .refl hb,
      fun h => (nomatch h), fun _ => ⟨?_, releaseBus_pins u⟩⟩
    rw [ht]
    show stopNoAck ph j k buf t = _
    unfold stopNoAck
    rw [hu]; rfl

theorem writePhase_follows {od : Bool} {peer buf : Memory} (off j n k : Nat) {s : State}
    (hb : buf.wf = true) (h : BusReady od s) :
    (writePhase buf off j n k s).Follows od (sendParts buf off j n k) peer buf s := by
  induction n generalizing k s with
  | zero => exact go_follows hb s
  | succ n ih =>
    have h0 : Led [] s (setByte k s) := onBus_led ⟨rfl, rfl, rfl, rfl, rfl, rfl, rfl⟩
    refine Txn.Follows.prep h0 (afterWrite_follows true j k (off + k) _ hb (h.led h0) ?_)
    intro es t hl
    exact ih (k + 1) ((h.led h0).led hl)

theorem readPhase_follows {od : Bool} (peer : Memory) {buf : Memory} (off j n k : Nat) {s : State}
    (hb : buf.wf = true) (h : BusReady od s) :
    (readPhase off j n k buf s).Follows od (recvParts peer off j n k) peer buf s := by
  induction n generalizing k buf s with
  | zero => exact go_follows hb s
  | succ n ih =>
    have h0 : Led [] s (setByte k s) := onBus_led ⟨rfl, rfl, rfl, rfl, rfl, rfl, rfl⟩
    refine Txn.Follows.prep h0 ?_
    have h := h.led h0
    intro es e got hco hg
    unfold recvParts at hco
    cases hco with
    | next _ hs hr =>
      rw [samplesOf_append, Env.gives_append] at hg
      obtain ⟨t, hl, ht⟩ := readByte_follows (peer.read (off + k)) (n == 0) h true _ hs hg.1
      have ht : readByte (n == 0) (setByte k s) = .done (peer.read (off + k)) t := ht
      have hw := Memory.write_wf hb (off + k) (peer.read (off + k))
      obtain ⟨b, u, hm, hk, h1, h2⟩ := ih (k + 1) hw (h.led hl) _ _ _ (by rw [hl.par]; exact hr)
        (by rw [hl.ran.env]; exact hg.2)
      have e1 : readPhase off j (n + 1) k buf s =
          readPhase off j n (k + 1) (buf.write (off + k) (peer.read (off + k))) t := by
        conv_lhs => unfold readPhase
        rw [ht]
      rw [e1]
      refine ⟨b, u, hl.trans hm, ?_, h1, h2⟩
      refine Took.trans (xs := [⟨.recv (peer.read (off + k)) (n == 0), true, j, k, off + k⟩])
        ⟨hw, fun i => ?_⟩ hk
      rw [Memory.read_write hb]
      by_cases hi : off + k = i
      · subst hi; simp [received]
      · simp [received, hi]
    | refused w _ _ hy _ _ => cases hy
    | held _ _ hs =>
      rw [samplesOf_append, Env.gives_append] at hg
      obtain ⟨t, hl, ht⟩ := readByte_follows (peer.read (off + k)) (n == 0) h false _ hs hg.1
      have ht : readByte (n == 0) (setByte k s) = .timeout t := ht
      refine ⟨buf, releaseBus t, hl.trans (releaseBus_led (h.led hl)), .refl hb, fun h => (nomatch h),
        fun _ => ⟨?_, releaseBus_pins t⟩⟩
      unfold readPhase
      rw [ht]; rfl
    | refusedHeld w _ _ hy _ _ => cases hy

theorem messageAddress_follows {od : Bool} {peer buf : Memory} (a : Addr7) (j : Nat) (d : Half)
    {s : State} (hb : buf.wf = true) (h : BusReady od s) :
    (messageAddress a j d buf s).Follows od (addrParts a j d) peer buf s := by
  unfold messageAddress addrParts
  split
  · intro es e got hco hg
    cases hco with
    | next _ hs hr =>
      rw [samplesOf_append, Env.gives_append] at hg
      obtain ⟨t, hl, ht⟩ := start_follows h true _ hs hg.1
      have ht : start s = .done () t := ht
      obtain ⟨b, u, hm, hk, h1, h2⟩ := afterWrite_follows (ys := []) (peer := peer)
        (cont := fun s => .go buf s) false j 0 0 (addrByte a (descRD d)) hb (h.led hl)
        (fun _ t _ => go_follows hb t) _ _ _ (by rw [hl.par]; exact hr) (by rw [hl.ran.env]; exact hg.2)
      have e1 : addressPhase a (descRD d) j buf s =
          afterWrite false j 0 buf (writeByte (addrByte a (descRD d)) t) fun s => .go buf s := by
        unfold addressPhase; rw [ht]
      rw [e1]
      exact ⟨b, u, hl.trans hm, hk, h1, h2⟩
    | refused w _ _ hy _ _ => cases hy
    | held _ _ hs =>
      rw [samplesOf_append, Env.gives_append] at hg
      obtain ⟨t, hl, ht⟩ := start_follows h false _ hs hg.1
      have ht : start s = .timeout t := ht
      refine ⟨buf, releaseBus t, hl.trans (releaseBus_led (h.led hl)), .refl hb, fun h => (nomatch h),
        fun _ => ⟨?_, releaseBus_pins t⟩⟩
      unfold addressPhase; rw [ht]; rfl
    | refusedHeld w _ _ hy _ _ => cases hy
  · exact go_follows hb s

theorem messageBody_follows {od : Bool} (peer : Memory) {buf : Memory} (off j : Nat) (d : Half)
    {s : State} (hb : buf.wf = true) (h : BusReady od s) :
    (messageBody off j d buf s).Follows od
      (if descRD d then recvParts peer off j (descLen d) 0 else sendParts buf off j (descLen d) 0)
      peer buf s := by
  unfold messageBody
  split
  · exact readPhase_follows peer off j _ 0 hb h
  · exact writePhase_follows off j _ 0 hb h

theorem messageStop_follows {od : Bool} {peer buf : Memory} (j : Nat) (d : Half) {s : State}
    (hb : buf.wf = true) (h : BusReady od s) :
    (messageStop j d buf s).Follows od (if descSP d then [⟨.stop, false, j, 0, 0⟩] else []) peer buf
      s := by
  unfold messageStop
  split
  · intro es e got hco hg
    cases hco with
    | next _ hs hr =>
      cases hr
      rw [List.append_nil] at hg ⊢
      obtain ⟨t, hl, ht⟩ := stop_follows h true _ hs hg
      have ht : stop s = .done () t := ht
      refine ⟨buf, t, hl, ⟨hb, fun i => by simp [received]⟩, fun _ => by rw [ht],
        fun h => absurd rfl h⟩
    | refused w _ _ hy _ _ => cases hy
    | held _ _ hs =>
      rw [samplesOf_append, Env.gives_append] at hg
      obtain ⟨t, hl, ht⟩ := stop_follows h false _ hs hg.1
      have ht : stop s = .timeout t := ht
      refine ⟨buf, releaseBus t, hl.trans (releaseBus_led (h.led hl)), .refl hb, fun h => (nomatch h),
        fun _ => ⟨?_, releaseBus_pins t⟩⟩
      rw [ht]; rfl
    | refusedHeld w _ _ hy _ _ => cases hy
  · exact go_follows hb s

theorem sendParts_congr {b c : Memory} (off j n k : Nat) (h : ∀ i, off + k ≤ i → b.read i = c.read i) :
    sendParts b off j n k = sendParts c off j n k := by
  induction n generalizing k with
  | zero => rfl
  | succ n ih =>
    simp only [sendParts]
    rw [h _ (Nat.le_refl _), ih (k + 1) fun i hi => h i (by omega)]

/-- One message, whatever its course. -/
theorem message_follows {od : Bool} (peer : Memory) {buf : Memory} (a : Addr7) (off j : Nat) (d : Half)
    {s : State} (hb : buf.wf = true) (h : BusReady od s) :
    (message a off j d buf s).Follows od (msgParts a j d off buf peer) peer buf s := by
  have h0 : Led [] s (setMsg j s) := onBus_led ⟨rfl, rfl, rfl, rfl, rfl, rfl, rfl⟩
  unfold message msgParts
  refine Txn.Follows.prep h0 ?_
  have h := h.led h0
  have same : ∀ {es : List LineEvent} {got : List Part} {b : Memory},
      Course (setMsg j s).par.stretchLimit od (addrParts a j d) es .ok got → Took got peer buf b →
        ∀ i, b.read i = buf.read i := by
    intro es got b hc ht i
    rw [ht.2 i, if_neg]
    unfold addrParts at hc
    split at hc
    · cases hc with
      | next _ _ hr => cases hr with
        | next _ _ hr => cases hr; simp [received]
    · cases hc; simp [received]
  refine Txn.Follows.andThen (Txn.Follows.andThen (messageAddress_follows a j d hb h) ?_) ?_
  · intro es got b t hl hc ht hgo
    have e : (if descRD d then recvParts peer off j (descLen d) 0 else sendParts buf off j (descLen d) 0)
        = if descRD d then recvParts peer off j (descLen d) 0
          else sendParts b off j (descLen d) 0 := by
      split
      · rfl
      · exact sendParts_congr _ _ _ _ fun i _ => (same hc ht i).symm
    rw [e]
    exact messageBody_follows peer off j d ht.1 (h.led hl)
  · intro es got b t hl hc ht hgo
    exact messageStop_follows j d ht.1 (h.led hl)

/-- The parts of a list of messages read the buffer only from its own slice on. -/
theorem partsFrom_congr (a : Addr7) (ds : List Half) (j off : Nat) {b c : Memory} (peer : Memory)
    (h : ∀ i, off ≤ i → b.read i = c.read i) :
    partsFrom a ds j off b peer = partsFrom a ds j off c peer := by
  induction ds generalizing j off with
  | nil => rfl
  | cons d rest ih =>
    simp only [partsFrom, msgParts]
    rw [sendParts_congr off j _ 0 (fun i hi => h i (by omega)),
      ih (j + 1) (off + descLen d) fun i hi => h i (by omega)]

/-- A part of a message from index `j` on stands in a message below `hi` and at a byte below 256; what it
receives lies in its message's slice. -/
structure Part.Placed (lo hi off : Nat) (y : Part) : Prop where
  msg : lo ≤ y.msg ∧ y.msg < hi
  byte : y.byte < 256
  pos : ∀ v last, y.sym = .recv v last → y.pos < off

theorem sendParts_placed (buf : Memory) (off j n k : Nat) (h : k + n ≤ 256) :
    ∀ y ∈ sendParts buf off j n k, y.Placed j (j + 1) (off + k + n) := by
  induction n generalizing k with
  | zero => simp [sendParts]
  | succ n ih =>
    intro y hy
    rcases List.mem_cons.1 hy with rfl | hy
    · exact ⟨⟨Nat.le_refl _, Nat.lt_succ_self _⟩, by simp; omega, fun _ _ h => nomatch h⟩
    · have := ih (k + 1) (by omega) y hy
      exact ⟨this.msg, this.byte, fun v l h => by have := this.pos v l h; omega⟩

theorem recvParts_placed (peer : Memory) (off j n k : Nat) (h : k + n ≤ 256) :
    ∀ y ∈ recvParts peer off j n k, y.Placed j (j + 1) (off + k + n) := by
  induction n generalizing k with
  | zero => simp [recvParts]
  | succ n ih =>
    intro y hy
    rcases List.mem_cons.1 hy with rfl | hy
    · exact ⟨⟨Nat.le_refl _, Nat.lt_succ_self _⟩, by simp; omega, fun _ _ _ => (by omega : off + k < off + k + (n + 1))⟩
    · have := ih (k + 1) (by omega) y hy
      exact ⟨this.msg, this.byte, fun v l h => by have := this.pos v l h; omega⟩

theorem msgParts_placed (a : Addr7) (j : Nat) (d : Half) (off : Nat) (buf peer : Memory) :
    ∀ y ∈ msgParts a j d off buf peer, y.Placed j (j + 1) (off + descLen d) := by
  have hd : descLen d < 256 := (d.extractLsb' 0 8).isLt
  have line : ∀ sy : Sym, (∀ v l, sy ≠ .recv v l) →
      (Part.mk sy false j 0 0).Placed j (j + 1) (off + descLen d) := fun sy h =>
    ⟨⟨Nat.le_refl _, Nat.lt_succ_self _⟩, (by decide : 0 < 256), fun v l e => absurd e (h v l)⟩
  intro y hy
  simp only [msgParts, List.mem_append] at hy
  rcases hy with (hy | hy) | hy
  · unfold addrParts at hy
    split at hy
    · simp only [List.mem_cons, List.not_mem_nil, or_false] at hy
      rcases hy with rfl | rfl <;> exact line _ fun _ _ => nofun
    · cases hy
  · split at hy
    · exact recvParts_placed peer off j _ 0 (by omega) y hy
    · exact sendParts_placed buf off j _ 0 (by omega) y hy
  · split at hy
    · simp only [List.mem_cons, List.not_mem_nil, or_false] at hy
      subst hy; exact line _ fun _ _ => nofun
    · cases hy

/-- `MSG` and `BYTE` of every part of a list of messages. -/
theorem partsFrom_placed (a : Addr7) (ds : List Half) (j off : Nat) (buf peer : Memory) :
    ∀ y ∈ partsFrom a ds j off buf peer, y.msg < j + ds.length ∧ y.byte < 256 := by
  induction ds generalizing j off with
  | nil => simp [partsFrom]
  | cons d rest ih =>
    intro y hy
    simp only [partsFrom, List.mem_append] at hy
    simp only [List.length_cons]
    rcases hy with hy | hy
    · have := msgParts_placed a j d off buf peer y hy
      exact ⟨by have := this.msg; omega, this.byte⟩
    · have := ih (j + 1) _ y hy
      exact ⟨by omega, this.2⟩

/-- What came through on a course stands among its parts. -/
theorem Course.got_mem {limit : Nat} {od : Bool} {ys got : List Part} {es : List LineEvent} {e : Ending}
    (h : Course limit od ys es e got) : ∀ y ∈ got, y ∈ ys := by
  induction h with
  | done => exact fun _ h => h
  | next y _ _ ih =>
    intro z hz
    rcases List.mem_cons.1 hz with rfl | hz
    · exact List.mem_cons_self ..
    · exact List.mem_cons_of_mem _ (ih z hz)
  | refused | held | refusedHeld => exact fun _ h => nomatch h

/-- A list of messages, whatever its course. -/
theorem messages_follows {od : Bool} (peer : Memory) {buf : Memory} (a : Addr7) (ds : List Half)
    (off j : Nat) {s : State} (hb : buf.wf = true) (h : BusReady od s) :
    (messages a ds off j buf s).Follows od (partsFrom a ds j off buf peer) peer buf s := by
  induction ds generalizing off j buf s with
  | nil => exact go_follows hb s
  | cons d rest ih =>
    unfold messages partsFrom
    refine Txn.Follows.andThen (message_follows peer a off j d hb h) ?_
    intro es got b t hl hc ht hgo
    rw [partsFrom_congr a rest (j + 1) (off + descLen d) (b := buf) (c := b) peer fun i hi => ?_]
    · exact ih (off + descLen d) (j + 1) ht.1 (h.led hl)
    · rw [ht.2 i, if_neg]
      intro hr
      obtain ⟨y, hy, hp⟩ := List.any_eq_true.1 hr
      have := msgParts_placed a j d off buf peer y (hc.got_mem y hy)
      cases hs : y.sym with
      | recv v l =>
        rw [hs] at hp
        have := this.pos v l hs
        have : y.pos = i := by simpa using hp
        omega
      | _ => rw [hs] at hp; cases hp

/-- `MSG` is below `n`, and `BYTE` fits its field. -/
def Ending.Fits (n : Nat) : Ending → Prop
  | .ok => True
  | .noAck _ j k => j < n ∧ k < 256
  | .timeout _ j k => j < n ∧ k < 256

/-- An ending names one of its parts. -/
theorem Course.ending_fits {limit : Nat} {od : Bool} {ys got : List Part} {es : List LineEvent}
    {e : Ending} {n : Nat} (h : Course limit od ys es e got)
    (hn : ∀ y ∈ ys, y.msg < n ∧ y.byte < 256) : e.Fits n := by
  induction h with
  | done => trivial
  | next y _ _ ih => exact ih fun z hz => hn z (List.mem_cons_of_mem _ hz)
  | refused v y ys => exact hn y (List.mem_cons_self ..)
  | held y ys => exact hn y (List.mem_cons_self ..)
  | refusedHeld v y ys => exact ⟨(hn y (List.mem_cons_self ..)).1, by decide⟩

/-- A valid transaction on a ready bus, whatever its course: its result, its buffer, its line events. -/
theorem transferOn_follows {od : Bool} (peer : Memory) {buf : Memory} (a : Addr7) {ds : List Half}
    {s : State} (hb : buf.wf = true) (h : BusReady od s) (hv : transferValid s.par ds = true)
    {es : List LineEvent} {e : Ending} {got : List Part}
    (hc : Course s.par.stretchLimit od (transferParts a ds buf peer) es e got)
    (hg : s.env.gives (samplesOf es)) :
    ∃ b t, transferOn a ds buf s = ⟨e.result, b, t.unmask⟩ ∧ Led es s t ∧ Took got peer buf b ∧
      (e ≠ .ok → Idle t) := by
  have h0 : Led [] s s.maskIrq := ⟨⟨rfl, rfl, rfl, rfl, rfl, rfl⟩, rfl⟩
  obtain ⟨b, t, hl, ht, h1, h2⟩ := messages_follows peer a ds 0 0 hb (h.led h0) es e got hc hg
  refine ⟨b, t, ?_, h0.trans hl, ht, fun he => (h2 he).2⟩
  rw [transferOn_runs h.1 a hv]
  by_cases he : e = .ok
  · rw [h1 he, he]; rfl
  · rw [(h2 he).1]; rfl

/-! ## The parts are those of the frame -/

theorem sendParts_syms (buf : Memory) (off j n k : Nat) :
    (sendParts buf off j n k).map (·.sym) = sendBytes buf (off + k) n := by
  induction n generalizing k with
  | zero => rfl
  | succ n ih => simp only [sendParts, sendBytes, List.map_cons, ih, Nat.add_assoc]

theorem recvParts_syms (peer : Memory) (off j n k : Nat) :
    (recvParts peer off j n k).map (·.sym) = recvBytes peer (off + k) n := by
  induction n generalizing k with
  | zero => rfl
  | succ n ih => simp only [recvParts, recvBytes, List.map_cons, ih, Nat.add_assoc]

theorem partsFrom_syms (a : Addr7) (ds : List Half) (j off : Nat) (buf peer : Memory) :
    (partsFrom a ds j off buf peer).map (·.sym) = framesFrom a (j == 0) ds off buf peer := by
  induction ds generalizing j off with
  | nil => rfl
  | cons d rest ih =>
    simp only [partsFrom, framesFrom, List.map_append, ih, msgParts, msgFrame, addrParts]
    rw [show (j + 1 == 0) = false from rfl]
    congr 3
    · split <;> rfl
    · split
      · exact recvParts_syms peer off j _ 0
      · exact sendParts_syms buf off j _ 0
    · split <;> rfl

/-- Without their places, the parts of a TRANSFER are its frame (spec/30_encoding.md R60). -/
theorem transferParts_syms (a : Addr7) (ds : List Half) (buf peer : Memory) :
    (transferParts a ds buf peer).map (·.sym) = transferFrame a ds buf peer :=
  partsFrom_syms a ds 0 0 buf peer

/-! ## Courses with a bus that does not stretch the clock before what happens -/

/-- No sample of a frame's events reads the clock low. -/
theorem Sym.events_high (od : Bool) (y : Sym) : ∀ e ∈ y.events od, e ≠ .sample .scl false := by
  cases od <;> cases y <;>
    simp [Sym.events, riseEvents, writeBitEvents, readBitEvents, bitsOf]

/-- Events whose clock is not stretched, before stretched ones. -/
theorem Stretched.plain {limit : Nat} {es fs gs : List LineEvent} {c : Bool}
    (h : ∀ e ∈ es, e ≠ .sample .scl false) (hf : Stretched limit fs c gs) :
    Stretched limit (es ++ fs) c (es ++ gs) := by
  induction es with
  | nil => exact hf
  | cons e es ih =>
    have ih := ih fun e he => h e (List.mem_cons_of_mem _ he)
    by_cases hs : ∃ b, e = .sample .scl b
    · obtain ⟨b, rfl⟩ := hs
      cases b
      · exact absurd rfl (h _ (List.mem_cons_self ..))
      · exact .rise 0 (Nat.zero_le _) ih
    · exact .other e (fun b hb => hs ⟨b, hb⟩) ih

/-- A part may come through with its clock not stretched at all. -/
theorem Sym.unstretched (limit : Nat) (od : Bool) (y : Sym) :
    Stretched limit (y.events od) true (y.events od) := by
  simpa using Stretched.plain (y.events_high od) (.nil (limit := limit))

/-- A clock held at one of the releases of a part. -/
theorem Stretched.hold (limit : Nat) {es : List LineEvent} (fs : List LineEvent)
    (h : ∀ e ∈ es, e ≠ .sample .scl false) :
    Stretched limit (es ++ .sample .scl true :: fs) false (es ++ stretchEvents false limit) :=
  .plain h (.held fs)

/-- A clock stretched by `k` samples at one of the releases of a part. -/
theorem Stretched.delay {limit : Nat} {es fs : List LineEvent} (k : Nat) (hk : k ≤ limit)
    (h : ∀ e ∈ es, e ≠ .sample .scl false) (hf : ∀ e ∈ fs, e ≠ .sample .scl false) :
    Stretched limit (es ++ .sample .scl true :: fs) true (es ++ (stretchEvents true k ++ fs)) :=
  .plain h (.rise k hk (by simpa using Stretched.plain hf (.nil (limit := limit))))

/-- A course that goes through some parts unstretched and then on. -/
theorem Course.through {limit : Nat} {od : Bool} (xs : List Part) {ys got : List Part}
    {es : List LineEvent} {e : Ending} (h : Course limit od ys es e got) :
    Course limit od (xs ++ ys) (xs.flatMap (fun x => x.sym.events od) ++ es) e (xs ++ got) := by
  induction xs with
  | nil => exact h
  | cons x xs ih =>
    rw [List.flatMap_cons, List.append_assoc]
    exact .next x (x.sym.unstretched limit od) ih

end Sys2Proof.Machine
end

