-- ==== Sys2Proof/Laws/Decode.lean ====
section
/-! SUPPORT. The bits and fields of a packed word, and that a word is the packing of its fields. -/

namespace Sys2Proof

variable (opc sel imm : Byte) (a : Addr7)

/-- The bits of a packed word (spec/30_encoding.md R51). -/
theorem packWord_getLsbD (i : Nat) : (packWord opc a sel imm).getLsbD i =
    if i < 8 then imm.getLsbD i
    else if i < 16 then sel.getLsbD (i - 8)
    else if i < 17 then false
    else if i < 24 then a.getLsbD (i - 17)
    else opc.getLsbD (i - 24) := by
  change (opc ++ a ++ 0#1 ++ sel ++ imm : BitVec (8 + 7 + 1 + 8 + 8)).getLsbD i = _
  simp only [BitVec.getLsbD_append]
  split_ifs <;> first | rfl | (exfalso; omega) | simp

@[simp] theorem opcOf_packWord : opcOf (packWord opc a sel imm) = opc := by
  apply BitVec.eq_of_getLsbD_eq; intro i hi
  simp only [opcOf, BitVec.getLsbD_extractLsb', packWord_getLsbD, hi, decide_true, Bool.true_and]
  split_ifs <;> first | rfl | (exfalso; omega) | (congr 1; omega)

@[simp] theorem addrOf_packWord : addrOf (packWord opc a sel imm) = a := by
  apply BitVec.eq_of_getLsbD_eq; intro i hi
  simp only [addrOf, BitVec.getLsbD_extractLsb', packWord_getLsbD, hi, decide_true, Bool.true_and]
  split_ifs <;> first | rfl | (exfalso; omega) | (congr 1; omega)

@[simp] theorem zOf_packWord : zOf (packWord opc a sel imm) = 0#1 := by
  apply BitVec.eq_of_getLsbD_eq; intro i hi
  simp only [zOf, BitVec.getLsbD_extractLsb', packWord_getLsbD, hi, decide_true, Bool.true_and]
  split_ifs <;> first | (exfalso; omega) | simp

@[simp] theorem selOf_packWord : selOf (packWord opc a sel imm) = sel := by
  apply BitVec.eq_of_getLsbD_eq; intro i hi
  simp only [selOf, BitVec.getLsbD_extractLsb', packWord_getLsbD, hi, decide_true, Bool.true_and]
  split_ifs <;> first | rfl | (exfalso; omega) | (congr 1; omega)

@[simp] theorem immOf_packWord : immOf (packWord opc a sel imm) = imm := by
  apply BitVec.eq_of_getLsbD_eq; intro i hi
  simp only [immOf, BitVec.getLsbD_extractLsb', packWord_getLsbD, hi, decide_true, Bool.true_and]
  split_ifs <;> first | rfl | (exfalso; omega) | (congr 1; omega)

/-- A word whose reserved bit is 0 is the packing of its fields. -/
theorem packWord_fields (w : Word) (h : zOf w = 0#1) :
    packWord (opcOf w) (addrOf w) (selOf w) (immOf w) = w := by
  apply BitVec.eq_of_getLsbD_eq; intro i hi
  have h16 : w.getLsbD 16 = false := by
    have := congrArg (fun b => b.getLsbD 0) h
    simpa [zOf, BitVec.getLsbD_extractLsb'] using this
  rw [packWord_getLsbD]
  simp only [opcOf, addrOf, selOf, immOf, BitVec.getLsbD_extractLsb']
  split_ifs with h1 h2 h3 h4
  · simp [h1]
  · simp [show i - 8 < 8 by omega, show 8 + (i - 8) = i by omega]
  · rw [show i = 16 by omega, h16]
  · simp [show i - 17 < 7 by omega, show 17 + (i - 17) = i by omega]
  · simp [show i - 24 < 8 by omega, show 24 + (i - 24) = i by omega]

/-- An event word's 24 low bits are 0 exactly when its fields below OPC and its reserved bit are. -/
theorem lowOf_eq_zero (w : Word) :
    lowOf w = 0#24 ↔ zOf w = 0#1 ∧ addrOf w = 0#7 ∧ selOf w = 0#8 ∧ immOf w = 0#8 := by
  constructor
  · intro h
    have hb : ∀ i < 24, w.getLsbD i = false := fun i hi => by
      have := congrArg (fun b => b.getLsbD i) h
      simpa [lowOf, BitVec.getLsbD_extractLsb', hi] using this
    refine ⟨?_, ?_, ?_, ?_⟩ <;> apply BitVec.eq_of_getLsbD_eq <;> intro i hi <;>
      simp only [zOf, addrOf, selOf, immOf, BitVec.getLsbD_extractLsb', BitVec.getLsbD_zero] <;>
      rw [hb _ (by omega)] <;> simp
  · rintro ⟨hz, ha, hs, hm⟩
    rw [← packWord_fields w hz, ha, hs, hm]
    apply BitVec.eq_of_getLsbD_eq; intro i hi
    simp only [lowOf, BitVec.getLsbD_extractLsb', packWord_getLsbD]
    split_ifs <;> first | (exfalso; omega) | simp

end Sys2Proof
end

