-- ==== Sys2Proof/Laws/Registers.lean ====
section
/-! SUPPORT. Descriptor lists and their validity in the words of spec/40_softbus.md R77, and the exact
run of the register transactions of spec/41_register_interface.md R85 and R86 on a peer that
acknowledges. -/

namespace Sys2Proof.Machine

/-! ## Validity (R77) -/

/-- A list is valid iff every descriptor is and every two neighbours are. -/
theorem descsValid_iff (maxLen : Nat) : (ds : List Half) → (descsValid maxLen ds = true ↔
    (∀ j < ds.length, descValid maxLen ds[j]! = true) ∧
      ∀ j, j + 1 < ds.length → followValid ds[j]! ds[j + 1]! = true)
  | [] => by simp [descsValid]
  | [d] => by simp [descsValid]
  | d :: n :: rest => by
    have ih := descsValid_iff maxLen (n :: rest)
    unfold descsValid
    rw [Bool.and_eq_true, Bool.and_eq_true, ih]
    constructor
    · rintro ⟨⟨a, b⟩, c, e⟩
      refine ⟨fun j hj => ?_, fun j hj => ?_⟩
      · cases j with
        | zero => exact a
        | succ j => exact c j (by simpa using hj)
      · cases j with
        | zero => exact b
        | succ j => exact e j (by simpa using hj)
    · rintro ⟨a, b⟩
      exact ⟨⟨a 0 (by simp), b 0 (by simp)⟩, fun j hj => a (j + 1) (by simpa using hj),
        fun j hj => b (j + 1) (by simpa using hj)⟩

/-- The check of a TRANSFER is the four clauses of R77. -/
theorem transferValid_iff (p : Params) (c : Cells 16) (n : Nat) :
    transferValid p (descList c n) = true ↔ ValidTransfer p c n := by
  have hl : (descList c n).length = n := by simp [descList]
  have hg : ∀ j, j < n → (descList c n)[j]! = c.read j := by
    intro j hj; simp [descList, hj]
  unfold transferValid ValidTransfer
  rw [Bool.and_eq_true, Bool.and_eq_true, descsValid_iff, hl]
  simp only [decide_eq_true_eq]
  constructor
  · rintro ⟨h1, h2, h3⟩
    refine ⟨h1, fun j hj => ?_, fun j hj => ?_, fun j h1j hj hr => ?_⟩
    · have := h2 j hj; rw [hg j hj] at this
      simp only [descValid, Bool.and_eq_true, beq_iff_eq, Bool.or_eq_true, Bool.not_eq_true', descZ,
        descLen, descRD] at this
      refine ⟨this.1.1, of_decide_eq_true this.1.2, fun hrd => ?_⟩
      rcases this.2 with h | h
      · rw [hrd] at h; cases h
      · exact of_decide_eq_true h
    · have := h3 j hj; rw [hg j (by omega), hg _ hj] at this
      simp only [followValid, Bool.and_eq_true, Bool.not_eq_true', descSP] at this
      exact this.1
    · obtain ⟨j, rfl⟩ : ∃ k, j = k + 1 := ⟨j - 1, by omega⟩
      have := h3 j hj; rw [hg j (by omega), hg _ hj] at this
      simp only [followValid, Bool.and_eq_true, Bool.or_eq_true, Bool.not_eq_true', descRS,
        descRD] at this
      rcases this.2 with h | h
      · rw [hr] at h; cases h
      · exact h
  · rintro ⟨h1, h2, h3, h4⟩
    refine ⟨h1, fun j hj => ?_, fun j hj => ?_⟩
    · have := h2 j hj; rw [hg j hj]
      simp only [descValid, Bool.and_eq_true, beq_iff_eq, Bool.or_eq_true, Bool.not_eq_true', descZ,
        descLen, descRD]
      refine ⟨⟨this.1, decide_eq_true this.2.1⟩, ?_⟩
      cases hrd : (c.read j).getLsbD 13
      · exact .inl rfl
      · exact .inr (decide_eq_true (this.2.2 hrd))
    · rw [hg j (by omega), hg _ hj]
      simp only [followValid, Bool.and_eq_true, Bool.or_eq_true, Bool.not_eq_true', descRS, descRD,
        descSP]
      refine ⟨h3 j hj, ?_⟩
      cases hr : (c.read (j+1)).getLsbD 15
      · exact .inr (h4 (j+1) (by omega) hj hr)
      · exact .inl rfl

theorem descList_length (c : Cells 16) (n : Nat) : (descList c n).length = n := by simp [descList]

theorem descList_ne_nil {c : Cells 16} {n : Nat} (h : 1 ≤ n) : descList c n ≠ [] := by
  intro he
  have := descList_length c n
  rw [he] at this
  simp at this
  omega

/-- The first descriptor of a list. -/
theorem descList_cons {c : Cells 16} {n : Nat} (h : 1 ≤ n) :
    ∃ rest, descList c n = c.read 0 :: rest := by
  obtain ⟨m, rfl⟩ : ∃ m, n = m + 1 := ⟨n - 1, by omega⟩
  exact ⟨_, by simp [descList, List.range_succ_eq_map]; rfl⟩

/-- The last descriptor of a list. -/
theorem descList_last {c : Cells 16} {n : Nat} (hne : descList c n ≠ []) :
    (descList c n).getLast hne = c.read (n - 1) := by
  rw [List.getLast_eq_getElem]
  simp [descList]

/-- A transaction that ends with an error ends there. -/
theorem transferOn_stops {s : State} {a : Addr7} {ds : List Half} {buf b : Memory} {r : Result}
    {t : State} (hr : s.bus.ready = true) (hv : transferValid s.par ds = true)
    (hm : messages a ds 0 0 buf s.maskIrq = .stop r b t) :
    transferOn a ds buf s = ⟨r, b, t.unmask⟩ := by
  unfold transferOn
  rw [if_pos hr, if_pos hv, hm]
  rfl

/-- A transaction that runs to its end is OK. -/
theorem transferOn_ok {s : State} {a : Addr7} {ds : List Half} {buf b : Memory} {t : State}
    (hr : s.bus.ready = true) (hv : transferValid s.par ds = true)
    (hm : messages a ds 0 0 buf s.maskIrq = .go b t) :
    transferOn a ds buf s = ⟨.ok, b, t.unmask⟩ := by
  unfold transferOn
  rw [if_pos hr, if_pos hv, hm]
  rfl

/-- The mask is clear after a transaction that ran, and after one that did not if it was before. -/
theorem transferOn_mask (a : Addr7) (ds : List Half) (buf : Memory) (s : State)
    (h : s.bus.irqMask = false) : (transferOn a ds buf s).st.bus.irqMask = false := by
  unfold transferOn
  split
  · split
    · rw [Txn.close_st]; rfl
    · exact h
  · exact h

/-- Running under the mask is running. -/
theorem ran_masked {as : List Bool} {es : List LineEvent} {s t : State} (h : Ran as es s.maskIrq t) :
    Ran as es s t.unmask :=
  ⟨h.env, h.trace, h.setup.mode, h.setup.ready, h.setup.rate, h.setup.detecting⟩

/-- An idle bus rests at the idle level of the mode it was in (spec/40_softbus.md R65). -/
theorem Idle.levels {s t : State} (h : Idle t) (hs : SameSetup s t) (hd : s.bus.detecting = false)
    (hm : s.bus.mode ≠ .unknown) :
    t.bus.sclDrv = s.bus.mode.idle ∧ t.bus.sdaDrv = s.bus.mode.idle := by
  have := highLevel_eq_idle (b := t.bus) (by rw [hs.detecting]; exact hd) (by rw [hs.mode]; exact hm)
  rw [hs.mode] at this
  exact ⟨h.2.1.trans this, h.2.2.trans this⟩

theorem BusReady.mode_ne {od : Bool} {s : State} (h : BusReady od s) : s.bus.mode ≠ .unknown := by
  rw [h.2.2]; cases od <;> decide

/-! ## Descriptors made from fields -/

@[simp] theorem descRS_mkDesc (rs sp rd : Bool) (len : Byte) :
    descRS (mkDesc rs sp rd len) = rs := by
  simp only [descRS, mkDesc, BitVec.getLsbD_append]; simp

@[simp] theorem descSP_mkDesc (rs sp rd : Bool) (len : Byte) :
    descSP (mkDesc rs sp rd len) = sp := by
  simp only [descSP, mkDesc, BitVec.getLsbD_append]; simp

@[simp] theorem descRD_mkDesc (rs sp rd : Bool) (len : Byte) :
    descRD (mkDesc rs sp rd len) = rd := by
  simp only [descRD, mkDesc, BitVec.getLsbD_append]; simp

@[simp] theorem descZ_mkDesc (rs sp rd : Bool) (len : Byte) :
    descZ (mkDesc rs sp rd len) = 0#5 := by
  apply BitVec.eq_of_getLsbD_eq; intro i hi
  simp only [descZ, mkDesc, BitVec.getLsbD_extractLsb', BitVec.getLsbD_append]
  rw [if_neg (by omega), if_pos (by omega)]; simp

@[simp] theorem descLen_mkDesc (rs sp rd : Bool) (len : Byte) :
    descLen (mkDesc rs sp rd len) = len.toNat := by
  unfold descLen; congr 1
  apply BitVec.eq_of_getLsbD_eq; intro i hi
  simp only [mkDesc, BitVec.getLsbD_extractLsb', BitVec.getLsbD_append]
  simp [hi]


/-- The least limits of an instance (spec/00_scope.md R8). -/
theorem Params.wf_limits {p : Params} (h : p.wf = true) : 2 ≤ p.maxMsgs ∧ 1 ≤ p.maxLen := by
  simp only [Params.wf, Bool.and_eq_true, decide_eq_true_eq] at h
  exact ⟨h.1.1.1.1.1.1.1, h.1.1.1.1.1.2⟩

/-- A register read of `len` bytes is a valid transfer iff `1 ≤ len ≤ MAX_LEN`. -/
theorem readDescs_valid {p : Params} (h : p.wf = true) (len : Byte) :
    transferValid p (readDescs len) = (decide (len.toNat ≤ p.maxLen) && decide (1 ≤ len.toNat)) := by
  have := Params.wf_limits h
  simp [transferValid, readDescs, descsValid, descValid, followValid, this.1, this.2]

/-- A register write of `len` bytes is a valid transfer iff `len ≤ MAX_LEN`. -/
theorem writeDescs_valid {p : Params} (h : p.wf = true) (len : Byte) :
    transferValid p (writeDescs len) = decide (len.toNat ≤ p.maxLen) := by
  have := Params.wf_limits h
  simp [transferValid, writeDescs, descsValid, descValid, followValid, this.1, this.2]

/-! ## Frames of the register transactions -/

theorem addrByte_eq (a : Addr7) (rd : Bool) : addrByte a rd = wireAddr a (BitVec.ofBool rd) := rfl

theorem regBuf_wf (r : Byte) : (regBuf r).wf = true := Memory.write_wf (m := []) rfl 0 r

theorem regBuf_read (r : Byte) : (regBuf r).read 0 = r := by
  unfold regBuf; rw [Memory.read_write (m := []) rfl]; simp

/-- The bytes received depend only on the peer's bytes. -/
theorem recvBytes_shift (p q : Memory) (a b n : Nat)
    (h : ∀ i < n, p.read (a + i) = q.read (b + i)) : recvBytes p a n = recvBytes q b n := by
  induction n generalizing a b with
  | zero => rfl
  | succ n ih =>
    have h0 := h 0 (by omega)
    simp only [Nat.add_zero] at h0
    simp only [recvBytes]
    rw [h0, ih (a + 1) (b + 1) fun i hi => by
      have := h (i + 1) (by omega)
      rwa [show a + (i + 1) = a + 1 + i by omega, show b + (i + 1) = b + 1 + i by omega] at this]

/-- The bytes sent depend only on the buffer's bytes. -/
theorem sendBytes_shift (p q : Memory) (a b n : Nat)
    (h : ∀ i < n, p.read (a + i) = q.read (b + i)) : sendBytes p a n = sendBytes q b n := by
  induction n generalizing a b with
  | zero => rfl
  | succ n ih =>
    have h0 := h 0 (by omega)
    simp only [Nat.add_zero] at h0
    simp only [sendBytes]
    rw [h0, ih (a + 1) (b + 1) fun i hi => by
      have := h (i + 1) (by omega)
      rwa [show a + (i + 1) = a + 1 + i by omega, show b + (i + 1) = b + 1 + i by omega] at this]

/-- The frame of the transfer a register read makes (R85). -/
theorem readDescs_frame (a : Addr7) (r len : Byte) (peer : Memory) :
    transferFrame a (readDescs len) (regBuf r) (Memory.copy peer 0 [] 1 len.toNat) =
      regReadFrame a r peer len.toNat := by
  simp only [transferFrame, readDescs, framesFrom, msgFrame, descRS_mkDesc, descSP_mkDesc,
    descRD_mkDesc, descLen_mkDesc, regReadFrame, addrFrame, addrByte_eq, sendBytes, regBuf_read,
    BitVec.toNat_ofNat]
  rw [recvBytes_shift (Memory.copy peer 0 [] 1 len.toNat) peer 1 0 len.toNat fun i hi => by
    rw [Memory.read_copy peer 0 1 len.toNat (m := []) rfl, if_pos (by omega)]; congr 1; omega]
  simp

/-- The frame of the transfer a register write makes (R86). -/
theorem writeDescs_frame (a : Addr7) (r len : Byte) (data peer : Memory) :
    transferFrame a (writeDescs len) (Memory.copy data 0 (regBuf r) 1 len.toNat) peer =
      regWriteFrame a r data len.toNat := by
  have h0 : (Memory.copy data 0 (regBuf r) 1 len.toNat).read 0 = r := by
    rw [Memory.read_copy data 0 1 len.toNat (regBuf_wf r), if_neg (by omega), regBuf_read]
  simp only [transferFrame, writeDescs, framesFrom, msgFrame, descRS_mkDesc, descSP_mkDesc,
    descRD_mkDesc, descLen_mkDesc, regWriteFrame, addrFrame, addrByte_eq, sendBytes, h0,
    BitVec.toNat_ofNat]
  rw [sendBytes_shift (Memory.copy data 0 (regBuf r) 1 len.toNat) data (0 + 1) 0 len.toNat
    fun i hi => by
      rw [Memory.read_copy data 0 1 len.toNat (regBuf_wf r), if_pos (by omega)]; congr 1; omega]
  simp

/-- A list that ends with a stop leaves the bus free. -/
theorem messages_free {a : Addr7} {ds : List Half} {buf b : Memory} {s t : State} {maxLen : Nat}
    (hv : descsValid maxLen ds = true) (hne : ds ≠ []) (hs : descSP (ds.getLast hne) = true)
    (hm : messages a ds 0 0 buf s = .go b t) : t.bus.busOwned = false := by
  have := messages_leaves a ds hv hne 0 0 buf (s := s) (.inl rfl)
  rw [hm] at this
  simp only [Txn.Leaves, hs, if_true] at this
  exact this.1

theorem transferValid_descs {p : Params} {ds : List Half} (h : transferValid p ds = true) :
    descsValid p.maxLen ds = true := by
  simp only [transferValid, Bool.and_eq_true] at h
  exact h.2

/-- A register read on a peer that acknowledges (R85). -/
theorem regReadOn_ran {od : Bool} {s : State} (a : Addr7) (r len : Byte) (peer : Memory)
    (h : BusReady od s) (hw : s.par.wf = true) (h1 : 1 ≤ len.toNat) (h2 : len.toNat ≤ s.par.maxLen)
    (hg : s.env.gives (frameAnswers od (regReadFrame a r peer len.toNat))) :
    ∃ b t, regReadOn a r len s = ⟨.ok, b, t⟩ ∧
      Ran (frameAnswers od (regReadFrame a r peer len.toNat))
        (frameEvents od (regReadFrame a r peer len.toNat)) s t ∧
      t.bus.busOwned = false ∧ t.bus.irqMask = false ∧ b.wf = true ∧
      ∀ i < len.toNat, b.read (1 + i) = peer.read i := by
  rw [← readDescs_frame] at hg ⊢
  obtain ⟨b, t, hm, hr, hbw, hb⟩ := messages_ran (Memory.copy peer 0 [] 1 len.toNat) a
    (readDescs len) 0 0 (regBuf_wf r) (s := s.maskIrq) h hg
  have hv : transferValid s.par (readDescs len) = true := by rw [readDescs_valid hw]; simp [h1, h2]
  have hfree := messages_free (transferValid_descs hv) (by simp [readDescs]) (by simp [readDescs]) hm
  refine ⟨b, t.unmask, transferOn_ok h.1 hv hm, ran_masked hr,
    hfree, rfl, hbw,
    fun i hi => ?_⟩
  rw [hb, if_pos]
  · rw [Memory.read_copy peer 0 1 len.toNat (m := []) rfl, if_pos (by omega)]; congr 1; omega
  · simp [inReadSlice, readDescs]; omega

/-- A register write on a peer that acknowledges (R86). -/
theorem regWriteOn_ran {od : Bool} {s : State} (a : Addr7) (r len : Byte) (data : Memory)
    (h : BusReady od s) (hw : s.par.wf = true) (h2 : len.toNat ≤ s.par.maxLen)
    (hg : s.env.gives (frameAnswers od (regWriteFrame a r data len.toNat))) :
    ∃ b t, regWriteOn a r len data s = ⟨.ok, b, t⟩ ∧
      Ran (frameAnswers od (regWriteFrame a r data len.toNat))
        (frameEvents od (regWriteFrame a r data len.toNat)) s t ∧
      t.bus.busOwned = false ∧ t.bus.irqMask = false := by
  rw [← writeDescs_frame a r len data []] at hg ⊢
  obtain ⟨b, t, hm, hr, _, _⟩ := messages_ran [] a (writeDescs len) 0 0
    (Memory.copy_wf data 0 1 len.toNat (regBuf_wf r)) (s := s.maskIrq) h hg
  have hv : transferValid s.par (writeDescs len) = true := by rw [writeDescs_valid hw]; simp [h2]
  have hfree := messages_free (transferValid_descs hv) (by simp [writeDescs]) (by simp [writeDescs]) hm
  exact ⟨b, t.unmask, transferOn_ok h.1 hv hm, ran_masked hr, hfree, rfl⟩

/-- A register write whose byte `k` is refused (R86; spec/40_softbus.md R80). -/
theorem regWriteOn_refused {od : Bool} {s : State} (a : Addr7) (r len : Byte) (data : Memory) {k : Nat}
    (h : BusReady od s) (hw : s.par.wf = true) (hk : k < len.toNat) (h2 : len.toNat ≤ s.par.maxLen)
    (hg : s.env.gives (frameAnswers od (regWriteRefused a r data k))) :
    ∃ b t, regWriteOn a r len data s = ⟨.noAck true 1 k, b, t⟩ ∧
      Ran (frameAnswers od (regWriteRefused a r data k))
        (frameEvents od (regWriteRefused a r data k)) s t ∧ t.bus.busOwned = false := by
  have hv : transferValid s.par (writeDescs len) = true := by rw [writeDescs_valid hw]; simp [h2]
  generalize hB : Memory.copy data 0 (regBuf r) 1 len.toNat = B
  have hB0 : B.read 0 = r := by
    rw [← hB, Memory.read_copy _ 0 1 len.toNat (regBuf_wf r), if_neg (by omega), regBuf_read]
  have hBi : ∀ i < len.toNat, B.read (1 + i) = data.read i := by
    intro i hi
    rw [← hB, Memory.read_copy _ 0 1 len.toNat (regBuf_wf r), if_pos (by omega)]; congr 1; omega
  have hfr : regWriteRefused a r data k =
      ([.start, .send (addrByte a false) true] ++ sendBytes B 0 1) ++
        (sendBytes B (1 + 0) k ++ [.send (B.read (1 + 0 + k)) false, .stop]) := by
    rw [sendBytes_shift B data (1 + 0) 0 k fun i hi => by
      rw [show 1 + 0 + i = 1 + i by omega, hBi i (by omega), Nat.zero_add]]
    rw [show 1 + 0 + k = 1 + k by omega, hBi k hk]
    simp [regWriteRefused, addrFrame, addrByte_eq, sendBytes, hB0]
  rw [hfr] at hg ⊢
  rw [frameAnswers_append, frameAnswers_append, Env.gives_append, Env.gives_append] at hg
  obtain ⟨t, ht, hr⟩ := addressPhase_ran a false 0 B (s := setMsg 0 s.maskIrq) h hg.1.1
  have hrt : BusReady od t := BusReady.ran (s := setMsg 0 s.maskIrq) h hr
  obtain ⟨u, hu, hs⟩ := writePhase_ran B 0 0 1 0 hrt (by rw [hr.env]; exact hg.1.2)
  have h1 := setMsg_ran 1 u
  obtain ⟨w, hw1, hw2, hi⟩ := writePhase_refused B 1 1 k len.toNat 0 hk ((hrt.ran hs).ran h1) (by
    rw [h1.env]
    show (u.env.skip 0).gives _
    rw [hs.env, hr.env, show (setMsg 0 s.maskIrq).env = s.env from rfl]
    simp only [Env.skip, ← Env.skip_add, ← List.length_append]
    exact hg.2)
  have hm : messages a (writeDescs len) 0 0 B s.maskIrq = .stop (.noAck true 1 (0 + k)) B w := by
    simp only [writeDescs, messages, message, messageAddress]
    rw [if_pos (by rfl), descRD_mkDesc, ht]
    simp only [Txn.andThen, messageBody, descRD_mkDesc, descLen_mkDesc, messageStop, descSP_mkDesc,
      descRS_mkDesc]
    have e1 : (if false = true then readPhase 0 0 (BitVec.toNat 1#8) 0 B t
      else writePhase B 0 0 (BitVec.toNat 1#8) 0 t) = .go B u := hu
    rw [e1]
    simp only [Bool.false_eq_true, if_false]
    have e2 : writePhase B (0 + BitVec.toNat 1#8) (0 + 1) (BitVec.toNat len) 0 (setMsg (0 + 1) u) =
      .stop (.noAck true 1 (0 + k)) B w := hw1
    simp only [show ((0 + 1 == 0) || false) = false from rfl, Bool.false_eq_true, if_false, e2]
  rw [Nat.zero_add] at hm
  have hall := (hr.trans hs).trans (h1.trans hw2)
  refine ⟨B, w.unmask, ?_, ran_masked (s := s) (t := w) ?_, hi.1⟩
  · unfold regWriteOn; rw [hB]; exact transferOn_stops h.1 hv hm
  · simp only [frameAnswers_append, frameEvents_append, List.append_assoc, List.nil_append]
      at hall ⊢
    exact ⟨hall.env, hall.trace, hall.setup.mode, hall.setup.ready, hall.setup.rate,
      hall.setup.detecting⟩

end Sys2Proof.Machine
end

