-- ==== Sys2Proof/Laws/Fields.lean ====
section
/-! SUPPORT. Fields of the charging IC: their bits, their physical values, and the exact run of a field's
one-byte transactions (spec/41_register_interface.md R88 to R91). -/

namespace Sys2Proof.Machine

/-- Every entry of a legal field table keeps R88's ranges. -/
theorem Params.wf_field {p : Params} (h : p.wf = true) (f : FieldId) : (p.fields.get f).wf = true := by
  simp only [Params.wf, Bool.and_eq_true] at h
  have := h.1.1.2
  simp only [FieldTable.wf, List.all_eq_true] at this
  exact this f (by cases f <;> decide)

/-- The bits extracted are the raw value of the field. -/
theorem extract_toNat {d : FieldDesc} (h : d.wf = true) (b : Byte) :
    (d.extract b).toNat = rawBits d b := by
  simp only [FieldDesc.wf, Bool.and_eq_true, decide_eq_true_eq] at h
  have hw : d.width ≤ 8 := h.1.1.1.2
  have h2 : 2 ^ d.width ≤ 2 ^ 8 := Nat.pow_le_pow_right (by decide) hw
  have h0 : 0 < 2 ^ d.width := Nat.two_pow_pos _
  unfold FieldDesc.extract rawBits FieldDesc.top
  rw [BitVec.toNat_and, BitVec.toNat_ushiftRight, BitVec.toNat_ofNat, Nat.mod_eq_of_lt (by omega),
    Nat.and_two_pow_sub_one_eq_mod, Nat.shiftRight_eq_div_pow]

theorem rawBits_le (d : FieldDesc) (b : Byte) : rawBits d b ≤ d.top := by
  have h0 : 0 < 2 ^ d.width := Nat.two_pow_pos _
  have := Nat.mod_lt (b.toNat / 2 ^ d.pos) h0
  unfold rawBits FieldDesc.top; omega

/-- A physical value is `raw * step + offset`, without wrapping (R89; log 14). -/
theorem physWord_toNat {d : FieldDesc} (h : d.wf = true) {raw : Nat} (hr : raw ≤ d.top) :
    (d.physWord raw).toNat = raw * d.step + d.offset := by
  simp only [FieldDesc.wf, Bool.and_eq_true, decide_eq_true_eq] at h
  have h32 := h.2
  unfold FieldDesc.physWord FieldDesc.decodeRaw
  rw [BitVec.toNat_ofNat, Nat.mod_eq_of_lt]
  have : raw * d.step ≤ (2 ^ d.width - 1) * d.step := Nat.mul_le_mul_right _ hr
  omega

theorem encodePhys_le (d : FieldDesc) (p : Nat) : d.encodePhys p ≤ d.top := by
  unfold FieldDesc.encodePhys; split
  · exact Nat.zero_le _
  · exact Nat.min_le_right _ _

/-- The byte written back keeps every bit outside the field (R91). -/
theorem insert_merged {d : FieldDesc} (h : d.wf = true) {old new : Byte} {raw : Nat}
    (hr : raw ≤ d.top) (hm : Merged d old raw new) :
    d.insert old (BitVec.ofNat 8 raw) = new := by
  simp only [FieldDesc.wf, Bool.and_eq_true, decide_eq_true_eq] at h
  have hw : d.pos + d.width ≤ 8 := h.1.1.2
  apply BitVec.eq_of_getLsbD_eq
  intro i hi
  rw [hm i hi]
  have ht : d.top = 2 ^ d.width - 1 := rfl
  have h0 : 0 < 2 ^ d.width := Nat.two_pow_pos _
  have hff : (0xFF#8).getLsbD i = true := by
    interval_cases i <;> rfl
  simp only [FieldDesc.insert, FieldDesc.mask, BitVec.getLsbD_or, BitVec.getLsbD_and,
    BitVec.getLsbD_xor, BitVec.getLsbD_shiftLeft, BitVec.getLsbD_ofNat, hff]
  simp only [ht, Nat.testBit_two_pow_sub_one, hi, decide_true, Bool.true_and]
  by_cases h1 : d.pos ≤ i
  · have e1 : decide (i < d.pos) = false := by simpa using h1
    rw [e1]
    by_cases h2 : i < d.pos + d.width
    · rw [if_pos ⟨h1, h2⟩]
      simp [show i - d.pos < 8 by omega, show i - d.pos < d.width by omega]
    · rw [if_neg (by omega)]
      have : raw.testBit (i - d.pos) = false := testBit_high (w := d.width) (by omega) (by omega)
      simp [this, show ¬ i - d.pos < d.width by omega]
  · rw [if_neg (by omega)]
    simp [show i < d.pos by omega]

theorem readFrame_eq (a : Addr7) (r b : Byte) :
    regReadFrame a r (Memory.write [] 0 b) (1#8).toNat = readFrame a r b := by
  have : (Memory.write [] 0 b).read 0 = b := by rw [Memory.read_write (m := []) rfl]; simp
  simp [regReadFrame, readFrame, addrFrame, recvBytes, this, addrByte_eq]

theorem writeFrame_eq (a : Addr7) (r b : Byte) :
    regWriteFrame a r (Memory.write [] 0 b) (1#8).toNat = writeFrame a r b := by
  have : (Memory.write [] 0 b).read 0 = b := by rw [Memory.read_write (m := []) rfl]; simp
  simp [regWriteFrame, writeFrame, addrFrame, sendBytes, this, addrByte_eq]

theorem writeRefused_eq (a : Addr7) (r b : Byte) :
    regWriteRefused a r (Memory.write [] 0 b) 0 = writeByteRefused a r b := by
  have : (Memory.write [] 0 b).read 0 = b := by rw [Memory.read_write (m := []) rfl]; simp
  simp [regWriteRefused, writeByteRefused, addrFrame, sendBytes, this]

/-- A field's register byte read on a peer that acknowledges (R90). -/
theorem readFieldByte_ran {od : Bool} {s : State} (f : FieldId) (b : Byte) (h : BusReady od s)
    (hw : s.par.wf = true)
    (hg : s.env.gives (frameAnswers od (readFrame s.par.chargerAddr (s.par.fields.get f).reg b))) :
    ∃ t, readFieldByte f s = ⟨.ok, b, t⟩ ∧
      Ran (frameAnswers od (readFrame s.par.chargerAddr (s.par.fields.get f).reg b))
        (frameEvents od (readFrame s.par.chargerAddr (s.par.fields.get f).reg b)) s t ∧
      t.bus.busOwned = false ∧ t.bus.irqMask = false := by
  rw [← readFrame_eq] at hg ⊢
  obtain ⟨c, t, he, hr, ho, hm, _, hb⟩ := regReadOn_ran s.par.chargerAddr (s.par.fields.get f).reg 1#8
    (Memory.write [] 0 b) h hw (by decide) (Params.wf_limits hw).2 hg
  refine ⟨t, ?_, hr, ho, hm⟩
  have h0 := hb 0 (by decide)
  rw [Memory.read_write (m := []) rfl, if_pos rfl] at h0
  unfold readFieldByte fieldDesc
  rw [he]
  simp only [h0]

/-- A field's register byte read refused at its address (R90, R91). -/
theorem readFieldByte_refused {od : Bool} {s : State} (f : FieldId) (h : BusReady od s)
    (hw : s.par.wf = true)
    (hg : s.env.gives (frameAnswers od (addressRefused s.par.chargerAddr 0#1))) :
    ∃ b t, readFieldByte f s = ⟨.noAck false 0 0, b, t⟩ ∧
      Ran (frameAnswers od (addressRefused s.par.chargerAddr 0#1))
        (frameEvents od (addressRefused s.par.chargerAddr 0#1)) s t := by
  have hfr : addressRefused s.par.chargerAddr 0#1 =
      [.start, .send (addrByte s.par.chargerAddr false) false, .stop] := rfl
  rw [hfr] at hg ⊢
  have hv : transferValid s.par (readDescs 1#8) = true := by
    rw [readDescs_valid hw]; have := (Params.wf_limits hw).2; simp [this]
  obtain ⟨u, hu, hs, hi⟩ := addressPhase_refused s.par.chargerAddr false 0
    (regBuf (s.par.fields.get f).reg) (s := setMsg 0 s.maskIrq) h hg
  have hm : messages s.par.chargerAddr (readDescs 1#8) 0 0 (regBuf (s.par.fields.get f).reg) s.maskIrq =
      .stop (.noAck false 0 0) (regBuf (s.par.fields.get f).reg) u := by
    simp only [readDescs, messages, message, messageAddress]
    rw [if_pos (by rfl), descRD_mkDesc, hu]
    rfl
  have he := transferOn_stops h.1 hv hm
  refine ⟨(regBuf (s.par.fields.get f).reg).read 1, u.unmask, ?_,
    ⟨hs.env, hs.trace, hs.setup.mode, hs.setup.ready, hs.setup.rate, hs.setup.detecting⟩⟩
  unfold readFieldByte regReadOn fieldDesc
  rw [he]

/-- A field write on a peer that acknowledges (R91). -/
theorem fieldWriteOn_ran {od : Bool} {s : State} (f : FieldId) (phys : Nat) {old new : Byte}
    (h : BusReady od s) (hw : s.par.wf = true) (hm : FieldMerged s.par f phys old new)
    (hg : s.env.gives (frameAnswers od (fieldWriteFrame s.par f old new))) :
    ∃ t, fieldWriteOn f phys s = ⟨.ok, (s.par.fields.get f).encodePhys phys, t⟩ ∧
      Ran (frameAnswers od (fieldWriteFrame s.par f old new))
        (frameEvents od (fieldWriteFrame s.par f old new)) s t ∧
      t.bus.busOwned = false ∧ t.bus.irqMask = false := by
  unfold fieldWriteFrame at hg ⊢
  rw [frameAnswers_append, Env.gives_append] at hg
  obtain ⟨t, he, hr, -, -⟩ := readFieldByte_ran f old h hw hg.1
  have hb := readFieldByte_busOnly f s
  rw [he] at hb
  have hp : t.par = s.par := hb.par
  have hg2 : t.env.gives (frameAnswers od (regWriteFrame t.par.chargerAddr (t.par.fields.get f).reg
      (Memory.write [] 0 new) (1#8).toNat)) := by
    rw [hp, writeFrame_eq, hr.env]; exact hg.2
  obtain ⟨b, u, he2, hr2, ho, hi⟩ := regWriteOn_ran t.par.chargerAddr (t.par.fields.get f).reg 1#8
    (Memory.write [] 0 new) (h.ran hr) (by rw [hp]; exact hw)
    (by rw [hp]; exact (Params.wf_limits hw).2) hg2
  have hins : (t.par.fields.get f).insert old
      (BitVec.ofNat 8 ((s.par.fields.get f).encodePhys phys)) = new := by
    rw [hp]; exact insert_merged (Params.wf_field hw f) (encodePhys_le _ _) hm
  refine ⟨u, ?_, ?_, ho, hi⟩
  · simp only [fieldWriteOn, he, fieldDesc]
    rw [if_pos (by rfl)]
    simp only [writeFieldBack, fieldDesc, hins]
    rw [he2]; rfl
  · rw [writeFrame_eq, hp] at hr2
    rw [frameAnswers_append, frameEvents_append]
    exact hr.trans hr2

/-- The raw bits of a field as the machine extracts them. -/
theorem rawOf_eq {p : Params} (h : p.wf = true) (f : FieldId) (b : Byte) :
    rawOf p f b = BitVec.ofNat 8 (rawBits (p.fields.get f) b) := by
  apply BitVec.eq_of_toNat_eq
  unfold rawOf fieldDesc
  rw [extract_toNat (Params.wf_field h f), BitVec.toNat_ofNat, ← extract_toNat (Params.wf_field h f),
    Nat.mod_eq_of_lt (BitVec.isLt _)]

/-- The percentage fits its 8 bits (R105). -/
theorem pct_le (mV cs) : pct mV cs ≤ 255 := by
  have key : ∀ (l : List Nat) i lo m, i + l.length ≤ 8 → pctFrom i lo l m ≤ 255 ∨ m < lo := by
    intro l
    induction l with
    | nil => intro i lo m _; left; simp [pctFrom]
    | cons hi rest ih =>
      intro i lo m hl
      simp only [List.length_cons] at hl
      by_cases hlo : m < lo
      · exact .inr hlo
      left
      unfold pctFrom
      split
      · rename_i hm
        have : Config.band * (m - lo) / (hi - lo) ≤ 31 := by
          have : Config.band * (m - lo) / (hi - lo) < 32 := by
            rw [Nat.div_lt_iff_lt_mul (by omega)]
            simp only [Config.band]; omega
          omega
        simp only [Config.band] at this ⊢
        omega
      · rcases ih (i+1) hi m (by omega) with h | h
        · exact h
        · contradiction
  unfold pct
  cases cs <;> simp only
  all_goals first
    | decide
    | (unfold pctOver Config.breakpoints; simp only; split
       · omega
       · rcases key [2864, 3064, 3264, 3444, 3644, 3824, 4024, 4204] 0 2684 mV (by decide) with h | h
         · exact h
         · contradiction)

/-- The view a poll takes (R101). -/
theorem applyPoll_view {p : Params} (h : p.wf = true) (now : Word) (b1 b2 b3 : Byte) (c : Ctl)
    (hc : c.lastPoll = now) :
    PolledView p now b1 b2 b3
      (applyPoll p (rawOf p .status b1) (rawOf p .fault b2) (rawOf p .batteryAdc b3) c) := by
  have hb : (rawOf p .batteryAdc b3).toNat = rawBits p.fields.batteryAdc b3 :=
    extract_toNat (Params.wf_field h .batteryAdc) b3
  refine ⟨by rw [rawOf_eq h, rawOf_eq h]; rfl, rfl, by simp [applyPoll], hb, ?_, ?_, hc⟩
  · simp only [applyPoll, hb]
    exact physWord_toNat (Params.wf_field h .batteryAdc) (rawBits_le _ _)
  · simp only [applyPoll]
    rw [BitVec.toNat_ofNat]
    exact Nat.mod_eq_of_lt (Nat.lt_of_le_of_lt (pct_le _ _) (by decide))

end Sys2Proof.Machine
end

