-- ==== Sys2Proof/Laws/Loop.lean ====
section
/-! SUPPORT. The phases of a control-loop iteration, each said once: which arm runs, what its timers, its
poll, its fault transitions and its hold do, and the outputs (spec/42_charge_controller.md R106 to
R119). -/

namespace Sys2Proof.Machine

/-! ## What the phases keep -/

theorem arbitrate_btn (now : Word) (s : State) : (arbitrate now s).btn = s.btn := by
  unfold arbitrate; (repeat' split) <;> simp [startFlash, requestShutdown]

theorem poll_btn (now : Word) (s : State) : (poll now s).btn = s.btn := by
  unfold poll pollRead; dsimp only; (repeat' split) <;> simp

theorem pollPhase_btn (now : Word) (e : EventBits) (s : State) : (pollPhase now e s).btn = s.btn := by
  unfold pollPhase; split
  · exact poll_btn _ _
  · rfl

theorem poll_pstate (now : Word) (s : State) : (poll now s).ctl.pstate = s.ctl.pstate := by
  unfold poll pollRead; dsimp only; (repeat' split) <;> simp [applyPoll]

theorem poll_par (now : Word) (s : State) : (poll now s).par = s.par := by
  unfold poll pollRead; dsimp only; (repeat' split) <;> simp

theorem pollPhase_par (now : Word) (e : EventBits) (s : State) : (pollPhase now e s).par = s.par := by
  unfold pollPhase; split
  · exact poll_par _ _
  · rfl

theorem thermalPhase_par (e : EventBits) (s : State) : (thermalPhase e s).par = s.par := by
  unfold thermalPhase; split <;> rfl

theorem thermalPhase_btn (e : EventBits) (s : State) : (thermalPhase e s).btn = s.btn := by
  unfold thermalPhase; split <;> rfl

/-- A running controller's iteration. -/
theorem execCtrlStep_run {s : State} (h : s.ctl.phase = .run) : exec .ctrlStep s =
    .next (runStep s.ports.nowMs s.ports.btnLevel s.ev.flag (snapshot s)) := by
  simp only [exec, execCtrlStep, h]

/-- The state after phase 2 of an iteration: the snapshot taken and the timers run (R106). -/
def afterTimers (s : State) : State :=
  ssdPhase s.ports.nowMs s.ev.flag.hostAck (dwellTimer s.ports.nowMs (flashTimer s.ports.nowMs (snapshot s)))

/-- Phase 3 and what follows it. -/
theorem execCtrlStep_loop {s : State} (h : s.ctl.phase = .run) (hs :
    s.ctl.pstate ≠ .shippingMode) : exec .ctrlStep s =
    .next (loopStep s.ports.nowMs s.ports.btnLevel s.ev.flag (afterTimers s)) := by
  rw [execCtrlStep_run h]; unfold runStep; rw [if_neg (by exact hs)]; rfl

theorem afterTimers_btn (s : State) : (afterTimers s).btn = s.btn :=
  by simp [afterTimers, snapshot]

theorem afterTimers_par (s : State) : (afterTimers s).par = s.par :=
  by simp [afterTimers, snapshot]

/-- An iteration that is not blocked, from phase 4 on. -/
theorem execCtrlStep_active {s : State} (h : Unblocked s) : exec .ctrlStep s =
    .next (activeStep s.ports.nowMs s.ev.flag (s.btn.debounce s.par s.ports.nowMs
    s.ports.btnLevel).1 (debouncePhase s.ports.nowMs s.ports.btnLevel (afterTimers s))) := by
  rw [execCtrlStep_loop h.run h.awake]; unfold loopStep; rw [if_neg (by rw [afterTimers_btn, h.free]; decide), afterTimers_btn, afterTimers_par]

/-- The hold fires exactly under the conditions of spec/43_button_debouncer.md R123. -/
theorem debounce_fires_iff (s : State)
    : (s.btn.debounce s.par s.ports.nowMs s.ports.btnLevel).1 = true ↔ HoldFires s := by
  unfold HoldFires Btn.debounce Btn.advance
  have h1 : (s.btn.sampleLevel s.ports.nowMs s.ports.btnLevel).state = s.btn.state := by unfold Btn.sampleLevel; split <;> rfl
  have h2 : (s.btn.sampleLevel s.ports.nowMs s.ports.btnLevel).lastRaw = s.ports.btnLevel := by
    unfold Btn.sampleLevel; split
    · rfl
    · rename_i h; simp only [bne_iff_ne, ne_eq, Decidable.not_not] at h; exact h.symm
  have h3 : (s.btn.sampleLevel s.ports.nowMs s.ports.btnLevel).pressStart = s.btn.pressStart := by unfold Btn.sampleLevel; split <;> rfl
  rw [h1]
  cases hs : s.btn.state
  · simp only []; split <;> simp
  · simp only [h2, Btn.holdPassed, h3]
    cases hl : s.ports.btnLevel
    · simp
      split <;> simp [*]
    · simp; split <;> simp
  · simp only; split <;> simp

theorem debounce_no_fire {s : State} (h : ¬ HoldFires s)
    : (s.btn.debounce s.par s.ports.nowMs s.ports.btnLevel).1 = false := by
  cases hf : (s.btn.debounce s.par s.ports.nowMs s.ports.btnLevel).1
  · rfl
  · exact absurd ((debounce_fires_iff s).mp hf) h

/-- The button after a hold that fires. -/
theorem debounce_fire_btn {s : State} (h : HoldFires s) : buttonAfter s =
    { s.btn with state := .held, lastRaw := false, rawSince := if s.btn.lastRaw =
    true then s.ports.nowMs else s.btn.rawSince } := by
  obtain ⟨h1, h2, h3⟩ := h
  unfold buttonAfter Btn.debounce Btn.advance
  have e : s.btn.sampleLevel s.ports.nowMs s.ports.btnLevel = { s.btn with lastRaw := false, rawSince := if s.btn.lastRaw = true then s.ports.nowMs else s.btn.rawSince } := by
    unfold Btn.sampleLevel; rw [h2]
    cases hl : s.btn.lastRaw
    · simp; rw [← hl]
    · simp
  rw [e]
  simp only [h1, Btn.holdPassed, decide_eq_true h3]
  simp

/-- The snapshot and the flash timer. -/
theorem flashTimer_snapshot (s : State) : flashTimer s.ports.nowMs (snapshot s)
    = { s with ctl := { s.ctl with flashActive := flashStill s }, ev := { s.ev with flag :=
    .none } } := by
  have h1 := flashTimer_ctl s.ports.nowMs (snapshot s)
  generalize hq : flashTimer s.ports.nowMs (snapshot s) = q at *
  have h2 : q.bus = s.bus := by rw [← hq]; simp [snapshot]
  have h3 : q.btn = s.btn := by rw [← hq]; simp [snapshot]
  have h4 : q.ev = { s.ev with flag := .none } := by rw [← hq]; simp [snapshot]
  have h5 : q.out = s.out := by rw [← hq]; simp [snapshot]
  have h6 : q.ports = s.ports := by rw [← hq]; simp [snapshot]
  have h7 : q.env = s.env := by rw [← hq]; simp [snapshot]
  have h8 : q.trace = s.trace := by rw [← hq]; simp [snapshot]
  have h9 : q.par = s.par := by rw [← hq]; simp [snapshot]
  cases q
  simp only at *
  subst h1 h2 h3 h4 h5 h6 h7 h8 h9
  rfl

/-- The state after phase 2 when no timer but the flash timer acts. -/
def quietState (s : State) : State :=
  { s with ctl := { s.ctl with flashActive := flashStill s }, ev := { s.ev with flag := .none } }

theorem afterTimers_quiet {s : State} (hc : s.ctl.pstate ≠ .coolingDown) (hp :
    s.ctl.ssdPending = false) : afterTimers s = quietState s := by
  unfold afterTimers
  rw [flashTimer_snapshot]
  unfold dwellTimer
  rw [if_neg (by intro h; exact hc h.1)]
  unfold ssdPhase
  rw [if_neg (by simp [hp])]
  rfl

/-- The LED of R118. -/
theorem selectLed_toNat (c : Ctl) : c.selectLed.toNat = ledSpec c := by
  have hbs : ∀ n, (ledBand n).toNat = (if 160 ≤ n then 1 else if 64 ≤ n then 2 else if 32 ≤ n then 3 else 4) := by
    intro n; unfold ledBand; (repeat' split) <;> rfl
  have hcl : ∀ x, (chargingLed x).toNat = (if x = .terminated then 7 else 6) := by intro x; unfold chargingLed; split <;> rfl
  unfold Ctl.selectLed ledSpec
  cases hp : c.pstate <;> simp
  · split
    · exact hcl _
    · rfl
  · split
    · exact hcl _
    · exact hbs _

/-- The outputs agree with the controller (R119). -/
theorem updateOutputs_led (now : Word) (s : State) : LedSays now (updateOutputs now s) := by
  unfold updateOutputs LedSays
  constructor
  · intro h
    have h : s.ctl.flashActive = true := h
    simp only [onOut_out, onOut_ctl, h, if_true]
    refine ⟨trivial, ?_⟩
    simp [flashLit, Config.tFlash]
  · intro h
    have h : s.ctl.flashActive = false := h
    simp only [onOut_out, onOut_ctl, h]
    exact ⟨selectLed_toNat _, rfl⟩

theorem updateOutputs_ctl (now : Word) (s : State) : (updateOutputs now s).ctl = s.ctl := rfl

theorem updateOutputs_out (now : Word) (s : State) : (updateOutputs now s).out =
    { s.out with ledMode := (updateOutputs now s).out.ledMode, ledOn := (updateOutputs now
    s).out.ledOn } := by
  unfold updateOutputs; simp only [onOut_out]; split <;> rfl

theorem elapsed_self (n : Word) : elapsed n n = 0 := by simp [elapsed]

/-- Phases 4 to 6 with no poll, no alert and no fault. -/
theorem phases_quiet {s v : State} (hn : NoFault s) (hc : v.ctl.overTemp = false) (hsv :
    v.ctl.statusValid = s.ctl.statusValid) (hst : v.ctl.status = s.ctl.status) (hlp :
    v.ctl.lastPoll = s.ctl.lastPoll) (hp : v.par = s.par) :
    faultTransitions s.ports.nowMs (pollPhase s.ports.nowMs s.ev.flag (thermalPhase s.ev.flag v)) = v := by
  have h1 : thermalPhase s.ev.flag v = v := by unfold thermalPhase; rw [if_neg (by simp [hn.alert])]
  rw [h1]
  have h2 : pollPhase s.ports.nowMs s.ev.flag v = v := by
    unfold pollPhase
    rw [if_neg]
    have := hn.poll
    unfold PollDue at this
    simp only [not_or] at this
    simp only [hp, hlp]
    simp [this.1, this.2]
  rw [h2]
  unfold faultTransitions
  split
  · rfl
  · rw [if_neg (by simp [hc])]
    have hb := hn.battery
    unfold BatteryFault at hb
    rw [if_neg]
    rw [hsv, hst]
    simpa using hb

/-- The precondition of R108 in its words. -/
theorem powerOnAllowed_iff (c : Ctl) : c.powerOnAllowed = true ↔ PowerOnWords c := by
  unfold Ctl.powerOnAllowed PowerOnWords FaultBits.isNone
  simp only [Config.vOnMin, Bool.and_eq_true, Bool.or_eq_true, Bool.not_eq_true', Bool.or_eq_false_iff, bne_iff_ne, ne_eq]
  constructor
  · rintro ⟨⟨⟨a, b⟩, c⟩, d⟩
    exact ⟨a, b.imp of_decide_eq_true id, ⟨c.1.1.1.1, c.1.1.1.2, c.1.1.2, c.1.2, c.2⟩, d⟩
  · rintro ⟨a, b, ⟨c1, c2, c3, c4, c5⟩, d⟩
    exact ⟨⟨⟨a, b.imp decide_eq_true id⟩, ⟨⟨⟨⟨c1, c2⟩, c3⟩, c4⟩, c5⟩⟩, d⟩

theorem arbitrate_powered {now : Word} {s : State} (h : s.ctl.pstate = .sleeping) (hp :
    s.ctl.powerOnAllowed = true) : arbitrate now s = enterPowered s := by
  simp [arbitrate, h, hp]

theorem arbitrate_refused {now : Word} {s : State} (h : s.ctl.pstate = .sleeping) (hp :
    s.ctl.powerOnAllowed = false) : arbitrate now s = startFlash now s := by
  simp [arbitrate, h, hp]

theorem arbitrate_pending {now : Word} {s : State} (h : s.ctl.pstate = .powered) (hp :
    s.ctl.ssdPending = true) : arbitrate now s = s := by
  simp [arbitrate, h, hp]

theorem arbitrate_handshake {now : Word} {s : State} (h : s.ctl.pstate = .powered) (hp :
    s.ctl.ssdPending = false) (hh : s.par.handshake = true) : arbitrate now s =
    requestShutdown now s := by
  simp [arbitrate, h, hp, hh]

theorem arbitrate_off {now : Word} {s : State} (h : s.ctl.pstate = .powered) (hp :
    s.ctl.ssdPending = false) (hh : s.par.handshake = false) : arbitrate now s = enterSleeping s := by
  simp [arbitrate, h, hp, hh]

theorem arbitrate_cooling {now : Word} {s : State} (h : s.ctl.pstate = .coolingDown)
    : arbitrate now s = s := by
  simp [arbitrate, h]

theorem arbitrate_shipping {now : Word} {s : State} (h : s.ctl.pstate = .shippingMode)
    : arbitrate now s = s := by
  simp [arbitrate, h]

/-- The outputs when the fault pattern starts. -/
theorem updateOutputs_flash (now : Word) (s : State) (h : s.ctl.flashActive = true) (hs :
    s.ctl.flashStart = now) : (updateOutputs now s).out =
    { s.out with ledMode := 5#3, ledOn := true } := by
  unfold updateOutputs
  simp [h, hs, flashLit, elapsed_self]

/-- A hold does nothing in CoolingDown and ShippingMode (R109). -/
theorem holdPhase_idle {now : Word} {f : Bool} {s : State} (h : s.ctl.pstate = .coolingDown ∨
    s.ctl.pstate = .shippingMode) : (holdPhase now f s).ctl = s.ctl ∧ (holdPhase now f s).out =
    s.out := by
  unfold holdPhase; split
  · rcases h with h | h
    · rw [arbitrate_cooling (by exact h)]; exact ⟨rfl, rfl⟩
    · rw [arbitrate_shipping (by exact h)]; exact ⟨rfl, rfl⟩
  · exact ⟨rfl, rfl⟩

/-- What a poll keeps. -/
theorem poll_keep (now : Word) (s : State) : (poll now s).ctl.pstate = s.ctl.pstate ∧
    (s.ctl.overTemp = true → (poll now s).ctl.overTemp = true) ∧ (poll now s).ctl.batfetOff =
    s.ctl.batfetOff ∧ (poll now s).out = s.out := by
  unfold poll pollRead; dsimp only; (repeat' split) <;> simp +contextual [applyPoll]

theorem pollPhase_keep (now : Word) (e : EventBits) (s : State)
    : (pollPhase now e s).ctl.pstate = s.ctl.pstate ∧ (s.ctl.overTemp =
    true → (pollPhase now e s).ctl.overTemp = true) ∧ (pollPhase now e s).ctl.batfetOff =
    s.ctl.batfetOff ∧ (pollPhase now e s).out = s.out := by
  unfold pollPhase; split
  · exact poll_keep _ _
  · exact ⟨rfl, id, rfl, rfl⟩

/-- What the timers keep outside CoolingDown. -/
theorem afterTimers_keep {s : State} (hc : s.ctl.pstate ≠ .coolingDown)
    : (afterTimers s).ctl.overTemp = s.ctl.overTemp ∧
    (afterTimers s).ctl.pstate ≠ .coolingDown ∧ (afterTimers s).ctl.batfetOff =
    s.ctl.batfetOff ∧ (afterTimers s).out.lowPower = s.out.lowPower := by
  unfold afterTimers
  rw [flashTimer_snapshot]
  unfold dwellTimer
  rw [if_neg (by intro h; exact hc h.1)]
  unfold ssdPhase ssdTimers
  (repeat' split) <;> simp [startFlash, hc]

/-- Phases 4 and 5 with no poll due and no alert. -/
theorem poll_not_due {s : State} {v : State} (hpoll : ¬PollDue s) (hal : s.ev.flag.thermal =
    false) (hlp : v.ctl.lastPoll = s.ctl.lastPoll) (hp : v.par = s.par)
    : pollPhase s.ports.nowMs s.ev.flag (thermalPhase s.ev.flag v) = v := by
  have h1 : thermalPhase s.ev.flag v = v := by unfold thermalPhase; rw [if_neg (by simp [hal])]
  rw [h1]
  unfold pollPhase
  rw [if_neg]
  unfold PollDue at hpoll
  simp only [not_or] at hpoll
  simp only [hp, hlp]
  simp [hpoll.1, hpoll.2]

/-- What the timers keep. -/
theorem afterTimers_view {s : State} : (afterTimers s).ctl.status = s.ctl.status ∧
    (afterTimers s).ctl.statusValid = s.ctl.statusValid ∧ (afterTimers s).ctl.lastPoll =
    s.ctl.lastPoll ∧ (afterTimers s).ctl.battery = s.ctl.battery ∧
    (afterTimers s).ctl.charging = s.ctl.charging ∧ (afterTimers s).ctl.phase = s.ctl.phase ∧
    (afterTimers s).out.lowPower = s.out.lowPower := by
  unfold afterTimers
  rw [flashTimer_snapshot]
  unfold dwellTimer ssdPhase ssdTimers
  (repeat' split) <;> simp [startFlash]

/-- A blocked iteration (R106 phase 3). -/
theorem blockedStep_parts (now : Word) (e : EventBits) (s : State)
    : (blockedStep now e s).ctl = s.ctl ∧ (blockedStep now e s).trace = s.trace ∧
    (blockedStep now e s).out =
    { s.out with ledMode := (blockedStep now e s).out.ledMode, ledOn := (blockedStep now e
    s).out.ledOn } ∧ (blockedStep now e s).btn.state = s.btn.state ∧ (blockedStep now e s).ev =
    { s.ev with flag := s.ev.flag.union { e with button := false, hostAck := false } } := by
  unfold blockedStep updateOutputs
  simp only [finish_ctl, finish_out, finish_btn, finish_trace, onOut_ctl, onOut_out, onOut_btn, onOut_trace, keepEvents, onEv_ctl, onEv_btn, onEv_out, onEv_trace, finish_ev, onOut_ev, onEv_ev]
  refine ⟨?_, ?_, ?_, ?_, ?_⟩
  · split <;> rfl
  · split <;> rfl
  · split <;> (by_cases h : s.ctl.flashActive = true <;> simp [h])
  · split <;> rfl
  · split <;> rfl

/-! ## Exact runs: the bus traffic of the poll and of the entry actions -/

/-- What a run keeps when parts of the state off the bus change after it. -/
theorem Ran.off {as : List Bool} {es : List LineEvent} {s t u : State} (h : Ran as es s t)
    (hb : u.bus = t.bus) (he : u.env = t.env) (ht : u.trace = t.trace) : Ran as es s u :=
  ⟨he.trans h.env, ht.trans h.trace,
    ⟨by rw [hb]; exact h.setup.mode, by rw [hb]; exact h.setup.ready, by rw [hb]; exact h.setup.rate,
      by rw [hb]; exact h.setup.detecting⟩⟩

/-- The same before it. -/
theorem Ran.from {as : List Bool} {es : List LineEvent} {s t u : State} (h : Ran as es u t)
    (hb : u.bus = s.bus) (he : u.env = s.env) (ht : u.trace = s.trace) : Ran as es s t :=
  ⟨by rw [h.env, he], by rw [h.trace, ht],
    ⟨by rw [h.setup.mode, hb], by rw [h.setup.ready, hb], by rw [h.setup.rate, hb],
      by rw [h.setup.detecting, hb]⟩⟩

theorem BusReady.congr {od : Bool} {s t : State} (h : BusReady od s) (hb : t.bus = s.bus) :
    BusReady od t := by
  unfold BusReady at *; rw [hb]; exact h

/-- A field write of the controller on a peer that acknowledges (R116). -/
theorem ctlWrite_ran {od : Bool} {s : State} (f : FieldId) (phys : Nat) {old new : Byte}
    (h : BusReady od s) (hw : s.par.wf = true) (hm : FieldMerged s.par f phys old new)
    (hg : s.env.gives (frameAnswers od (fieldWriteFrame s.par f old new))) :
    Ran (frameAnswers od (fieldWriteFrame s.par f old new))
      (frameEvents od (fieldWriteFrame s.par f old new)) s (ctlWrite f phys s) := by
  obtain ⟨t, he, hr, -, -⟩ := fieldWriteOn_ran f phys h hw hm hg
  unfold ctlWrite
  rw [he]
  exact hr

/-- Continuous sampling commanded off (R113, R114, R115). -/
theorem adcOff_ran {od : Bool} {s : State} {old new : Byte} (hc : s.ctl.adcCont = true)
    (h : BusReady od s) (hw : s.par.wf = true)
    (hm : FieldMerged s.par .adcContinuous s.par.adcOffValue old new)
    (hg : s.env.gives (frameAnswers od (fieldWriteFrame s.par .adcContinuous old new))) :
    Ran (frameAnswers od (fieldWriteFrame s.par .adcContinuous old new))
      (frameEvents od (fieldWriteFrame s.par .adcContinuous old new)) s (adcOff s) := by
  unfold adcOff
  rw [if_pos hc]
  exact (ctlWrite_ran (s := s.onCtl fun c => { c with adcCont := false }) .adcContinuous _ h hw hm
    hg).from rfl rfl rfl

/-- It is not commanded off twice. -/
theorem adcOff_idle {s : State} (hc : s.ctl.adcCont = false) : adcOff s = s := by
  unfold adcOff; rw [if_neg (by rw [hc]; decide)]

/-- Continuous sampling commanded on (R112). -/
theorem enterPowered_ran {od : Bool} {s : State} {old new : Byte} (h : BusReady od s)
    (hw : s.par.wf = true) (hm : FieldMerged s.par .adcContinuous s.par.adcOnValue old new)
    (hg : s.env.gives (frameAnswers od (fieldWriteFrame s.par .adcContinuous old new))) :
    Ran (frameAnswers od (fieldWriteFrame s.par .adcContinuous old new))
      (frameEvents od (fieldWriteFrame s.par .adcContinuous old new)) s (enterPowered s) :=
  (ctlWrite_ran (s := (s.onCtl fun c => { c with pstate := .powered, adcCont := true }).onOut fun o =>
    { o with powerRail := true, fanMode := .configured }) .adcContinuous _ h hw hm hg).from rfl rfl rfl

/-- A power state entered with continuous sampling on (R113). -/
theorem enterSleeping_ran {od : Bool} {s : State} {old new : Byte} (hc : s.ctl.adcCont = true)
    (h : BusReady od s) (hw : s.par.wf = true)
    (hm : FieldMerged s.par .adcContinuous s.par.adcOffValue old new)
    (hg : s.env.gives (frameAnswers od (fieldWriteFrame s.par .adcContinuous old new))) :
    Ran (frameAnswers od (fieldWriteFrame s.par .adcContinuous old new))
      (frameEvents od (fieldWriteFrame s.par .adcContinuous old new)) s (enterSleeping s) :=
  (adcOff_ran (s := powerDown .sleeping .off s) hc h hw hm hg).from rfl rfl rfl

/-- The same for CoolingDown (R114). -/
theorem enterCoolingDown_ran {od : Bool} {s : State} {old new : Byte} (now : Word)
    (hc : s.ctl.adcCont = true) (h : BusReady od s) (hw : s.par.wf = true)
    (hm : FieldMerged s.par .adcContinuous s.par.adcOffValue old new)
    (hg : s.env.gives (frameAnswers od (fieldWriteFrame s.par .adcContinuous old new))) :
    Ran (frameAnswers od (fieldWriteFrame s.par .adcContinuous old new))
      (frameEvents od (fieldWriteFrame s.par .adcContinuous old new)) s (enterCoolingDown now s) :=
  ((adcOff_ran (s := (powerDown .coolingDown .max s).onCtl fun c => { c with coolStart := now })
    hc h hw hm hg).off (u := enterCoolingDown now s) rfl rfl rfl).from rfl rfl rfl

/-- With sampling off already, entering CoolingDown makes no line activity (R114). -/
theorem enterCoolingDown_idle {s : State} (now : Word) (hc : s.ctl.adcCont = false) :
    Ran [] [] s (enterCoolingDown now s) := by
  unfold enterCoolingDown
  rw [adcOff_idle (by exact hc)]
  exact (Ran.refl s).off rfl rfl rfl

/-- Battery isolation commanded (R115). -/
theorem isolateBattery_ran {od : Bool} {s : State} {old new : Byte} (h : BusReady od s)
    (hw : s.par.wf = true) (hm : FieldMerged s.par .batfetControl s.par.isolateValue old new)
    (hg : s.env.gives (frameAnswers od (fieldWriteFrame s.par .batfetControl old new))) :
    Ran (frameAnswers od (fieldWriteFrame s.par .batfetControl old new))
      (frameEvents od (fieldWriteFrame s.par .batfetControl old new)) s (isolateBattery s) :=
  (ctlWrite_ran (s := s.onCtl fun c => { c with batfetOff := true }) .batfetControl _ h hw hm
    hg).from rfl rfl rfl

/-- ShippingMode entered with continuous sampling on: both field writes, in this order (R115). -/
theorem enterShipping_ran {od : Bool} {s : State} {o1 n1 o2 n2 : Byte} (now : Word)
    (hc : s.ctl.adcCont = true) (h : BusReady od s) (hw : s.par.wf = true)
    (hm : FieldMerged s.par .adcContinuous s.par.adcOffValue o1 n1)
    (hm2 : FieldMerged s.par .batfetControl s.par.isolateValue o2 n2)
    (hg : s.env.gives (frameAnswers od (fieldWriteFrame s.par .adcContinuous o1 n1 ++
      fieldWriteFrame s.par .batfetControl o2 n2))) :
    Ran (frameAnswers od (fieldWriteFrame s.par .adcContinuous o1 n1 ++
        fieldWriteFrame s.par .batfetControl o2 n2))
      (frameEvents od (fieldWriteFrame s.par .adcContinuous o1 n1 ++
        fieldWriteFrame s.par .batfetControl o2 n2)) s (enterShipping now s) := by
  rw [frameAnswers_append, frameEvents_append]
  rw [frameAnswers_append, Env.gives_append] at hg
  have h1 := adcOff_ran (s := powerDown .shippingMode .off s) hc h hw hm hg.1
  have hp : (adcOff (powerDown .shippingMode .off s)).par = s.par := by simp [powerDown]
  have h2 := isolateBattery_ran (s := adcOff (powerDown .shippingMode .off s)) (od := od)
    (old := o2) (new := n2) (BusReady.ran (s := powerDown .shippingMode .off s) h h1) (by rw [hp]; exact hw)
    (by rw [hp]; exact hm2) (by rw [hp, h1.env]; exact hg.2)
  rw [hp] at h2
  exact ((h1.trans h2).off (u := enterShipping now s) rfl rfl rfl).from rfl rfl rfl

/-- ShippingMode entered with sampling off already (R115). -/
theorem enterShipping_isolates {od : Bool} {s : State} {old new : Byte} (now : Word)
    (hc : s.ctl.adcCont = false) (h : BusReady od s) (hw : s.par.wf = true)
    (hm : FieldMerged s.par .batfetControl s.par.isolateValue old new)
    (hg : s.env.gives (frameAnswers od (fieldWriteFrame s.par .batfetControl old new))) :
    Ran (frameAnswers od (fieldWriteFrame s.par .batfetControl old new))
      (frameEvents od (fieldWriteFrame s.par .batfetControl old new)) s (enterShipping now s) := by
  unfold enterShipping
  rw [adcOff_idle (by exact hc)]
  exact ((isolateBattery_ran (s := powerDown .shippingMode .off s) h hw hm hg).off
    (u := startFlash now (isolateBattery (powerDown .shippingMode .off s))) rfl rfl rfl).from rfl rfl rfl

/-- A poll on a peer that acknowledges: its frame, and the view it takes (R101). -/
theorem poll_ran {od : Bool} {s : State} (now : Word) {b1 b2 b3 : Byte} (h : BusReady od s)
    (hw : s.par.wf = true) (hg : s.env.gives (frameAnswers od (pollFrame s.par b1 b2 b3))) :
    Ran (frameAnswers od (pollFrame s.par b1 b2 b3)) (frameEvents od (pollFrame s.par b1 b2 b3)) s
        (poll now s) ∧
      (poll now s).ctl = applyPoll s.par (rawOf s.par .status b1) (rawOf s.par .fault b2)
        (rawOf s.par .batteryAdc b3) { s.ctl with lastPoll := now } := by
  unfold pollFrame at hg ⊢
  rw [frameAnswers_append, frameAnswers_append, Env.gives_append, Env.gives_append] at hg
  obtain ⟨t1, e1, r1, -, -⟩ := readFieldByte_ran .status b1
    (s := s.onCtl fun c => { c with lastPoll := now }) h hw hg.1.1
  have q1 := readFieldByte_busOnly .status (s.onCtl fun c => { c with lastPoll := now })
  rw [e1] at q1
  have p1 : t1.par = s.par := q1.par
  obtain ⟨t2, e2, r2, -, -⟩ := readFieldByte_ran .fault b2 (BusReady.ran (by exact h) r1)
    (by rw [p1]; exact hw) (by rw [r1.env, p1]; exact hg.1.2)
  have q2 := readFieldByte_busOnly .fault t1
  rw [e2] at q2
  have p2 : t2.par = s.par := (show t2.par = t1.par from q2.par).trans p1
  obtain ⟨t3, e3, r3, -, -⟩ := readFieldByte_ran .batteryAdc b3
    (BusReady.ran (BusReady.ran (by exact h) r1) r2) (by rw [p2]; exact hw) (by
      rw [r2.env, r1.env, p2, p1]
      have := hg.2
      rw [List.length_append, Env.skip_add] at this
      exact this)
  have q3 := readFieldByte_busOnly .batteryAdc t2
  rw [e3] at q3
  have p3 : t3.par = s.par := (show t3.par = t2.par from q3.par).trans p2
  have c3 : t3.ctl = { s.ctl with lastPoll := now } :=
    (show t3.ctl = t2.ctl from q3.ctl).trans ((show t2.ctl = t1.ctl from q2.ctl).trans q1.ctl)
  have hp : poll now s = t3.onCtl (applyPoll t3.par (rawOf t1.par .status b1) (rawOf t2.par .fault b2)
      (rawOf t3.par .batteryAdc b3)) := by
    unfold poll pollRead
    rw [e1]
    simp only [show Result.ok.isOk = true from rfl, if_true, e2, e3]
  rw [hp]
  refine ⟨?_, by rw [onCtl_ctl, c3, p1, p2, p3]⟩
  rw [frameAnswers_append, frameAnswers_append, frameEvents_append, frameEvents_append]
  have h12 := r1.trans r2
  rw [p2] at r3
  rw [show (s.onCtl fun c => { c with lastPoll := now }).par = s.par from rfl, p1] at h12
  exact ((h12.trans r3).off (u := t3.onCtl _) rfl rfl rfl).from (s := s) rfl rfl rfl

/-- A poll that is due is made, outside CoolingDown (R106 phase 5). -/
theorem pollPhase_due {s v : State} (h : PollDue s) (hc : v.ctl.pstate ≠ .coolingDown)
    (hl : v.ctl.lastPoll = s.ctl.lastPoll) (hp : v.par = s.par) :
    pollPhase s.ports.nowMs s.ev.flag v = poll s.ports.nowMs v := by
  unfold pollPhase
  rw [if_pos]
  rw [hp, hl]
  rcases h with h | h <;> simp [hc, h]

/-- The state after phase 2 of an iteration in which no soft shutdown ends, CoolingDown left. -/
def timersState (s : State) : State :=
  { s with
    ctl := { dwellOver s.ctl with flashActive := flashStill s }
    ev := { s.ev with flag := .none }
    out := { s.out with
      fanMode := (dwellOver s.ctl).pstate.fan
      shutdownReq := s.out.shutdownReq && decide (elapsed s.ports.nowMs s.ctl.ssdStart < 30) } }

/-- The timers of such an iteration (R106 phase 2, R110, R113). -/
theorem afterTimers_polls {s : State} (hi : CtlInv s) (hs : NoShutdownEnd s)
    (hd : s.ctl.pstate = .coolingDown → 120000 ≤ elapsed s.ports.nowMs s.ctl.coolStart) :
    afterTimers s = timersState s := by
  have hpd : s.ctl.pstate ≠ .powered → s.ctl.ssdPending = false := fun h => by
    cases hp : s.ctl.ssdPending
    · rfl
    · exact absurd (hi.pending hp).1 h
  have hrq : s.ctl.ssdPending = false → s.out.shutdownReq = false := fun h => by
    cases hq : s.out.shutdownReq
    · rfl
    · rw [hi.request hq] at h; cases h
  unfold afterTimers
  rw [flashTimer_snapshot]
  by_cases hc : s.ctl.pstate = .coolingDown
  · have hp := hpd (by rw [hc]; decide)
    have ha : s.ctl.adcCont = false := by
      cases h : s.ctl.adcCont
      · rfl
      · have := hi.adc.mp h; rw [hc] at this; cases this
    have hr : s.out.powerRail = false := by
      cases h : s.out.powerRail
      · rfl
      · have := hi.rail.mp h; rw [hc] at this; cases this
    unfold dwellTimer
    rw [if_pos ⟨hc, hd hc⟩]
    unfold enterSleeping
    rw [adcOff_idle (by exact ha)]
    unfold ssdPhase
    rw [if_neg (by exact Bool.false_ne_true)]
    unfold timersState dwellOver
    rw [if_pos hc]
    cases s with | mk bus ctl btn ev out ports env tr par =>
    cases ctl; cases out
    simp only at *
    subst hp hr
    simp [powerDown, State.onCtl, State.onOut, PState.fan, hrq rfl]
  · unfold dwellTimer
    rw [if_neg (by intro h; exact hc h.1)]
    have hdo : dwellOver s.ctl = s.ctl := by unfold dwellOver; rw [if_neg hc]
    unfold ssdPhase timersState
    rw [hdo, ← hi.fan]
    cases hp : s.ctl.ssdPending
    · rw [if_neg (by simp), hrq hp]
      have := hrq hp
      cases s with | mk bus ctl btn ev out ports env tr par =>
      cases out
      simp only at *
      subst this
      rfl
    · rw [if_pos (by simp)]
      obtain ⟨h1, h2⟩ := hs hp
      unfold ssdTimers
      rw [if_neg (by simp [h1]), if_neg (by simp only [Config.tSsdAck]; exact Nat.not_le.mpr h2)]
      cases s with | mk bus ctl btn ev out ports env tr par =>
      cases out with | mk a b c d q f =>
      simp only [Config.tSsdPulse, Bool.and_eq_true] at *
      cases q
      · simp
      · by_cases h30 : elapsed ports.nowMs ctl.ssdStart < 30
        · rw [if_neg (fun h => absurd (of_decide_eq_true h.2) (Nat.not_le.mpr h30))]; simp [h30]
        · rw [if_pos ⟨rfl, decide_eq_true (Nat.not_lt.mp h30)⟩]; simp [h30, State.onOut]

/-- The fault transitions and a hold keep the polled view (R107, R109). -/
theorem faultTransitions_view (now : Word) (s : State) :
    (faultTransitions now s).ctl.status = s.ctl.status ∧
      (faultTransitions now s).ctl.statusValid = s.ctl.statusValid ∧
      (faultTransitions now s).ctl.charging = s.ctl.charging ∧
      (faultTransitions now s).ctl.battery = s.ctl.battery ∧
      (faultTransitions now s).ctl.lastPoll = s.ctl.lastPoll ∧
      (faultTransitions now s).ctl.overTemp = s.ctl.overTemp := by
  unfold faultTransitions; (repeat' split) <;> simp

theorem holdPhase_view (now : Word) (f : Bool) (s : State) :
    (holdPhase now f s).ctl.status = s.ctl.status ∧
      (holdPhase now f s).ctl.statusValid = s.ctl.statusValid ∧
      (holdPhase now f s).ctl.charging = s.ctl.charging ∧
      (holdPhase now f s).ctl.battery = s.ctl.battery ∧
      (holdPhase now f s).ctl.lastPoll = s.ctl.lastPoll ∧
      (holdPhase now f s).ctl.overTemp = s.ctl.overTemp := by
  unfold holdPhase arbitrate; (repeat' split) <;> simp [startFlash, requestShutdown]

theorem PolledView.congr {p : Params} {now : Word} {b1 b2 b3 : Byte} {c d : Ctl}
    (h : PolledView p now b1 b2 b3 c) (hs : d.status = c.status) (hv : d.statusValid = c.statusValid)
    (hc : d.charging = c.charging) (hb : d.battery = c.battery) (hl : d.lastPoll = c.lastPoll) :
    PolledView p now b1 b2 b3 d :=
  ⟨by rw [hs]; exact h.status, hv.trans h.valid, by rw [hc, hs]; exact h.charging,
    by rw [hb]; exact h.raw, by rw [hb]; exact h.mV, by rw [hb, hs]; exact h.percent, hl.trans h.time⟩

/-- The state a poll of an iteration starts from: the timers, the debounce call and the thermal alert
made (R106 phases 1 to 4). -/
def pollStart (s : State) : State :=
  thermalPhase s.ev.flag (debouncePhase s.ports.nowMs s.ports.btnLevel (timersState s))

theorem pollStart_ctl (s : State) : (pollStart s).ctl =
    { dwellOver s.ctl with
      flashActive := flashStill s
      overTemp := (dwellOver s.ctl).overTemp || s.ev.flag.thermal } := by
  unfold pollStart thermalPhase
  split
  · rename_i h; rw [h, Bool.or_true]; rfl
  · rename_i h; rw [show s.ev.flag.thermal = false by simpa using h, Bool.or_false]; rfl

/-- What it shares with the state before and with the timers' outputs. -/
theorem pollStart_rest (s : State) : (pollStart s).out = (timersState s).out ∧
    (pollStart s).par = s.par ∧ (pollStart s).env = s.env ∧ (pollStart s).bus = s.bus ∧
    (pollStart s).trace = s.trace ∧ (pollStart s).btn = buttonAfter s ∧ (pollStart s).ports = s.ports := by
  unfold pollStart thermalPhase
  split <;> exact ⟨rfl, rfl, rfl, rfl, rfl, rfl, rfl⟩

theorem dwellOver_awake (c : Ctl) : (dwellOver c).pstate ≠ .coolingDown := by
  unfold dwellOver; split
  · intro h; cases h
  · assumption

/-- An iteration that polls, from the poll on (R106 phases 5 to 8). -/
theorem execCtrlStep_polls {s : State} (hi : CtlInv s) (h : Polls s) : exec .ctrlStep s =
    .next ((updateOutputs s.ports.nowMs (holdPhase s.ports.nowMs
      (s.btn.debounce s.par s.ports.nowMs s.ports.btnLevel).1
      (faultTransitions s.ports.nowMs (poll s.ports.nowMs (pollStart s))))).finish .ok) := by
  rw [execCtrlStep_active h.unblocked, afterTimers_polls hi h.shutdown h.dwell]
  unfold activeStep
  rw [show thermalPhase s.ev.flag (debouncePhase s.ports.nowMs s.ports.btnLevel (timersState s)) =
    pollStart s from rfl]
  rw [pollPhase_due h.due (by rw [pollStart_ctl]; exact dwellOver_awake _)
    (by rw [pollStart_ctl]; unfold dwellOver; split <;> rfl) (pollStart_rest s).2.1]

/-- What a poll keeps off the bus (R101). -/
theorem poll_out (now : Word) (s : State) : (poll now s).out = s.out := (poll_keep now s).2.2.2

/-- The poll of an iteration on a peer that acknowledges. -/
theorem pollStart_ran {od : Bool} {s : State} {b1 b2 b3 : Byte} (h : BusReady od s)
    (hw : s.par.wf = true) (hg : s.env.gives (frameAnswers od (pollFrame s.par b1 b2 b3))) :
    Ran (frameAnswers od (pollFrame s.par b1 b2 b3)) (frameEvents od (pollFrame s.par b1 b2 b3)) s
        (poll s.ports.nowMs (pollStart s)) ∧
      PolledView s.par s.ports.nowMs b1 b2 b3 (poll s.ports.nowMs (pollStart s)).ctl ∧
      ((poll s.ports.nowMs (pollStart s)).ctl.overTemp = true ↔ (dwellOver s.ctl).overTemp = true ∨
        s.ev.flag.thermal = true ∨ (decodedStatus s.par b1 b2).fault.thermal = true) ∧
      (poll s.ports.nowMs (pollStart s)).ctl = { dwellOver s.ctl with
        flashActive := flashStill s
        overTemp := (poll s.ports.nowMs (pollStart s)).ctl.overTemp
        status := (poll s.ports.nowMs (pollStart s)).ctl.status, statusValid := true
        charging := (poll s.ports.nowMs (pollStart s)).ctl.charging
        battery := (poll s.ports.nowMs (pollStart s)).ctl.battery, lastPoll := s.ports.nowMs } := by
  obtain ⟨-, hp, he, hb, ht, -, -⟩ := pollStart_rest s
  obtain ⟨hr, hc⟩ := poll_ran (od := od) s.ports.nowMs (b1 := b1) (b2 := b2) (b3 := b3)
    (h.congr hb) (by rw [hp]; exact hw) (by rw [he, hp]; exact hg)
  rw [hp] at hr hc
  refine ⟨hr.from hb he ht, ?_, ?_, ?_⟩
  · rw [hc]; exact applyPoll_view hw _ _ _ _ _ rfl
  · rw [hc, pollStart_ctl]
    simp only [applyPoll, rawOf_eq hw]
    simp only [Bool.or_eq_true, or_assoc]
    rfl
  · rw [hc, pollStart_ctl]; simp only [applyPoll]

/-- The over-temperature branch of the fault transitions (R107). -/
theorem faultTransitions_hot {now : Word} {s : State} (hc : s.ctl.pstate ≠ .coolingDown)
    (h : s.ctl.overTemp = true) : faultTransitions now s = enterCoolingDown now s := by
  unfold faultTransitions; rw [if_neg hc, if_pos h]

theorem faultTransitions_battery {now : Word} {s : State} (hc : s.ctl.pstate ≠ .coolingDown)
    (h : s.ctl.overTemp = false) (hb : BatteryFault s.ctl) :
    faultTransitions now s = enterShipping now s := by
  unfold faultTransitions
  rw [if_neg hc, if_neg (by rw [h]; decide), if_pos (by rw [hb.1, hb.2]; rfl)]

theorem faultTransitions_none {now : Word} {s : State} (h : s.ctl.overTemp = false)
    (hb : ¬BatteryFault s.ctl) : faultTransitions now s = s := by
  unfold faultTransitions
  split
  · rfl
  · rw [if_neg (by rw [h]; decide), if_neg (by unfold BatteryFault at hb; simpa using hb)]

theorem holdPhase_none (now : Word) (s : State) : holdPhase now false s = s := rfl

/-- A hold in CoolingDown and ShippingMode makes no line activity (R109). -/
theorem holdPhase_quiet {now : Word} {f : Bool} {s : State} (h : s.ctl.pstate = .coolingDown ∨
    s.ctl.pstate = .shippingMode) : (holdPhase now f s).trace = s.trace := by
  unfold holdPhase; split
  · rcases h with h | h
    · rw [arbitrate_cooling (by exact h)]; rfl
    · rw [arbitrate_shipping (by exact h)]; rfl
  · rfl

/-- The loop only adds to the line trace. -/
theorem traceGrows : LoopRel fun s t => ∃ new, t.trace = new ++ s.trace where
  refl _ := ⟨[], rfl⟩
  trans := by
    rintro _ _ _ ⟨m, h⟩ ⟨n, h'⟩
    exact ⟨n ++ m, by rw [h', h, List.append_assoc]⟩
  transferOn a ds buf s := (busOnly_txnRel.transferOn a ds buf s).trace
  ctl _ _ := ⟨[], rfl⟩
  btn _ _ := ⟨[], rfl⟩
  out _ _ := ⟨[], rfl⟩
  flags _ _ := ⟨[], rfl⟩
  finish _ _ := ⟨[], rfl⟩

/-- An iteration that is not blocked and does not poll, from phase 6 on (R106). -/
theorem execCtrlStep_unpolled {s : State} (h : Unblocked s) (hp : ¬PollDue s) : exec .ctrlStep s =
    .next ((updateOutputs s.ports.nowMs (holdPhase s.ports.nowMs
      (s.btn.debounce s.par s.ports.nowMs s.ports.btnLevel).1
      (faultTransitions s.ports.nowMs (thermalPhase s.ev.flag
        (debouncePhase s.ports.nowMs s.ports.btnLevel (afterTimers s)))))).finish .ok) := by
  rw [execCtrlStep_active h]
  unfold activeStep
  have hl : (thermalPhase s.ev.flag (debouncePhase s.ports.nowMs s.ports.btnLevel
      (afterTimers s))).ctl.lastPoll = s.ctl.lastPoll := by
    unfold thermalPhase; split <;> exact afterTimers_view.2.2.1
  have hq : (thermalPhase s.ev.flag (debouncePhase s.ports.nowMs s.ports.btnLevel
      (afterTimers s))).par = s.par := by
    rw [thermalPhase_par]; exact afterTimers_par s
  generalize thermalPhase s.ev.flag (debouncePhase s.ports.nowMs s.ports.btnLevel
    (afterTimers s)) = v at *
  have : pollPhase s.ports.nowMs s.ev.flag v = v := by
    unfold PollDue at hp
    simp only [not_or] at hp
    unfold pollPhase
    rw [if_neg (by rw [hq, hl]; simp [hp.1, hp.2])]
  rw [this]

/-! ## Exact runs: the drive-mode detection and the boot (R75, R99) -/

/-- The detection that samples `k` ones and then a 0 (R75). -/
theorem detectLow_low (k n : Nat) (s : State) (h : k < n)
    (hg : s.env.gives (List.replicate k true ++ [false])) :
    ∃ t, detectLow n s = (true, t) ∧ t.env = s.env.skip (k + 1) ∧ t.bus = s.bus ∧
      t.trace = ((List.replicate k [LineEvent.wait .half, .sample .scl true]).flatten ++
        [LineEvent.wait .half, LineEvent.sample .scl false]).reverse ++ s.trace := by
  induction k generalizing n s with
  | zero =>
    obtain ⟨n, rfl⟩ : ∃ m, n = m + 1 := ⟨n - 1, by omega⟩
    have h1 : sampled (wait .half s) = false := hg.1
    refine ⟨sample .scl (wait .half s), by unfold detectLow; rw [if_neg (by simp [h1])], rfl, rfl, ?_⟩
    show LineEvent.sample .scl (sampled (wait .half s)) :: _ :: s.trace = _
    rw [h1]; rfl
  | succ k ih =>
    obtain ⟨n, rfl⟩ : ∃ m, n = m + 1 := ⟨n - 1, by omega⟩
    have h1 : sampled (wait .half s) = true := hg.1
    obtain ⟨t, a, b, c, d⟩ := ih n (sample .scl (wait .half s)) (by omega) hg.2
    refine ⟨t, by unfold detectLow; rw [if_pos h1]; exact a, by rw [b]; rfl, c, ?_⟩
    rw [d]
    show _ ++ LineEvent.sample .scl (sampled (wait .half s)) :: LineEvent.wait .half :: s.trace = _
    rw [h1]
    simp [List.replicate_succ, List.append_assoc]

/-- The detection that samples only ones. -/
theorem detectLow_high (k : Nat) (s : State) (hg : s.env.gives (List.replicate k true)) :
    ∃ t, detectLow k s = (false, t) ∧ t.env = s.env.skip k ∧ t.bus = s.bus ∧
      t.trace = (List.replicate k [LineEvent.wait .half, .sample .scl true]).flatten.reverse ++
        s.trace := by
  induction k generalizing s with
  | zero => exact ⟨s, rfl, rfl, rfl, rfl⟩
  | succ k ih =>
    have h1 : sampled (wait .half s) = true := hg.1
    obtain ⟨t, a, b, c, d⟩ := ih (sample .scl (wait .half s)) hg.2
    refine ⟨t, by unfold detectLow; rw [if_pos h1]; exact a, by rw [b]; rfl, c, ?_⟩
    rw [d]
    show _ ++ LineEvent.sample .scl (sampled (wait .half s)) :: LineEvent.wait .half :: s.trace = _
    rw [h1]
    simp [List.replicate_succ, List.append_assoc]

/-- The start of CONFIGURE, up to its first sample. -/
theorem configureBegin_eq (rate : Rate) (s : State) : (configureBegin rate s).env = s.env ∧
    (configureBegin rate s).bus = { s.bus with
      rate := rate, detecting := true, sclDrv := .float, sdaDrv := .float, busOwned := false } ∧
    (configureBegin rate s).trace = [LineEvent.drive .scl .low, .wait .half, .drive .sda .low,
      .wait .half, .drive .scl .float, .wait .half, .drive .sda .float, .wait .full,
      .drive .scl .float].reverse ++ s.trace := by
  have key : ∀ u : State, u.bus.detecting = true → waitSclHigh u = .done () u := by
    intro u h; simp [waitSclHigh, h]
  unfold configureBegin stop sclRise
  rw [key _ (by rfl)]
  exact ⟨rfl, rfl, rfl⟩

/-- CONFIGURE on given samples (R75): `k` ones, then a 0 if `low`. -/
theorem configure_ran (rate : Rate) {s : State} {k : Nat} {low : Bool}
    (hk : if low = true then k < 100 else k = 100)
    (hg : s.env.gives (List.replicate k true ++ if low = true then [false] else [])) :
    (configure rate s).env =
        s.env.skip (List.replicate k true ++ if low = true then [false] else []).length ∧
      (configure rate s).trace = (configureEvents k low).reverse ++ s.trace ∧
      BusReady (!low) (configure rate s) := by
  obtain ⟨b1, b2, b3⟩ := configureBegin_eq rate s
  have hd : ∃ t, detectLow 100 (configureBegin rate s) = (low, t) ∧
      t.env = s.env.skip (List.replicate k true ++ if low = true then [false] else []).length ∧
      t.trace = ((List.replicate k [LineEvent.wait .half, .sample .scl true]).flatten ++
        if low = true then [LineEvent.wait .half, LineEvent.sample .scl false] else []).reverse ++
        (configureBegin rate s).trace := by
    cases low with
    | true =>
      obtain ⟨t, h⟩ := detectLow_low k 100 (configureBegin rate s) (by simpa using hk)
        (by rw [b1]; simpa using hg)
      exact ⟨t, h.1, by rw [h.2.1, b1]; simp, by simpa using h.2.2.2⟩
    | false =>
      have hk : k = 100 := by simpa using hk
      subst hk
      rw [if_neg (by decide), List.append_nil] at hg
      obtain ⟨t, h⟩ := detectLow_high 100 (configureBegin rate s) (by rw [b1]; exact hg)
      refine ⟨t, h.1, by rw [h.2.1, b1]; simp, ?_⟩
      rw [if_neg (by decide), List.append_nil]; exact h.2.2.2
  obtain ⟨t, h1, h2, h3⟩ := hd
  have hc : configure rate s = configureEnd low t := by
    unfold configure; rw [show Config.detectSamples = 100 from rfl, h1]
  rw [hc]
  have e1 : (configureEnd low t).trace =
      [LineEvent.drive .sda (if low = true then .high else .float),
        .drive .scl (if low = true then .high else .float)].reverse ++ t.trace := by
    cases low <;> rfl
  refine ⟨?_, ?_, ?_⟩
  · rw [← h2]; cases low <;> rfl
  · rw [e1, h3, b3]
    unfold configureEvents
    simp only [List.flatten_cons, List.flatten_nil, List.append_nil, List.reverse_append,
      List.append_assoc]
  · cases low <;> exact ⟨rfl, rfl, rfl⟩

/-- The probe of CTRL_BOOT on a charging IC that answers its part identifier (R99). -/
theorem bootProbe_ran {s : State} {k : Nat} {low : Bool} {b : Byte} (hw : s.par.wf = true)
    (hk : if low = true then k < 100 else k = 100)
    (hg : s.env.gives (List.replicate k true ++ (if low = true then [false] else []) ++
      frameAnswers (!low) (readFrame s.par.chargerAddr s.par.fields.partId.reg b))) :
    ∃ t, bootProbe s = ⟨.ok, b, t⟩ ∧ BusReady (!low) t ∧ t.par = s.par ∧ t.ctl = s.ctl ∧
      t.out = s.out ∧
      t.env = s.env.skip (List.replicate k true ++ (if low = true then [false] else []) ++
        frameAnswers (!low) (readFrame s.par.chargerAddr s.par.fields.partId.reg b)).length ∧
      t.trace = (configureEvents k low ++ frameEvents (!low)
        (readFrame s.par.chargerAddr s.par.fields.partId.reg b)).reverse ++ s.trace ∧
      (probePresent ⟨.ok, b, t⟩ = true ↔ PartExpected s.par b) := by
  rw [Env.gives_append] at hg
  obtain ⟨he, ht, hr⟩ := configure_ran s.par.busRate hk hg.1
  have hp : (configure s.par.busRate s).par = s.par := configure_par _ _
  obtain ⟨t, hrd, hran, -, -⟩ := readFieldByte_ran .partId b hr (by rw [hp]; exact hw)
    (by rw [he, hp]; exact hg.2)
  have hb := readFieldByte_busOnly .partId (configure s.par.busRate s)
  rw [hrd] at hb
  have hp2 : t.par = s.par := hb.par.trans hp
  refine ⟨t, hrd, hr.ran hran, hp2, hb.ctl.trans (configure_ctl _ _),
    hb.out.trans (configure_out _ _), ?_, ?_, ?_⟩
  · rw [hran.env, he, hp, List.length_append (bs := frameAnswers _ _), Env.skip_add]; rfl
  · rw [hran.trace, ht, hp, List.reverse_append, List.append_assoc]; rfl
  · have := extract_toNat (Params.wf_field hw .partId) b
    simp only [probePresent, rawOf, fieldDesc, hp2, this, FieldDesc.decodeRaw, PartExpected]
    simp only [show Result.ok.isOk = true from rfl, Bool.true_and, beq_iff_eq]
    rfl

/-- The four field writes of CTRL_BOOT (R99; spec/70_reset_and_hazards.md R150). -/
def bootWriteFrame (p : Params) (cc pc tc cv : Byte × Byte) : List Sym :=
  fieldWriteFrame p .chargeCurrent cc.1 cc.2 ++ (fieldWriteFrame p .prechargeCurrent pc.1 pc.2 ++
    (fieldWriteFrame p .terminationCurrent tc.1 tc.2 ++ fieldWriteFrame p .chargeVoltage cv.1 cv.2))

theorem ctlWrite_keeps (f : FieldId) (phys : Nat) (s : State) :
    (ctlWrite f phys s).par = s.par ∧ (ctlWrite f phys s).ctl = s.ctl ∧
      (ctlWrite f phys s).out = s.out := by simp

theorem bootWrites_ran {od : Bool} {s : State} {cc pc tc cv : Byte × Byte} (h : BusReady od s)
    (hw : s.par.wf = true) (m1 : FieldMerged s.par .chargeCurrent s.par.chargeCurrent cc.1 cc.2)
    (m2 : FieldMerged s.par .prechargeCurrent s.par.prechargeCurrent pc.1 pc.2)
    (m3 : FieldMerged s.par .terminationCurrent s.par.terminationCurrent tc.1 tc.2)
    (m4 : FieldMerged s.par .chargeVoltage s.par.chargeVoltage cv.1 cv.2)
    (hg : s.env.gives (frameAnswers od (bootWriteFrame s.par cc pc tc cv))) :
    Ran (frameAnswers od (bootWriteFrame s.par cc pc tc cv))
      (frameEvents od (bootWriteFrame s.par cc pc tc cv)) s (bootWrites s) := by
  unfold bootWriteFrame at hg ⊢
  rw [frameAnswers_append, frameAnswers_append, frameAnswers_append] at hg ⊢
  rw [frameEvents_append, frameEvents_append, frameEvents_append]
  rw [Env.gives_append, Env.gives_append, Env.gives_append] at hg
  unfold bootWrites
  have r1 := ctlWrite_ran .chargeCurrent s.par.chargeCurrent h hw m1 hg.1
  have p1 := (ctlWrite_keeps .chargeCurrent s.par.chargeCurrent s).1
  generalize ctlWrite .chargeCurrent s.par.chargeCurrent s = t1 at *
  have r2 := ctlWrite_ran .prechargeCurrent s.par.prechargeCurrent (h.ran r1) (by rw [p1]; exact hw)
    (by rw [p1]; exact m2) (by rw [p1, r1.env]; exact hg.2.1)
  have p2 := (ctlWrite_keeps .prechargeCurrent s.par.prechargeCurrent t1).1.trans p1
  rw [p1] at r2
  generalize ctlWrite .prechargeCurrent s.par.prechargeCurrent t1 = t2 at *
  have r3 := ctlWrite_ran .terminationCurrent s.par.terminationCurrent ((h.ran r1).ran r2)
    (by rw [p2]; exact hw) (by rw [p2]; exact m3) (by rw [p2, r2.env, r1.env]; exact hg.2.2.1)
  have p3 := (ctlWrite_keeps .terminationCurrent s.par.terminationCurrent t2).1.trans p2
  rw [p2] at r3
  generalize ctlWrite .terminationCurrent s.par.terminationCurrent t2 = t3 at *
  have r4 := ctlWrite_ran .chargeVoltage s.par.chargeVoltage (((h.ran r1).ran r2).ran r3)
    (by rw [p3]; exact hw) (by rw [p3]; exact m4)
    (by rw [p3, r3.env, r2.env, r1.env]; exact hg.2.2.2)
  rw [p3] at r4
  exact r1.trans (r2.trans (r3.trans r4))

end Sys2Proof.Machine
end

