-- ==== Sys2Proof/Laws/Iteration.lean ====
section
/-! SUPPORT. A whole iteration of the control loop on a given peer: what its timers and its poll phase
make on the lines and leave in the state, whichever way the soft shutdown and the poll go
(spec/42_charge_controller.md R101, R106, R110). -/

namespace Sys2Proof.Machine

/-! ## The timers (R106 phase 2) -/

/-- A soft shutdown ends in this iteration or none does. -/
theorem noShutdownEnd_or_ends (s : State) : NoShutdownEnd s ∨ ShutdownEnds s := by
  unfold NoShutdownEnd ShutdownEnds
  cases s.ctl.ssdPending <;> cases s.ev.flag.hostAck <;> simp; omega

theorem dwellOver_of_ne {c : Ctl} (h : c.pstate ≠ .coolingDown) : dwellOver c = c := by
  unfold dwellOver; rw [if_neg h]

theorem sampling_off {s : State} (hi : CtlInv s) (h : s.ctl.pstate ≠ .powered) :
    s.ctl.adcCont = false := by
  cases hh : s.ctl.adcCont
  · rfl
  · exact absurd (hi.adc.mp hh) h

/-- The timers of an iteration in which a soft shutdown ends (R110). -/
theorem afterTimers_ends {s : State} (hi : CtlInv s) (h : ShutdownEnds s) :
    afterTimers s = if s.ev.flag.hostAck = true then enterSleeping (quietState s)
      else startFlash s.ports.nowMs (enterSleeping (quietState s)) := by
  have hp := (hi.pending h.1).1
  unfold afterTimers
  rw [flashTimer_snapshot]
  unfold dwellTimer
  rw [if_neg (by intro h; rw [show s.ctl.pstate = _ from h.1] at hp; cases hp)]
  unfold ssdPhase ssdTimers
  rw [if_pos (by exact h.1)]
  split
  · rfl
  · rename_i ha
    rw [if_pos (by exact h.2.resolve_left ha)]
    rfl

/-- What they leave in the controller and on its outputs. -/
theorem afterTimers_shutdown {s : State} (hi : CtlInv s) (h : ShutdownEnds s) :
    (afterTimers s).ctl = { s.ctl with
        pstate := .sleeping, ssdPending := false, adcCont := false
        flashActive := if s.ev.flag.hostAck = true then flashStill s else true
        flashStart := if s.ev.flag.hostAck = true then s.ctl.flashStart else s.ports.nowMs } ∧
      (afterTimers s).out =
        { s.out with powerRail := false, fanMode := .off, shutdownReq := false } := by
  rw [afterTimers_ends hi h]
  split <;> rename_i ha <;> simp [ha, startFlash, quietState]

/-- What they make on the lines. -/
theorem afterTimers_shutdown_ran {od : Bool} {s : State} {o n : Byte} (hi : CtlInv s)
    (h : ShutdownEnds s) (hr : BusReady od s) (hw : s.par.wf = true)
    (hm : FieldMerged s.par .adcContinuous s.par.adcOffValue o n)
    (hg : s.env.gives (frameAnswers od (fieldWriteFrame s.par .adcContinuous o n))) :
    Ran (frameAnswers od (fieldWriteFrame s.par .adcContinuous o n))
      (frameEvents od (fieldWriteFrame s.par .adcContinuous o n)) s (afterTimers s) := by
  have ran := (enterSleeping_ran (od := od) (s := quietState s)
    (hi.adc.mpr (hi.pending h.1).1) hr hw hm hg).from (s := s) rfl rfl rfl
  rw [afterTimers_ends hi h]
  split
  · exact ran
  · exact ran.off rfl rfl rfl

/-- The timers of any iteration outside the dwell, on a peer that acknowledges. -/
theorem afterTimers_makes {od : Bool} {s : State} {o n : Byte} {pre : List Sym} {start : PState}
    (hi : CtlInv s) (hr : BusReady od s) (hw : s.par.wf = true)
    (hd : s.ctl.pstate = .coolingDown → 120000 ≤ elapsed s.ports.nowMs s.ctl.coolStart)
    (hm : FieldMerged s.par .adcContinuous s.par.adcOffValue o n)
    (ht : TimersMake s (fieldWriteFrame s.par .adcContinuous o n) pre start)
    (hg : s.env.gives (frameAnswers od pre)) :
    Ran (frameAnswers od pre) (frameEvents od pre) s (afterTimers s) ∧
      (afterTimers s).ctl.pstate = start ∧
      (afterTimers s).ctl.overTemp = (dwellOver s.ctl).overTemp ∧
      ((afterTimers s).ctl.adcCont = true ↔ start = .powered) ∧
      ((afterTimers s).ctl.ssdPending = true → s.ctl.ssdPending = true) := by
  rcases ht with ⟨he, rfl, rfl⟩ | ⟨hn, rfl, rfl⟩
  · have e := (afterTimers_shutdown hi he).1
    refine ⟨afterTimers_shutdown_ran hi he hr hw hm hg, by rw [e], ?_, by rw [e]; simp, fun _ => he.1⟩
    rw [e, dwellOver_of_ne (by rw [(hi.pending he.1).1]; decide)]
  · rw [afterTimers_polls hi hn hd]
    refine ⟨(Ran.refl s).off rfl rfl rfl, rfl, rfl, ?_, ?_⟩
    · show (dwellOver s.ctl).adcCont = true ↔ _
      unfold dwellOver; split
      · rename_i h; rw [sampling_off hi (by rw [h]; decide)]; simp
      · exact hi.adc
    · show (dwellOver s.ctl).ssdPending = true → _
      unfold dwellOver; split <;> exact id

/-! ## The poll phase (R106 phase 5) -/

/-- What a poll may change of the controller's state, whatever the peer answers (R101, R104). -/
theorem poll_shape (now : Word) (s : State) :
    (poll now s).ctl = { s.ctl with
        overTemp := (poll now s).ctl.overTemp, status := (poll now s).ctl.status
        statusValid := (poll now s).ctl.statusValid, charging := (poll now s).ctl.charging
        battery := (poll now s).ctl.battery, lastPoll := now } ∧
      (s.ctl.overTemp = true → (poll now s).ctl.overTemp = true) := by
  refine ⟨?_, (poll_keep now s).2.1⟩
  unfold poll pollRead
  dsimp only
  have a := (readFieldByte_busOnly .status (s.onCtl fun c => { c with lastPoll := now })).ctl
  generalize readFieldByte .status (s.onCtl fun c => { c with lastPoll := now }) = E1 at *
  have b := (readFieldByte_busOnly .fault E1.st).ctl.trans a
  generalize readFieldByte .fault E1.st = E2 at *
  have c := (readFieldByte_busOnly .batteryAdc E2.st).ctl.trans b
  generalize readFieldByte .batteryAdc E2.st = E3 at *
  split
  · split
    · split
      · simp only [onCtl_ctl, c, applyPoll]
      · rw [c]; rfl
    · rw [b]; rfl
  · rw [a]; rfl

/-- A poll whose first, second or third read is refused at its address (R101). -/
theorem poll_refused {od : Bool} {s : State} {b1 b2 : Byte} {pre : List Sym} (now : Word)
    (hr : BusReady od s) (hw : s.par.wf = true) (hpre : pre ∈ readsBefore s.par b1 b2)
    (hg : s.env.gives (frameAnswers od (pre ++ addressRefused s.par.chargerAddr 0#1))) :
    Ran (frameAnswers od (pre ++ addressRefused s.par.chargerAddr 0#1))
        (frameEvents od (pre ++ addressRefused s.par.chargerAddr 0#1)) s (poll now s) ∧
      (poll now s).ctl = { s.ctl with lastPoll := now } := by
  have ok : Result.ok.isOk = true := rfl
  have no : ¬(Result.noAck false 0 0).isOk = true := by decide
  rw [frameAnswers_append, Env.gives_append] at hg
  rw [frameAnswers_append, frameEvents_append]
  generalize hE : (s.onCtl fun c => { c with lastPoll := now }) = E
  have Ep : E.par = s.par := by rw [← hE]; rfl
  have Ec : E.ctl = { s.ctl with lastPoll := now } := by rw [← hE]; rfl
  have Er : BusReady od E := by rw [← hE]; exact hr
  have Ew : E.par.wf = true := by rw [Ep]; exact hw
  have r0 : ∀ {as es u}, Ran as es E u → Ran as es s u := fun h => by
    rw [← hE] at h; exact h.from rfl rfl rfl
  have Ee : E.env = s.env := by rw [← hE]; rfl
  simp only [readsBefore, List.mem_cons, List.not_mem_nil, or_false] at hpre
  unfold poll pollRead
  rw [hE]
  dsimp only
  rcases hpre with rfl | rfl | rfl
  · obtain ⟨b, t, he, hra⟩ := readFieldByte_refused .status Er Ew (by rw [Ep, Ee]; exact hg.2)
    have hb := readFieldByte_busOnly .status E
    rw [he] at hb ⊢
    rw [if_neg no]
    rw [Ep] at hra
    exact ⟨r0 hra, hb.ctl.trans Ec⟩
  all_goals
    have h1 : E.env.gives
        (frameAnswers od (readFrame E.par.chargerAddr E.par.fields.status.reg b1)) := by
      rw [Ep, Ee]
      first
      | exact hg.1
      | (rw [frameAnswers_append, Env.gives_append] at hg; exact hg.1.1)
    obtain ⟨t, he, hra, -, -⟩ := readFieldByte_ran .status b1 Er Ew h1
    have hb := readFieldByte_busOnly .status E
    rw [he] at hb ⊢
    rw [if_pos ok]
    have tp : t.par = s.par := hb.par.trans Ep
    have te := hra.env
    rw [Ep, Ee] at te
    have tr := Er.ran hra
    rw [Ep] at hra
  · obtain ⟨b, u, he2, hra2⟩ := readFieldByte_refused .fault tr (by rw [tp]; exact hw)
      (by rw [tp, te]; exact hg.2)
    have hb2 := readFieldByte_busOnly .fault t
    rw [he2, if_neg no]
    rw [he2] at hb2
    rw [tp] at hra2
    exact ⟨r0 (hra.trans hra2), hb2.ctl.trans (hb.ctl.trans Ec)⟩
  · rw [frameAnswers_append, Env.gives_append] at hg
    rw [frameAnswers_append, frameEvents_append]
    obtain ⟨u, he2, hra2, -, -⟩ := readFieldByte_ran .fault b2 tr (by rw [tp]; exact hw)
      (by rw [tp, te]; exact hg.1.2)
    have hb2 := readFieldByte_busOnly .fault t
    rw [he2, if_pos ok]
    rw [he2] at hb2
    have up : u.par = s.par := (show u.par = t.par from hb2.par).trans tp
    obtain ⟨b, v, he3, hra3⟩ := readFieldByte_refused .batteryAdc (tr.ran hra2)
      (by rw [up]; exact hw) (by
        rw [up, hra2.env, te, tp]
        have := hg.2; rw [List.length_append, Env.skip_add] at this; exact this)
    have hb3 := readFieldByte_busOnly .batteryAdc u
    rw [he3, if_neg no]
    rw [he3] at hb3
    rw [tp] at hra2; rw [up] at hra3
    exact ⟨r0 ((hra.trans hra2).trans hra3),
      (show v.ctl = u.ctl from hb3.ctl).trans (hb2.ctl.trans (hb.ctl.trans Ec))⟩

/-- The poll phase from a state that shares the parameters, the view and the poll time with `s`. -/
theorem pollPhase_makes {od : Bool} {s v : State} {o : PollOutcome} (ho : PollMakes s o)
    (hi : CtlInv s) (hr : BusReady od v) (hw : s.par.wf = true) (hp : v.par = s.par)
    (hc : v.ctl.pstate ≠ .coolingDown) (hl : v.ctl.lastPoll = s.ctl.lastPoll)
    (hst : v.ctl.status = s.ctl.status) (hb : v.ctl.battery = s.ctl.battery)
    (hv : v.ctl.statusValid = s.ctl.statusValid) (hch : v.ctl.charging = s.ctl.charging)
    (hg : v.env.gives (frameAnswers od o.frame)) :
    let u := pollPhase s.ports.nowMs s.ev.flag v
    Ran (frameAnswers od o.frame) (frameEvents od o.frame) v u ∧
      u.ctl = { v.ctl with
        overTemp := v.ctl.overTemp || o.hot, status := o.status, statusValid := o.valid
        charging := u.ctl.charging, battery := u.ctl.battery, lastPoll := u.ctl.lastPoll } ∧
      u.ctl.battery.mV.toNat = o.mV ∧
      (u.ctl.charging = true ↔ o.status.chargeState ≠ .notCharging) := by
  have ch := hi.charging
  cases ho with
  | idle hn =>
    have e : pollPhase s.ports.nowMs s.ev.flag v = v := by
      unfold PollDue at hn; simp only [not_or] at hn
      unfold pollPhase; rw [if_neg (by rw [hp, hl]; simp [hn.1, hn.2])]
    dsimp only
    rw [e]
    refine ⟨Ran.refl v, ?_, by rw [hb], by rw [hch]; exact ch⟩
    rw [← hst, ← hv, Bool.or_false]
  | done b1 b2 b3 hd =>
    dsimp only at hg ⊢
    rw [pollPhase_due hd hc hl hp]
    obtain ⟨r, c⟩ := poll_ran (od := od) s.ports.nowMs (s := v) (b1 := b1) (b2 := b2) (b3 := b3) hr
      (by rw [hp]; exact hw) (by rw [hp]; exact hg)
    rw [hp] at r c
    have view := applyPoll_view hw s.ports.nowMs b1 b2 b3
      { v.ctl with lastPoll := s.ports.nowMs } rfl
    rw [← c] at view
    refine ⟨r, ?_, view.mV, by rw [view.charging, view.status]⟩
    have h := view.status
    rw [c] at h ⊢
    simp only [applyPoll] at h ⊢
    rw [h]
  | refused b1 b2 pre hd hpre =>
    dsimp only at hg ⊢
    rw [pollPhase_due hd hc hl hp]
    obtain ⟨r, c⟩ := poll_refused (od := od) (s := v) s.ports.nowMs hr (by rw [hp]; exact hw)
      (by rw [hp]; exact hpre) (by rw [hp]; exact hg)
    rw [hp] at r
    refine ⟨r, ?_, by rw [c, hb], by rw [c]; show v.ctl.charging = true ↔ _; rw [hch]; exact ch⟩
    rw [c, ← hst, ← hv, Bool.or_false]

/-! ## The iteration up to its fault transitions -/

/-- The state a poll phase starts from, whatever the timers did (R106 phases 1 to 4). -/
def beforePoll (s : State) : State :=
  thermalPhase s.ev.flag (debouncePhase s.ports.nowMs s.ports.btnLevel (afterTimers s))

theorem beforePoll_rest (s : State) : (beforePoll s).bus = (afterTimers s).bus ∧
    (beforePoll s).env = (afterTimers s).env ∧ (beforePoll s).trace = (afterTimers s).trace ∧
    (beforePoll s).out = (afterTimers s).out ∧ (beforePoll s).btn = buttonAfter s ∧
    (beforePoll s).par = s.par ∧
    (beforePoll s).ctl = { (afterTimers s).ctl with
      overTemp := (afterTimers s).ctl.overTemp || s.ev.flag.thermal } := by
  have hp := afterTimers_par s
  have hb : ((afterTimers s).btn.debounce (afterTimers s).par s.ports.nowMs s.ports.btnLevel).2 =
      buttonAfter s := by rw [afterTimers_btn, hp]; rfl
  unfold beforePoll thermalPhase
  split
  · rename_i h; rw [h, Bool.or_true]; exact ⟨rfl, rfl, rfl, rfl, hb, hp, rfl⟩
  · rename_i h; rw [show s.ev.flag.thermal = false by simpa using h, Bool.or_false]
    exact ⟨rfl, rfl, rfl, rfl, hb, hp, rfl⟩

/-- The state the fault transitions start from (R106 phases 1 to 5). -/
def afterPoll (s : State) : State := pollPhase s.ports.nowMs s.ev.flag (beforePoll s)

theorem afterFaults_eq (s : State) :
    afterFaults s = faultTransitions s.ports.nowMs (afterPoll s) := rfl

theorem afterPoll_par (s : State) : (afterPoll s).par = s.par := by
  unfold afterPoll; rw [pollPhase_par]; exact (beforePoll_rest s).2.2.2.2.2.1

theorem afterPoll_pstate (s : State) : (afterPoll s).ctl.pstate = (afterTimers s).ctl.pstate := by
  unfold afterPoll; rw [(pollPhase_keep _ _ _).1, (beforePoll_rest s).2.2.2.2.2.2]

/-- An iteration that is not blocked, from phase 6 on (R106). -/
theorem execCtrlStep_afterPoll {s : State} (h : Unblocked s) : exec .ctrlStep s =
    .next ((updateOutputs s.ports.nowMs (holdPhase s.ports.nowMs
      (s.btn.debounce s.par s.ports.nowMs s.ports.btnLevel).1
      (faultTransitions s.ports.nowMs (afterPoll s)))).finish .ok) := by
  rw [execCtrlStep_active h]; rfl

/-- What phases 3 to 5 may change, whatever the peer answers. -/
theorem afterPoll_shape (s : State) :
    (afterPoll s).ctl = { (afterTimers s).ctl with
        overTemp := (afterPoll s).ctl.overTemp, status := (afterPoll s).ctl.status
        statusValid := (afterPoll s).ctl.statusValid, charging := (afterPoll s).ctl.charging
        battery := (afterPoll s).ctl.battery, lastPoll := (afterPoll s).ctl.lastPoll } ∧
      (afterPoll s).out = (afterTimers s).out ∧ (afterPoll s).btn = buttonAfter s := by
  obtain ⟨-, -, -, ho, hb, -, hc⟩ := beforePoll_rest s
  unfold afterPoll pollPhase
  split
  · have sh := (poll_shape s.ports.nowMs (beforePoll s)).1
    rw [hc] at sh
    exact ⟨by rw [sh], by rw [poll_out, ho], by rw [poll_btn, hb]⟩
  · exact ⟨by rw [hc], ho, hb⟩

/-- Phases 1 to 5 of an iteration outside the dwell, on a peer that acknowledges the field writes. -/
theorem afterPoll_makes {od : Bool} {s : State} {o n : Byte} {pre : List Sym} {start : PState}
    {w : PollOutcome} (hi : CtlInv s) (hr : BusReady od s) (hw : s.par.wf = true)
    (hsh : s.ctl.pstate ≠ .shippingMode)
    (hd : s.ctl.pstate = .coolingDown → 120000 ≤ elapsed s.ports.nowMs s.ctl.coolStart)
    (hm : FieldMerged s.par .adcContinuous s.par.adcOffValue o n)
    (ht : TimersMake s (fieldWriteFrame s.par .adcContinuous o n) pre start) (ho : PollMakes s w)
    (hg : s.env.gives (frameAnswers od (pre ++ w.frame))) :
    Ran (frameAnswers od (pre ++ w.frame)) (frameEvents od (pre ++ w.frame)) s (afterPoll s) ∧
      (start = .sleeping ∨ start = .powered) ∧ (afterPoll s).ctl.pstate = start ∧
      ((afterPoll s).ctl.adcCont = true ↔ start = .powered) ∧
      ((afterPoll s).ctl.ssdPending = true → s.ctl.ssdPending = true) ∧
      ((afterPoll s).ctl.overTemp = true ↔ Alert s ∨ w.hot = true) ∧
      (afterPoll s).ctl.status = w.status ∧ (afterPoll s).ctl.statusValid = w.valid ∧
      (afterPoll s).ctl.battery.mV.toNat = w.mV ∧
      ((afterPoll s).ctl.charging = true ↔ w.status.chargeState ≠ .notCharging) := by
  rw [frameAnswers_append, Env.gives_append] at hg
  obtain ⟨a, b, c, d, e⟩ := afterTimers_makes hi hr hw hd hm ht hg.1
  obtain ⟨p1, p2, p3, -, -, p4, p5⟩ := beforePoll_rest s
  have hst : start = .sleeping ∨ start = .powered := by
    rcases ht with ⟨_, _, rfl⟩ | ⟨_, _, rfl⟩
    · exact .inl rfl
    · unfold dwellOver; split
      · exact .inl rfl
      · cases hh : s.ctl.pstate <;> simp_all
  have ra : Ran (frameAnswers od pre) (frameEvents od pre) s (beforePoll s) := a.off p1 p2 p3
  obtain ⟨v1, v2, v3, v4, v5, -⟩ := afterTimers_view (s := s)
  have hc : (beforePoll s).ctl.pstate ≠ .coolingDown := by
    rw [p5]; show (afterTimers s).ctl.pstate ≠ _; rw [b]; rcases hst with h | h <;> rw [h] <;> decide
  have M := pollPhase_makes (od := od) (s := s) (v := beforePoll s) ho hi (hr.ran ra) hw p4 hc
    (by rw [p5]; exact v3) (by rw [p5]; exact v1) (by rw [p5]; exact v4) (by rw [p5]; exact v2)
    (by rw [p5]; exact v5) (by rw [ra.env]; exact hg.2)
  obtain ⟨m1, m2, m3, m4⟩ := M
  change (afterPoll s).ctl = _ at m2
  rw [frameAnswers_append, frameEvents_append]
  refine ⟨ra.trans m1, hst, ?_, ?_, ?_, ?_, by rw [m2], by rw [m2], m3, m4⟩
  · rw [m2, p5]; exact b
  · rw [m2, p5]; exact d
  · rw [m2, p5]; exact e
  · rw [m2, p5]; simp only [c, Bool.or_eq_true]; unfold Alert
    rw [or_comm (a := (dwellOver s.ctl).overTemp = true)]

/-- Fault transitions that leave Powered made none (R107). -/
theorem faultTransitions_powered {now : Word} {s : State}
    (h : (faultTransitions now s).ctl.pstate = .powered) :
    faultTransitions now s = s ∧ s.ctl.overTemp = false := by
  unfold faultTransitions at *
  split at h
  · rename_i hc; rw [hc] at h; cases h
  · split at h
    · simp at h
    · split at h
      · simp at h
      · rename_i h1 h2 h3
        rw [if_neg h1, if_neg h2, if_neg h3]
        exact ⟨rfl, by simpa using h2⟩

end Sys2Proof.Machine
end

