-- ==== Sys2Proof/Laws/PerInstr.lean ====
section
/-! SUPPORT. Families of statements about each instruction as syntax: one lemma per constructor. -/

namespace Sys2Proof.Laws

/-! ## RoundTrip: the decoder reads back what the encoder writes -/

/-- On its own port, the word of a well-formed instruction decodes to it. -/
def RoundTrip.Statement (i : Instr) : Prop := i.wf = true → decode i.port (encode i) = .ok i

theorem RoundTrip.configure (rate : Rate) : RoundTrip.Statement (.configure rate) := by
  intro _
  cases rate <;> simp [decode, Instr.port, encode, decodeCommand, decodeConfigure, rateImm, whenZero]

theorem RoundTrip.transfer (a : Addr7) (n : Byte) : RoundTrip.Statement (.transfer a n) := by
  intro _; simp [decode, Instr.port, encode, decodeCommand, whenZero]

theorem RoundTrip.regRead (a : Addr7) (r len : Byte) : RoundTrip.Statement (.regRead a r len) := by
  intro _; simp [decode, Instr.port, encode, decodeCommand]

theorem RoundTrip.regWrite (a : Addr7) (r len : Byte) :
    RoundTrip.Statement (.regWrite a r len) := by
  intro _; simp [decode, Instr.port, encode, decodeCommand]

theorem RoundTrip.fieldRead (f : Byte) : RoundTrip.Statement (.fieldRead f) := by
  intro h
  have hf : f.toNat ≤ 20 := by simpa [Instr.wf] using h
  simp [decode, Instr.port, encode, decodeCommand, decodeField, whenZero, hf]

theorem RoundTrip.fieldWrite (f : Byte) : RoundTrip.Statement (.fieldWrite f) := by
  intro h
  have hf : f.toNat ≤ 20 := by simpa [Instr.wf] using h
  simp [decode, Instr.port, encode, decodeCommand, decodeField, whenZero, hf]

theorem RoundTrip.probe : RoundTrip.Statement .probe := by intro _; rfl

theorem RoundTrip.ctrlBoot : RoundTrip.Statement .ctrlBoot := by intro _; rfl

theorem RoundTrip.ctrlStep : RoundTrip.Statement .ctrlStep := by intro _; rfl

theorem RoundTrip.readState (sel : Byte) : RoundTrip.Statement (.readState sel) := by
  intro h
  have hs : sel.toNat ≤ 3 := by simpa [Instr.wf] using h
  simp [decode, Instr.port, encode, decodeCommand, decodeReadState, whenZero, hs]

theorem RoundTrip.evtButton : RoundTrip.Statement .evtButton := by intro _; rfl

theorem RoundTrip.evtChgIrq : RoundTrip.Statement .evtChgIrq := by intro _; rfl

theorem RoundTrip.evtThermal : RoundTrip.Statement .evtThermal := by intro _; rfl

theorem RoundTrip.evtHostAck : RoundTrip.Statement .evtHostAck := by intro _; rfl

end Sys2Proof.Laws
end

