-- ==== Sys2Proof/Laws/Ports.lean ====
section
/-! SUPPORT. The bus side of the block neither reads nor writes the command port's own data ports: every
bus operation on a state with other data there does the same and leaves them there. -/

namespace Sys2Proof.Machine

/-- A waveform's states changed by `F`. -/
def Wave.map {α : Type} (F : State → State) : Wave α → Wave α
  | .done a s => .done a (F s)
  | .timeout s => .timeout (F s)

/-- A transaction's states changed by `F`. -/
def Txn.map (F : State → State) : Txn → Txn
  | .go b s => .go b (F s)
  | .stop r b s => .stop r b (F s)

/-- A change of the state that no bus operation sees: it commutes with every primitive and keeps what
they read. -/
structure BusUnseen (F : State → State) : Prop where
  bus : ∀ s, (F s).bus = s.bus
  par : ∀ s, (F s).par = s.par
  env : ∀ s, (F s).env = s.env
  onBus : ∀ s f, (F s).onBus f = F (s.onBus f)
  drive : ∀ l v s, drive l v (F s) = F (drive l v s)
  wait : ∀ d s, wait d (F s) = F (wait d s)
  sample : ∀ l s, sample l (F s) = F (sample l s)
  unmask : ∀ s, (F s).unmask = F s.unmask

/-- A change of the state that neither a bus operation nor the controller sees. -/
structure Unseen (F : State → State) : Prop extends BusUnseen F where
  ctl : ∀ s, (F s).ctl = s.ctl
  btn : ∀ s, (F s).btn = s.btn
  out : ∀ s, (F s).out = s.out
  onCtl : ∀ s f, (F s).onCtl f = F (s.onCtl f)
  onBtn : ∀ s f, (F s).onBtn f = F (s.onBtn f)
  onOut : ∀ s f, (F s).onOut f = F (s.onOut f)
  onEv : ∀ s f, (F s).onEv f = F (s.onEv f)

/-- Other contents of the data ports are unseen. -/
theorem otherPorts_unseen (d : Cells 16) (m : Memory) (v r : Word) : Unseen (otherPorts d m v r) :=
  ⟨⟨fun _ => rfl, fun _ => rfl, fun _ => rfl, fun _ _ => rfl, fun _ _ _ => rfl, fun _ _ => rfl,
    fun _ _ => rfl, fun _ => rfl⟩, fun _ => rfl, fun _ => rfl, fun _ => rfl, fun _ _ => rfl,
    fun _ _ => rfl, fun _ _ => rfl, fun _ _ => rfl⟩

variable {F : State → State}

theorem Wave.andThen_map {α β : Type} {w w' : Wave α} {f : α → State → Wave β}
    (hw : w' = w.map F) (hf : ∀ a s, f a (F s) = (f a s).map F) :
    w'.andThen f = (w.andThen f).map F := by
  subst hw
  cases w with
  | done a s => exact hf a s
  | timeout s => rfl

namespace BusUnseen

theorem sampled (h : BusUnseen F) (s : State) : sampled (F s) = Machine.sampled s := by
  unfold Machine.sampled; rw [h.env]

theorem pollScl (h : BusUnseen F) (n : Nat) (s : State) : pollScl n (F s) = (Machine.pollScl n s).map F := by
  induction n generalizing s with
  | zero =>
    unfold Machine.pollScl
    rw [h.sampled]
    split <;> rw [h.sample] <;> rfl
  | succ n ih =>
    unfold Machine.pollScl
    rw [h.sampled]
    split
    · rw [h.sample]; rfl
    · rw [h.sample, h.wait]; exact ih _

theorem sclRelease (h : BusUnseen F) (s : State) : sclRelease (F s) = F (Machine.sclRelease s) := by
  unfold Machine.sclRelease; rw [h.bus]; exact h.drive _ _ _

theorem sclLow (h : BusUnseen F) (s : State) : sclLow (F s) = F (Machine.sclLow s) := h.drive _ _ _

theorem sdaFloat (h : BusUnseen F) (s : State) : sdaFloat (F s) = F (Machine.sdaFloat s) := h.drive _ _ _

theorem sdaSet (h : BusUnseen F) (b : Bool) (s : State) : sdaSet b (F s) = F (Machine.sdaSet b s) := by
  unfold Machine.sdaSet; rw [h.bus]; exact h.drive _ _ _

theorem sclRise (h : BusUnseen F) (s : State) : sclRise (F s) = (Machine.sclRise s).map F := by
  unfold Machine.sclRise waitSclHigh
  rw [h.sclRelease, h.bus, h.par]
  split
  · rfl
  · exact h.pollScl _ _

theorem start (h : BusUnseen F) (s : State) : start (F s) = (Machine.start s).map F := by
  unfold Machine.start
  refine Wave.andThen_map (by rw [h.sdaSet, h.wait]; exact h.sclRise _) fun _ s => ?_
  rw [h.wait, h.sdaSet, h.wait, h.sclLow, h.wait]
  exact congrArg _ (h.onBus _ _)

theorem stop (h : BusUnseen F) (s : State) : stop (F s) = (Machine.stop s).map F := by
  unfold Machine.stop
  refine Wave.andThen_map (by rw [h.sclLow, h.wait, h.sdaSet, h.wait]; exact h.sclRise _) fun _ s => ?_
  rw [h.wait, h.sdaSet, h.wait]
  exact congrArg _ (h.onBus _ _)

theorem writeBit (h : BusUnseen F) (b : Bool) (s : State) :
    writeBit b (F s) = (Machine.writeBit b s).map F := by
  unfold Machine.writeBit
  refine Wave.andThen_map (by rw [h.sdaSet, h.wait]; exact h.sclRise _) fun _ s => ?_
  rw [h.wait, h.sclLow]; rfl

theorem readBit (h : BusUnseen F) (s : State) : readBit (F s) = (Machine.readBit s).map F := by
  unfold Machine.readBit
  refine Wave.andThen_map (by rw [h.sdaFloat, h.wait]; exact h.sclRise _) fun _ s => ?_
  unfold readBitEnd
  rw [h.wait, h.sampled, h.sample, h.sclLow]; rfl

theorem writeBits (h : BusUnseen F) (v : Byte) (n : Nat) (s : State) :
    writeBits v n (F s) = (Machine.writeBits v n s).map F := by
  induction n generalizing s with
  | zero => rfl
  | succ n ih =>
    unfold Machine.writeBits
    exact Wave.andThen_map (by unfold setBit; rw [h.onBus]; exact h.writeBit _ _) fun _ s => ih s

theorem writeByte (h : BusUnseen F) (v : Byte) (s : State) :
    writeByte v (F s) = (Machine.writeByte v s).map F := by
  unfold Machine.writeByte
  refine Wave.andThen_map (by unfold setShift; rw [h.onBus]; exact h.writeBits _ _ _) fun _ s => ?_
  exact Wave.andThen_map (h.readBit s) fun _ _ => rfl

theorem readBits (h : BusUnseen F) (v : Byte) (n : Nat) (s : State) :
    readBits v n (F s) = (Machine.readBits v n s).map F := by
  induction n generalizing v s with
  | zero => rfl
  | succ n ih =>
    unfold Machine.readBits
    exact Wave.andThen_map (by unfold setBit; rw [h.onBus]; exact h.readBit _) fun _ s => ih _ s

theorem readByte (h : BusUnseen F) (last : Bool) (s : State) :
    readByte last (F s) = (Machine.readByte last s).map F := by
  unfold Machine.readByte
  refine Wave.andThen_map (h.readBits _ _ _) fun v s => ?_
  exact Wave.andThen_map (by unfold setShift; rw [h.onBus]; exact h.writeBit _ _) fun _ _ => rfl

theorem releaseBus (h : BusUnseen F) (s : State) : releaseBus (F s) = F (Machine.releaseBus s) := by
  unfold Machine.releaseBus
  rw [h.sdaSet, h.sclRelease]
  exact h.onBus _ _

theorem abort (h : BusUnseen F) (ph : Bool) (j k : Nat) (buf : Memory) (s : State) :
    abort ph j k buf (F s) = (Machine.abort ph j k buf s).map F := by
  unfold Machine.abort; rw [h.releaseBus]; rfl

theorem stopNoAck (h : BusUnseen F) (ph : Bool) (j k : Nat) (buf : Memory) (s : State) :
    stopNoAck ph j k buf (F s) = (Machine.stopNoAck ph j k buf s).map F := by
  unfold Machine.stopNoAck
  rw [h.stop]
  cases Machine.stop s with
  | done a t => rfl
  | timeout t => exact h.abort _ _ _ _ _

theorem afterWrite (h : BusUnseen F) (ph : Bool) (j k : Nat) (buf : Memory) {w w' : Wave Bool}
    {cont : State → Txn} (hw : w' = w.map F) (hc : ∀ s, cont (F s) = (cont s).map F) :
    afterWrite ph j k buf w' cont = (Machine.afterWrite ph j k buf w cont).map F := by
  subst hw
  unfold Machine.afterWrite
  cases w with
  | done a t => cases a <;> [exact h.stopNoAck _ _ _ _ _; exact hc t]
  | timeout t => exact h.abort _ _ _ _ _

theorem andThen {t t' : Txn} {f : Memory → State → Txn} (ht : t' = t.map F)
    (hf : ∀ b s, f b (F s) = (f b s).map F) : t'.andThen f = (t.andThen f).map F := by
  subst ht
  cases t with
  | go b s => exact hf b s
  | stop r b s => rfl

theorem writePhase (h : BusUnseen F) (buf : Memory) (off j n k : Nat) (s : State) :
    writePhase buf off j n k (F s) = (Machine.writePhase buf off j n k s).map F := by
  induction n generalizing k s with
  | zero => rfl
  | succ n ih =>
    unfold Machine.writePhase
    exact h.afterWrite _ _ _ _ (by unfold setByte; rw [h.onBus]; exact h.writeByte _ _) fun s => ih _ s

theorem readPhase (h : BusUnseen F) (off j n k : Nat) (buf : Memory) (s : State) :
    readPhase off j n k buf (F s) = (Machine.readPhase off j n k buf s).map F := by
  induction n generalizing k buf s with
  | zero => rfl
  | succ n ih =>
    have he : setByte k (F s) = F (setByte k s) := h.onBus _ _
    unfold Machine.readPhase
    rw [he, h.readByte]
    cases Machine.readByte (n == 0) (setByte k s) with
    | done v t => exact ih _ _ _
    | timeout t => exact h.abort _ _ _ _ _

theorem message (h : BusUnseen F) (a : Addr7) (off j : Nat) (d : Half) (buf : Memory) (s : State) :
    message a off j d buf (F s) = (Machine.message a off j d buf s).map F := by
  have he : setMsg j (F s) = F (setMsg j s) := h.onBus _ _
  unfold Machine.message
  refine andThen (andThen ?_ fun b s => ?_) fun b s => ?_
  · rw [he]
    unfold messageAddress
    split
    · unfold addressPhase
      rw [h.start]
      cases Machine.start (setMsg j s) with
      | done _ t => exact h.afterWrite _ _ _ _ (h.writeByte _ _) fun _ => rfl
      | timeout t => exact h.abort _ _ _ _ _
    · rfl
  · unfold messageBody
    split
    · exact h.readPhase _ _ _ _ _ _
    · exact h.writePhase _ _ _ _ _ _
  · unfold messageStop
    split
    · rw [h.stop]
      cases Machine.stop s with
      | done _ t => rfl
      | timeout t => exact h.abort _ _ _ _ _
    · rfl

theorem messages (h : BusUnseen F) (a : Addr7) (ds : List Half) (off j : Nat) (buf : Memory) (s : State) :
    messages a ds off j buf (F s) = (Machine.messages a ds off j buf s).map F := by
  induction ds generalizing off j buf s with
  | nil => rfl
  | cons d rest ih => exact andThen (h.message _ _ _ _ _ _) fun b t => ih _ _ b t

/-- A transaction does not see the change. -/
theorem transferOn (h : BusUnseen F) (a : Addr7) (ds : List Half) (buf : Memory) (s : State) :
    transferOn a ds buf (F s) = ⟨(Machine.transferOn a ds buf s).res,
      (Machine.transferOn a ds buf s).buf, F (Machine.transferOn a ds buf s).st⟩ := by
  have hm : (F s).maskIrq = F s.maskIrq := h.onBus _ _
  unfold Machine.transferOn
  rw [h.bus, h.par, hm, h.messages]
  split
  · split
    · cases Machine.messages a ds 0 0 buf s.maskIrq with
      | go b t => simp only [Txn.map, Txn.close, h.unmask]
      | stop r b t => simp only [Txn.map, Txn.close, h.unmask]
    · rfl
  · rfl

theorem detectLow (h : BusUnseen F) (n : Nat) (s : State) :
    detectLow n (F s) = ((Machine.detectLow n s).1, F (Machine.detectLow n s).2) := by
  induction n generalizing s with
  | zero => rfl
  | succ n ih =>
    unfold Machine.detectLow
    rw [h.wait, h.sampled, h.sample]
    split
    · exact ih _
    · rfl

/-- CONFIGURE does not see the change. -/
theorem configure (h : BusUnseen F) (rate : Rate) (s : State) :
    configure rate (F s) = F (Machine.configure rate s) := by
  have hs : ∀ (w : Wave Unit), (w.map F).state = F w.state := by intro w; cases w <;> rfl
  have hb : configureBegin rate (F s) = F (configureBegin rate s) := by
    unfold configureBegin
    rw [h.onBus, h.stop, hs, h.sclRelease]
  have he : ∀ low t, configureEnd low (F t) = F (configureEnd low t) := by
    intro low t
    unfold configureEnd
    rw [h.onBus, h.sdaSet, h.sclRelease, h.onBus]
  unfold Machine.configure
  rw [hb, h.detectLow, he]

/-! ## The charging IC's fields -/

theorem readFieldByte (h : BusUnseen F) (f : FieldId) (s : State) :
    readFieldByte f (F s) = ⟨(Machine.readFieldByte f s).res, (Machine.readFieldByte f s).byte,
      F (Machine.readFieldByte f s).st⟩ := by
  unfold Machine.readFieldByte regReadOn
  dsimp only
  rw [h.par, h.transferOn]

theorem ctlWrite (h : BusUnseen F) (f : FieldId) (p : Nat) (s : State) :
    ctlWrite f p (F s) = F (Machine.ctlWrite f p s) := by
  unfold Machine.ctlWrite fieldWriteOn
  dsimp only
  rw [h.readFieldByte]
  dsimp only
  split
  · unfold writeFieldBack regWriteOn
    dsimp only
    simp only [h.par, h.transferOn]
  · rfl

end BusUnseen

/-! ## What a bus operation sees -/

/-- The bus side of a state: the bus, the parameters, the environment and the line trace; all else is
blanked out, the event port and the latches among it. -/
def State.busSide (s : State) : State :=
  { s with
    ctl := Ctl.reset, btn := Btn.reset, out := Out.reset, ev := Latches.reset
    ports := { Ports.reset with evt := [] } }

theorem busSide_unseen : BusUnseen State.busSide :=
  ⟨fun _ => rfl, fun _ => rfl, fun _ => rfl, fun _ _ => rfl, fun _ _ _ => rfl, fun _ _ => rfl,
    fun _ _ => rfl, fun _ => rfl⟩

/-- The register byte of a field, read in two states of one bus side: the same result and byte, and again
one bus side. -/
theorem readFieldByte_congr (f : FieldId) {s t : State} (h : s.busSide = t.busSide) :
    (readFieldByte f s).res = (readFieldByte f t).res ∧
      (readFieldByte f s).byte = (readFieldByte f t).byte ∧
      (readFieldByte f s).st.busSide = (readFieldByte f t).st.busSide := by
  have hs := busSide_unseen.readFieldByte f s
  rw [h, busSide_unseen.readFieldByte f t] at hs
  injection hs with h1 h2 h3
  exact ⟨h1.symm, h2.symm, h3.symm⟩

namespace Unseen

/-! ## The controller -/

theorem adcOff (h : Unseen F) (s : State) : adcOff (F s) = F (Machine.adcOff s) := by
  unfold Machine.adcOff
  rw [h.ctl, h.par, h.onCtl, h.ctlWrite]
  split <;> rfl

theorem powerDown (h : Unseen F) (p : PState) (fan : FanMode) (s : State) :
    powerDown p fan (F s) = F (Machine.powerDown p fan s) := by
  unfold Machine.powerDown; rw [h.onCtl, h.onOut]

theorem startFlash (h : Unseen F) (now : Word) (s : State) :
    startFlash now (F s) = F (Machine.startFlash now s) := h.onCtl _ _

theorem enterPowered (h : Unseen F) (s : State) : enterPowered (F s) = F (Machine.enterPowered s) := by
  unfold Machine.enterPowered; rw [h.par, h.onCtl, h.onOut, h.ctlWrite]

theorem enterSleeping (h : Unseen F) (s : State) :
    enterSleeping (F s) = F (Machine.enterSleeping s) := by
  unfold Machine.enterSleeping; rw [h.powerDown, h.adcOff]

theorem enterCoolingDown (h : Unseen F) (now : Word) (s : State) :
    enterCoolingDown now (F s) = F (Machine.enterCoolingDown now s) := by
  unfold Machine.enterCoolingDown; rw [h.powerDown, h.onCtl, h.adcOff, h.startFlash]

theorem enterShipping (h : Unseen F) (now : Word) (s : State) :
    enterShipping now (F s) = F (Machine.enterShipping now s) := by
  unfold Machine.enterShipping isolateBattery
  rw [h.powerDown, h.adcOff, h.par, h.onCtl, h.ctlWrite, h.startFlash]

theorem pollRead (h : Unseen F) (f : FieldId) {c : Byte → State → State}
    (hc : ∀ b s, c b (F s) = F (c b s)) (s : State) : pollRead f c (F s) = F (Machine.pollRead f c s) := by
  unfold Machine.pollRead
  dsimp only
  rw [h.readFieldByte]
  dsimp only
  rw [h.par, hc]
  split <;> rfl

theorem poll (h : Unseen F) (now : Word) (s : State) : poll now (F s) = F (Machine.poll now s) := by
  unfold Machine.poll
  rw [h.onCtl]
  refine h.pollRead _ (fun _ s => h.pollRead _ (fun _ s => h.pollRead _ (fun _ s => ?_) s) s) _
  rw [h.par, h.onCtl]

theorem bootWrites (h : Unseen F) (s : State) : bootWrites (F s) = F (Machine.bootWrites s) := by
  unfold Machine.bootWrites; simp only [h.par, h.ctlWrite]

theorem updateOutputs (h : Unseen F) (now : Word) (s : State) :
    updateOutputs now (F s) = F (Machine.updateOutputs now s) := by
  unfold Machine.updateOutputs; rw [h.ctl, h.onOut]

theorem bootRun (h : Unseen F) (now : Word) (s : State) : bootRun now (F s) = F (Machine.bootRun now s) := by
  unfold Machine.bootRun; rw [h.bootWrites, h.onCtl, h.poll, h.updateOutputs]

theorem bootProbe (h : Unseen F) (s : State) :
    bootProbe (F s) = ⟨(Machine.bootProbe s).res, (Machine.bootProbe s).byte,
      F (Machine.bootProbe s).st⟩ := by
  unfold Machine.bootProbe; rw [h.par, h.configure, h.readFieldByte]

theorem flashTimer (h : Unseen F) (now : Word) (s : State) :
    flashTimer now (F s) = F (Machine.flashTimer now s) := by
  unfold Machine.flashTimer; rw [h.ctl, h.onCtl]; split <;> rfl

theorem dwellTimer (h : Unseen F) (now : Word) (s : State) :
    dwellTimer now (F s) = F (Machine.dwellTimer now s) := by
  unfold Machine.dwellTimer; rw [h.ctl, h.onCtl, h.enterSleeping]; split <;> rfl

theorem ssdPhase (h : Unseen F) (now : Word) (ack : Bool) (s : State) :
    ssdPhase now ack (F s) = F (Machine.ssdPhase now ack s) := by
  unfold Machine.ssdPhase ssdTimers
  rw [h.ctl, h.out, h.enterSleeping, h.startFlash, h.onOut]
  (repeat' split) <;> rfl

theorem faultTransitions (h : Unseen F) (now : Word) (s : State) :
    faultTransitions now (F s) = F (Machine.faultTransitions now s) := by
  unfold Machine.faultTransitions
  rw [h.ctl, h.enterCoolingDown, h.enterShipping]
  (repeat' split) <;> rfl

theorem arbitrate (h : Unseen F) (now : Word) (s : State) :
    arbitrate now (F s) = F (Machine.arbitrate now s) := by
  unfold Machine.arbitrate requestShutdown
  rw [h.ctl, h.par, h.enterPowered, h.startFlash, h.onCtl, h.onOut, h.enterSleeping]
  (repeat' split) <;> rfl

theorem holdPhase (h : Unseen F) (now : Word) (fired : Bool) (s : State) :
    holdPhase now fired (F s) = F (Machine.holdPhase now fired s) := by
  unfold Machine.holdPhase; rw [h.onBtn, h.arbitrate]; split <;> rfl

theorem thermalPhase (h : Unseen F) (e : EventBits) (s : State) :
    thermalPhase e (F s) = F (Machine.thermalPhase e s) := by
  unfold Machine.thermalPhase; rw [h.onCtl]; split <;> rfl

theorem pollPhase (h : Unseen F) (now : Word) (e : EventBits) (s : State) :
    pollPhase now e (F s) = F (Machine.pollPhase now e s) := by
  unfold Machine.pollPhase; rw [h.ctl, h.par, h.poll]; split <;> rfl

theorem debouncePhase (h : Unseen F) (now : Word) (level : Bool) (s : State) :
    debouncePhase now level (F s) = F (Machine.debouncePhase now level s) := by
  unfold Machine.debouncePhase; rw [h.par, h.onBtn]

end Unseen

end Sys2Proof.Machine
end

