-- ==== Sys2Proof/Laws/Reads.lean ====
section
/-! SUPPORT. The controller's register reads against REG_READ: a poll and a boot go as the register
reads they are made of go (spec/42_charge_controller.md R99, R101; spec/41_register_interface.md R85,
R90). -/

namespace Sys2Proof.Machine

/-- An error has a result word other than OK's. -/
theorem Result.word_ne {r : Result} (h : ¬r.isOk = true) : r.word ≠ 0#32 := by
  intro h0
  have hc := (Result.word_fields r).code
  rw [h0] at hc
  cases hr : r.code <;> simp_all [Result.isOk, ResCode.code]

/-- A register read ends OK or with an error. -/
theorem regReadOn_res (a : Addr7) (r len : Byte) (s : State) :
    (regReadOn a r len s).res = .ok ∨ ¬(regReadOn a r len s).res.isOk = true := by
  unfold regReadOn
  by_cases hr : s.bus.ready = true
  · by_cases hv : transferValid s.par (readDescs len) = true
    · rcases transferOn_ends a (readDescs len) (regBuf r) s hv (by simp [readDescs]) hr with h | h
      · exact .inl h
      · refine .inr fun hk => ?_
        have := h.code
        simp only [Result.isOk] at hk
        rcases this with hc | hc <;> simp_all
    · rw [transferOn_invalid hr a (by simpa using hv)]; exact .inr nofun
  · rw [transferOn_notReady (by simpa using hr)]; exact .inr nofun

theorem Result.ok_word : Result.ok.word = 0#32 := by decide

/-- What REG_READ of a field's register leaves, in terms of the field's byte read on the same bus side:
the lines, the result, and the byte when it is OK. -/
theorem ReadsRegister.fieldByte {f : FieldId} {s t r : State}
    (h : ReadsRegister (s.par.fields.get f).reg s r) (hb : s.busSide = t.busSide) :
    r.busSide = (readFieldByte f t).st.busSide ∧ r.par = s.par ∧
      (r.ports.result = 0#32 ↔ (readFieldByte f t).res.isOk = true) ∧
      (PortsWf s → PortsWf r ∧
        ((readFieldByte f t).res.isOk = true → r.ports.data.read 0 = (readFieldByte f t).byte)) := by
  obtain ⟨h1, h2, h3⟩ := readFieldByte_congr f hb
  rw [← h1, ← h2, ← h3]
  have hx : regReadCommit 1#8 (regReadOn s.par.chargerAddr (s.par.fields.get f).reg 1#8 s) = r :=
    Host.Outcome.next.inj h
  have hE : readFieldByte f s =
      ⟨(regReadOn s.par.chargerAddr (s.par.fields.get f).reg 1#8 s).res,
        (regReadOn s.par.chargerAddr (s.par.fields.get f).reg 1#8 s).buf.read 1,
        (regReadOn s.par.chargerAddr (s.par.fields.get f).reg 1#8 s).st⟩ := rfl
  have hr := regReadOn_res s.par.chargerAddr (s.par.fields.get f).reg 1#8 s
  have ho : BusOnly s (regReadOn s.par.chargerAddr (s.par.fields.get f).reg 1#8 s).st :=
    busOnly_txnRel.regReadOn _ _ _ _
  generalize regReadOn s.par.chargerAddr (s.par.fields.get f).reg 1#8 s = e at *
  rw [hE]
  subst hx
  unfold regReadCommit
  by_cases hk : e.res.isOk = true
  · rw [if_pos hk]
    have e0 : e.res = .ok := hr.resolve_right fun h => h hk
    refine ⟨rfl, ho.par, ⟨fun _ => hk, fun _ => ?_⟩, fun hw => ?_⟩
    · show e.res.word = 0#32
      rw [e0, Result.ok_word]
    · have hw' : PortsWf e.st := by unfold PortsWf; rw [ho.ports]; exact hw
      refine ⟨⟨Memory.copy_wf _ _ _ _ hw'.1, hw'.2⟩, fun _ => ?_⟩
      show (Memory.copy e.buf 1 e.st.ports.data 0 1).read 0 = e.buf.read 1
      rw [Memory.read_copy e.buf 1 0 1 hw'.1, if_pos (by omega)]
  · rw [if_neg hk]
    refine ⟨rfl, ho.par, ⟨fun h0 => absurd h0 (Result.word_ne hk), fun h => absurd h hk⟩, fun hw => ?_⟩
    refine ⟨?_, fun h => absurd h hk⟩
    have hw' : PortsWf e.st := by unfold PortsWf; rw [ho.ports]; exact hw
    exact hw'

/-- The bus side of a state fixes its lines. -/
theorem busSide_lines {s t : State} (h : s.busSide = t.busSide) :
    s.bus = t.bus ∧ s.par = t.par ∧ s.env = t.env ∧ s.trace = t.trace := by
  have hb := congrArg State.bus h
  have hp := congrArg State.par h
  have he := congrArg State.env h
  have ht := congrArg State.trace h
  exact ⟨hb, hp, he, ht⟩

/-- The view of the controller after a poll that failed. -/
structure PollFailed (now : Word) (r s t : State) : Prop where
  ctl : t.ctl = { s.ctl with lastPoll := now }
  side : r.busSide = t.busSide

/-- A poll against its three register reads (R101): the first that fails ends it. -/
theorem poll_reads {now : Word} {s u r1 r2 r3 : State} (hb : s.busSide = u.busSide) (hw : PortsWf s)
    (h1 : ReadsRegister s.par.fields.status.reg s r1)
    (h2 : ReadsRegister s.par.fields.fault.reg r1 r2)
    (h3 : ReadsRegister s.par.fields.batteryAdc.reg r2 r3) :
    (r1.ports.result ≠ 0#32 → PollFailed now r1 u (poll now u)) ∧
      (r1.ports.result = 0#32 → r2.ports.result ≠ 0#32 → PollFailed now r2 u (poll now u)) ∧
      (r1.ports.result = 0#32 → r2.ports.result = 0#32 → r3.ports.result ≠ 0#32 →
        PollFailed now r3 u (poll now u)) ∧
      (r1.ports.result = 0#32 → r2.ports.result = 0#32 → r3.ports.result = 0#32 →
        r3.busSide = (poll now u).busSide ∧
        (poll now u).ctl = applyPoll s.par (rawOf s.par .status (r1.ports.data.read 0))
          (rawOf s.par .fault (r2.ports.data.read 0)) (rawOf s.par .batteryAdc (r3.ports.data.read 0))
          { u.ctl with lastPoll := now }) := by
  have hb0 : s.busSide = (u.onCtl fun c => { c with lastPoll := now }).busSide := hb
  obtain ⟨b1, p1, k1, d1⟩ := ReadsRegister.fieldByte (f := .status) h1 hb0
  unfold poll
  have hc1 := (readFieldByte_busOnly .status (u.onCtl fun c => { c with lastPoll := now })).ctl
  generalize hE1 : readFieldByte .status (u.onCtl fun c => { c with lastPoll := now }) = e1 at *
  obtain ⟨b2, p2, k2, d2⟩ := ReadsRegister.fieldByte (f := .fault) (by rw [p1]; exact h2) b1
  have hc2 := (readFieldByte_busOnly .fault e1.st).ctl
  generalize hE2 : readFieldByte .fault e1.st = e2 at *
  obtain ⟨b3, p3, k3, d3⟩ := ReadsRegister.fieldByte (f := .batteryAdc) (by rw [p2, p1]; exact h3) b2
  have hc3 := (readFieldByte_busOnly .batteryAdc e2.st).ctl
  generalize hE3 : readFieldByte .batteryAdc e2.st = e3 at *
  have q1 : e1.st.par = s.par := (busSide_lines b1).2.1.symm.trans p1
  have q2 : e2.st.par = s.par := (busSide_lines b2).2.1.symm.trans (p2.trans p1)
  have q3 : e3.st.par = s.par := (busSide_lines b3).2.1.symm.trans (p3.trans (p2.trans p1))
  obtain ⟨w1, d1⟩ := d1 hw
  obtain ⟨w2, d2⟩ := d2 w1
  obtain ⟨w3, d3⟩ := d3 w2
  unfold pollRead
  dsimp only
  rw [hE1]
  refine ⟨fun n1 => ?_, fun y1 n2 => ?_, fun y1 y2 n3 => ?_, fun y1 y2 y3 => ?_⟩
  · rw [if_neg fun h => n1 (k1.2 h)]
    exact ⟨hc1, b1⟩
  · rw [if_pos (k1.1 y1), hE2, if_neg fun h => n2 (k2.2 h)]
    exact ⟨hc2.trans hc1, b2⟩
  · rw [if_pos (k1.1 y1), hE2, if_pos (k2.1 y2), hE3, if_neg fun h => n3 (k3.2 h)]
    exact ⟨hc3.trans (hc2.trans hc1), b3⟩
  · rw [if_pos (k1.1 y1), hE2, if_pos (k2.1 y2), hE3, if_pos (k3.1 y3)]
    refine ⟨b3, ?_⟩
    rw [d1 (k1.1 y1), d2 (k2.1 y2), d3 (k3.1 y3), onCtl_ctl, hc3, hc2, hc1, q1, q2, q3]
    rfl

/-- CTRL_BOOT's probe against CONFIGURE and REG_READ (R99). -/
theorem bootProbe_reads {s c r : State} (hw : PortsWf s)
    (hc : exec (.configure s.par.busRate) s = .next c)
    (h : ReadsRegister s.par.fields.partId.reg c r) :
    r.busSide = (bootProbe s).st.busSide ∧
      (r.ports.result = 0#32 ↔ (bootProbe s).res.isOk = true) ∧
      ((bootProbe s).res.isOk = true → r.ports.data.read 0 = (bootProbe s).byte) := by
  have e : (configure s.par.busRate s).finish .ok = c := Host.Outcome.next.inj hc
  have hp : c.par = s.par := by rw [← e, finish_par, configure_par]
  have hwc : PortsWf c := by
    have := (busOnly_confRel.configure s.par.busRate s).ports
    rw [← e]
    unfold PortsWf
    rw [finish_ports]
    rw [this]
    exact hw
  have hs : c.busSide = (configure s.par.busRate s).busSide := by rw [← e]; rfl
  obtain ⟨b1, -, k1, d1⟩ := ReadsRegister.fieldByte (f := .partId) (by rw [hp]; exact h) hs
  exact ⟨b1, k1, (d1 hwc).2⟩

end Sys2Proof.Machine
end

