-- ==== Sys2Proof/Tests/Slice0.lean ====
section
/-! SUPPORT. The model's own tests: ill-formed terms, written-out words, one-step tests with the expected
results of spec/95_test_vectors.md, and for every statement with hypotheses a state that meets them. -/

namespace Sys2Proof.Tests

open Sys2Proof Sys2Proof.Machine

/-! ## WellFormed: an ill-formed term for each check (R62) -/

theorem test_wf_refuses_field_read_21 : (Instr.fieldRead 21#8).wf = false := by decide
theorem test_wf_refuses_field_write_21 : (Instr.fieldWrite 21#8).wf = false := by decide
theorem test_wf_refuses_read_state_4 : (Instr.readState 4#8).wf = false := by decide
theorem test_wf_admits_the_boundaries :
    (Instr.fieldRead 20#8).wf = true ∧ (Instr.fieldWrite 20#8).wf = true ∧
      (Instr.readState 3#8).wf = true := by decide

/-! ## Decoding: words of section 2.1 of spec/95_test_vectors.md and of R53 -/

theorem test_decode_configure :
    decode .command 0x01000000#32 = .ok (.configure .standard) ∧
      decode .command 0x01000001#32 = .ok (.configure .fast) := by decide
theorem test_decode_transfer : decode .command 0x02D40002#32 = .ok (.transfer 0x6A#7 2#8) := by decide
theorem test_decode_reg_read :
    decode .command 0x10D40B01#32 = .ok (.regRead 0x6A#7 0x0B#8 1#8) := by decide
theorem test_decode_reg_write :
    decode .command 0x11D40403#32 = .ok (.regWrite 0x6A#7 0x04#8 3#8) := by decide
theorem test_decode_field_read :
    decode .command 0x12001200#32 = .ok (.fieldRead 18#8) ∧ fieldOf 18#8 = some .batteryAdc := by decide
theorem test_decode_field_write :
    decode .command 0x13000700#32 = .ok (.fieldWrite 7#8) ∧ fieldOf 7#8 = some .chargeVoltage := by decide
theorem test_decode_probe : decode .command 0x14000000#32 = .ok .probe := by decide
theorem test_decode_ctrl_boot : decode .command 0x20000000#32 = .ok .ctrlBoot := by decide
theorem test_decode_ctrl_step : decode .command 0x21000000#32 = .ok .ctrlStep := by decide
theorem test_decode_read_state :
    decode .command 0x40000100#32 = .ok (.readState 1#8) ∧ stateWordOf 1#8 = some .ctrlStatus := by decide
theorem test_decode_events :
    decode .event 0x30000000#32 = .ok .evtButton ∧ decode .event 0x31000000#32 = .ok .evtChgIrq ∧
      decode .event 0x32000000#32 = .ok .evtThermal ∧ decode .event 0x33000000#32 = .ok .evtHostAck := by
  decide

/-- V-EN-20 to V-EN-26. -/
theorem test_decode_rejects :
    decode .command 0x03000000#32 = .error .unassignedOpcode ∧
      decode .command 0x01000002#32 = .error .nonzeroField ∧
      decode .command 0x02D50002#32 = .error .reservedBit ∧
      decode .command 0x12001500#32 = .error .fieldIdRange ∧
      decode .command 0x40000400#32 = .error .selectorRange ∧
      decode .command 0x14000001#32 = .error .nonzeroField ∧
      decode .command 0x21D40000#32 = .error .nonzeroField := by decide

/-- V-EN-27. -/
theorem test_decode_rejects_events :
    decode .event 0x34000000#32 = .error .unassignedOpcode ∧
      decode .event 0x30000001#32 = .error .nonzeroField := by decide

/-- V-EN-10, V-EN-11. -/
theorem test_address_bytes :
    addrByte 0x6A#7 false = 0xD4#8 ∧ addrByte 0x6A#7 true = 0xD5#8 ∧ addrByte 0#7 true = 0x01#8 ∧
      addrByte 0x7F#7 false = 0xFE#8 := by decide

/-- V-EN-12 to V-EN-14. -/
theorem test_descriptors :
    mkDesc false false false 1#8 = 0x0001#16 ∧ mkDesc true true true 2#8 = 0xE002#16 ∧
      mkDesc false true false 3#8 = 0x4003#16 := by decide

/-- V-EN-15 to V-EN-17. -/
theorem test_result_words :
    (Result.noAck true 1 1).word = 0x00010111#32 ∧
      ((Result.noAck true 1 0).withTxn true).word = 0x01000111#32 ∧
      (Result.timeout false 0 0).word = 0x00000003#32 := by decide

/-- The word of a row is the first thing the next step runs, right after reset. -/
theorem test_configure_is_fetched :
    decodeTableWord 32 0x01000000 = some (.configure .standard) ∧
      step (State.reset.withFetchWord 32 0x01000000) = exec (.configure .standard) State.reset := ⟨by decide, rfl⟩
theorem test_transfer_is_fetched :
    decodeTableWord 32 0x02000000 = some (.transfer 0#7 0#8) ∧
      step (State.reset.withFetchWord 32 0x02000000) = exec (.transfer 0#7 0#8) State.reset := ⟨by decide, rfl⟩
theorem test_reg_read_is_fetched :
    decodeTableWord 32 0x10000000 = some (.regRead 0#7 0#8 0#8) ∧
      step (State.reset.withFetchWord 32 0x10000000) = exec (.regRead 0#7 0#8 0#8) State.reset :=
  ⟨by decide, rfl⟩
theorem test_reg_write_is_fetched :
    decodeTableWord 32 0x11000000 = some (.regWrite 0#7 0#8 0#8) ∧
      step (State.reset.withFetchWord 32 0x11000000) = exec (.regWrite 0#7 0#8 0#8) State.reset :=
  ⟨by decide, rfl⟩
theorem test_field_read_is_fetched :
    decodeTableWord 32 0x12000000 = some (.fieldRead 0#8) ∧
      step (State.reset.withFetchWord 32 0x12000000) = exec (.fieldRead 0#8) State.reset := ⟨by decide, rfl⟩
theorem test_field_write_is_fetched :
    decodeTableWord 32 0x13000000 = some (.fieldWrite 0#8) ∧
      step (State.reset.withFetchWord 32 0x13000000) = exec (.fieldWrite 0#8) State.reset := ⟨by decide, rfl⟩
theorem test_probe_is_fetched :
    decodeTableWord 32 0x14000000 = some .probe ∧
      step (State.reset.withFetchWord 32 0x14000000) = exec .probe State.reset := ⟨by decide, rfl⟩
theorem test_ctrl_boot_is_fetched :
    decodeTableWord 32 0x20000000 = some .ctrlBoot ∧
      step (State.reset.withFetchWord 32 0x20000000) = exec .ctrlBoot State.reset := ⟨by decide, rfl⟩
theorem test_ctrl_step_is_fetched :
    decodeTableWord 32 0x21000000 = some .ctrlStep ∧
      step (State.reset.withFetchWord 32 0x21000000) = exec .ctrlStep State.reset := ⟨by decide, rfl⟩
theorem test_read_state_is_fetched :
    decodeTableWord 32 0x40000000 = some (.readState 0#8) ∧
      step (State.reset.withFetchWord 32 0x40000000) = exec (.readState 0#8) State.reset := ⟨by decide, rfl⟩
theorem test_event_words_are_fetched :
    (decodeTableWord 32 0x30000000 = some .evtButton ∧ decodeTableWord 32 0x31000000 = some .evtChgIrq ∧
      decodeTableWord 32 0x32000000 = some .evtThermal ∧ decodeTableWord 32 0x33000000 = some .evtHostAck) ∧
      step (State.reset.withFetchWord 32 0x30000000) = exec .evtButton State.reset ∧
      step (State.reset.withFetchWord 32 0x31000000) = exec .evtChgIrq State.reset ∧
      step (State.reset.withFetchWord 32 0x32000000) = exec .evtThermal State.reset ∧
      step (State.reset.withFetchWord 32 0x33000000) = exec .evtHostAck State.reset :=
  ⟨by decide, rfl, rfl, rfl, rfl⟩

/-! ## Parameter set X of spec/95_test_vectors.md, and small states -/

/-- A field of set X. -/
def fieldX (reg : Byte) (pos width step offset : Nat) : FieldDesc := ⟨reg, pos, width, step, offset⟩

/-- The field table of set X; "other fields: not used by any vector". -/
def fieldsX : FieldTable :=
  { Config.legalParams.fields with
    inputCurrentLimit := ⟨0x00#8, 0, 6⟩
    chargeCurrent := fieldX 0x03#8 0 8 1 0
    terminationCurrent := fieldX 0x05#8 0 8 1 0
    prechargeCurrent := fieldX 0x06#8 0 8 1 0
    chargeVoltage := ⟨0x04#8, 2, 6⟩
    batfetControl := fieldX 0x09#8 5 1 1 0
    status := fieldX 0x0B#8 0 8 1 0
    fault := fieldX 0x0C#8 0 8 1 0
    batteryAdc := fieldX 0x0E#8 0 7 20 2300
    partId := fieldX 0x14#8 3 3 1 0
    adcContinuous := fieldX 0x02#8 7 1 1 0 }

/-- Set X with HANDSHAKE false; `decodeStatus` at the values the tests use. -/
def setX : Params :=
  { Config.legalParams with
    stretchLimit := 3, maxMsgs := 4, maxLen := 16
    chargerAddr := 0x6A#7, tempAddr := 0x48#7
    fields := fieldsX
    partIdExpected := 3
    statusTable :=
      [⟨0x04#8, 0x00#8, ⟨{}, .notCharging, 0#8, true⟩⟩,
        ⟨0x04#8, 0x01#8, ⟨{ thermal := true }, .notCharging, 0#8, true⟩⟩,
        ⟨0x04#8, 0x02#8, ⟨{ battery := true }, .notCharging, 0#8, true⟩⟩,
        ⟨0x06#8, 0x00#8, ⟨{}, .fastCharge, 0#8, true⟩⟩]
    busRate := .fast
    pollMs := 1000, debounceMs := 20, holdMs := 1000, releaseTimeoutMs := 5000
    adcOnValue := 1, adcOffValue := 0, isolateValue := 1, fanSpeed := 1
    chargeVoltage := 4200 }

theorem test_set_x_is_legal : setX.wf = true := by decide

/-- A ready bus of set X in a mode, its lines idle, with the answers to come. -/
def busState (od : Bool) (bs : List Bool) : State :=
  { State.resetOf setX with
    bus := { Bus.reset with
      mode := if od then .openDrain else .pushPull
      ready := true
      sclDrv := if od then .float else .high
      sdaDrv := if od then .float else .high }
    env := ⟨bs, 0, []⟩ }

/-- The state of the outcome meets `f`. -/
def after (o : Host.Outcome State Fault Refusal) (f : State → Bool) : Bool :=
  match o with
  | .next t => f t
  | .fault _ => false
  | .refused _ => false

/-- The peer's answers to one byte the block sends in open-drain mode: eight clock releases, the one of
the acknowledge, the acknowledge. -/
def sent (ack : Bool) : List Bool := [true, true, true, true, true, true, true, true, true, !ack]

/-- The peer's answers to one byte it sends in open-drain mode, most significant bit first. -/
def got (b7 b6 b5 b4 b3 b2 b1 b0 : Bool) : List Bool :=
  [true, b7, true, b6, true, b5, true, b4, true, b3, true, b2, true, b1, true, b0, true]

/-- The answers to a one-byte register read up to its byte: start, address, register, start, address. -/
def readPrefix : List Bool := [true] ++ sent true ++ sent true ++ [true] ++ sent true

/-- The answers to a one-byte register read with these data answers. -/
def readAnswers (data : List Bool) : List Bool := readPrefix ++ data ++ [true]

/-- The answers to a one-byte register write. -/
def writeAnswers : List Bool := [true] ++ sent true ++ sent true ++ sent true ++ [true]

def zeros : List Bool := got false false false false false false false false

/-! ## One step each: expected results from spec/95_test_vectors.md -/

set_option maxRecDepth 8000 in
/-- V-SB-5, V-RS-2. -/
theorem test_configure_open_drain :
    after (exec (.configure .fast) { State.resetOf setX with env := ⟨List.replicate 100 true, 0, []⟩ })
      (fun t => busStatusWord t.bus == 0x00000026#32 && t.env.answers == [] &&
        t.trace.take 2 == [.drive .scl .float, .drive .sda .float]) = true := by decide

/-- V-SB-6: ones 57 times, then 0. -/
theorem test_configure_push_pull :
    after (exec (.configure .standard)
      { State.resetOf setX with env := ⟨List.replicate 57 true ++ [false], 0, []⟩ })
      (fun t => busStatusWord t.bus == 0x00000005#32 && t.env.answers == [] &&
        t.trace.take 2 == [.drive .scl .high, .drive .sda .high]) = true := by decide

/-- V-SB-11: bytes 0xA1, 0xB2, 0xC3. -/
theorem test_transfer_reads :
    after (exec (.transfer 0x6A#7 2#8)
      { busState true ([true] ++ sent true ++ sent true ++ [true] ++ sent true ++
          got true false true false false false false true ++
          got true false true true false false true false ++
          got true true false false false false true true ++ [true]) with
        ports := { Ports.reset with desc := [(0, 0x0001#16), (1, 0xE003#16)], data := [(0, 0x0B#8)] } })
      (fun t => t.ports.result == 0#32 &&
        t.ports.data == [(0, 0x0B#8), (1, 0xA1#8), (2, 0xB2#8), (3, 0xC3#8)] &&
        t.env.answers == [] && !t.bus.busOwned) = true := by decide

/-- V-SB-12: the clock is held at the first data bit. -/
theorem test_transfer_times_out :
    after (exec (.transfer 0x6A#7 1#8)
      { busState true ([true] ++ sent true ++ [false, false, false, false]) with
        ports := { Ports.reset with desc := [(0, 0x4001#16)], data := [(0, 0x0B#8)] } })
      (fun t => t.ports.result == 0x00000013#32 && !t.bus.busOwned && !t.bus.irqMask &&
        t.trace.take 3 == [.drive .scl .float, .drive .sda .float, .sample .scl false]) = true := by decide

/-- V-RI-1. -/
theorem test_reg_read :
    after (exec (.regRead 0x6A#7 0x0B#8 1#8)
      (busState true (readAnswers (got false false false false false true false false))))
      (fun t => t.ports.result == 0#32 && t.ports.data == [(0, 0x04#8)] && t.env.answers == []) = true := by
  decide

/-- V-RI-3. -/
theorem test_reg_read_refused :
    after (exec (.regRead 0x6A#7 0x0B#8 1#8)
      (busState true ([true] ++ sent true ++ sent false ++ [true])))
      (fun t => t.ports.result == 0x00000011#32 && t.ports.data == [] && t.env.answers == []) = true := by
  decide

/-- P2, in push-pull mode: the acknowledges only. -/
theorem test_reg_write_refused :
    after (exec (.regWrite 0x6A#7 0x04#8 3#8)
      { busState false [false, false, false, true] with
        ports := { Ports.reset with data := [(0, 0x11#8), (1, 0x22#8), (2, 0x33#8)] } })
      (fun t => t.ports.result == 0x00010111#32 && !t.bus.busOwned && t.bus.shift == 0x22#8 &&
        busStatusWord t.bus == 0x00000005#32) = true := by decide

/-- V-RI-4. -/
theorem test_reg_write_nothing :
    after (exec (.regWrite 0x6A#7 0x06#8 0#8) (busState true ([true] ++ sent true ++ sent true ++ [true])))
      (fun t => t.ports.result == 0#32 && t.env.answers == [] && t.bus.shift == 0x06#8) = true := by decide

/-- V-RI-5: peer byte 0x5B. -/
theorem test_field_read :
    after (exec (.fieldRead 7#8)
      (busState true (readAnswers (got false true false true true false true true))))
      (fun t => t.ports.result == 0#32 && t.ports.val == 4192#32) = true := by decide

/-- V-RI-6: 4200 asked, peer returns 0x83, 0x5B is written (the last byte sent). -/
theorem test_field_write :
    after (exec (.fieldWrite 7#8)
      { busState true (readAnswers (got true false false false false false true true) ++ writeAnswers) with
        ports := { Ports.reset with val := 4200#32 } })
      (fun t => t.ports.result == 0#32 && t.ports.val == 4192#32 && t.bus.shift == 0x5B#8 &&
        t.env.answers == []) = true := by decide

/-- V-RI-10: the written byte is refused. -/
theorem test_field_write_refused :
    after (exec (.fieldWrite 7#8)
      { busState true (readAnswers (got true false false false false false true true) ++
          ([true] ++ sent true ++ sent true ++ sent false ++ [true])) with
        ports := { Ports.reset with val := 4200#32 } })
      (fun t => t.ports.result == 0x01000111#32 && t.ports.val == 4200#32) = true := by decide

/-- V-RI-11: 0x18 is present. -/
theorem test_probe_present :
    after (exec .probe (busState true (readAnswers (got false false false true true false false false))))
      (fun t => t.ports.result == 0#32 && t.ports.val == 1#32) = true := by decide

/-- V-RI-11: 0x20 is absent. -/
theorem test_probe_absent :
    after (exec .probe (busState true (readAnswers (got false false true false false false false false))))
      (fun t => t.ports.result == 6#32 && t.ports.val == 0#32) = true := by decide

/-- The answers of P1 to CTRL_BOOT: PART_ID 0x18, four field writes over 0x00, STATUS 0x04, FAULT 0x00,
BATTERY_ADC 35. -/
def bootAnswers : List Bool :=
  List.replicate 100 true ++ readAnswers (got false false false true true false false false) ++
    (readAnswers zeros ++ writeAnswers) ++ (readAnswers zeros ++ writeAnswers) ++
    (readAnswers zeros ++ writeAnswers) ++ (readAnswers zeros ++ writeAnswers) ++
    readAnswers (got false false false false false true false false) ++ readAnswers zeros ++
    readAnswers (got false false true false false false true true)

set_option maxRecDepth 8000 in
/-- P1, command 1. -/
theorem test_ctrl_boot_runs :
    after (exec .ctrlBoot { State.resetOf setX with env := ⟨bootAnswers, 0, []⟩ })
      (fun t => t.ports.result == 0#32 && t.ctl.phase == .run && t.ctl.statusValid &&
        t.ctl.battery == ⟨35#8, 3000#32, 53#8⟩ && t.env.answers == []) = true := by decide

set_option maxRecDepth 8000 in
/-- V-CC-13. -/
theorem test_ctrl_boot_parks :
    after (exec .ctrlBoot
      { State.resetOf setX with env := ⟨List.replicate 100 true ++ readAnswers zeros, 0, []⟩ })
      (fun t => t.ports.result == 6#32 && t.ctl.phase == .parked && t.out.lowPower) = true := by decide

/-- The controller of P1 after its poll: running, asleep, 3000 mV, no fault. -/
def ctlX : Ctl :=
  { Ctl.reset with
    phase := .run
    status := ⟨{}, .notCharging, 0#8, true⟩
    statusValid := true
    battery := ⟨35#8, 3000#32, 53#8⟩
    lastPoll := 1000#32 }

/-- Pressed since 100 and not bounced. -/
def btnX : Btn := { Btn.reset with state := .pressed, lastRaw := false, rawSince := 100#32, pressStart := 100#32 }

set_option maxRecDepth 8000 in
/-- V-CC-1: the hold fires at 1150. -/
theorem test_ctrl_step_powers_on :
    after (exec .ctrlStep
      { busState true (readAnswers zeros ++ writeAnswers) with
        ctl := ctlX, btn := btnX, ports := { Ports.reset with nowMs := 1150#32, btnLevel := false } })
      (fun t => t.ports.result == 0#32 && t.ctl.pstate == .powered && t.ctl.adcCont &&
        t.out == ⟨true, .configured, 3#3, false, false, false⟩ && t.btn.state == .held &&
        t.btn.awaitRelease && t.bus.shift == 0x80#8 && t.env.answers == []) = true := by decide

set_option maxRecDepth 8000 in
/-- V-CC-2: the poll at 1400 decodes a thermal fault in Powered. -/
theorem test_ctrl_step_cools_down :
    after (exec .ctrlStep
      { busState true
          (readAnswers (got false false false false false true false false) ++
            readAnswers (got false false false false false false false true) ++
            readAnswers (got false false true false false false true true) ++
            (readAnswers (got true false false false false false false false) ++ writeAnswers)) with
        ctl := { ctlX with pstate := .powered, adcCont := true }
        ev := ⟨⟨false, true, false, false⟩, .none⟩
        out := ⟨true, .configured, 3#3, false, false, false⟩
        ports := { Ports.reset with nowMs := 1400#32 } })
      (fun t => t.ctl.status.fault.thermal && t.ctl.overTemp && t.ctl.pstate == .coolingDown &&
        t.ctl.coolStart == 1400#32 && t.out == ⟨false, .max, 5#3, true, false, false⟩ &&
        !t.ctl.adcCont && t.bus.shift == 0#8 && t.env.answers == []) = true := by decide

/-- P1, commands 8 to 10. -/
theorem test_read_state_words :
    let s : State := { busState true [] with
      ctl := { ctlX with pstate := .powered, adcCont := true }
      out := ⟨true, .configured, 3#3, false, false, false⟩ }
    after (exec (.readState 1#8) s) (fun t => t.ports.val == 0x10008086#32) = true ∧
      after (exec (.readState 3#8) s) (fun t => t.ports.val == 0x0000001B#32) = true ∧
      after (exec (.readState 2#8) s) (fun t => t.ports.val == 0x0BB82335#32) = true := by decide

/-- Each event sets its own flag (R94 to R97). -/
theorem test_events_latch :
    after (exec .evtButton (State.resetOf setX)) (fun t => t.ev.flag == ⟨true, false, false, false⟩) = true ∧
      after (exec .evtChgIrq (State.resetOf setX)) (fun t => t.ev.flag == ⟨false, true, false, false⟩) = true ∧
      after (exec .evtThermal (State.resetOf setX)) (fun t => t.ev.flag == ⟨false, false, true, false⟩) = true ∧
      after (exec .evtHostAck (State.resetOf setX)) (fun t => t.ev.flag == ⟨false, false, false, true⟩) = true := by
  decide

/-- V-SB-19: two events during a TRANSFER of no byte (V-SB-17) become flags when it returns. -/
theorem test_events_wait_for_the_transfer :
    after (exec (.transfer 0x48#7 1#8)
      { busState true ([true] ++ sent true ++ [true]) with
        ports := { Ports.reset with
          desc := [(0, 0x4000#16)], evt := [⟨5, 0x30000000#32⟩, ⟨3, 0x31000000#32⟩] } })
      (fun t => t.ports.result == 0#32 && t.ev.flag == ⟨true, true, false, false⟩ &&
        t.ev.pend == .none && !t.bus.irqMask && t.ports.evt == []) = true := by decide

/-- V-SB-18. -/
theorem test_bad_sequences :
    let bad (ds : List Half) := transferValid setX ds = false
    bad [] ∧ bad [1#16, 1#16, 1#16, 1#16, 0x4001#16] ∧ bad [0x4001#16, 0x0001#16] ∧
      bad [0x0001#16, 0x6001#16] ∧ bad [0x2001#16, 0x4001#16] ∧ bad [0x6000#16] ∧ bad [0x4011#16] ∧
      bad [0x0101#16] ∧ transferValid setX [0xC001#16] = true := by decide

/-- V-SB-1. -/
theorem test_start_open_drain :
    (start (busState true [true])).state.lineTrace =
      [.drive .sda .float, .wait .half, .drive .scl .float, .sample .scl true, .wait .half,
        .drive .sda .low, .wait .half, .drive .scl .low, .wait .half] := by decide

/-- V-SB-2. -/
theorem test_start_push_pull :
    (start (busState false [])).state.lineTrace =
      [.drive .sda .high, .wait .half, .drive .scl .high, .wait .half, .drive .sda .low, .wait .half,
        .drive .scl .low, .wait .half] := by decide

/-- V-SB-3. -/
theorem test_stop_open_drain :
    (stop (busState true [true])).state.lineTrace =
      [.drive .scl .low, .wait .half, .drive .sda .low, .wait .half, .drive .scl .float,
        .sample .scl true, .wait .half, .drive .sda .float, .wait .full] := by decide

/-- V-SB-4, the bit 0. -/
theorem test_write_bit_zero :
    (writeBit false (busState true [true])).state.lineTrace =
      [.drive .sda .low, .wait .half, .drive .scl .float, .sample .scl true, .wait .half,
        .drive .scl .low] := by decide

/-- V-CC-4 and W4. -/
theorem test_percentages :
    [0, 2683, 2700, 3000, 3500, 3643, 3644, 4100, 4203, 5000].map (fun mV => pct mV .notCharging) =
      [0, 0, 2, 53, 136, 159, 160, 237, 255, 255] ∧ pct 2000 .terminated = 255 := by decide

/-- V-CC-6, the bands of a powered controller that does not charge, and a charging one. -/
theorem test_led_selection :
    [255, 160, 159, 64, 63, 32, 31, 0].map (fun p => ledBand p) =
      [1#3, 1#3, 2#3, 2#3, 3#3, 3#3, 4#3, 4#3] ∧
      ({ ctlX with charging := true, status := ⟨{}, .fastCharge, 0#8, true⟩ } : Ctl).selectLed = 6#3 := by
  decide

/-- V-CC-12: the time wraps. -/
theorem test_elapsed_wraps : elapsed 0x0001C4C0#32 0xFFFFF000#32 = 120000 := by decide

/-- V-BD-2: bounces restart the stable time; pressed at 135, since 115. -/
theorem test_bounce :
    let b := (samplesFire setX [(100#32, false), (110#32, true), (115#32, false), (130#32, false)] Btn.reset).2
    b.state = .released ∧ (b.debounce setX 135#32 false).2.state = .pressed ∧
      (b.debounce setX 135#32 false).2.pressStart = 115#32 := by decide

/-- The table of spec/43_button_debouncer.md: held at 1101, not yet at 1100. -/
theorem test_hold_threshold :
    (btnX.debounce setX 1100#32 false).1 = false ∧ (btnX.debounce setX 1101#32 false).1 = true := by decide

/-- W1 and W2. -/
theorem test_transforms :
    [28, 0, 63, 22, 23].zip [1520, 90, 5000, 4200, 4208] =
      [(setX.fields.get .inputCurrentLimit).encodePhys 1520, (setX.fields.get .inputCurrentLimit).encodePhys 90,
        (setX.fields.get .inputCurrentLimit).encodePhys 5000, (setX.fields.get .chargeVoltage).encodePhys 4200,
        (setX.fields.get .chargeVoltage).encodePhys 4208].zip [1520, 90, 5000, 4200, 4208] := by decide

/-! ## Witnesses: for every statement with hypotheses, states and operands that meet them together -/

/-- Scripted answers are given. -/
theorem gives_scripted (bs : List Bool) (n : Nat) (ms : List HostMove) : (Env.mk bs n ms).gives bs := by
  induction bs with
  | nil => trivial
  | cons b bs ih => exact ⟨rfl, ih⟩

/-- A valid list of descriptors is valid in the words of R77. -/
theorem valid_transfer {p : Params} {c : Cells 16} {n : Nat} (h : transferValid p (descList c n) = true) :
    ValidTransfer p c n := (transferValid_iff p c n).1 h

/-- An invalid one is not. -/
theorem invalid_transfer {p : Params} {c : Cells 16} {n : Nat}
    (h : transferValid p (descList c n) = false) : ¬ValidTransfer p c n :=
  fun hv => by rw [(transferValid_iff p c n).2 hv] at h; exact absurd h (by decide)

theorem witness_DecodeOfEncode :
    (Instr.fieldRead 20#8).wf = true ∧ (Instr.readState 3#8).wf = true ∧
      (Instr.transfer 0x7F#7 0xFF#8).wf = true := by decide

theorem witness_EncodeOfDecode :
    decode .event 0x33000000#32 = .ok .evtHostAck ∧
      decode .command 0x10FFFFFF#32 = .error .reservedBit ∧
      decode .command 0x10FEFFFF#32 = .ok (.regRead 0x7F#7 0xFF#8 0xFF#8) := by decide

/-- The boundary words: a field id of 21, a selector of 4, and the first opcode after the events. -/
theorem witness_IllegalWordsHaveNoEffect :
    (∃ s : State, dueEvent s.ports.evt = none ∧ s.ports.cmd = some 0x12001500#32 ∧
      IllegalCommandWord 0x12001500#32) ∧
    IllegalCommandWord 0x40000400#32 ∧ ¬IllegalCommandWord 0x12001400#32 ∧
    (∃ s : State, s.bus.ready = true) ∧
    ∃ s : State, s.ports.evt = ⟨0, 0x34000000#32⟩ :: [] ∧ MalformedEventWord 0x34000000#32 :=
  ⟨⟨{ busState true [] with ports := { Ports.reset with cmd := some 0x12001500#32 } }, rfl, rfl,
      by unfold IllegalCommandWord; decide⟩,
    by unfold IllegalCommandWord; decide, by unfold IllegalCommandWord; decide, ⟨busState true [], rfl⟩,
    ⟨{ busState true [] with ports := { Ports.reset with evt := [⟨0, 0x34000000#32⟩] } }, rfl,
      by unfold MalformedEventWord; decide⟩⟩

theorem witness_EveryCommandWritesItsResult :
    Instr.probe.port = .command ∧ (Instr.fieldWrite 7#8).port = .command ∧
      (Instr.readState 9#8).port = .command := by decide

theorem witness_StepRunsTheDecodedWord :
    (∃ s : State, s.ports.evt = ⟨0, 0x32000000#32⟩ :: [] ∧
      decode .event 0x32000000#32 = .ok .evtThermal) ∧
    ∃ s : State, (∀ a rest, s.ports.evt = a :: rest → a.delay ≠ 0) ∧
      s.ports.cmd = some 0x21000000#32 ∧ decode .command 0x21000000#32 = .ok .ctrlStep := by
  refine ⟨⟨{ busState true [] with ports := { Ports.reset with evt := [⟨0, 0x32000000#32⟩] } }, rfl, by decide⟩,
    { busState true [] with
      ports := { Ports.reset with evt := [⟨1, 0x32000000#32⟩], cmd := some 0x21000000#32 } }, ?_, rfl, by decide⟩
  intro a rest h
  cases h
  decide

theorem witness_NoStepStops : State.reset.ports.cmd = none ∧ State.reset.env.moves = [] := ⟨rfl, rfl⟩

theorem witness_ResetLeavesTheStatedValues :
    (∃ u : State, (busState true []).move .powerOn = u.move .powerOn) ∧
      ((busState true []).move .powerOn).ports.evt = [] ∧
      ((busState true []).move .powerOn).env.moves = [] := ⟨⟨_, rfl⟩, rfl, rfl⟩

theorem witness_CommandsRightAfterReset : (20#8).toNat ≤ 20 ∧ (3#8).toNat ≤ 3 := by decide

theorem witness_ParametersAreFixed : ∃ t, step State.reset = .next t := ⟨_, rfl⟩

/-- A step that takes an event word, and one that takes a command word, with a power-on planned next; and
an act of the environment that is no power-on. -/
theorem witness_OnlyTheMainLoopWritesTheController :
    (∃ t, exec .probe (busState true []) = .next t) ∧
      (∃ s t : State, step s = .next t ∧ (∃ w rest, s.ports.evt = ⟨0, w⟩ :: rest) ∧
        s.env.moves = [.powerOn]) ∧
      (∃ s t : State, step s = .next t ∧
        (∃ w, s.ports.cmd = some w ∧ w ≠ 0x20000000#32 ∧ w ≠ 0x21000000#32) ∧ s.env.moves = [.powerOn]) ∧
      ∃ s t : State, step s = .next t ∧ s.ports.cmd = none ∧ s.env.moves = [.time 7#32] ∧
        ∀ rest, s.env.moves ≠ .powerOn :: rest :=
  ⟨⟨_, rfl⟩,
    ⟨{ busState true [] with
        ports := { Ports.reset with evt := [⟨0, 0x32000000#32⟩] }, env := ⟨[], 0, [.powerOn]⟩ }, _, rfl,
      ⟨_, _, rfl⟩, rfl⟩,
    ⟨{ busState true [] with
        ports := { Ports.reset with cmd := some 0x14000000#32 }, env := ⟨[], 0, [.powerOn]⟩ }, _, rfl,
      ⟨_, rfl, by decide, by decide⟩, rfl⟩,
    ⟨{ busState true [] with env := ⟨[], 0, [.time 7#32]⟩ }, _, rfl, rfl, rfl, fun _ h => nomatch h⟩⟩

/-- A bus that is owned, in open-drain mode, with a ping of 0x48 on the command port. -/
def ownedState : State :=
  { busState true [] with
    bus := { (busState true []).bus with busOwned := true, sclDrv := .low }
    ports := { Ports.reset with cmd := some 0x02900001#32, desc := [(0, 0x4000#16)] } }

theorem witness_StepKeepsTheBusInvariant :
    BusInv ownedState ∧ BusInv (busState false []) ∧ ∃ t, step ownedState = .next t :=
  ⟨by constructor <;> decide, by constructor <;> decide, ⟨_, rfl⟩⟩

/-- A running controller on an open-drain bus. -/
def runState (c : Ctl) (b : Btn) (o : Out) (now : Word) (level : Bool) (bs : List Bool) : State :=
  { busState true bs with ctl := c, btn := b, out := o, ports := { Ports.reset with nowMs := now, btnLevel := level } }

/-- `ctlX` after the power-on. -/
def poweredX : Ctl := { ctlX with pstate := .powered, adcCont := true }

/-- The outputs of `poweredX`. -/
def poweredOut : Out := ⟨true, .configured, 3#3, false, false, false⟩

/-- `ctlX` in the dwell, entered at 1400. -/
def coolingX : Ctl := { ctlX with pstate := .coolingDown, overTemp := true, coolStart := 1400#32 }

/-- The outputs of CoolingDown once its flash is over (P3). -/
def coolingOut : Out := ⟨false, .max, 0#3, false, false, false⟩

/-- `ctlX` in ShippingMode. -/
def shippingX : Ctl := { ctlX with pstate := .shippingMode, batfetOff := true }

theorem witness_StepKeepsTheControllerInvariant :
    CtlInv (runState poweredX Btn.reset poweredOut 1400#32 true []) ∧
      ∃ t, step (runState poweredX Btn.reset poweredOut 1400#32 true []) = .next t :=
  ⟨by constructor <;> decide, ⟨_, rfl⟩⟩

/-- After one START in open-drain mode. -/
theorem witness_StepSamplesOnlyReleasedLines :
    TraceInv (start (busState true [true])).state ∧ ∃ t, step (start (busState true [true])).state = .next t := by
  refine ⟨⟨by decide, by decide, ?_⟩, ⟨_, rfl⟩⟩
  exact ⟨by decide, trivial⟩

theorem witness_StepKeepsThePortsCanonical : PortsWf ownedState ∧ ∃ t, step ownedState = .next t :=
  ⟨⟨by decide, by decide⟩, ⟨_, rfl⟩⟩

theorem witness_OnlyResetLeavesParked :
    (∃ s t : State, step s = .next t ∧ s.ports.cmd ≠ none ∧ s.ctl.phase = .parked) ∧
      (∃ s t : State, step s = .next t ∧ (∃ w rest, s.ports.evt = ⟨0, w⟩ :: rest) ∧
        s.env.moves = [.powerOn] ∧ s.ctl.phase = .parked) ∧
      (∃ s t : State, step s = .next t ∧ (∀ rest, s.env.moves ≠ .powerOn :: rest) ∧ s.ctl.phase = .parked) ∧
      ∃ s : State, CtlInv s ∧ s.ctl.phase = .parked := by
  refine ⟨⟨{ busState true [] with
      ctl := { Ctl.reset with phase := .parked }
      ports := { Ports.reset with cmd := some 0x21000000#32 } }, _, rfl, by decide, rfl⟩,
    ⟨{ busState true [] with
        ctl := { Ctl.reset with phase := .parked }, env := ⟨[], 0, [.powerOn]⟩
        ports := { Ports.reset with evt := [⟨0, 0x32000000#32⟩] } }, _, rfl, ⟨_, _, rfl⟩, rfl, rfl⟩,
    ⟨{ busState true [] with ctl := { Ctl.reset with phase := .parked } }, _, rfl, ?_, rfl⟩,
    { busState true [] with
      ctl := { Ctl.reset with phase := .parked }, out := { Out.reset with lowPower := true } },
    by constructor <;> decide, rfl⟩
  intro rest h
  cases h

theorem witness_EventWordsOnlyLatch :
    (busState true []).bus.irqMask = false ∧ (busState true []).maskIrq.bus.irqMask = true ∧
      ∃ s t : State, s.ports.evt = ⟨0, 0x33000000#32⟩ :: [] ∧
        decode .event 0x33000000#32 = .ok .evtHostAck ∧
        exec .evtHostAck (s.onPorts fun p => { p with evt := [] }) = .next t :=
  ⟨rfl, rfl, { busState true [] with ports := { Ports.reset with evt := [⟨0, 0x33000000#32⟩] } }, _, rfl,
    by decide, rfl⟩

/-- The largest transfer of set X: four messages, 16 bytes each, with a read at the end. -/
def fullDesc : Cells 16 := [(0, 0x0010#16), (1, 0x0010#16), (2, 0x8010#16), (3, 0xE010#16)]

theorem witness_EventsWaitForTheTransfer :
    ownedState.bus.ready = true ∧ ValidTransfer ownedState.par ownedState.ports.desc (1#8).toNat ∧
      ValidTransfer setX fullDesc (4#8).toNat :=
  ⟨rfl, valid_transfer (by decide), valid_transfer (by decide)⟩

theorem witness_ReadStateCopiesTheStateWord :
    (3#8).toNat ≤ 3 ∧ 3 < (4#8).toNat ∧
      (BusInv (busState true []) ∧ BusStatusIs (busState true []) 0x00000006#32) := by
  refine ⟨by decide, by decide, by constructor <;> decide, ?_⟩
  refine ⟨by decide, by decide, by decide, by decide, by decide, by decide⟩

theorem witness_ClockStretchWaitIsBounded :
    (∃ s : State, s.bus.detecting = true) ∧ (busState false []).bus.mode ≠ .openDrain ∧
      (∃ s : State, s.bus.detecting = false ∧ s.bus.mode = .openDrain ∧ 3 ≤ s.par.stretchLimit ∧
        s.env.gives (List.replicate 3 false ++ [true])) ∧
      ∃ s : State, s.bus.detecting = false ∧ s.bus.mode = .openDrain ∧
        s.env.gives (List.replicate (s.par.stretchLimit + 1) false) :=
  ⟨⟨{ busState true [] with bus := { Bus.reset with detecting := true } }, rfl⟩, by decide,
    ⟨busState true (List.replicate 3 false ++ [true]), rfl, rfl, by decide, gives_scripted _ _ _⟩,
    ⟨busState true (List.replicate 4 false), rfl, rfl, gives_scripted _ _ _⟩⟩

theorem witness_BytesAreSentAndReceivedMsbFirst :
    (∀ od, ∃ s : State, BusReady od s ∧ s.env.gives ((Sym.send 0x5B#8 false).answers od)) ∧
      ∀ od, ∃ s : State, BusReady od s ∧ s.env.gives ((Sym.recv 0x81#8 true).answers od) :=
  ⟨fun od => ⟨busState od _, ⟨rfl, rfl, rfl⟩, gives_scripted _ _ _⟩,
    fun od => ⟨busState od _, ⟨rfl, rfl, rfl⟩, gives_scripted _ _ _⟩⟩

theorem witness_PushPullNeverSamplesTheClock :
    (busState false []).bus.mode = .pushPull ∧ (∀ rate, Instr.probe ≠ .configure rate) ∧
      Instr.probe ≠ .ctrlBoot ∧ ∃ t, exec .probe (busState false []) = .next t :=
  ⟨rfl, fun _ h => (by cases h), by decide, ⟨_, rfl⟩⟩

theorem witness_ConfigureDetectsTheDriveMode :
    ((if true = true then 99 < 100 else 99 = 100) ∧
      ∃ s : State, s.env.gives (List.replicate 99 true ++ (if true = true then [false] else []))) ∧
    (if false = true then 100 < 100 else 100 = 100) ∧
      ∃ s : State, s.env.gives (List.replicate 100 true ++ (if false = true then [false] else [])) :=
  ⟨⟨by decide, busState true _, gives_scripted _ _ _⟩, by decide, busState true _, gives_scripted _ _ _⟩

theorem witness_InvalidTransferIsBadSequence :
    (busState true []).bus.ready = true ∧ ¬ValidTransfer setX fullDesc (0#8).toNat ∧
      ¬ValidTransfer setX fullDesc (5#8).toNat ∧ ¬ValidTransfer setX [(0, 0x4011#16)] (1#8).toNat ∧
      ValidTransfer setX fullDesc (4#8).toNat ∧ ValidTransfer setX [(0, 0x4000#16)] (1#8).toNat :=
  ⟨rfl, invalid_transfer (by decide), invalid_transfer (by decide), invalid_transfer (by decide),
    valid_transfer (by decide), valid_transfer (by decide)⟩

theorem witness_UnconfiguredBusIsNotReady : State.reset.bus.ready = false ∧ (20#8).toNat ≤ 20 :=
  ⟨rfl, by decide⟩

/-- A ready bus of set X whose peer acknowledges the frame of the transfer of `n` messages `desc` and
sends `peer`. -/
def transferState (od : Bool) (desc : Cells 16) (n : Nat) (data peer : Memory) : State :=
  { busState od (frameAnswers od (transferFrame 0x6A#7 (descList desc n) data peer)) with
    ports := { Ports.reset with desc := desc, data := data } }

/-- A state, a peer and line events meet the hypotheses on a course of a TRANSFER of `n` messages `desc`
that ends with `e`, `got` come through. -/
def CourseMet (od : Bool) (desc : Cells 16) (n : Byte) (e : Ending) (got : List Part) : Prop :=
  ∃ (s : State) (peer : Memory) (es : List LineEvent), s.ports.desc = desc ∧ BusReady od s ∧ PortsWf s ∧
    ValidTransfer s.par s.ports.desc n.toNat ∧
    Course s.par.stretchLimit od
      (transferParts 0x6A#7 (descList s.ports.desc n.toNat) s.ports.data peer) es e got ∧
    s.env.gives (samplesOf es)

/-- The bytes of the messages below, sent and received. -/
def bytesX : Memory := [(0, 0x06#8), (1, 0x5E#8), (2, 0x7F#8), (3, 0xC3#8)]

/-- The parts of the messages `desc` in set X. -/
def partsX (desc : Cells 16) (n : Byte) : List Part :=
  transferParts 0x6A#7 (descList desc n.toNat) bytesX bytesX

/-- Such a state, from a course of these parts. -/
theorem course_met (od : Bool) {desc : Cells 16} {n : Byte} {e : Ending} {got : List Part}
    {es : List LineEvent} (hv : transferValid setX (descList desc n.toNat) = true)
    (hw : Cells.wf desc = true) (hc : Course 3 od (partsX desc n) es e got) :
    CourseMet od desc n e got :=
  ⟨{ busState od (samplesOf es) with ports := { Ports.reset with desc := desc, data := bytesX } },
    bytesX, es, rfl, ⟨rfl, rfl, rfl⟩, ⟨(by decide : bytesX.wf = true), hw⟩, valid_transfer hv, hc, gives_scripted _ _ _⟩

/-- The part `i` is a byte sent: it may be refused there. -/
theorem refused_met (od : Bool) {desc : Cells 16} {n : Byte} (i : Nat) {v : Byte} {ph : Bool} {j k pos : Nat}
    (hv : transferValid setX (descList desc n.toNat) = true) (hw : Cells.wf desc = true)
    (hp : partsX desc n =
      (partsX desc n).take i ++ ⟨.send v true, ph, j, k, pos⟩ :: (partsX desc n).drop (i + 1)) :
    CourseMet od desc n (.noAck ph j k) ((partsX desc n).take i) := by
  have h := Course.through ((partsX desc n).take i) (.refused v ⟨.send v true, ph, j, k, pos⟩
    ((partsX desc n).drop (i + 1)) rfl (Sym.unstretched 3 od _) (Sym.unstretched 3 od _))
  rw [List.append_nil, ← hp] at h
  exact course_met od hv hw h

/-- The clock may be held in the part `i`, at its event `m`, a sample of the clock. -/
theorem held_met {desc : Cells 16} {n : Byte} (i m : Nat) {y : Sym} {ph : Bool} {j k pos : Nat}
    (hv : transferValid setX (descList desc n.toNat) = true) (hw : Cells.wf desc = true)
    (hp : partsX desc n =
      (partsX desc n).take i ++ ⟨y, ph, j, k, pos⟩ :: (partsX desc n).drop (i + 1))
    (hy : y.events true = (y.events true).take m ++ .sample .scl true :: (y.events true).drop (m + 1)) :
    CourseMet true desc n (.timeout ph j k) ((partsX desc n).take i) := by
  have hs := Stretched.hold 3 (es := (y.events true).take m) ((y.events true).drop (m + 1))
    fun e he => y.events_high true e (List.mem_of_mem_take he)
  rw [← hy] at hs
  have h := Course.through ((partsX desc n).take i)
    (.held ⟨y, ph, j, k, pos⟩ ((partsX desc n).drop (i + 1)) hs)
  rw [List.append_nil, ← hp] at h
  exact course_met true hv hw h

/-- The stop after a refused part `i` may be held at its only sample of the clock. -/
theorem refused_held_met {desc : Cells 16} {n : Byte} (i : Nat) {v : Byte} {ph : Bool} {j k pos : Nat}
    (hv : transferValid setX (descList desc n.toNat) = true) (hw : Cells.wf desc = true)
    (hp : partsX desc n =
      (partsX desc n).take i ++ ⟨.send v true, ph, j, k, pos⟩ :: (partsX desc n).drop (i + 1)) :
    CourseMet true desc n (.timeout false j 0) ((partsX desc n).take i) := by
  have hs := Stretched.hold 3 (es := (Sym.stop.events true).take 5) ((Sym.stop.events true).drop 6)
    fun e he => Sym.stop.events_high true e (List.mem_of_mem_take he)
  have h := Course.through ((partsX desc n).take i) (.refusedHeld v ⟨.send v true, ph, j, k, pos⟩
    ((partsX desc n).drop (i + 1)) rfl (Sym.unstretched 3 true _) hs)
  rw [List.append_nil, ← hp] at h
  exact course_met true hv hw h

/-- Every part may come through with the clock stretched once, by three samples, at event `m` of part
`i`. -/
theorem stretched_met {desc : Cells 16} {n : Byte} (i m : Nat) {y : Sym} {ph : Bool} {j k pos : Nat}
    (hv : transferValid setX (descList desc n.toNat) = true) (hw : Cells.wf desc = true)
    (hp : partsX desc n =
      (partsX desc n).take i ++ ⟨y, ph, j, k, pos⟩ :: (partsX desc n).drop (i + 1))
    (hy : y.events true = (y.events true).take m ++ .sample .scl true :: (y.events true).drop (m + 1)) :
    CourseMet true desc n .ok (partsX desc n) := by
  have hs := Stretched.delay (limit := 3) (es := (y.events true).take m)
    (fs := (y.events true).drop (m + 1)) 3 (Nat.le_refl _)
    (fun e he => y.events_high true e (List.mem_of_mem_take he))
    fun e he => y.events_high true e (List.mem_of_mem_drop he)
  rw [← hy] at hs
  have h := Course.through (od := true) ((partsX desc n).drop (i + 1)) (.done (limit := 3))
  rw [List.append_nil] at h
  have h := Course.through ((partsX desc n).take i) (.next ⟨y, ph, j, k, pos⟩ hs h)
  rw [List.append_nil, ← hp] at h
  exact course_met true hv hw h

/-- V-SB-13, and a stretched byte that is received. -/
theorem witness_StretchedTransferRuns :
    CourseMet true [(0, 0x4001#16)] 1#8 .ok (partsX [(0, 0x4001#16)] 1#8) ∧
      CourseMet true [(0, 0x0001#16), (1, 0xE003#16)] 2#8 .ok
        (partsX [(0, 0x0001#16), (1, 0xE003#16)] 2#8) :=
  ⟨stretched_met 2 3 (by decide) (by decide) (by rfl) (by rfl),
    stretched_met 6 3 (by decide) (by decide) (by rfl) (by rfl)⟩

theorem witness_TransferRunsItsFrame (od : Bool) :
    let s := transferState od [(0, 0x0001#16), (1, 0xE003#16)] (2#8).toNat [(0, 0x0B#8)]
      [(1, 0xA1#8), (2, 0xB2#8), (3, 0xC3#8)];
    BusReady od s ∧ PortsWf s ∧ ValidTransfer s.par s.ports.desc (2#8).toNat ∧
      s.env.gives (frameAnswers od (transferFrame 0x6A#7 (descList s.ports.desc (2#8).toNat) s.ports.data
        [(1, 0xA1#8), (2, 0xB2#8), (3, 0xC3#8)])) :=
  ⟨⟨rfl, rfl, rfl⟩, ⟨rfl, rfl⟩, valid_transfer
      (by decide : transferValid setX (descList [(0, 0x0001#16), (1, 0xE003#16)] 2) = true), gives_scripted _ _ _⟩

theorem witness_TransferEndsCleanly :
    BusInv ownedState ∧ PortsWf ownedState ∧ ownedState.bus.ready = true ∧
      ValidTransfer ownedState.par ownedState.ports.desc (1#8).toNat :=
  ⟨by constructor <;> decide, ⟨by decide, by decide⟩, rfl, valid_transfer (by decide)⟩

/-- V-SB-9 and V-SB-10 (the last byte), and an address refused in a write and in a read. -/
theorem witness_RefusedByteStopsTheTransfer (od : Bool) :
    (∀ k, k ∈ [0, 1, 2] → ∃ s : State, BusReady od s ∧ ValidTransfer s.par s.ports.desc 1 ∧
      (s.ports.desc.read 0).getLsbD 13 = false ∧ k < ((s.ports.desc.read 0).extractLsb' 0 8).toNat ∧
      s.env.gives (frameAnswers od (writeRefused 0x6A#7 s.ports.data k))) ∧
    ∀ rw : BitVec 1, ∃ (s : State) (n : Byte), BusReady od s ∧
      ValidTransfer s.par s.ports.desc n.toNat ∧ rw = (s.ports.desc.read 0).extractLsb' 13 1 ∧
      s.env.gives (frameAnswers od (addressRefused 0x6A#7 rw)) := by
  constructor
  · intro k hk
    refine ⟨{ busState od (frameAnswers od (writeRefused 0x6A#7 [(0, 0x11#8), (1, 0x22#8), (2, 0x33#8)] k)) with
      ports := { Ports.reset with
        desc := [(0, 0x4003#16)], data := [(0, 0x11#8), (1, 0x22#8), (2, 0x33#8)] } },
      ⟨rfl, rfl, rfl⟩, valid_transfer
        (by decide : transferValid setX (descList [(0, 0x4003#16)] 1) = true),
      (by decide : (0x4003#16).getLsbD 13 = false), ?_, gives_scripted _ _ _⟩
    have h : k < 3 := by
      have : k = 0 ∨ k = 1 ∨ k = 2 := by simpa using hk
      omega
    exact (by decide : (3 : Nat) = ((0x4003#16).extractLsb' 0 8).toNat) ▸ h
  · intro rw
    have h : rw = 0#1 ∨ rw = 1#1 := by revert rw; decide
    obtain rfl | rfl := h
    · exact ⟨{ busState od (frameAnswers od (addressRefused 0x6A#7 0#1)) with
        ports := { Ports.reset with desc := [(0, 0x4002#16)] } }, 1#8, ⟨rfl, rfl, rfl⟩,
        valid_transfer
          (by decide : transferValid setX (descList [(0, 0x4002#16)] 1) = true),
        (by decide : 0#1 = (0x4002#16).extractLsb' 13 1), gives_scripted _ _ _⟩
    · exact ⟨{ busState od (frameAnswers od (addressRefused 0x6A#7 1#1)) with
        ports := { Ports.reset with desc := [(0, 0x6001#16)] } }, 1#8, ⟨rfl, rfl, rfl⟩,
        valid_transfer
          (by decide : transferValid setX (descList [(0, 0x6001#16)] 1) = true),
        (by decide : 1#1 = (0x6001#16).extractLsb' 13 1), gives_scripted _ _ _⟩

/-- In a second message: the repeated address byte, the last byte of a continuation, and a byte after two
that were read. -/
theorem witness_RefusedInALaterMessage (od : Bool) :
    CourseMet od [(0, 0x0001#16), (1, 0xE003#16)] 2#8 (.noAck false 1 0)
        ((partsX [(0, 0x0001#16), (1, 0xE003#16)] 2#8).take 4) ∧
      CourseMet od [(0, 0x0001#16), (1, 0x4002#16)] 2#8 (.noAck true 1 1)
        ((partsX [(0, 0x0001#16), (1, 0x4002#16)] 2#8).take 4) ∧
      CourseMet od [(0, 0x2002#16), (1, 0xC001#16)] 2#8 (.noAck true 1 0)
        ((partsX [(0, 0x2002#16), (1, 0xC001#16)] 2#8).take 6) :=
  ⟨refused_met od 4 (by decide) (by decide) (by rfl),
    refused_met od 4 (by decide) (by decide) (by rfl),
    refused_met od 6 (by decide) (by decide) (by rfl)⟩

/-- V-SB-12; the second bit of a read byte, the repeated start and the stop of a second message; V-SB-14. -/
theorem witness_HeldAnywhere :
    CourseMet true [(0, 0x4001#16)] 1#8 (.timeout true 0 0) ((partsX [(0, 0x4001#16)] 1#8).take 2) ∧
      CourseMet true [(0, 0x0001#16), (1, 0xE003#16)] 2#8 (.timeout true 1 1)
        ((partsX [(0, 0x0001#16), (1, 0xE003#16)] 2#8).take 6) ∧
      CourseMet true [(0, 0x0001#16), (1, 0xE003#16)] 2#8 (.timeout false 1 0)
        ((partsX [(0, 0x0001#16), (1, 0xE003#16)] 2#8).take 3) ∧
      CourseMet true [(0, 0x0001#16), (1, 0xE003#16)] 2#8 (.timeout false 1 0)
        ((partsX [(0, 0x0001#16), (1, 0xE003#16)] 2#8).take 8) ∧
      CourseMet true [(0, 0x4001#16)] 1#8 (.timeout false 0 0) ((partsX [(0, 0x4001#16)] 1#8).take 2) :=
  ⟨held_met 2 3 (by decide) (by decide) (by rfl) (by rfl),
    held_met 6 10 (by decide) (by decide) (by rfl) (by rfl),
    held_met 3 3 (by decide) (by decide) (by rfl) (by rfl),
    held_met 8 5 (by decide) (by decide) (by rfl) (by rfl),
    refused_held_met 2 (by decide) (by decide) (by rfl)⟩

theorem witness_HeldClockAbortsTheTransfer :
    ∃ s : State, BusReady true s ∧ ValidTransfer s.par s.ports.desc (1#8).toNat ∧
      s.env.gives (List.replicate (s.par.stretchLimit + 1) false) :=
  ⟨{ busState true (List.replicate 4 false) with ports := { Ports.reset with desc := [(0, 0x4001#16)] } },
    ⟨rfl, rfl, rfl⟩, valid_transfer (by decide), gives_scripted _ _ _⟩

/-- The lengths 1 and `MAX_LEN` = 16. -/
theorem witness_RegReadFillsTheDataPort (od : Bool) :
    ∀ len, len ∈ [1#8, 16#8] → ∃ s : State, BusReady od s ∧ PortsWf s ∧ s.par.wf = true ∧
      1 ≤ len.toNat ∧ len.toNat ≤ s.par.maxLen ∧
      s.env.gives (frameAnswers od (regReadFrame 0x6A#7 0x0B#8 [(0, 0x04#8)] len.toNat)) := by
  intro len hl
  have h : 1 ≤ len.toNat ∧ len.toNat ≤ setX.maxLen := by revert len; decide
  exact ⟨busState od _, ⟨rfl, rfl, rfl⟩, ⟨rfl, rfl⟩, test_set_x_is_legal, h.1, h.2, gives_scripted _ _ _⟩

/-- The lengths 0 and `MAX_LEN`, and a refused last byte. -/
theorem witness_RegWriteSendsTheDataPort (od : Bool) :
    (∀ len, len ∈ [0#8, 16#8] → ∃ s : State, BusReady od s ∧ s.par.wf = true ∧
      len.toNat ≤ s.par.maxLen ∧
      s.env.gives (frameAnswers od (regWriteFrame 0x6A#7 0x04#8 s.ports.data len.toNat))) ∧
    ∃ s : State, BusReady od s ∧ s.par.wf = true ∧ 15 < (16#8).toNat ∧
      (16#8).toNat ≤ s.par.maxLen ∧
      s.env.gives (frameAnswers od (regWriteRefused 0x6A#7 0x04#8 s.ports.data 15)) := by
  constructor
  · intro len hl
    have h : len.toNat ≤ setX.maxLen := by revert len; decide
    exact ⟨busState od (frameAnswers od (regWriteFrame 0x6A#7 0x04#8 [] len.toNat)), ⟨rfl, rfl, rfl⟩,
      test_set_x_is_legal, h, gives_scripted _ _ _⟩
  · exact ⟨busState od (frameAnswers od (regWriteRefused 0x6A#7 0x04#8 [] 15)), ⟨rfl, rfl, rfl⟩,
      test_set_x_is_legal, by decide, (by decide : (16#8).toNat ≤ 16), gives_scripted _ _ _⟩

theorem witness_RegisterCommandFrames :
    PortsWf ownedState ∧ (busState true []).bus.ready = true ∧ (0#8).toNat = 0 ∧
      (busState true []).par.maxLen < (17#8).toNat ∧ (20#8).toNat ≤ 20 ∧ 20 < (21#8).toNat :=
  ⟨⟨by decide, by decide⟩, rfl, by decide, by decide, by decide, by decide⟩

/-- CHARGE_VOLTAGE at its floor, below it, and at its top. -/
theorem witness_AffineTransformLaws :
    let d := setX.fields.get .chargeVoltage
    3839 < d.offset ∧ d.offset ≤ 3840 ∧ (1 ≤ d.step ∧ d.offset ≤ 4848 ∧ 4848 ≤ d.decodeRaw (2 ^ d.width - 1)) ∧
      63 ≤ 2 ^ d.width - 1 := by decide

theorem witness_SourceScalesAreFixed :
    setX.fields.inputCurrentLimit.width = 6 ∧ setX.fields.chargeVoltage.width = 6 := by decide

theorem witness_FieldReadReturnsThePhysicalValue (od : Bool) :
    ∃ s : State, BusReady od s ∧ s.par.wf = true ∧ FieldId.all[(20#8).toNat]? = some .adcContinuous ∧
      s.env.gives (frameAnswers od (readFrame s.par.chargerAddr (s.par.fields.get .adcContinuous).reg 0x80#8)) :=
  ⟨busState od (frameAnswers od (readFrame 0x6A#7 0x02#8 0x80#8)), ⟨rfl, rfl, rfl⟩, test_set_x_is_legal,
    by decide, gives_scripted _ _ _⟩

/-- V-RI-6 and V-RI-7 (clamped). -/
theorem witness_FieldWriteReplacesOnlyTheField (od : Bool) :
    (∃ s : State, BusReady od s ∧ s.par.wf = true ∧ FieldId.all[(7#8).toNat]? = some .chargeVoltage ∧
      22 = (s.par.fields.get .chargeVoltage).encodePhys s.ports.val.toNat ∧
      Merged (s.par.fields.get .chargeVoltage) 0x83#8 22 0x5B#8 ∧
      s.env.gives (frameAnswers od (readFrame s.par.chargerAddr (s.par.fields.get .chargeVoltage).reg 0x83#8 ++
        writeFrame s.par.chargerAddr (s.par.fields.get .chargeVoltage).reg 0x5B#8))) ∧
    63 = (setX.fields.get .inputCurrentLimit).encodePhys 5000 ∧
      Merged (setX.fields.get .inputCurrentLimit) 0xC0#8 63 0xFF#8 :=
  ⟨⟨{ busState od (frameAnswers od (readFrame 0x6A#7 0x04#8 0x83#8 ++ writeFrame 0x6A#7 0x04#8 0x5B#8)) with
        ports := { Ports.reset with val := 4200#32 } }, ⟨rfl, rfl, rfl⟩, test_set_x_is_legal, by decide,
      (by decide : 22 = (setX.fields.get .chargeVoltage).encodePhys (4200#32).toNat),
      (by unfold Merged; decide : Merged (setX.fields.get .chargeVoltage) 0x83#8 22 0x5B#8),
      gives_scripted _ _ _⟩,
    by decide, by unfold Merged; decide⟩

/-- CHARGE_VOLTAGE in set X: a read that ends with TIMEOUT, a read of 0x83 whose write of 0x5B ends OK,
with NO_ACK at its register byte, or with TIMEOUT. V-RI-9 and V-RI-10. -/
theorem witness_FieldWriteNamesTheFailedTransaction (od : Bool) :
    FieldId.all[(7#8).toNat]? = some .chargeVoltage ∧
    (∃ s r : State, PortsWf s ∧ s.par.wf = true ∧
      exec (.regRead s.par.chargerAddr (s.par.fields.get .chargeVoltage).reg 1#8) s = .next r ∧
      r.ports.result = 0x00000003#32) ∧
    (∀ x, x ∈ [(writeAnswers, 0#32), ([true] ++ sent true ++ sent false ++ [true], 0x00000011#32),
        (List.replicate 4 false, 0x00000003#32)] →
      ∃ s r w : State, PortsWf s ∧ s.par.wf = true ∧
        exec (.regRead s.par.chargerAddr (s.par.fields.get .chargeVoltage).reg 1#8) s = .next r ∧
        r.ports.result = 0#32 ∧
        Merged (s.par.fields.get .chargeVoltage) (r.ports.data.read 0)
          ((s.par.fields.get .chargeVoltage).encodePhys s.ports.val.toNat) 0x5B#8 ∧
        exec (.regWrite s.par.chargerAddr (s.par.fields.get .chargeVoltage).reg 1#8)
          (r.onPorts fun p => { p with data := Memory.write [] 0 0x5B#8 }) = .next w ∧
        w.ports.result = x.2) ∧
    (∃ s : State, BusReady od s ∧ s.par.wf = true ∧ FieldId.all[(7#8).toNat]? = some .chargeVoltage ∧
      s.env.gives (frameAnswers od (addressRefused s.par.chargerAddr 0#1))) ∧
    ∃ s : State, BusReady od s ∧ s.par.wf = true ∧ FieldId.all[(7#8).toNat]? = some .chargeVoltage ∧
      Merged (s.par.fields.get .chargeVoltage) 0x83#8
        ((s.par.fields.get .chargeVoltage).encodePhys s.ports.val.toNat) 0x5B#8 ∧
      s.env.gives (frameAnswers od (readFrame s.par.chargerAddr (s.par.fields.get .chargeVoltage).reg 0x83#8 ++
        writeByteRefused s.par.chargerAddr (s.par.fields.get .chargeVoltage).reg 0x5B#8)) := by
  refine ⟨by decide, ⟨busState true (List.replicate 4 false), _, ⟨rfl, rfl⟩, test_set_x_is_legal, rfl,
      by decide⟩, fun x hx => ?_,
    ⟨busState od (frameAnswers od (addressRefused 0x6A#7 0#1)), ⟨rfl, rfl, rfl⟩, test_set_x_is_legal,
      by decide, gives_scripted _ _ _⟩,
    ⟨{ busState od
          (frameAnswers od (readFrame 0x6A#7 0x04#8 0x83#8 ++ writeByteRefused 0x6A#7 0x04#8 0x5B#8)) with
        ports := { Ports.reset with val := 4200#32 } }, ⟨rfl, rfl, rfl⟩, test_set_x_is_legal, by decide,
      (by unfold Merged; decide : Merged (setX.fields.get .chargeVoltage) 0x83#8
        ((setX.fields.get .chargeVoltage).encodePhys (4200#32).toNat) 0x5B#8),
      gives_scripted _ _ _⟩⟩
  simp only [List.mem_cons, List.not_mem_nil, or_false] at hx
  obtain rfl | rfl | rfl := hx
  · exact ⟨{ busState true (readAnswers (got true false false false false false true true) ++ writeAnswers)
        with ports := { Ports.reset with val := 4200#32 } }, _, _, ⟨rfl, rfl⟩, test_set_x_is_legal, rfl,
      by decide, by unfold Merged; decide, rfl, by decide⟩
  · exact ⟨{ busState true (readAnswers (got true false false false false false true true) ++
          ([true] ++ sent true ++ sent false ++ [true]))
        with ports := { Ports.reset with val := 4200#32 } }, _, _, ⟨rfl, rfl⟩, test_set_x_is_legal, rfl,
      by decide, by unfold Merged; decide, rfl, by decide⟩
  · exact ⟨{ busState true (readAnswers (got true false false false false false true true) ++
          List.replicate 4 false)
        with ports := { Ports.reset with val := 4200#32 } }, _, _, ⟨rfl, rfl⟩, test_set_x_is_legal, rfl,
      by decide, by unfold Merged; decide, rfl, by decide⟩

/-- V-RI-11: 0x18 is the expected identifier, 0x20 is not. -/
theorem witness_ProbeComparesThePartIdentifier (od : Bool) :
    (∀ b : Byte, ∃ s : State, BusReady od s ∧ s.par.wf = true ∧
      s.env.gives (frameAnswers od (readFrame s.par.chargerAddr s.par.fields.partId.reg b))) ∧
    rawBits setX.fields.partId 0x18#8 * setX.fields.partId.step + setX.fields.partId.offset =
      setX.partIdExpected ∧
    rawBits setX.fields.partId 0x20#8 * setX.fields.partId.step + setX.fields.partId.offset ≠
      setX.partIdExpected ∧
    (∃ s : State, BusReady od s ∧ s.par.wf = true ∧
      s.env.gives (frameAnswers od (addressRefused s.par.chargerAddr 0#1))) ∧
    ∃ t, exec .probe State.reset = .next t :=
  ⟨fun b => ⟨busState od (frameAnswers od (readFrame 0x6A#7 0x14#8 b)), ⟨rfl, rfl, rfl⟩, test_set_x_is_legal,
      gives_scripted _ _ _⟩, by decide, by decide,
    ⟨busState od (frameAnswers od (addressRefused 0x6A#7 0#1)), ⟨rfl, rfl, rfl⟩, test_set_x_is_legal,
      gives_scripted _ _ _⟩, ⟨_, rfl⟩⟩

theorem witness_BootRunsOrParks : ctlX.phase ≠ .boot ∧ State.reset.ctl.phase = .boot := ⟨by decide, rfl⟩

/-- Both drive modes, at both ends of the detection; 0x18 is the expected identifier, 0x20 is not; the
writes of P1 over 0x00, CHARGE_VOLTAGE 4200 over 0x83 too. -/
theorem witness_BootNeedsTheChargingIC :
    (∀ (b : Byte), ∀ x, x ∈ [(100, false), (99, true), (0, true)] →
      ∃ s : State, s.ctl.phase = .boot ∧ s.par.wf = true ∧ (if x.2 = true then x.1 < 100 else x.1 = 100) ∧
        s.env.gives (List.replicate x.1 true ++ (if x.2 = true then [false] else []) ++
          frameAnswers (!x.2) (readFrame s.par.chargerAddr s.par.fields.partId.reg b))) ∧
    PartExpected setX 0x18#8 ∧ ¬PartExpected setX 0x20#8 ∧
    ∀ (low : Bool) (cv : Byte × Byte), cv ∈ [(0x00#8, 0x58#8), (0x83#8, 0x5B#8)] →
      ∃ s : State, s.ctl.phase = .boot ∧ s.par = setX ∧
        FieldMerged setX .chargeCurrent setX.chargeCurrent 0#8 0#8 ∧
        FieldMerged setX .prechargeCurrent setX.prechargeCurrent 0#8 0#8 ∧
        FieldMerged setX .terminationCurrent setX.terminationCurrent 0#8 0#8 ∧
        FieldMerged setX .chargeVoltage setX.chargeVoltage cv.1 cv.2 ∧
        s.env.gives (List.replicate (if low = true then 57 else 100) true ++
          (if low = true then [false] else []) ++ frameAnswers (!low)
            (bootFrame s.par 0x18#8 (0#8, 0#8) (0#8, 0#8) (0#8, 0#8) cv 0x04#8 0x00#8 35#8)) := by
  refine ⟨fun b x hx => ?_, by unfold PartExpected; decide, by unfold PartExpected; decide,
    fun low cv hcv => ?_⟩
  · have hk : if x.2 = true then x.1 < 100 else x.1 = 100 := by revert x; decide
    exact ⟨{ State.resetOf setX with
        env := ⟨List.replicate x.1 true ++ (if x.2 = true then [false] else []) ++
          frameAnswers (!x.2) (readFrame 0x6A#7 0x14#8 b), 0, []⟩ },
      rfl, test_set_x_is_legal, hk, gives_scripted _ _ _⟩
  · have hm : FieldMerged setX .chargeVoltage setX.chargeVoltage cv.1 cv.2 := by
      simp only [List.mem_cons, List.not_mem_nil, or_false] at hcv
      obtain rfl | rfl := hcv <;> unfold FieldMerged Merged <;> decide
    exact ⟨{ State.resetOf setX with
        env := ⟨List.replicate (if low = true then 57 else 100) true ++
          (if low = true then [false] else []) ++ frameAnswers (!low)
            (bootFrame setX 0x18#8 (0#8, 0#8) (0#8, 0#8) (0#8, 0#8) cv 0x04#8 0x00#8 35#8), 0, []⟩ },
      rfl, rfl, by unfold FieldMerged Merged; decide,
      by unfold FieldMerged Merged; decide, by unfold FieldMerged Merged; decide, hm, gives_scripted _ _ _⟩

set_option maxRecDepth 8000 in
/-- In push-pull mode: the address refused, the register number refused, another identifier, the expected
one. In open-drain mode: TIMEOUT. -/
theorem witness_BootWhoseProbeFails :
    ∀ x, x ∈ [([false, true], 0x00000001#32), ([false, false, true], 0x00000011#32),
        ([false, false, false, false] ++ bitsOf 0x20#8, 0#32),
        ([false, false, false, false] ++ bitsOf 0x18#8, 0#32),
        (List.replicate 100 true ++ List.replicate 4 false, 0x00000003#32)] →
      ∃ s c r : State, s.ctl.phase = .boot ∧ s.par.wf = true ∧ PortsWf s ∧
        exec (.configure s.par.busRate) s = .next c ∧
        ReadsRegister s.par.fields.partId.reg c r ∧ r.ports.result = x.2 ∧
        (x.1 = [false, false, false, false] ++ bitsOf 0x20#8 → r.ports.data.read 0 = 0x20#8) ∧
        (x.1 = [false, false, false, false] ++ bitsOf 0x18#8 → r.ports.data.read 0 = 0x18#8) := by
  intro x hx
  have meets : ∀ bs w, (∃ c r : State, exec (.configure setX.busRate)
        { State.resetOf setX with env := ⟨bs, 0, []⟩ } = .next c ∧
        ReadsRegister setX.fields.partId.reg c r ∧ r.ports.result = w ∧
        (bs = [false, false, false, false] ++ bitsOf 0x20#8 → r.ports.data.read 0 = 0x20#8) ∧
        (bs = [false, false, false, false] ++ bitsOf 0x18#8 → r.ports.data.read 0 = 0x18#8)) →
      ∃ s c r : State, s.ctl.phase = .boot ∧ s.par.wf = true ∧ PortsWf s ∧
        exec (.configure s.par.busRate) s = .next c ∧
        ReadsRegister s.par.fields.partId.reg c r ∧ r.ports.result = w ∧
        (bs = [false, false, false, false] ++ bitsOf 0x20#8 → r.ports.data.read 0 = 0x20#8) ∧
        (bs = [false, false, false, false] ++ bitsOf 0x18#8 → r.ports.data.read 0 = 0x18#8) :=
    fun bs w ⟨c, r, h⟩ => ⟨{ State.resetOf setX with env := ⟨bs, 0, []⟩ }, c, r, rfl,
      test_set_x_is_legal, ⟨rfl, rfl⟩, h⟩
  refine meets x.1 x.2 ?_
  simp only [List.mem_cons, List.not_mem_nil, or_false] at hx
  obtain rfl | rfl | rfl | rfl | rfl := hx <;>
    exact ⟨_, _, rfl, rfl, by decide, by decide, by decide⟩

theorem witness_StepBeforeBootAndParked :
    State.reset.ctl.phase = .boot ∧ ∃ s : State, s.ctl.phase = .parked :=
  ⟨rfl, { busState true [] with ctl := { Ctl.reset with phase := .parked } }, rfl⟩

theorem witness_StepFrameAndLed : (runState ctlX btnX Out.reset 1150#32 false []).ctl.phase = .run := rfl

/-- `s` with HANDSHAKE true. -/
def shaking (s : State) : State := { s with par := { s.par with handshake := true } }

/-- `poweredX` with a soft shutdown requested at 3001, last polled at 5300. -/
def pendingX : Ctl := { poweredX with ssdPending := true, ssdStart := 3001#32, lastPoll := 5300#32 }

/-- A due poll in Powered, with a soft shutdown pending, and in the iteration that ends the dwell of P3;
FAULT 0x00, 0x01 (thermal) and 0x02 (battery) decode as the clauses need. -/
theorem witness_PollUpdatesTheView :
    (let s := runState poweredX Btn.reset poweredOut 2000#32 true
        (frameAnswers true (pollFrame setX 0x04#8 0x01#8 35#8));
      CtlInv s ∧ Polls s ∧ BusReady true s ∧ s.par.wf = true ∧
        s.env.gives (frameAnswers true (pollFrame s.par 0x04#8 0x01#8 35#8))) ∧
    (let s := shaking (runState { pendingX with lastPoll := 4000#32 } Btn.reset poweredOut 5500#32 true
        (frameAnswers true (pollFrame setX 0x04#8 0x02#8 35#8)));
      CtlInv s ∧ Polls s ∧ s.ctl.ssdPending = true ∧ BusReady true s ∧ s.par.wf = true ∧
        s.env.gives (frameAnswers true (pollFrame s.par 0x04#8 0x02#8 35#8))) ∧
    (let s := runState coolingX Btn.reset coolingOut 121400#32 true
        (frameAnswers true (pollFrame setX 0x04#8 0x00#8 35#8));
      CtlInv s ∧ Polls s ∧ s.ctl.pstate = .coolingDown ∧ ¬HoldFires s ∧ BusReady true s ∧
        s.par.wf = true ∧ s.env.gives (frameAnswers true (pollFrame s.par 0x04#8 0x00#8 35#8))) ∧
    (decodedStatus setX 0x04#8 0x01#8).fault.thermal = true ∧
    ((decodedStatus setX 0x04#8 0x02#8).fault.thermal = false ∧
      (decodedStatus setX 0x04#8 0x02#8).fault.battery = true) ∧
    (decodedStatus setX 0x04#8 0x00#8).fault.thermal = false ∧
      (decodedStatus setX 0x04#8 0x00#8).fault.battery = false :=
  ⟨⟨by constructor <;> decide,
      ⟨⟨rfl, by decide, rfl⟩, .inr (by decide), by unfold NoShutdownEnd; decide, by decide⟩,
      ⟨rfl, rfl, rfl⟩, test_set_x_is_legal, gives_scripted _ _ _⟩,
    ⟨by constructor <;> decide,
      ⟨⟨rfl, by decide, rfl⟩, .inr (by decide), by unfold NoShutdownEnd; decide, by decide⟩, rfl,
      ⟨rfl, rfl, rfl⟩, by decide, gives_scripted _ _ _⟩,
    ⟨by constructor <;> decide,
      ⟨⟨rfl, by decide, rfl⟩, .inr (by decide), by unfold NoShutdownEnd; decide, by decide⟩, rfl,
      by unfold HoldFires; decide, ⟨rfl, rfl, rfl⟩, test_set_x_is_legal, gives_scripted _ _ _⟩,
    by decide, ⟨by decide, by decide⟩, by decide, by decide⟩

/-- The read of STATUS, of FAULT (V-CC-5) and of BATTERY_ADC refused, in Powered; and the dwell's end. -/
theorem witness_FailedPollKeepsTheView :
    (∀ pre, pre ∈ readsBefore setX 0x06#8 0x00#8 →
      ∃ s : State, CtlInv s ∧ Polls s ∧ (dwellOver s.ctl).overTemp = false ∧ s.ev.flag.thermal = false ∧
        ¬BatteryFault s.ctl ∧ ¬HoldFires s ∧ BusReady true s ∧ s.par = setX ∧
        s.env.gives (frameAnswers true (pre ++ addressRefused s.par.chargerAddr 0#1))) ∧
    let s := runState coolingX Btn.reset coolingOut 121400#32 true
      (frameAnswers true (addressRefused setX.chargerAddr 0#1));
    CtlInv s ∧ Polls s ∧ (dwellOver s.ctl).overTemp = false ∧ s.ev.flag.thermal = false ∧
      ¬BatteryFault s.ctl ∧ ¬HoldFires s ∧ BusReady true s ∧ s.par.wf = true ∧
      s.env.gives (frameAnswers true (addressRefused s.par.chargerAddr 0#1)) := by
  refine ⟨fun pre _ => ?_, by constructor <;> decide,
    ⟨⟨rfl, by decide, rfl⟩, .inr (by decide), by unfold NoShutdownEnd; decide, by decide⟩, rfl, rfl,
    by unfold BatteryFault; decide, by unfold HoldFires; decide, ⟨rfl, rfl, rfl⟩, test_set_x_is_legal,
    gives_scripted _ _ _⟩
  have h : CtlInv (runState poweredX Btn.reset poweredOut 2000#32 true []) := by constructor <;> decide
  have hp : Polls (runState poweredX Btn.reset poweredOut 2000#32 true []) :=
    ⟨⟨rfl, by decide, rfl⟩, .inr (by decide), by unfold NoShutdownEnd; decide, by decide⟩
  exact ⟨runState poweredX Btn.reset poweredOut 2000#32 true
      (frameAnswers true (pre ++ addressRefused setX.chargerAddr 0#1)),
    ⟨h.rail, h.adc, h.fan, h.isolated, h.pending, h.request, h.stopped, h.parked, h.charging, h.percent,
      h.blocked⟩, ⟨⟨rfl, hp.unblocked.awake, rfl⟩, hp.due, hp.shutdown, hp.dwell⟩, rfl, rfl,
    (by unfold BatteryFault; decide : ¬BatteryFault poweredX),
    (by unfold HoldFires; decide : ¬HoldFires (runState poweredX Btn.reset poweredOut 2000#32 true [])),
    ⟨rfl, rfl, rfl⟩, rfl, gives_scripted _ _ _⟩

/-- What three reads of a poll in Powered may answer: STATUS refused at its register number, STATUS with
TIMEOUT, FAULT refused at its second address byte, FAULT with TIMEOUT, BATTERY_ADC with TIMEOUT, all OK. -/
theorem witness_PollWhoseReadsFail :
    ∀ x, x ∈ [([true] ++ sent true ++ sent false ++ [true], 0x00000011#32, 0#32, 0#32),
        (List.replicate 4 false, 0x00000003#32, 0#32, 0#32),
        (readAnswers zeros ++ ([true] ++ sent true ++ sent true ++ [true] ++ sent false ++ [true]), 0#32,
          0x00000101#32, 0#32),
        (readAnswers zeros ++ List.replicate 4 false, 0#32, 0x00000003#32, 0#32),
        (readAnswers zeros ++ readAnswers zeros ++ List.replicate 4 false, 0#32, 0#32, 0x00000003#32),
        (readAnswers zeros ++ readAnswers zeros ++ readAnswers zeros, 0#32, 0#32, 0#32)] →
      ∃ s r1 r2 r3 : State, CtlInv s ∧ Polls s ∧ PortsWf s ∧ s.par.wf = true ∧
        ¬Alert s ∧ ¬BatteryFault s.ctl ∧ ¬HoldFires s ∧
        ReadsRegister s.par.fields.status.reg s r1 ∧ ReadsRegister s.par.fields.fault.reg r1 r2 ∧
        ReadsRegister s.par.fields.batteryAdc.reg r2 r3 ∧ r1.ports.result = x.2.1 ∧
        (r1.ports.result = 0#32 → r2.ports.result = x.2.2.1 ∧
          (r2.ports.result = 0#32 → r3.ports.result = x.2.2.2)) := by
  intro x hx
  have h : CtlInv (runState poweredX Btn.reset poweredOut 2000#32 true []) := by constructor <;> decide
  have hp : Polls (runState poweredX Btn.reset poweredOut 2000#32 true []) :=
    ⟨⟨rfl, by decide, rfl⟩, .inr (by decide), by unfold NoShutdownEnd; decide, by decide⟩
  refine ⟨runState poweredX Btn.reset poweredOut 2000#32 true x.1, _, _, _,
    ⟨h.rail, h.adc, h.fan, h.isolated, h.pending, h.request, h.stopped, h.parked, h.charging, h.percent,
      h.blocked⟩, ⟨⟨rfl, hp.unblocked.awake, rfl⟩, hp.due, hp.shutdown, hp.dwell⟩, ⟨rfl, rfl⟩,
    test_set_x_is_legal,
    (by unfold Alert; decide : ¬Alert (runState poweredX Btn.reset poweredOut 2000#32 true [])),
    (by unfold BatteryFault; decide : ¬BatteryFault poweredX),
    (by unfold HoldFires; decide : ¬HoldFires (runState poweredX Btn.reset poweredOut 2000#32 true [])),
    rfl, rfl, rfl, ?_⟩
  simp only [List.mem_cons, List.not_mem_nil, or_false] at hx
  obtain rfl | rfl | rfl | rfl | rfl | rfl := hx <;> exact ⟨by decide, by decide⟩

/-- The first and the last segment, at their ends. -/
theorem witness_PercentageIsPiecewiseLinear :
    ChargeState.notCharging ≠ .terminated ∧ 2683 < 2684 ∧ 4204 ≤ 4204 ∧
      ([2684, 2864, 3064, 3264, 3444, 3644, 3824, 4024, 4204][0]? = some 2684 ∧ 2684 ≤ 2684 ∧ 2684 < 2864) ∧
      [2684, 2864, 3064, 3264, 3444, 3644, 3824, 4024, 4204][7 + 1]? = some 4204 ∧ 4203 < 4204 ∧
      pct 2684 .notCharging = 0 ∧ pct 4203 .notCharging = 255 := by decide

/-- A hold that fires at 1101 in Sleeping, with the power-on precondition met and (2700 mV) not met. -/
theorem witness_HoldPowersOnIffAllowed :
    (let s := runState ctlX btnX Out.reset 1101#32 false [];
      CtlInv s ∧ Unblocked s ∧ s.ctl.pstate = .sleeping ∧ HoldFires s ∧ NoFault s ∧ Calm s ∧
        PowerOnWords s.ctl ∧ (afterFaults s).ctl.pstate = .sleeping) ∧
    let s := runState { ctlX with battery := ⟨20#8, 2700#32, 2#8⟩ } btnX Out.reset 1101#32 false [];
    CtlInv s ∧ Unblocked s ∧ s.ctl.pstate = .sleeping ∧ HoldFires s ∧ NoFault s ∧ ¬PowerOnWords s.ctl :=
  ⟨⟨by constructor <;> decide, ⟨rfl, by decide, rfl⟩, rfl, by unfold HoldFires; decide,
      ⟨rfl, rfl, by unfold BatteryFault; decide, by unfold PollDue; decide⟩, ⟨rfl, rfl⟩,
      by unfold PowerOnWords; decide, by decide⟩,
    by constructor <;> decide, ⟨rfl, by decide, rfl⟩, rfl, by unfold HoldFires; decide,
    ⟨rfl, rfl, by unfold BatteryFault; decide, by unfold PollDue; decide⟩, by unfold PowerOnWords; decide⟩

theorem witness_ThermalAlertCoolsDown :
    (∃ s : State, Unblocked s ∧ s.ctl.pstate ≠ .coolingDown ∧ s.ev.flag.thermal = true) ∧
      ∃ s : State, Unblocked s ∧ s.ctl.pstate ≠ .coolingDown ∧ s.ctl.overTemp = true :=
  ⟨⟨{ runState poweredX Btn.reset poweredOut 1400#32 true [] with ev := ⟨⟨false, false, true, false⟩, .none⟩ },
      ⟨rfl, by decide, rfl⟩, by decide, rfl⟩,
    ⟨runState { ctlX with overTemp := true } Btn.reset Out.reset 1400#32 true [], ⟨rfl, by decide, rfl⟩,
      by decide, rfl⟩⟩

theorem witness_BatteryFaultShips :
    let s := runState { poweredX with status := ⟨{ battery := true }, .notCharging, 0#8, true⟩ } Btn.reset
      poweredOut 1999#32 true [];
    CtlInv s ∧ Unblocked s ∧ s.ctl.pstate ≠ .coolingDown ∧ s.ctl.overTemp = false ∧
      s.ev.flag.thermal = false ∧ ¬PollDue s ∧ BatteryFault s.ctl :=
  ⟨by constructor <;> decide, ⟨rfl, by decide, rfl⟩, by decide, rfl, rfl, by unfold PollDue; decide,
    ⟨rfl, rfl⟩⟩

/-- W10: 121399 is the last millisecond of the dwell entered at 1400. -/
theorem witness_CoolingDownLastsItsDwell :
    let s := runState coolingX Btn.reset ⟨false, .max, 0#3, false, false, false⟩ 121399#32 true [];
    CtlInv s ∧ s.ctl.phase = .run ∧ s.ctl.pstate = .coolingDown ∧
      elapsed s.ports.nowMs s.ctl.coolStart < 120000 :=
  ⟨by constructor <;> decide, rfl, rfl, by decide⟩

/-- P3, command 6: 121400 ends the dwell and the poll (from 1000) is due, with FAULT 0x00, or 0x02
(V-CC-8). With POLL_MS 200000 none is due. -/
theorem witness_DwellEndsInSleeping :
    (∀ b2, b2 ∈ [0x00#8, 0x02#8] →
      ∃ s : State, CtlInv s ∧ Unblocked s ∧ s.ctl.pstate = .coolingDown ∧
        120000 ≤ elapsed s.ports.nowMs s.ctl.coolStart ∧ s.ev.flag.thermal = false ∧ PollDue s ∧
        BusReady true s ∧ s.par.wf = true ∧
        s.env.gives (frameAnswers true (pollFrame s.par 0x04#8 b2 35#8)) ∧
        (decodedStatus s.par 0x04#8 b2).fault.thermal = false ∧ ¬HoldFires s) ∧
    ((decodedStatus setX 0x04#8 0x00#8).fault.battery = false ∧
      (decodedStatus setX 0x04#8 0x02#8).fault.battery = true) ∧
    let s := { runState coolingX Btn.reset coolingOut 121400#32 true [] with
      par := { setX with pollMs := 200000 } };
    CtlInv s ∧ Unblocked s ∧ s.ctl.pstate = .coolingDown ∧
      120000 ≤ elapsed s.ports.nowMs s.ctl.coolStart ∧ s.ev.flag.thermal = false ∧ ¬PollDue s ∧
      ¬BatteryFault s.ctl ∧ ¬HoldFires s := by
  refine ⟨fun b2 hb => ?_, ⟨by decide, by decide⟩, by constructor <;> decide, ⟨rfl, by decide, rfl⟩, rfl,
    by decide, rfl, by unfold PollDue; decide, by unfold BatteryFault; decide, by unfold HoldFires; decide⟩
  simp only [List.mem_cons, List.not_mem_nil, or_false] at hb
  obtain rfl | rfl := hb
  · exact ⟨runState coolingX Btn.reset coolingOut 121400#32 true
        (frameAnswers true (pollFrame setX 0x04#8 0x00#8 35#8)), by constructor <;> decide,
      ⟨rfl, by decide, rfl⟩, rfl, by decide, rfl, .inr (by decide), ⟨rfl, rfl, rfl⟩, test_set_x_is_legal,
      gives_scripted _ _ _, by decide, by unfold HoldFires; decide⟩
  · exact ⟨runState coolingX Btn.reset coolingOut 121400#32 true
        (frameAnswers true (pollFrame setX 0x04#8 0x02#8 35#8)), by constructor <;> decide,
      ⟨rfl, by decide, rfl⟩, rfl, by decide, rfl, .inr (by decide), ⟨rfl, rfl, rfl⟩, test_set_x_is_legal,
      gives_scripted _ _ _, by decide, by unfold HoldFires; decide⟩

theorem witness_ShippingModeIsTerminal :
    (let s := runState shippingX Btn.reset Out.reset 1400#32 true [];
      s.ctl.phase = .run ∧ s.ctl.pstate = .shippingMode ∧ (∃ t, step s = .next t) ∧
        ∀ rest, s.env.moves ≠ .powerOn :: rest) ∧
    ∃ s t : State, step s = .next t ∧ (∃ w rest, s.ports.evt = ⟨0, w⟩ :: rest) ∧
      s.env.moves = [.powerOn] ∧ s.ctl.pstate = .shippingMode :=
  ⟨⟨rfl, rfl, ⟨_, rfl⟩, fun _ h => nomatch h⟩,
    { runState shippingX Btn.reset Out.reset 1400#32 true [] with
      ports := { Ports.reset with evt := [⟨0, 0x32000000#32⟩] }, env := ⟨[], 0, [.powerOn]⟩ }, _, rfl,
    ⟨_, _, rfl⟩, rfl, rfl⟩

set_option maxRecDepth 8000 in
/-- Without a handshake, with one, and with a soft shutdown already pending; with a poll due (P4, command
3), due but refused, and not due. -/
theorem witness_HoldInPoweredShutsDown :
    (∀ now f, (now, f) ∈ [(2000#32, pollFrame setX 0x04#8 0x00#8 35#8),
        (2000#32, addressRefused setX.chargerAddr 0#1), (1101#32, [])] →
      (let s := runState poweredX btnX poweredOut now false (frameAnswers true f);
        CtlInv s ∧ Unblocked s ∧ HoldFires s ∧ (afterFaults s).ctl.pstate = .powered ∧
          (PollDue s ↔ now = 2000#32) ∧ s.ctl.ssdPending = false ∧ s.par.handshake = false) ∧
      (let s := shaking (runState poweredX btnX poweredOut now false (frameAnswers true f));
        CtlInv s ∧ Unblocked s ∧ HoldFires s ∧ (afterFaults s).ctl.pstate = .powered ∧
          (PollDue s ↔ now = 2000#32) ∧ s.ctl.ssdPending = false ∧ s.par.handshake = true) ∧
      let s := shaking (runState { poweredX with ssdPending := true, ssdStart := 900#32 } btnX poweredOut now
        false (frameAnswers true f));
      CtlInv s ∧ Unblocked s ∧ HoldFires s ∧ (afterFaults s).ctl.pstate = .powered ∧
        (PollDue s ↔ now = 2000#32) ∧ s.ctl.ssdPending = true) ∧
    (let s := runState poweredX btnX poweredOut 1101#32 false [];
      CtlInv s ∧ Unblocked s ∧ s.ctl.pstate = .powered ∧ HoldFires s ∧ NoFault s ∧
        s.ctl.ssdPending = false ∧ s.par.handshake = false) ∧
    (let s := shaking (runState poweredX btnX poweredOut 1101#32 false []);
      CtlInv s ∧ Unblocked s ∧ s.ctl.pstate = .powered ∧ HoldFires s ∧ NoFault s ∧
        s.ctl.ssdPending = false ∧ s.par.handshake = true) ∧
    let s := shaking (runState pendingX btnX poweredOut 5500#32 false []);
    CtlInv s ∧ Unblocked s ∧ s.ctl.pstate = .powered ∧ HoldFires s ∧ NoFault s ∧
      s.ctl.ssdPending = true ∧ s.ev.flag.hostAck = false ∧ elapsed s.ports.nowMs s.ctl.ssdStart < 2500 := by
  refine ⟨fun now f h => ?_, ⟨by constructor <;> decide, ⟨rfl, by decide, rfl⟩, rfl, by unfold HoldFires; decide,
      ⟨rfl, rfl, by unfold BatteryFault; decide, by unfold PollDue; decide⟩, rfl, rfl⟩,
    ⟨by constructor <;> decide, ⟨rfl, by decide, rfl⟩, rfl, by unfold HoldFires; decide,
      ⟨rfl, rfl, by unfold BatteryFault; decide, by unfold PollDue; decide⟩, rfl, rfl⟩,
    by constructor <;> decide, ⟨rfl, by decide, rfl⟩, rfl, by unfold HoldFires; decide,
    ⟨rfl, rfl, by unfold BatteryFault; decide, by unfold PollDue; decide⟩, rfl, rfl, by decide⟩
  simp only [List.mem_cons, List.not_mem_nil, or_false, Prod.mk.injEq] at h
  obtain ⟨rfl, rfl⟩ | ⟨rfl, rfl⟩ | ⟨rfl, rfl⟩ := h
  all_goals exact ⟨⟨by constructor <;> decide, ⟨rfl, by decide, rfl⟩, by unfold HoldFires; decide, by decide,
      by unfold PollDue; decide, rfl, rfl⟩,
    ⟨by constructor <;> decide, ⟨rfl, by decide, rfl⟩, by unfold HoldFires; decide, by decide,
      by unfold PollDue; decide, rfl, rfl⟩,
    by constructor <;> decide, ⟨rfl, by decide, rfl⟩, by unfold HoldFires; decide, by decide,
    by unfold PollDue; decide, rfl⟩

/-- The write of ADC_CONTINUOUS off and on, and of BATFET_CONTROL, in set X. -/
def offX : List Sym := fieldWriteFrame setX .adcContinuous 0x80#8 0x00#8
def onX : List Sym := fieldWriteFrame setX .adcContinuous 0x00#8 0x80#8
def isoX : List Sym := fieldWriteFrame setX .batfetControl 0x00#8 0x20#8

/-- P4's expiry with a poll due, acknowledged or not. -/
def expiring (ack : Bool) : State :=
  { shaking (runState { pendingX with lastPoll := 4000#32 } Btn.reset poweredOut 5501#32 true
      (frameAnswers true (offX ++ pollFrame setX 0x04#8 0x00#8 35#8))) with
    ev := ⟨⟨false, false, false, ack⟩, .none⟩ }

/-- P4: pending at 5500 (2499 ms), expired at 5501 (2500 ms), and acknowledged, with no poll due and with
one due whose bytes decode no fault, blocked or not. -/
theorem witness_SoftShutdownTimers :
    (∀ now, now ∈ [5500#32, 5501#32] → ∀ ack : Bool,
      let s := { shaking (runState pendingX Btn.reset poweredOut now true []) with
        ev := ⟨⟨false, false, false, ack⟩, .none⟩ }
      CtlInv s ∧ s.ctl.phase = .run ∧ s.ctl.ssdPending = true ∧ NoFault s ∧ ¬HoldFires s ∧
        s.ev.flag.hostAck = ack ∧ (2500 ≤ elapsed s.ports.nowMs s.ctl.ssdStart ↔ now = 5501#32)) ∧
    (∀ blocked : Bool,
      let s := shaking (runState { pendingX with lastPoll := 4000#32 }
        ⟨.held, false, 2000#32, 2000#32, blocked, 3001#32⟩ poweredOut 5500#32 false []);
      CtlInv s ∧ s.ctl.phase = .run ∧ s.ctl.ssdPending = true ∧ NoShutdownEnd s ∧ PollDue s) ∧
    (∀ ack : Bool,
      let s := expiring ack
      CtlInv s ∧ Unblocked s ∧ s.ctl.phase = .run ∧ ShutdownEnds s ∧ PollDue s ∧ ¬Alert s ∧ ¬HoldFires s ∧
        BusReady true s ∧ s.par.wf = true ∧
        FieldMerged s.par .adcContinuous s.par.adcOffValue 0x80#8 0x00#8 ∧
        s.env.gives (frameAnswers true (offX ++ pollFrame setX 0x04#8 0x00#8 35#8)) ∧
        s.ev.flag.hostAck = ack) ∧
    (decodedStatus setX 0x04#8 0x00#8).fault.thermal = false ∧
      (decodedStatus setX 0x04#8 0x00#8).fault.battery = false := by
  refine ⟨fun now hn ack => ?_, fun b => ?_, fun ack => ?_, by decide, by decide⟩
  · have h : now = 5500#32 ∨ now = 5501#32 := by simpa using hn
    obtain rfl | rfl := h <;> cases ack <;>
      exact ⟨by constructor <;> decide, rfl, rfl,
        ⟨rfl, rfl, by unfold BatteryFault; decide, by unfold PollDue; decide⟩, by unfold HoldFires; decide, rfl,
        by decide⟩
  · cases b <;> exact ⟨by constructor <;> decide, rfl, rfl, by unfold NoShutdownEnd; decide, .inr (by decide)⟩
  · cases ack <;> exact ⟨by constructor <;> decide, ⟨rfl, by decide, rfl⟩, rfl,
      ⟨rfl, .inr (by decide)⟩,
      .inr (by decide), by unfold Alert; decide, by unfold HoldFires; decide, ⟨rfl, rfl, rfl⟩, by decide,
      by unfold FieldMerged Merged; decide, gives_scripted _ _ _, rfl⟩

/-- The state that an entry action of the statement starts from, with the answers to the frame `f`. -/
def entryState (c : Ctl) (b : Btn) (o : Out) (now : Word) (level : Bool) (f : List Sym) : State :=
  runState c b o now level (frameAnswers true f)

/-- No poll; a poll of set X that reads these three bytes; one whose first read is refused. -/
def unpolled (c : Ctl) : PollOutcome := ⟨[], false, c.status, c.battery.mV.toNat, c.statusValid⟩
def polled (b1 b2 b3 : Byte) : PollOutcome :=
  ⟨pollFrame setX b1 b2 b3, (decodedStatus setX b1 b2).fault.thermal, decodedStatus setX b1 b2,
    rawBits setX.fields.batteryAdc b3 * setX.fields.batteryAdc.step + setX.fields.batteryAdc.offset, true⟩
def refusedPoll (c : Ctl) : PollOutcome :=
  ⟨addressRefused setX.chargerAddr 0#1, false, c.status, c.battery.mV.toNat, c.statusValid⟩

/-- What every clause of the statement asks of a state, with the frame `f` that its iteration makes. -/
structure EntryCase (s : State) (pre : List Sym) (start : PState) (f : List Sym) : Prop where
  inv : CtlInv s
  bus : BusReady true s
  wf : s.par.wf = true
  run : s.ctl.phase = .run
  awake : s.ctl.pstate ≠ .shippingMode
  dwell : s.ctl.pstate = .coolingDown → 120000 ≤ elapsed s.ports.nowMs s.ctl.coolStart
  timers : TimersMake s offX pre start
  answers : s.env.gives (frameAnswers true f)

/-- A battery fault in the controller's view, a charged-down battery, a thermal alert. -/
def broken (c : Ctl) : Ctl := { c with status := ⟨{ battery := true }, .notCharging, 0#8, true⟩ }
def flat (c : Ctl) : Ctl := { c with battery := ⟨20#8, 2700#32, 2#8⟩ }
def alert (s : State) : State := { s with ev := ⟨⟨false, false, true, false⟩, .none⟩ }

/-- Blocked: a soft shutdown ends (P4's expiry), and none is pending. -/
theorem witness_EntryActionsWhileBlocked :
    let held : Btn := ⟨.held, false, 2000#32, 2000#32, true, 3001#32⟩
    (let s := shaking (entryState pendingX held poweredOut 5501#32 false offX);
      EntryCase s offX .sleeping offX ∧ s.btn.awaitRelease = true) ∧
    let s := entryState poweredX held poweredOut 5500#32 false [];
    EntryCase s [] .powered [] ∧ s.btn.awaitRelease = true := by
  refine ⟨⟨⟨?_, ⟨rfl, rfl, rfl⟩, ?_, rfl, ?_, ?_, .inl ⟨⟨rfl, .inr ?_⟩, rfl, rfl⟩, gives_scripted _ _ _⟩, rfl⟩,
    ⟨?_, ⟨rfl, rfl, rfl⟩, ?_, rfl, ?_, ?_, .inr ⟨?_, rfl, rfl⟩, gives_scripted _ _ _⟩, rfl⟩
  all_goals first
    | decide
    | (constructor <;> decide)
    | (unfold NoShutdownEnd; decide)

/-- Over-temperature: an alert without a poll in Powered, one in Sleeping, one as a soft shutdown ends
with a poll due, and a poll that decodes it. -/
theorem witness_EntryActionsCoolDown :
    (let s := alert (entryState poweredX Btn.reset poweredOut 1400#32 true offX);
      EntryCase s [] .powered offX ∧ s.btn.awaitRelease = false ∧ PollMakes s (unpolled poweredX) ∧ Alert s) ∧
    (let s := alert (entryState ctlX Btn.reset Out.reset 1400#32 true []);
      EntryCase s [] .sleeping [] ∧ s.btn.awaitRelease = false ∧ PollMakes s (unpolled ctlX) ∧ Alert s) ∧
    (let s := alert (shaking (entryState { pendingX with lastPoll := 4000#32 } Btn.reset poweredOut 5501#32
        true (offX ++ pollFrame setX 0x04#8 0x00#8 35#8)));
      EntryCase s offX .sleeping (offX ++ (polled 0x04#8 0x00#8 35#8).frame) ∧
        s.btn.awaitRelease = false ∧ PollMakes s (polled 0x04#8 0x00#8 35#8) ∧ Alert s) ∧
    let s := entryState poweredX Btn.reset poweredOut 2000#32 true (pollFrame setX 0x04#8 0x01#8 35#8 ++ offX);
    EntryCase s [] .powered ((polled 0x04#8 0x01#8 35#8).frame ++ offX) ∧ s.btn.awaitRelease = false ∧
      PollMakes s (polled 0x04#8 0x01#8 35#8) ∧ (polled 0x04#8 0x01#8 35#8).hot = true := by
  refine ⟨⟨⟨?_, ⟨rfl, rfl, rfl⟩, ?_, rfl, ?_, ?_, .inr ⟨?_, rfl, rfl⟩, gives_scripted _ _ _⟩, rfl, .idle ?_, ?_⟩,
    ⟨⟨?_, ⟨rfl, rfl, rfl⟩, ?_, rfl, ?_, ?_, .inr ⟨?_, rfl, rfl⟩, gives_scripted _ _ _⟩, rfl, .idle ?_, ?_⟩,
    ⟨⟨?_, ⟨rfl, rfl, rfl⟩, ?_, rfl, ?_, ?_, .inl ⟨⟨rfl, .inr ?_⟩, rfl, rfl⟩, gives_scripted _ _ _⟩, rfl,
      .done _ _ _ ?_, ?_⟩,
    ⟨?_, ⟨rfl, rfl, rfl⟩, ?_, rfl, ?_, ?_, .inr ⟨?_, rfl, rfl⟩, gives_scripted _ _ _⟩, rfl,
      .done _ _ _ ?_, ?_⟩
  all_goals first
    | decide
    | (constructor <;> decide)
    | (simp only [NoShutdownEnd, PollDue, Alert]; decide)

/-- A battery fault: from the poll, in Powered, in Sleeping and as the dwell ends (V-CC-8); and an old
one, with no poll due and with a poll refused. -/
theorem witness_EntryActionsShip :
    (let s := entryState poweredX Btn.reset poweredOut 2000#32 true
        (pollFrame setX 0x04#8 0x02#8 35#8 ++ offX ++ isoX);
      EntryCase s [] .powered ((polled 0x04#8 0x02#8 35#8).frame ++ offX ++ isoX) ∧
        s.btn.awaitRelease = false ∧ PollMakes s (polled 0x04#8 0x02#8 35#8) ∧ ¬Alert s) ∧
    (let s := entryState ctlX Btn.reset Out.reset 2000#32 true (pollFrame setX 0x04#8 0x02#8 35#8 ++ isoX);
      EntryCase s [] .sleeping ((polled 0x04#8 0x02#8 35#8).frame ++ isoX) ∧
        s.btn.awaitRelease = false ∧ PollMakes s (polled 0x04#8 0x02#8 35#8) ∧ ¬Alert s) ∧
    (let s := entryState coolingX Btn.reset coolingOut 121400#32 true
        (pollFrame setX 0x04#8 0x02#8 35#8 ++ isoX);
      EntryCase s [] .sleeping ((polled 0x04#8 0x02#8 35#8).frame ++ isoX) ∧
        s.btn.awaitRelease = false ∧ PollMakes s (polled 0x04#8 0x02#8 35#8) ∧ ¬Alert s) ∧
    (let s := entryState (broken poweredX) Btn.reset poweredOut 1999#32 true (offX ++ isoX);
      EntryCase s [] .powered (offX ++ isoX) ∧ s.btn.awaitRelease = false ∧
        PollMakes s (unpolled (broken poweredX)) ∧ ¬Alert s) ∧
    (let s := entryState (broken poweredX) Btn.reset poweredOut 2000#32 true
        (addressRefused setX.chargerAddr 0#1 ++ offX ++ isoX);
      EntryCase s [] .powered ((refusedPoll (broken poweredX)).frame ++ offX ++ isoX) ∧
        s.btn.awaitRelease = false ∧ PollMakes s (refusedPoll (broken poweredX)) ∧ ¬Alert s) ∧
    ((polled 0x04#8 0x02#8 35#8).hot = false ∧ (polled 0x04#8 0x02#8 35#8).status.fault.battery = true) ∧
    (unpolled (broken poweredX)).valid = true ∧ (unpolled (broken poweredX)).status.fault.battery = true := by
  refine ⟨⟨⟨?_, ⟨rfl, rfl, rfl⟩, ?_, rfl, ?_, ?_, .inr ⟨?_, rfl, rfl⟩, gives_scripted _ _ _⟩, rfl,
      .done _ _ _ ?_, ?_⟩,
    ⟨⟨?_, ⟨rfl, rfl, rfl⟩, ?_, rfl, ?_, ?_, .inr ⟨?_, rfl, rfl⟩, gives_scripted _ _ _⟩, rfl, .done _ _ _ ?_, ?_⟩,
    ⟨⟨?_, ⟨rfl, rfl, rfl⟩, ?_, rfl, ?_, ?_, .inr ⟨?_, rfl, rfl⟩, gives_scripted _ _ _⟩, rfl, .done _ _ _ ?_, ?_⟩,
    ⟨⟨?_, ⟨rfl, rfl, rfl⟩, ?_, rfl, ?_, ?_, .inr ⟨?_, rfl, rfl⟩, gives_scripted _ _ _⟩, rfl, .idle ?_, ?_⟩,
    ⟨⟨?_, ⟨rfl, rfl, rfl⟩, ?_, rfl, ?_, ?_, .inr ⟨?_, rfl, rfl⟩, gives_scripted _ _ _⟩, rfl,
      .refused 0#8 0#8 [] ?_ (List.mem_cons_self ..), ?_⟩, ?_, ?_⟩
  all_goals first
    | decide
    | (constructor <;> decide)
    | (simp only [NoShutdownEnd, PollDue, Alert]; decide)

/-- A hold: it powers on, without a poll, with one, and as a soft shutdown ends; it is turned down, on the
old view, on the polled one and on a refused poll; in Powered it requests or, without a handshake, powers
off, with a poll due (P4, command 3). -/
theorem witness_EntryActionsOnAHold :
    (let s := entryState ctlX btnX Out.reset 1101#32 false onX;
      EntryCase s [] .sleeping onX ∧ s.btn.awaitRelease = false ∧ HoldFires s ∧ ¬Alert s ∧
        PollMakes s (unpolled ctlX) ∧ (unpolled ctlX).Allows) ∧
    (let s := entryState ctlX btnX Out.reset 2000#32 false (pollFrame setX 0x06#8 0x00#8 20#8 ++ onX);
      EntryCase s [] .sleeping ((polled 0x06#8 0x00#8 20#8).frame ++ onX) ∧ s.btn.awaitRelease = false ∧
        HoldFires s ∧ ¬Alert s ∧ PollMakes s (polled 0x06#8 0x00#8 20#8)) ∧
    (let s := shaking (entryState pendingX btnX poweredOut 5501#32 false (offX ++ onX));
      EntryCase s offX .sleeping (offX ++ onX) ∧ s.btn.awaitRelease = false ∧ HoldFires s ∧ ¬Alert s ∧
        PollMakes s (unpolled pendingX) ∧ (unpolled pendingX).Allows) ∧
    (let s := entryState (flat ctlX) btnX Out.reset 1101#32 false [];
      EntryCase s [] .sleeping [] ∧ s.btn.awaitRelease = false ∧ HoldFires s ∧ ¬Alert s ∧
        PollMakes s (unpolled (flat ctlX)) ∧ ¬(unpolled (flat ctlX)).Allows) ∧
    (let s := entryState ctlX btnX Out.reset 2000#32 false (pollFrame setX 0x04#8 0x00#8 20#8);
      EntryCase s [] .sleeping (polled 0x04#8 0x00#8 20#8).frame ∧ s.btn.awaitRelease = false ∧
        HoldFires s ∧ ¬Alert s ∧ PollMakes s (polled 0x04#8 0x00#8 20#8)) ∧
    (let s := entryState (flat ctlX) btnX Out.reset 2000#32 false (addressRefused setX.chargerAddr 0#1);
      EntryCase s [] .sleeping (refusedPoll (flat ctlX)).frame ∧ s.btn.awaitRelease = false ∧
        HoldFires s ∧ ¬Alert s ∧ PollMakes s (refusedPoll (flat ctlX))) ∧
    (let s := shaking (entryState poweredX btnX poweredOut 2000#32 false (pollFrame setX 0x04#8 0x00#8 35#8));
      EntryCase s [] .powered (polled 0x04#8 0x00#8 35#8).frame ∧ s.btn.awaitRelease = false ∧
        HoldFires s ∧ ¬Alert s ∧ PollMakes s (polled 0x04#8 0x00#8 35#8) ∧ s.par.handshake = true) ∧
    (let s := entryState poweredX btnX poweredOut 2000#32 false (pollFrame setX 0x04#8 0x00#8 35#8 ++ offX);
      EntryCase s [] .powered ((polled 0x04#8 0x00#8 35#8).frame ++ offX) ∧ s.btn.awaitRelease = false ∧
        HoldFires s ∧ ¬Alert s ∧ PollMakes s (polled 0x04#8 0x00#8 35#8) ∧ s.par.handshake = false) ∧
    ((polled 0x06#8 0x00#8 20#8).Allows ∧ ¬(polled 0x04#8 0x00#8 20#8).Allows ∧
      ¬(refusedPoll (flat ctlX)).Allows) ∧
    (polled 0x04#8 0x00#8 35#8).hot = false ∧ (polled 0x04#8 0x00#8 35#8).status.fault.battery = false := by
  refine ⟨⟨⟨?_, ⟨rfl, rfl, rfl⟩, ?_, rfl, ?_, ?_, .inr ⟨?_, rfl, rfl⟩, gives_scripted _ _ _⟩, rfl, ?_, ?_,
      .idle ?_, ?_⟩,
    ⟨⟨?_, ⟨rfl, rfl, rfl⟩, ?_, rfl, ?_, ?_, .inr ⟨?_, rfl, rfl⟩, gives_scripted _ _ _⟩, rfl, ?_, ?_,
      .done _ _ _ ?_⟩,
    ⟨⟨?_, ⟨rfl, rfl, rfl⟩, ?_, rfl, ?_, ?_, .inl ⟨⟨rfl, .inr ?_⟩, rfl, rfl⟩, gives_scripted _ _ _⟩, rfl, ?_, ?_,
      .idle ?_, ?_⟩,
    ⟨⟨?_, ⟨rfl, rfl, rfl⟩, ?_, rfl, ?_, ?_, .inr ⟨?_, rfl, rfl⟩, gives_scripted _ _ _⟩, rfl, ?_, ?_,
      .idle ?_, ?_⟩,
    ⟨⟨?_, ⟨rfl, rfl, rfl⟩, ?_, rfl, ?_, ?_, .inr ⟨?_, rfl, rfl⟩, gives_scripted _ _ _⟩, rfl, ?_, ?_,
      .done _ _ _ ?_⟩,
    ⟨⟨?_, ⟨rfl, rfl, rfl⟩, ?_, rfl, ?_, ?_, .inr ⟨?_, rfl, rfl⟩, gives_scripted _ _ _⟩, rfl, ?_, ?_,
      .refused 0#8 0#8 [] ?_ (List.mem_cons_self ..)⟩,
    ⟨⟨?_, ⟨rfl, rfl, rfl⟩, ?_, rfl, ?_, ?_, .inr ⟨?_, rfl, rfl⟩, gives_scripted _ _ _⟩, rfl, ?_, ?_,
      .done _ _ _ ?_, rfl⟩,
    ⟨⟨?_, ⟨rfl, rfl, rfl⟩, ?_, rfl, ?_, ?_, .inr ⟨?_, rfl, rfl⟩, gives_scripted _ _ _⟩, rfl, ?_, ?_,
      .done _ _ _ ?_, rfl⟩, ?_, ?_⟩
  all_goals first
    | decide
    | (constructor <;> decide)
    | (simp only [HoldFires, NoShutdownEnd, PollDue, Alert, PollOutcome.Allows]; decide)

/-- Neither fault nor hold: a soft shutdown ends with a poll due, and a poll is refused at FAULT. -/
theorem witness_EntryActionsWriteTheirFields :
    (let s := shaking (entryState { pendingX with lastPoll := 4000#32 } Btn.reset poweredOut 5501#32 true
        (offX ++ pollFrame setX 0x04#8 0x00#8 35#8));
      EntryCase s offX .sleeping (offX ++ (polled 0x04#8 0x00#8 35#8).frame) ∧ s.btn.awaitRelease = false ∧
        ¬HoldFires s ∧ ¬Alert s ∧ PollMakes s (polled 0x04#8 0x00#8 35#8)) ∧
    (let pre := readFrame setX.chargerAddr setX.fields.status.reg 0x06#8
      let s := entryState poweredX Btn.reset poweredOut 2000#32 true
        (pre ++ addressRefused setX.chargerAddr 0#1);
      EntryCase s [] .powered (pre ++ addressRefused setX.chargerAddr 0#1) ∧ s.btn.awaitRelease = false ∧
        ¬HoldFires s ∧ ¬Alert s ∧
        PollMakes s { unpolled poweredX with frame := pre ++ addressRefused setX.chargerAddr 0#1 }) ∧
    FieldMerged setX .adcContinuous setX.adcOffValue 0x80#8 0x00#8 ∧
      FieldMerged setX .adcContinuous setX.adcOnValue 0x00#8 0x80#8 ∧
      FieldMerged setX .batfetControl setX.isolateValue 0x00#8 0x20#8 := by
  refine ⟨⟨⟨?_, ⟨rfl, rfl, rfl⟩, ?_, rfl, ?_, ?_, .inl ⟨⟨rfl, .inr ?_⟩, rfl, rfl⟩, gives_scripted _ _ _⟩, rfl,
      ?_, ?_, .done _ _ _ ?_⟩,
    ⟨⟨?_, ⟨rfl, rfl, rfl⟩, ?_, rfl, ?_, ?_, .inr ⟨?_, rfl, rfl⟩, gives_scripted _ _ _⟩, rfl, ?_, ?_,
      .refused 0x06#8 0#8 _ ?_ (List.mem_cons_of_mem _ (List.mem_cons_self ..))⟩, ?_⟩
  all_goals first
    | decide
    | (constructor <;> decide)
    | (simp only [HoldFires, NoShutdownEnd, PollDue, Alert]; decide)
    | (unfold FieldMerged Merged; decide)

/-- Blocked since 3001: still held at 8000 (4999 ms) and at 8001 (5000 ms), and released. -/
theorem witness_BlockedLoopWaitsForRelease :
    let b : Btn := ⟨.held, false, 2000#32, 2000#32, true, 3001#32⟩;
    (let s := runState ctlX b Out.reset 8000#32 false [];
      CtlInv s ∧ s.ctl.phase = .run ∧ s.ctl.pstate ≠ .shippingMode ∧ s.btn.awaitRelease = true ∧
        (buttonAfter s).state ≠ .released ∧ elapsed s.ports.nowMs s.btn.awaitSince < s.par.releaseTimeoutMs) ∧
    (let s := runState ctlX b Out.reset 8001#32 false [];
      CtlInv s ∧ (buttonAfter s).state ≠ .released ∧
        s.par.releaseTimeoutMs ≤ elapsed s.ports.nowMs s.btn.awaitSince) ∧
    let s := runState ctlX { b with lastRaw := true, rawSince := 3100#32 } Out.reset 3120#32 true [];
    CtlInv s ∧ s.btn.awaitRelease = true ∧ (buttonAfter s).state = .released ∧ Calm s :=
  ⟨⟨by constructor <;> decide, rfl, by decide, rfl, by decide, by decide⟩,
    ⟨by constructor <;> decide, by decide, by decide⟩, by constructor <;> decide, rfl, by decide, rfl, rfl⟩

theorem witness_QuietStepOnlyDebounces :
    let s := runState poweredX btnX poweredOut 1100#32 false [];
    CtlInv s ∧ Unblocked s ∧ s.ctl.pstate ≠ .coolingDown ∧ s.ctl.ssdPending = false ∧ NoFault s ∧
      ¬HoldFires s :=
  ⟨by constructor <;> decide, ⟨rfl, by decide, rfl⟩, by decide, rfl,
    ⟨rfl, rfl, by unfold BatteryFault; decide, by unfold PollDue; decide⟩, by unfold HoldFires; decide⟩

theorem witness_ControllerIgnoresTheDataPorts (i : Instr) (hi : i = .ctrlBoot ∨ i = .ctrlStep) :
    ∃ s t u : State, exec i s = .next t ∧
      exec i (otherPorts [(0, 1#16)] [(3, 7#8)] 9#32 5#32 s) = .next u := by
  obtain rfl | rfl := hi
  · exact ⟨State.reset, _, _, rfl, rfl⟩
  · exact ⟨State.reset, _, _, rfl, rfl⟩

/-- Each transition at its first moment, and the moment before. -/
theorem witness_DebounceTransitions :
    ((⟨.released, false, 100#32, 0#32, false, 0#32⟩ : Btn).debounce setX 120#32 false).2.state = .pressed ∧
      ((⟨.released, false, 100#32, 0#32, false, 0#32⟩ : Btn).debounce setX 119#32 false).2.state = .released ∧
      (btnX.debounce setX 1101#32 false).2.state = .held ∧ (btnX.debounce setX 1100#32 false).2.state = .pressed ∧
      ((⟨.held, true, 1200#32, 100#32, false, 0#32⟩ : Btn).debounce setX 1220#32 true).2.state = .released ∧
      ((⟨.pressed, true, 1200#32, 100#32, false, 0#32⟩ : Btn).debounce setX 1220#32 true).2.state = .released := by
  decide

theorem witness_PressFiresAtMostOnce :
    (btnX.debounce setX 1101#32 false).1 = true ∧
      (let b : Btn := { btnX with state := .held };
        b.state = .held ∧ NeverReleased setX [(1200#32, false), (1300#32, true)] b) ∧
      btnX.state = .pressed ∧
        (∀ x ∈ [((1000#32 : Word), false), (1100#32, false)], x.2 = false → elapsed x.1 btnX.pressStart ≤ setX.holdMs) ∧
        NeverReleased setX [(1000#32, false), (1100#32, false)] btnX :=
  ⟨by decide, ⟨rfl, by decide, by decide, trivial⟩, rfl,
    by
      intro x hx _
      simp only [List.mem_cons, List.not_mem_nil, or_false] at hx
      obtain rfl | rfl := hx <;> decide,
    by decide, by decide, trivial⟩

end Sys2Proof.Tests
end

section
/-! SUPPORT. Relations kept across a whole step, and the two statements about every step: the parameters
stay, and the line trace follows the pins with every sample on a released line. -/

namespace Sys2Proof.Machine

/-! ## Relations kept across a step -/

/-- A relation kept by every write a step makes: those of its instruction, taking a word from a port, an
act of the environment, and an instant that passes. -/
structure StepRel (R : State → State → Prop) : Prop extends ExecRel R where
  takeEvent : ∀ s rest, R s (takeEvent s rest)
  takeCommand : ∀ s, R s (takeCommand s)
  plan : ∀ s rest, R s (s.onEnv fun e => { e with moves := rest })
  move : ∀ m s, R s (s.move m)
  tick : ∀ s, R s s.tick

/-- Every relation of this kind holds across every step. -/
theorem StepRel.step {R : State → State → Prop} (h : StepRel R) {s t : State}
    (ht : step s = .next t) : R s t := by
  obtain ⟨_, rest, _, _, _, hx⟩ | ⟨_, rest, _, rfl⟩ | ⟨_, _, _, _, hx⟩ | ⟨_, _, rfl⟩ |
    ⟨_, m, rest, _, rfl⟩ | ⟨_, _, rfl⟩ := step_cases ht
  · exact h.trans (h.takeEvent s rest) (h.exec hx)
  · exact h.takeEvent s rest
  · exact h.trans (h.takeCommand s) (h.exec hx)
  · exact h.trans (h.takeCommand s) (h.finish _ _)
  · exact h.trans (h.plan s rest) (h.move m _)
  · exact h.tick s

/-! ## The parameters -/

/-- The parameters are the same. -/
def SamePar (s t : State) : Prop := t.par = s.par

/-- No act of the environment writes the parameters; a power-on keeps them (log 16). -/
theorem move_par (m : HostMove) (s : State) : (s.move m).par = s.par := by cases m <;> rfl

theorem samePar_stepRel : StepRel SamePar where
  refl := fun _ => rfl
  trans := fun h h' => h'.trans h
  transferOn := fun a ds buf s => (busOnly_txnRel.transferOn a ds buf s).par
  configure := configure_par
  ctl := fun _ _ => rfl
  btn := fun _ _ => rfl
  out := fun _ _ => rfl
  flags := fun _ _ => rfl
  finish := fun _ _ => rfl
  val := fun _ _ => rfl
  data := fun _ _ _ => rfl
  latch := fun _ _ => rfl
  takeEvent := fun _ _ => rfl
  takeCommand := fun _ => rfl
  plan := fun _ _ => rfl
  move := move_par
  tick := fun _ => rfl

theorem legalParams_wf : Config.legalParams.wf = true := by decide

/-- The parameters at reset are legal whatever the free choice of them is (log 1). -/
theorem params_wf : Config.params.wf = true := by
  unfold Config.params
  split
  · assumption
  · exact legalParams_wf

/-- Settles O10: reset falls back on legal parameters, and no part of a step writes them. -/
theorem parametersAreFixed : Obligations.ParametersAreFixed :=
  ⟨params_wf, fun _ _ h => samePar_stepRel.step h⟩

/-! ## The line trace -/

/-- `TraceInv` speaks only of the bus and the line trace. -/
theorem keepsTrace_of_same {s t : State} (hb : t.bus = s.bus) (ht : t.trace = s.trace) :
    KeepsTrace s t := fun ⟨hscl, hsda, hrel⟩ =>
  ⟨by rw [hb, ht, hscl], by rw [hb, ht, hsda], by rwa [ht]⟩

/-- A power-on releases both pins and begins a new line trace (spec/70_reset_and_hazards.md R146). -/
theorem powerOn_traceInv (s : State) : TraceInv s.powerOn := ⟨rfl, rfl, trivial⟩

/-- An act of the environment leaves the bus and the line trace alone, or is a power-on and clears
both. -/
theorem move_keepsTrace (m : HostMove) (s : State) : KeepsTrace s (s.move m) := by
  cases m with
  | powerOn => exact fun _ => powerOn_traceInv s
  | _ => exact keepsTrace_of_same rfl rfl

theorem keepsTrace_stepRel : StepRel KeepsTrace where
  refl := keepsTrace_lineRel.refl
  trans := keepsTrace_lineRel.trans
  transferOn := keepsTrace_txnRel.transferOn
  configure := keepsTrace_confRel.configure
  ctl := fun _ _ => keepsTrace_of_same rfl rfl
  btn := fun _ _ => keepsTrace_of_same rfl rfl
  out := fun _ _ => keepsTrace_of_same rfl rfl
  flags := fun _ _ => keepsTrace_of_same rfl rfl
  finish := fun _ _ => keepsTrace_of_same rfl rfl
  val := fun _ _ => keepsTrace_of_same rfl rfl
  data := fun _ _ _ => keepsTrace_of_same rfl rfl
  latch := fun _ _ => keepsTrace_of_same rfl rfl
  takeEvent := fun _ _ => keepsTrace_of_same rfl rfl
  takeCommand := fun _ => keepsTrace_of_same rfl rfl
  plan := fun _ _ => keepsTrace_of_same rfl rfl
  move := move_keepsTrace
  tick := fun _ => keepsTrace_of_same rfl rfl

/-- Settles O15: a pin moves only with its trace event, and the waveforms sample a line only where they
have released it, so every transaction, CONFIGURE, and with them every step keeps the invariant. -/
theorem stepSamplesOnlyReleasedLines : Obligations.StepSamplesOnlyReleasedLines :=
  fun _ _ hs h => keepsTrace_stepRel.step h hs

end Sys2Proof.Machine
end

section
/-! SUPPORT. The bus invariant between commands is one more relation that every part of a step keeps. -/

namespace Sys2Proof.Machine

/-! ## The bus invariant -/

/-- `BusInv` carries over. -/
def KeepsBus (s t : State) : Prop := BusInv s → BusInv t

/-- `BusInv` speaks only of the bus and the pending events. -/
theorem keepsBus_of_same {s t : State} (hb : t.bus = s.bus) (hp : t.ev.pend = s.ev.pend) :
    KeepsBus s t := fun ⟨hdet, hmask, hpend, hready, howned, hidle⟩ =>
  ⟨by rw [hb, hdet], by rw [hb, hmask], by rw [hp, hpend], by rw [hb, hready], by rwa [hb], by rwa [hb]⟩

/-- A word that arrives unmasked becomes a flag at once and leaves nothing pending (spec/10_state.md R29). -/
theorem latch_keepsBus (s : State) (k : EventKind) : KeepsBus s (s.latch k) := fun h =>
  keepsBus_of_same (s := s) rfl (by rw [latch_ev, h.unmasked]; rfl) h

theorem tick_keepsBus (s : State) : KeepsBus s s.tick := fun h =>
  keepsBus_of_same (s := s) rfl (tick_unmasked s h.unmasked).2 h

/-- After a power-on both lines are released, which is the idle level of a bus without a mode
(spec/70_reset_and_hazards.md R146). -/
theorem powerOn_busInv (s : State) : BusInv s.powerOn :=
  ⟨rfl, rfl, rfl, by simp [State.powerOn, State.resetOf, Bus.reset], nofun, fun _ => ⟨rfl, rfl⟩⟩

theorem move_keepsBus (m : HostMove) (s : State) : KeepsBus s (s.move m) := by
  cases m with
  | powerOn => exact fun _ => powerOn_busInv s
  | _ => exact keepsBus_of_same rfl rfl

theorem keepsBus_stepRel : StepRel KeepsBus where
  refl := fun _ h => h
  trans := fun h h' hs => h' (h hs)
  transferOn := fun a ds buf _ h => transferOn_busInv a ds buf h
  configure := fun rate _ h => configure_busInv rate h
  ctl := fun _ _ => keepsBus_of_same rfl rfl
  btn := fun _ _ => keepsBus_of_same rfl rfl
  out := fun _ _ => keepsBus_of_same rfl rfl
  flags := fun _ _ => keepsBus_of_same rfl rfl
  finish := fun _ _ => keepsBus_of_same rfl rfl
  val := fun _ _ => keepsBus_of_same rfl rfl
  data := fun _ _ _ => keepsBus_of_same rfl rfl
  latch := latch_keepsBus
  takeEvent := fun _ _ => keepsBus_of_same rfl rfl
  takeCommand := fun _ => keepsBus_of_same rfl rfl
  plan := fun _ _ => keepsBus_of_same rfl rfl
  move := move_keepsBus
  tick := tick_keepsBus

/-- Settles O13: a transaction leaves the bus held or idle with the mask clear, CONFIGURE leaves it idle in
a mode, and no other part of a step touches the bus or, with events unmasked, the pending bits. -/
theorem stepKeepsTheBusInvariant : Obligations.StepKeepsTheBusInvariant :=
  fun _ _ hs h => keepsBus_stepRel.step h hs

end Sys2Proof.Machine
end

section
/-! SUPPORT. The controller's invariant across a step: only CTRL_BOOT, CTRL_STEP and a power-on touch what
it speaks of, and each of their phases keeps it. -/

namespace Sys2Proof.Machine

/-! ## What the other commands keep -/

/-- The controller, the debouncer, the outputs and the parameters are the same: all that the controller's
invariant speaks of. -/
structure SameCore (s t : State) : Prop where
  ctl : t.ctl = s.ctl
  btn : t.btn = s.btn
  out : t.out = s.out
  par : t.par = s.par

theorem SameCore.trans {s t u : State} (h : SameCore s t) (h' : SameCore t u) : SameCore s u :=
  ⟨h'.ctl.trans h.ctl, h'.btn.trans h.btn, h'.out.trans h.out, h'.par.trans h.par⟩

theorem BusOnly.sameCore {s t : State} (h : BusOnly s t) : SameCore s t := ⟨h.ctl, h.btn, h.out, h.par⟩

theorem onPorts_sameCore (f : Ports → Ports) (s : State) : SameCore s (s.onPorts f) := ⟨rfl, rfl, rfl, rfl⟩

theorem onEnv_sameCore (f : Env → Env) (s : State) : SameCore s (s.onEnv f) := ⟨rfl, rfl, rfl, rfl⟩

theorem onEv_sameCore (f : Latches → Latches) (s : State) : SameCore s (s.onEv f) := ⟨rfl, rfl, rfl, rfl⟩

theorem SameCore.finish {s t : State} (h : SameCore s t) (r : Result) : SameCore s (t.finish r) :=
  h.trans (onPorts_sameCore _ t)

theorem SameCore.setVal {s t : State} (h : SameCore s t) (v : Word) : SameCore s (t.setVal v) :=
  h.trans (onPorts_sameCore _ t)

theorem SameCore.setData {s t : State} (h : SameCore s t) (m : Memory) : SameCore s (t.setData m) :=
  h.trans (onPorts_sameCore _ t)

theorem finish_sameCore (r : Result) (s : State) : SameCore s (s.finish r) := onPorts_sameCore _ s

theorem transferOn_sameCore (a : Addr7) (ds : List Half) (buf : Memory) (s : State) :
    SameCore s (transferOn a ds buf s).st := (busOnly_txnRel.transferOn a ds buf s).sameCore

theorem fieldWriteOn_sameCore (f : FieldId) (p : Nat) (s : State) : SameCore s (fieldWriteOn f p s).st :=
  (busOnly_txnRel.fieldWriteOn f p s).sameCore

theorem regReadCommit_sameCore {s : State} (len : Byte) {e : TxnEnd} (h : SameCore s e.st) :
    SameCore s (regReadCommit len e) := by
  unfold regReadCommit
  split
  · exact (h.setData _).finish _
  · exact h.finish _

theorem fieldReadCommit_sameCore {s : State} (f : FieldId) {e : ByteRead} (h : SameCore s e.st) :
    SameCore s (fieldReadCommit f e) := by
  unfold fieldReadCommit
  split
  · exact (h.setVal _).finish _
  · exact h.finish _

theorem fieldWriteCommit_sameCore {s : State} (f : FieldId) {e : FieldWriteEnd} (h : SameCore s e.st) :
    SameCore s (fieldWriteCommit f e) := by
  unfold fieldWriteCommit
  split
  · exact (h.setVal _).finish _
  · exact h.finish _

/-- Only CTRL_BOOT and CTRL_STEP write the controller, the debouncer or the outputs (spec/20_memory.md
R47). -/
theorem exec_sameCore {i : Instr} {s t : State} (hb : i ≠ .ctrlBoot) (hs : i ≠ .ctrlStep)
    (ht : exec i s = .next t) : SameCore s t := by
  cases i with
  | ctrlBoot => exact absurd rfl hb
  | ctrlStep => exact absurd rfl hs
  | configure rate => cases ht; exact (busOnly_confRel.configure rate s).sameCore.finish _
  | transfer a n => cases ht; exact ((transferOn_sameCore _ _ _ s).setData _).finish _
  | regRead a r len => cases ht; exact regReadCommit_sameCore len (transferOn_sameCore _ _ _ s)
  | regWrite a r len => cases ht; exact (transferOn_sameCore _ _ _ s).finish _
  | fieldRead f =>
    simp only [exec, execFieldRead] at ht
    split at ht <;> cases ht
    · exact fieldReadCommit_sameCore _ (readFieldByte_busOnly _ s).sameCore
    · exact finish_sameCore _ s
  | fieldWrite f =>
    simp only [exec, execFieldWrite] at ht
    split at ht <;> cases ht
    · exact fieldWriteCommit_sameCore _ (fieldWriteOn_sameCore _ _ s)
    · exact finish_sameCore _ s
  | probe => cases ht; exact ((readFieldByte_busOnly _ s).sameCore.setVal _).finish _
  | readState sel =>
    simp only [exec, execReadState] at ht
    split at ht <;> cases ht
    · exact ((onPorts_sameCore _ s)).finish _
    · exact finish_sameCore _ s
  | evtButton | evtChgIrq | evtThermal | evtHostAck => cases ht; exact onEv_sameCore _ s

/-! ## The controller and its outputs -/

/-- `CtlInv` but for the debouncer, over the three parts of the state it speaks of. -/
structure PowerInv (p : Params) (c : Ctl) (o : Out) : Prop where
  rail : o.powerRail = true ↔ c.pstate = .powered
  adc : c.adcCont = true ↔ c.pstate = .powered
  fan : o.fanMode = c.pstate.fan
  isolated : c.batfetOff = true ↔ c.pstate = .shippingMode
  pending : c.ssdPending = true → c.pstate = .powered ∧ p.handshake = true
  request : o.shutdownReq = true → c.ssdPending = true
  stopped : c.phase ≠ .run → c.pstate = .sleeping ∧ o.ledMode = 0#3 ∧ o.ledOn = false
  parked : o.lowPower = true ↔ c.phase = .parked
  charging : c.charging = true ↔ c.status.chargeState ≠ .notCharging
  percent : c.battery.pct.toNat = pct c.battery.mV.toNat c.status.chargeState

/-- A blocked button is held (spec/43_button_debouncer.md R125). -/
def Btn.Inv (b : Btn) : Prop := b.awaitRelease = true → b.state = .held

theorem ctlInv_iff (s : State) : CtlInv s ↔ PowerInv s.par s.ctl s.out ∧ s.btn.Inv := by
  constructor
  · rintro ⟨h1, h2, h3, h4, h5, h6, h7, h8, h9, h10, h11⟩
    exact ⟨⟨h1, h2, h3, h4, h5, h6, h7, h8, h9, h10⟩, h11⟩
  · rintro ⟨⟨h1, h2, h3, h4, h5, h6, h7, h8, h9, h10⟩, h11⟩
    exact ⟨h1, h2, h3, h4, h5, h6, h7, h8, h9, h10, h11⟩

theorem SameCore.ctlInv {s t : State} (h : SameCore s t) (hi : CtlInv s) : CtlInv t := by
  rw [ctlInv_iff] at hi ⊢
  rwa [h.ctl, h.btn, h.out, h.par]

/-- `PowerInv` of a state whose controller runs (spec/10_state.md R23). -/
structure RunInv (s : State) : Prop where
  power : PowerInv s.par s.ctl s.out
  run : s.ctl.phase = .run

/-- A running controller outside ShippingMode: what phases 2 to 6 of an iteration start from
(spec/42_charge_controller.md R106). -/
structure AwakeInv (s : State) : Prop extends RunInv s where
  awake : s.ctl.pstate ≠ .shippingMode

theorem SameCore.runInv {s t : State} (h : SameCore s t) (hi : RunInv s) : RunInv t :=
  ⟨by rw [h.par, h.ctl, h.out]; exact hi.power, by rw [h.ctl]; exact hi.run⟩

/-! ## The entry actions -/

/-- The battery is not isolated outside ShippingMode. -/
theorem PowerInv.not_isolated {p : Params} {c : Ctl} {o : Out} (h : PowerInv p c o)
    (ha : c.pstate ≠ .shippingMode) : c.batfetOff ≠ true := fun hb => ha (h.isolated.mp hb)

/-- No soft shutdown is pending outside Powered. -/
theorem PowerInv.not_pending {p : Params} {c : Ctl} {o : Out} (h : PowerInv p c o)
    (ha : c.pstate ≠ .powered) : c.ssdPending ≠ true := fun hs => ha (h.pending hs).1

/-- What the three entries that power down have in common: the rail, the sampling and a pending soft
shutdown end, and the battery is isolated iff the new state is ShippingMode (spec/42_charge_controller.md
R113 to R115). -/
theorem PowerInv.off {p : Params} {c : Ctl} {o : Out} (h : PowerInv p c o) (hr : c.phase = .run)
    {q : PState} {iso : Bool} (hq : q ≠ .powered) (hi : iso = true ↔ q = .shippingMode) :
    PowerInv p { c with pstate := q, ssdPending := false, adcCont := false, batfetOff := iso }
      { o with shutdownReq := false, powerRail := false, fanMode := q.fan } :=
  { h with
    rail := by simp [hq]
    adc := by simp [hq]
    fan := rfl
    isolated := hi
    pending := nofun
    request := nofun
    stopped := fun hn => absurd hr hn }

theorem enterSleeping_awakeInv {s : State} (h : AwakeInv s) : AwakeInv (enterSleeping s) := by
  obtain ⟨⟨hp, hr⟩, ha⟩ := h
  refine ⟨⟨?_, by simp [hr]⟩, by simp⟩
  rw [enterSleeping_par, enterSleeping_ctl, enterSleeping_out]
  exact hp.off hr (q := .sleeping) nofun (by simp [hp.not_isolated ha])

theorem enterCoolingDown_runInv (now : Word) {s : State} (h : AwakeInv s) :
    RunInv (enterCoolingDown now s) := by
  obtain ⟨⟨hp, hr⟩, ha⟩ := h
  refine ⟨?_, by simp [hr]⟩
  rw [enterCoolingDown_par, enterCoolingDown_ctl, enterCoolingDown_out]
  exact { hp.off hr (q := .coolingDown) nofun (by simp [hp.not_isolated ha]) with }

theorem enterShipping_runInv (now : Word) {s : State} (h : RunInv s) : RunInv (enterShipping now s) := by
  obtain ⟨hp, hr⟩ := h
  refine ⟨?_, by simp [hr]⟩
  rw [enterShipping_par, enterShipping_ctl, enterShipping_out]
  exact { hp.off hr (q := .shippingMode) nofun (iso := true) (by simp) with }

theorem enterPowered_runInv {s : State} (h : RunInv s) (hz : s.ctl.pstate = .sleeping) :
    RunInv (enterPowered s) := by
  obtain ⟨hp, hr⟩ := h
  have hb := hp.not_isolated (by rw [hz]; decide)
  have hn := hp.not_pending (by rw [hz]; decide)
  refine ⟨?_, by simp [hr]⟩
  rw [enterPowered_par, enterPowered_ctl, enterPowered_out]
  exact { hp with
    rail := by simp
    adc := by simp
    fan := rfl
    isolated := by simp [hb]
    pending := fun hs => absurd hs hn
    stopped := fun hx => absurd hr hx }

theorem requestShutdown_runInv (now : Word) {s : State} (h : RunInv s) (ho : s.ctl.pstate = .powered)
    (hh : s.par.handshake = true) : RunInv (requestShutdown now s) :=
  ⟨{ h.power with
      pending := fun _ => ⟨ho, hh⟩
      request := fun _ => rfl
      stopped := fun hx => absurd h.run hx }, h.run⟩

theorem startFlash_runInv (now : Word) {s : State} (h : RunInv s) : RunInv (startFlash now s) :=
  ⟨{ h.power with }, h.run⟩

theorem startFlash_awakeInv (now : Word) {s : State} (h : AwakeInv s) : AwakeInv (startFlash now s) :=
  ⟨startFlash_runInv now h.toRunInv, h.awake⟩

/-! ## The phases of an iteration (spec/42_charge_controller.md R106) -/

theorem flashTimer_runInv (now : Word) {s : State} (h : RunInv s) : RunInv (flashTimer now s) := by
  refine ⟨?_, by simp [h.run]⟩
  rw [flashTimer_par, flashTimer_ctl, flashTimer_out]
  exact { h.power with }

theorem dwellTimer_awakeInv (now : Word) {s : State} (h : AwakeInv s) : AwakeInv (dwellTimer now s) := by
  unfold dwellTimer
  split
  · exact enterSleeping_awakeInv ⟨⟨{ h.power with }, h.run⟩, h.awake⟩
  · exact h

theorem ssdPhase_awakeInv (now : Word) (ack : Bool) {s : State} (h : AwakeInv s) :
    AwakeInv (ssdPhase now ack s) := by
  unfold ssdPhase ssdTimers
  split
  · split
    · exact enterSleeping_awakeInv h
    · split
      · exact startFlash_awakeInv now (enterSleeping_awakeInv h)
      · split
        · exact ⟨⟨{ h.power with request := nofun }, h.run⟩, h.awake⟩
        · exact h
  · exact h

theorem thermalPhase_awakeInv (e : EventBits) {s : State} (h : AwakeInv s) :
    AwakeInv (thermalPhase e s) := by
  unfold thermalPhase
  split
  · exact ⟨⟨{ h.power with }, h.run⟩, h.awake⟩
  · exact h

/-- A read of the poll keeps a predicate that the bus does not touch, if the rest of the poll does. -/
theorem pollRead_keeps {P : State → Prop} (hP : ∀ {s t}, SameCore s t → P s → P t) (f : FieldId)
    {cont : Byte → State → State} (hc : ∀ b {t}, P t → P (cont b t)) {s : State} (h : P s) :
    P (pollRead f cont s) := by
  have hr := hP (readFieldByte_busOnly f s).sameCore h
  unfold pollRead
  dsimp only
  split
  · exact hc _ hr
  · exact hr

/-- The view of a poll: charging and the percentage are those of the decoded status (R102, R105). -/
theorem applyPoll_runInv (st fl b : Byte) {s : State} (h : RunInv s) :
    RunInv (s.onCtl (applyPoll s.par st fl b)) :=
  ⟨{ h.power with
      charging := by simp [applyPoll]
      percent := by
        simp only [onCtl_ctl, applyPoll, BitVec.toNat_ofNat]
        exact Nat.mod_eq_of_lt (Nat.lt_of_le_of_lt (pct_le _ _) (by decide)) }, h.run⟩

theorem poll_runInv (now : Word) {s : State} (h : RunInv s) : RunInv (poll now s) :=
  have hl : RunInv (s.onCtl fun c => { c with lastPoll := now }) := ⟨{ h.power with }, h.run⟩
  pollRead_keeps SameCore.runInv .status (fun st _ h1 =>
    pollRead_keeps SameCore.runInv .fault (fun fl _ h2 =>
      pollRead_keeps SameCore.runInv .batteryAdc (fun b _ h3 => applyPoll_runInv st fl b h3) h2) h1) hl

theorem pollPhase_awakeInv (now : Word) (e : EventBits) {s : State} (h : AwakeInv s) :
    AwakeInv (pollPhase now e s) := by
  unfold pollPhase
  split
  · exact ⟨poll_runInv now h.toRunInv, by rw [poll_pstate]; exact h.awake⟩
  · exact h

theorem faultTransitions_runInv (now : Word) {s : State} (h : AwakeInv s) :
    RunInv (faultTransitions now s) := by
  unfold faultTransitions
  split
  · exact h.toRunInv
  · split
    · exact enterCoolingDown_runInv now h
    · split
      · exact enterShipping_runInv now h.toRunInv
      · exact h.toRunInv

theorem arbitrate_runInv (now : Word) {s : State} (h : RunInv s) : RunInv (arbitrate now s) := by
  unfold arbitrate
  split
  · rename_i hz
    split
    · exact enterPowered_runInv h hz
    · exact startFlash_runInv now h
  · rename_i ho
    split
    · exact h
    · split
      · rename_i hh
        exact requestShutdown_runInv now h ho hh
      · exact (enterSleeping_awakeInv ⟨h, by rw [ho]; decide⟩).toRunInv
  · exact h
  · exact h

theorem onBtn_runInv (f : Btn → Btn) {s : State} (h : RunInv s) : RunInv (s.onBtn f) := ⟨h.power, h.run⟩

theorem holdPhase_runInv (now : Word) (fired : Bool) {s : State} (h : RunInv s) :
    RunInv (holdPhase now fired s) := by
  unfold holdPhase
  split
  · exact arbitrate_runInv now (onBtn_runInv _ h)
  · exact h

theorem updateOutputs_runInv (now : Word) {s : State} (h : RunInv s) : RunInv (updateOutputs now s) := by
  refine ⟨?_, h.run⟩
  rw [updateOutputs_out]
  exact { h.power with stopped := fun hx => absurd h.run hx }

theorem finish_runInv (r : Result) {s : State} (h : RunInv s) : RunInv (s.finish r) :=
  (finish_sameCore r s).runInv h

theorem activeStep_runInv (now : Word) (e : EventBits) (fired : Bool) {s : State} (h : AwakeInv s) :
    RunInv (activeStep now e fired s) :=
  finish_runInv _ (updateOutputs_runInv now (holdPhase_runInv now fired
    (faultTransitions_runInv now (pollPhase_awakeInv now e (thermalPhase_awakeInv e h)))))

theorem blockedStep_runInv (now : Word) (e : EventBits) {s : State} (h : RunInv s) :
    RunInv (blockedStep now e s) := by
  refine finish_runInv _ (updateOutputs_runInv now ((onEv_sameCore _ _).runInv ?_))
  split
  · exact onBtn_runInv _ h
  · exact h

/-! ## The debouncer -/

theorem sampleLevel_state (now : Word) (level : Bool) (b : Btn) :
    (b.sampleLevel now level).state = b.state := by
  unfold Btn.sampleLevel; split <;> rfl

theorem sampleLevel_awaitRelease (now : Word) (level : Bool) (b : Btn) :
    (b.sampleLevel now level).awaitRelease = b.awaitRelease := by
  unfold Btn.sampleLevel; split <;> rfl

theorem advance_awaitRelease (p : Params) (now : Word) (b : Btn) :
    (b.advance p now).2.awaitRelease = b.awaitRelease := by
  unfold Btn.advance; (repeat' split) <;> rfl

/-- A held button stays held or is released. -/
theorem advance_of_held {p : Params} {now : Word} {b : Btn} (h : b.state = .held) :
    (b.advance p now).2.state = .held ∨ (b.advance p now).2.state = .released := by
  simp only [Btn.advance, h]
  split
  · exact .inr rfl
  · exact .inl h

/-- A transition that fires, which only a pressed button makes, leaves it held. -/
theorem advance_fired {p : Params} {now : Word} {b : Btn} (h : (b.advance p now).1 = true) :
    (b.advance p now).2.state = .held := by
  cases hs : b.state with
  | released => simp only [Btn.advance, hs] at h; split at h <;> cases h
  | held => simp only [Btn.advance, hs] at h; split at h <;> cases h
  | pressed =>
    simp only [Btn.advance, hs] at h ⊢
    split at h
    · cases h
    · rename_i hn
      rw [if_neg hn]
      split at h
      · rename_i hf
        rw [if_pos hf]
      · cases h

/-- A sample leaves the blocking alone (spec/43_button_debouncer.md R123). -/
theorem debounce_awaitRelease (p : Params) (now : Word) (level : Bool) (b : Btn) :
    (b.debounce p now level).2.awaitRelease = b.awaitRelease :=
  (advance_awaitRelease p now _).trans (sampleLevel_awaitRelease now level b)

/-- A sample leaves a held button held or released (R123). -/
theorem debounce_of_held {p : Params} {now : Word} {level : Bool} {b : Btn} (h : b.state = .held) :
    (b.debounce p now level).2.state = .held ∨ (b.debounce p now level).2.state = .released :=
  advance_of_held ((sampleLevel_state now level b).trans h)

/-- The debouncer after a blocked iteration: the blocking may end (R125). -/
theorem blockedStep_btn (now : Word) (e : EventBits) (s : State) : (blockedStep now e s).btn =
    if blockedEnds s.par now s.btn then s.btn.unblock else s.btn := by
  simp only [blockedStep, updateOutputs, keepEvents, finish_btn, onOut_btn, onEv_btn]
  split <;> rfl

/-- The debouncer after an iteration that is not blocked: a hold begins the blocking (R125). -/
theorem activeStep_btn (now : Word) (e : EventBits) (fired : Bool) (s : State) :
    (activeStep now e fired s).btn = if fired then s.btn.block now else s.btn := by
  simp only [activeStep, updateOutputs, finish_btn, onOut_btn, holdPhase]
  split <;> simp only [arbitrate_btn, onBtn_btn, faultTransitions_btn, pollPhase_btn, thermalPhase_btn]

/-- A blocked iteration whose sample released the button ends the blocking, so it leaves a blocked button
held. -/
theorem blockedStep_btnInv (now : Word) (e : EventBits) {s : State}
    (h : s.btn.state = .held ∨ s.btn.state = .released) : (blockedStep now e s).btn.Inv := by
  rw [blockedStep_btn]
  split
  · exact nofun
  · rename_i hn
    exact fun _ => h.resolve_right fun hr => hn (by simp [blockedEnds, hr])

/-- A hold blocks a button that its sample left held. -/
theorem activeStep_btnInv (now : Word) (e : EventBits) {fired : Bool} {s : State}
    (hf : s.btn.awaitRelease = false) (hh : fired = true → s.btn.state = .held) :
    (activeStep now e fired s).btn.Inv := by
  rw [activeStep_btn]
  split
  · rename_i h
    exact fun _ => hh h
  · exact fun ha => absurd ha (by simp [hf])

/-! ## Whole commands -/

theorem loopStep_ctlInv (now : Word) (level : Bool) (e : EventBits) {s : State} (h : AwakeInv s)
    (hb : s.btn.Inv) : CtlInv (loopStep now level e s) := by
  have hd : AwakeInv (debouncePhase now level s) := ⟨onBtn_runInv _ h.toRunInv, h.awake⟩
  unfold loopStep
  split
  · rename_i ha
    exact (ctlInv_iff _).mpr ⟨(blockedStep_runInv now e hd.toRunInv).power,
      blockedStep_btnInv now e (debounce_of_held (hb ha))⟩
  · rename_i ha
    exact (ctlInv_iff _).mpr ⟨(activeStep_runInv now e _ hd).power,
      activeStep_btnInv now e ((debounce_awaitRelease _ _ _ _).trans (by simpa using ha)) advance_fired⟩

theorem runStep_ctlInv (now : Word) (level : Bool) (e : EventBits) {s : State} (h : CtlInv s)
    (hr : s.ctl.phase = .run) : CtlInv (runStep now level e s) := by
  obtain ⟨hp, hb⟩ := (ctlInv_iff s).mp h
  have hf : RunInv (flashTimer now s) := flashTimer_runInv now ⟨hp, hr⟩
  unfold runStep
  split
  · refine (ctlInv_iff _).mpr ⟨(finish_runInv _ (updateOutputs_runInv now hf)).power, ?_⟩
    rw [finish_btn, updateOutputs, onOut_btn, flashTimer_btn]
    exact hb
  · rename_i hs
    have ha : AwakeInv (flashTimer now s) := ⟨hf, by rw [flashTimer_ctl]; exact hs⟩
    refine loopStep_ctlInv now level e (ssdPhase_awakeInv now _ (dwellTimer_awakeInv now ha)) ?_
    rw [ssdPhase_btn, dwellTimer_btn, flashTimer_btn]
    exact hb

theorem execCtrlStep_ctlInv {s t : State} (h : CtlInv s) (ht : execCtrlStep s = .next t) : CtlInv t := by
  have hs : CtlInv (snapshot s) := (onEv_sameCore _ s).ctlInv h
  unfold execCtrlStep at ht
  split at ht <;> cases ht
  · exact (finish_sameCore _ s).ctlInv h
  · exact (finish_sameCore _ _).ctlInv hs
  · rename_i hr
    exact runStep_ctlInv _ _ _ hs hr

theorem bootWrites_sameCore (s : State) : SameCore s (bootWrites s) := by
  constructor <;> simp [bootWrites]

/-- A boot that finds the charging IC begins to run with the low-power output off
(spec/42_charge_controller.md R99). -/
theorem bootRun_runInv (now : Word) {s : State} (h : PowerInv s.par s.ctl s.out)
    (hb : s.ctl.phase = .boot) : RunInv (bootRun now s) := by
  have hw := bootWrites_sameCore s
  refine updateOutputs_runInv now (poll_runInv now ⟨?_, rfl⟩)
  rw [onCtl_par, onCtl_ctl, onCtl_out, hw.par, hw.ctl, hw.out]
  exact { h with
    stopped := fun hx => absurd rfl hx
    parked := by simp [h.parked, hb] }

/-- A boot that does not find it parks with every output but the low-power one as it was (R100). -/
theorem park_powerInv {s : State} (h : PowerInv s.par s.ctl s.out) (hb : s.ctl.phase = .boot) :
    PowerInv (park s).par (park s).ctl (park s).out :=
  { h with
    stopped := fun _ => h.stopped (by rw [hb]; decide)
    parked := ⟨fun _ => rfl, fun _ => rfl⟩ }

theorem bootRun_btn (now : Word) (s : State) : (bootRun now s).btn = s.btn := by
  rw [bootRun, updateOutputs, onOut_btn, poll_btn, onCtl_btn, (bootWrites_sameCore s).btn]

theorem bootEnd_ctlInv (now : Word) {e : ByteRead} (h : CtlInv e.st) (hb : e.st.ctl.phase = .boot) :
    CtlInv (bootEnd now e) := by
  obtain ⟨hp, hi⟩ := (ctlInv_iff _).mp h
  unfold bootEnd
  split
  · refine (finish_sameCore _ _).ctlInv ((ctlInv_iff _).mpr ⟨(bootRun_runInv now hp hb).power, ?_⟩)
    rw [bootRun_btn]
    exact hi
  · exact (finish_sameCore _ _).ctlInv ((ctlInv_iff _).mpr ⟨park_powerInv hp hb, hi⟩)

theorem bootProbe_sameCore (s : State) : SameCore s (bootProbe s).st :=
  (busOnly_confRel.configure _ s).sameCore.trans (readFieldByte_busOnly _ _).sameCore

theorem execCtrlBoot_ctlInv {s t : State} (h : CtlInv s) (ht : execCtrlBoot s = .next t) : CtlInv t := by
  unfold execCtrlBoot at ht
  split at ht <;> cases ht
  · rename_i hb
    have hs := bootProbe_sameCore s
    exact bootEnd_ctlInv _ (hs.ctlInv h) (by rw [hs.ctl, hb])
  · exact (finish_sameCore _ s).ctlInv h

theorem exec_ctlInv {i : Instr} {s t : State} (h : CtlInv s) (ht : exec i s = .next t) : CtlInv t := by
  by_cases hb : i = .ctrlBoot
  · subst hb; exact execCtrlBoot_ctlInv h ht
  by_cases hs : i = .ctrlStep
  · subst hs; exact execCtrlStep_ctlInv h ht
  · exact (exec_sameCore hb hs ht).ctlInv h

/-- At reset the controller sleeps with every output off (spec/10_state.md R23, R30). -/
theorem reset_powerInv (p : Params) : PowerInv p .reset .reset where
  rail := by decide
  adc := by decide
  fan := rfl
  isolated := by decide
  pending := nofun
  request := nofun
  stopped := fun _ => ⟨rfl, rfl, rfl⟩
  parked := by decide
  charging := by decide
  percent := by decide

theorem resetOf_ctlInv (p : Params) : CtlInv (State.resetOf p) :=
  (ctlInv_iff _).mpr ⟨reset_powerInv p, nofun⟩

/-- A power-on resets the controller, the debouncer and the outputs (spec/70_reset_and_hazards.md R146). -/
theorem powerOn_sameCore (s : State) : SameCore (State.resetOf s.par) s.powerOn := ⟨rfl, rfl, rfl, rfl⟩

/-- An act of the environment leaves the controller alone, or is a power-on and resets it. -/
theorem move_ctlInv (m : HostMove) {s : State} (h : CtlInv s) : CtlInv (s.move m) := by
  cases m with
  | powerOn => exact (powerOn_sameCore s).ctlInv (resetOf_ctlInv _)
  | _ => exact SameCore.ctlInv (s := s) ⟨rfl, rfl, rfl, rfl⟩ h

/-- Settles O14: each phase of CTRL_STEP and the two ends of CTRL_BOOT keep the controller's invariant, a
power-on establishes it, and nothing else writes what it speaks of. -/
theorem stepKeepsTheControllerInvariant : Obligations.StepKeepsTheControllerInvariant := by
  intro s t h ht
  obtain ⟨_, rest, _, _, _, hx⟩ | ⟨_, rest, _, rfl⟩ | ⟨_, _, _, _, hx⟩ | ⟨_, _, rfl⟩ |
    ⟨_, m, rest, _, rfl⟩ | ⟨_, _, rfl⟩ := step_cases ht
  · exact exec_ctlInv ((onPorts_sameCore _ s).ctlInv h) hx
  · exact (onPorts_sameCore _ s).ctlInv h
  · exact exec_ctlInv ((onPorts_sameCore _ s).ctlInv h) hx
  · exact (finish_sameCore _ _).ctlInv ((onPorts_sameCore _ s).ctlInv h)
  · exact move_ctlInv m ((onEnv_sameCore _ s).ctlInv h)
  · exact (tick_busOnly s).sameCore.ctlInv h

end Sys2Proof.Machine
end

section
/-! SUPPORT. READ_STATE, and which word a step runs. -/

namespace Sys2Proof.Machine

/-! ## READ_STATE -/

/-- The selectors of READ_STATE (spec/10_state.md R31). -/
theorem selector_cases {sel : Byte} (h : sel.toNat ≤ 3) :
    sel = 0#8 ∨ sel = 1#8 ∨ sel = 2#8 ∨ sel = 3#8 := by bv_omega

theorem stateWordOf_of_gt {sel : Byte} (h : 3 < sel.toNat) : stateWordOf sel = none := by
  unfold stateWordOf
  rw [if_neg, if_neg, if_neg, if_neg] <;> bv_omega

/-- The word a selector names has the layout of R31. -/
theorem stateWordOf_is (s : State) {sel : Byte} (h : sel.toNat ≤ 3) :
    ∃ w, stateWordOf sel = some w ∧ StateWordIs sel s (stateWord s w) := by
  obtain rfl | rfl | rfl | rfl := selector_cases h
  · exact ⟨.busStatus, rfl, fun _ => busStatusWord_is s, nofun, nofun, nofun⟩
  · exact ⟨.ctrlStatus, rfl, nofun, fun _ => ctrlStatusWord_is s, nofun, nofun⟩
  · exact ⟨.battery, rfl, nofun, nofun, fun _ => batteryWord_is s, nofun⟩
  · exact ⟨.outputs, rfl, nofun, nofun, nofun, fun _ => outputsWord_is s⟩

/-- READ_STATE with a selector that names a word (spec/42_charge_controller.md R98). -/
theorem exec_readState_some {sel : Byte} {w : StateWord} (h : stateWordOf sel = some w) (s : State) :
    exec (.readState sel) s =
      .next (s.onPorts fun p => { p with val := stateWord s w, result := 0#32 }) := by
  simp only [exec, execReadState, h]
  rfl

/-- READ_STATE with a selector that names none (spec/30_encoding.md R62). -/
theorem exec_readState_none {sel : Byte} (h : stateWordOf sel = none) (s : State) :
    exec (.readState sel) s = .next (s.onPorts fun p => { p with result := 5#32 }) := by
  simp only [exec, execReadState, h]
  rfl

/-- After reset CTRL_STATUS reads 0. -/
theorem reset_ctrlStatus : ctrlStatusWord .reset .reset .reset = 0#32 := by decide

/-- Settles O20: each selector names a word whose layout is that of R31. -/
theorem readStateCopiesTheStateWord : Obligations.ReadStateCopiesTheStateWord := by
  refine ⟨fun s sel h => ?_, fun s _ h => exec_readState_none (stateWordOf_of_gt h) s, ?_, fun p => ?_⟩
  · obtain ⟨w, hw, his⟩ := stateWordOf_is s h
    exact ⟨_, his, exec_readState_some hw s⟩
  · rintro s w hinv ⟨-, -, -, hmask, -⟩
    rw [hmask, hinv.unmasked]
  · rw [exec_readState_some (w := .ctrlStatus) rfl,
      show stateWord (State.resetOf p) .ctrlStatus = 0#32 from reset_ctrlStatus]

/-! ## Which word a step runs (log 5) -/

/-- No event word is due where the first one has a delay left. -/
theorem dueEvent_eq_none {q : List Arrival} (h : ∀ a rest, q = a :: rest → a.delay ≠ 0) :
    dueEvent q = none := by
  cases q with
  | nil => rfl
  | cons a rest =>
    obtain ⟨n, hn⟩ := Nat.exists_eq_succ_of_ne_zero (h a rest rfl)
    simp only [dueEvent, hn]

theorem step_event {s : State} {w : Word} {rest : List Arrival} (h : s.ports.evt = ⟨0, w⟩ :: rest) :
    step s = stepEvent w (takeEvent s rest) := by
  simp only [step, h, dueEvent]

theorem step_command {s : State} {w : Word} (he : dueEvent s.ports.evt = none)
    (hc : s.ports.cmd = some w) : step s = stepCommand w (takeCommand s) := by
  simp only [step, he, hc]

/-- Settles O6: a due event word is taken first, then the command, and runs as it decodes. -/
theorem stepRunsTheDecodedWord : Obligations.StepRunsTheDecodedWord := by
  constructor
  · intro s w rest i he hd
    rw [step_event he, stepEvent, show decodeEvent w = .ok i from hd]
    rfl
  · intro s w i he hc hd
    rw [step_command (dueEvent_eq_none he) hc, stepCommand, show decodeCommand w = .ok i from hd]
    rfl

end Sys2Proof.Machine
end

section
/-! SUPPORT. The ports stay canonical across a step, and what a step that runs neither CTRL_BOOT nor
CTRL_STEP leaves alone. -/

namespace Sys2Proof

/-! ## A command word is the encoding of what it decodes to -/

theorem whenZero_eq_ok {zero : Bool} {i j : Instr} (h : whenZero zero i = .ok j) :
    zero = true ∧ j = i := by
  cases zero with
  | true => cases h; exact ⟨rfl, rfl⟩
  | false => cases h

theorem decodeConfigure_encode {w : Word} {i : Instr} (h : decodeConfigure w = .ok i) :
    encode i = packWord 0x01#8 (addrOf w) (selOf w) (immOf w) := by
  unfold decodeConfigure at h
  split_ifs at h with hstd hfast
  all_goals
    obtain ⟨hz, rfl⟩ := whenZero_eq_ok h
    obtain ⟨ha, hs⟩ := of_decide_eq_true hz
  · rw [ha, hs, hstd]; rfl
  · rw [ha, hs, hfast]; rfl

theorem decodeField_encode {w : Word} {mk : Byte → Instr} {i : Instr} {opc : Byte}
    (h : decodeField w mk = .ok i) (hmk : ∀ f, encode (mk f) = packWord opc 0#7 f 0#8) :
    encode i = packWord opc (addrOf w) (selOf w) (immOf w) := by
  unfold decodeField at h
  split at h
  · obtain ⟨hz, rfl⟩ := whenZero_eq_ok h
    obtain ⟨ha, hm⟩ := of_decide_eq_true hz
    rw [hmk, ha, hm]
  · cases h

theorem decodeReadState_encode {w : Word} {i : Instr} (h : decodeReadState w = .ok i) :
    encode i = packWord 0x40#8 (addrOf w) (selOf w) (immOf w) := by
  unfold decodeReadState at h
  split at h
  · obtain ⟨hz, rfl⟩ := whenZero_eq_ok h
    obtain ⟨ha, hm⟩ := of_decide_eq_true hz
    rw [ha, hm]; rfl
  · cases h

theorem decodePlain_encode {w : Word} {i j : Instr} {opc : Byte}
    (h : decodePlain w i = .ok j) (hi : encode i = packWord opc 0#7 0#8 0#8) :
    encode j = packWord opc (addrOf w) (selOf w) (immOf w) := by
  obtain ⟨hz, rfl⟩ := whenZero_eq_ok h
  obtain ⟨ha, hs, hm⟩ := of_decide_eq_true hz
  rw [hi, ha, hs, hm]

/-- A word the command port decodes is the encoding of its instruction (spec/30_encoding.md R51, R52). -/
theorem encode_of_decodeCommand {w : Word} {i : Instr} (h : decodeCommand w = .ok i) : encode i = w := by
  simp only [decodeCommand, ite_eq_iff, reduceCtorEq, and_false, or_false] at h
  obtain ⟨hz, h⟩ := h
  refine Eq.trans ?_ (packWord_fields w hz)
  obtain ⟨h01, h⟩ | ⟨-, ⟨h02, h⟩ | ⟨-, ⟨h10, h⟩ | ⟨-, ⟨h11, h⟩ | ⟨-, ⟨h12, h⟩ | ⟨-, ⟨h13, h⟩ |
    ⟨-, ⟨h14, h⟩ | ⟨-, ⟨h20, h⟩ | ⟨-, ⟨h21, h⟩ | ⟨-, h40, h⟩⟩⟩⟩⟩⟩⟩⟩⟩ := h
  · rw [h01]; exact decodeConfigure_encode h
  · obtain ⟨hs, rfl⟩ := whenZero_eq_ok h
    rw [h02, of_decide_eq_true hs]; rfl
  · cases h; rw [h10]; rfl
  · cases h; rw [h11]; rfl
  · rw [h12]; exact decodeField_encode h fun _ => rfl
  · rw [h13]; exact decodeField_encode h fun _ => rfl
  · rw [h14]; exact decodePlain_encode h rfl
  · rw [h20]; exact decodePlain_encode h rfl
  · rw [h21]; exact decodePlain_encode h rfl
  · rw [h40]; exact decodeReadState_encode h

end Sys2Proof

namespace Sys2Proof.Machine

/-! ## The main loop's own state -/

/-- A word that decodes to CTRL_BOOT or CTRL_STEP is the one word of that command (R52). -/
theorem decodeCommand_not_mainLoop {w : Word} {i : Instr} (hd : decodeCommand w = .ok i)
    (hboot : w ≠ 0x20000000#32) (hstep : w ≠ 0x21000000#32) : i ≠ .ctrlBoot ∧ i ≠ .ctrlStep := by
  have hw : encode i = w := encode_of_decodeCommand hd
  constructor
  · rintro rfl
    exact hboot (hw.symm.trans (by decide))
  · rintro rfl
    exact hstep (hw.symm.trans (by decide))

theorem dueEvent_eq_some {q : List Arrival} {w : Word} {rest : List Arrival}
    (h : dueEvent q = some (w, rest)) : q = ⟨0, w⟩ :: rest := by
  cases q with
  | nil => cases h
  | cons a tail =>
    obtain ⟨delay, word⟩ := a
    cases delay with
    | zero => cases h; rfl
    | succ n => cases h

/-- A step that takes an event word only latches it (spec/42_charge_controller.md R93). -/
theorem step_due_sameCore {s t : State} {w : Word} {rest : List Arrival}
    (he : s.ports.evt = ⟨0, w⟩ :: rest) (ht : step s = .next t) : SameCore s t := by
  have htake : SameCore s (takeEvent s rest) := onPorts_sameCore _ s
  obtain rfl | ⟨k, rfl⟩ := step_due he ht
  · exact htake
  · exact htake.trans (onEv_sameCore _ _)

/-- Every act of the environment but a power-on is on the ports or on what it has still to answer
(spec/70_reset_and_hazards.md R149). -/
theorem move_sameCore {m : HostMove} (hm : m ≠ .powerOn) (s : State) : SameCore s (s.move m) := by
  cases m with
  | powerOn => exact absurd rfl hm
  | _ => exact ⟨rfl, rfl, rfl, rfl⟩

/-- A step leaves the main loop's state alone where no word of CTRL_BOOT or CTRL_STEP stands on the command
port and no power-on comes next. -/
theorem step_sameCore {s t : State} (ht : step s = .next t)
    (hcmd : ∀ w, s.ports.cmd = some w → w ≠ 0x20000000#32 ∧ w ≠ 0x21000000#32)
    (hmove : s.ports.cmd = none → ∀ rest, s.env.moves ≠ .powerOn :: rest) : SameCore s t := by
  have htake : SameCore s (takeCommand s) := onPorts_sameCore _ s
  obtain ⟨w, rest, _, he, _, _⟩ | ⟨w, rest, he, _⟩ | ⟨w, i, hc, hd, hx⟩ | ⟨_, _, rfl⟩ |
    ⟨hc, m, rest, hm, rfl⟩ | ⟨_, _, rfl⟩ := step_cases ht
  · exact step_due_sameCore (dueEvent_eq_some he) ht
  · exact step_due_sameCore (dueEvent_eq_some he) ht
  · obtain ⟨hboot, hstep⟩ := hcmd w hc
    obtain ⟨hb, hs⟩ := decodeCommand_not_mainLoop hd hboot hstep
    exact htake.trans (exec_sameCore hb hs hx)
  · exact htake.finish _
  · have hne : m ≠ .powerOn := fun h => hmove hc rest (h ▸ hm)
    exact (onEnv_sameCore _ s).trans (move_sameCore hne _)
  · exact (tick_busOnly s).sameCore

/-- Settles O11: every other command touches only the bus, the latches and the ports, and so does a step
that takes an event word, which goes before a command (log 5), or any act of the environment but a
power-on. -/
theorem onlyTheMainLoopWritesTheController : Obligations.OnlyTheMainLoopWritesTheController := by
  constructor
  · intro i s t hb hs ht
    obtain ⟨hctl, hbtn, hout, -⟩ := exec_sameCore hb hs ht
    exact ⟨hctl, hbtn, hout⟩
  · intro s t ht hcase
    have hsame : SameCore s t := by
      obtain ⟨w, rest, he⟩ | ⟨w, hc, hw⟩ | ⟨hc, hm⟩ := hcase
      · exact step_due_sameCore he ht
      · exact step_sameCore ht (fun _ hc' => Option.some.inj (hc.symm.trans hc') ▸ hw) (by simp [hc])
      · exact step_sameCore ht (by simp [hc]) (fun _ => hm)
    exact ⟨hsame.ctl, hsame.btn, hsame.out⟩

/-! ## The canonical form of the ports (log 10) -/

/-- `PortsWf` carries over. -/
def KeepsPorts (s t : State) : Prop := PortsWf s → PortsWf t

/-- `PortsWf` speaks only of the data port and the descriptor port. -/
theorem keepsPorts_of_same {s t : State} (hdata : t.ports.data = s.ports.data)
    (hdesc : t.ports.desc = s.ports.desc) : KeepsPorts s t := fun ⟨hd, hc⟩ =>
  ⟨by rwa [hdata], by rwa [hdesc]⟩

/-- A bus operation changes only the event port (spec/30_encoding.md R58). -/
theorem BusOnly.keepsPorts {s t : State} (h : BusOnly s t) : KeepsPorts s t :=
  keepsPorts_of_same (by rw [h.ports]) (by rw [h.ports])

theorem setData_keepsPorts (s : State) (m : Memory)
    (hm : Memory.wf s.ports.data = true → Memory.wf m = true) : KeepsPorts s (s.setData m) :=
  fun ⟨hd, hc⟩ => ⟨hm hd, hc⟩

/-- The environment writes one descriptor or one byte at a time, and a power-on empties both ports. -/
theorem move_keepsPorts (m : HostMove) (s : State) : KeepsPorts s (s.move m) := by
  cases m with
  | descriptor i d => exact fun ⟨hd, hc⟩ => ⟨hd, Cells.write_wf hc i d⟩
  | byte i b => exact fun ⟨hd, hc⟩ => ⟨Memory.write_wf hd i b, hc⟩
  | powerOn => exact fun _ => ⟨rfl, rfl⟩
  | _ => exact keepsPorts_of_same rfl rfl

theorem keepsPorts_stepRel : StepRel KeepsPorts where
  refl := fun _ h => h
  trans := fun h h' hs => h' (h hs)
  transferOn := fun a ds buf s => (busOnly_txnRel.transferOn a ds buf s).keepsPorts
  configure := fun rate s => (busOnly_confRel.configure rate s).keepsPorts
  ctl := fun _ _ => keepsPorts_of_same rfl rfl
  btn := fun _ _ => keepsPorts_of_same rfl rfl
  out := fun _ _ => keepsPorts_of_same rfl rfl
  flags := fun _ _ => keepsPorts_of_same rfl rfl
  finish := fun _ _ => keepsPorts_of_same rfl rfl
  val := fun _ _ => keepsPorts_of_same rfl rfl
  data := setData_keepsPorts
  latch := fun _ _ => keepsPorts_of_same rfl rfl
  takeEvent := fun _ _ => keepsPorts_of_same rfl rfl
  takeCommand := fun _ => keepsPorts_of_same rfl rfl
  plan := fun _ _ => keepsPorts_of_same rfl rfl
  move := move_keepsPorts
  tick := fun _ => keepsPorts_of_same rfl rfl

/-- Settles O16: a command writes the data port only with canonical contents, the environment writes one
entry at a time, and no other part of a step touches the two ports. -/
theorem stepKeepsThePortsCanonical : Obligations.StepKeepsThePortsCanonical :=
  fun _ _ hs h => keepsPorts_stepRel.step h hs

end Sys2Proof.Machine
end

section
/-! SUPPORT. Which words decode: the decoder against the encoder and against the conditions of
spec/30_encoding.md R62. -/

namespace Sys2Proof

/-- Settles O1: one round trip per constructor. -/
theorem decodeOfEncode : Obligations.DecodeOfEncode := by
  intro i hi
  cases i with
  | configure rate => exact Laws.RoundTrip.configure rate hi
  | transfer a n => exact Laws.RoundTrip.transfer a n hi
  | regRead a r len => exact Laws.RoundTrip.regRead a r len hi
  | regWrite a r len => exact Laws.RoundTrip.regWrite a r len hi
  | fieldRead f => exact Laws.RoundTrip.fieldRead f hi
  | fieldWrite f => exact Laws.RoundTrip.fieldWrite f hi
  | probe => exact Laws.RoundTrip.probe hi
  | ctrlBoot => exact Laws.RoundTrip.ctrlBoot hi
  | ctrlStep => exact Laws.RoundTrip.ctrlStep hi
  | readState sel => exact Laws.RoundTrip.readState sel hi
  | evtButton => exact Laws.RoundTrip.evtButton hi
  | evtChgIrq => exact Laws.RoundTrip.evtChgIrq hi
  | evtThermal => exact Laws.RoundTrip.evtThermal hi
  | evtHostAck => exact Laws.RoundTrip.evtHostAck hi

/-- Settles O3: the decoder evaluates each word to the instruction of its row (R52, R53). -/
theorem writtenWordsDecode : Obligations.WrittenWordsDecode := by
  unfold Obligations.WrittenWordsDecode
  decide

/-! ## Which words decode -/

/-! A format decodes exactly when its fields are in range (spec/30_encoding.md R52). -/

theorem exists_whenZero_eq_ok (zero : Bool) (i : Instr) :
    (∃ j, whenZero zero i = .ok j) ↔ zero = true := by
  cases zero <;> simp [whenZero]

/-- IMM8[7:1] is 0 exactly in the two values of the rate bit (spec/30_encoding.md R52). -/
theorem rateBit_iff (imm : Byte) : imm.extractLsb' 1 7 = 0#7 ↔ imm = 0#8 ∨ imm = 1#8 := by
  revert imm; decide

theorem exists_decodeConfigure (w : Word) : (∃ i, decodeConfigure w = .ok i) ↔
    addrOf w = 0#7 ∧ selOf w = 0#8 ∧ (immOf w).extractLsb' 1 7 = 0#7 := by
  rw [rateBit_iff]
  unfold decodeConfigure
  split_ifs with hstd hfast
  · simp [exists_whenZero_eq_ok, hstd]
  · simp [exists_whenZero_eq_ok, hfast]
  · simp [hstd, hfast]

theorem exists_decodeField (w : Word) (mk : Byte → Instr) : (∃ i, decodeField w mk = .ok i) ↔
    addrOf w = 0#7 ∧ immOf w = 0#8 ∧ (selOf w).toNat ≤ 20 := by
  unfold decodeField
  split_ifs with hsel
  · simp [exists_whenZero_eq_ok, hsel]
  · simp [hsel]

theorem exists_decodeReadState (w : Word) : (∃ i, decodeReadState w = .ok i) ↔
    addrOf w = 0#7 ∧ immOf w = 0#8 ∧ (selOf w).toNat ≤ 3 := by
  unfold decodeReadState
  split_ifs with hsel
  · simp [exists_whenZero_eq_ok, hsel]
  · simp [hsel]

theorem exists_decodePlain (w : Word) (i : Instr) : (∃ j, decodePlain w i = .ok j) ↔
    addrOf w = 0#7 ∧ selOf w = 0#8 ∧ immOf w = 0#8 := by
  simp [decodePlain, exists_whenZero_eq_ok]

end Sys2Proof

namespace Sys2Proof.Machine

/-- The conditions of R62 in the decoder's names for the fields of a word. -/
theorem illegalCommandWord_iff (w : Word) : IllegalCommandWord w ↔
    opcOf w ∉ [0x01#8, 0x02#8, 0x10#8, 0x11#8, 0x12#8, 0x13#8, 0x14#8, 0x20#8, 0x21#8, 0x40#8] ∨
    zOf w ≠ 0#1 ∨
    (opcOf w ∈ [0x01#8, 0x12#8, 0x13#8, 0x14#8, 0x20#8, 0x21#8, 0x40#8] ∧ addrOf w ≠ 0#7) ∨
    (opcOf w ∈ [0x01#8, 0x02#8, 0x14#8, 0x20#8, 0x21#8] ∧ selOf w ≠ 0#8) ∨
    (opcOf w ∈ [0x12#8, 0x13#8, 0x14#8, 0x20#8, 0x21#8, 0x40#8] ∧ immOf w ≠ 0#8) ∨
    (opcOf w = 0x01#8 ∧ (immOf w).extractLsb' 1 7 ≠ 0#7) ∨
    (opcOf w ∈ [0x12#8, 0x13#8] ∧ 20 < (selOf w).toNat) ∨
    (opcOf w = 0x40#8 ∧ 3 < (selOf w).toNat) := Iff.rfl

/-- A command word decodes exactly when R62 has nothing against it: each opcode by its format. -/
theorem exists_decodeCommand (w : Word) : (∃ i, decodeCommand w = .ok i) ↔ ¬IllegalCommandWord w := by
  rw [illegalCommandWord_iff]
  by_cases hz : zOf w = 0#1
  case neg => simp [decodeCommand, hz]
  by_cases hopc : opcOf w ∈
    [0x01#8, 0x02#8, 0x10#8, 0x11#8, 0x12#8, 0x13#8, 0x14#8, 0x20#8, 0x21#8, 0x40#8]
  case neg =>
    simp only [List.mem_cons, List.not_mem_nil, or_false, not_or] at hopc
    simp [decodeCommand, hz, hopc]
  simp only [List.mem_cons, List.not_mem_nil, or_false] at hopc
  obtain h | h | h | h | h | h | h | h | h | h := hopc
  · simp [decodeCommand, hz, h, exists_decodeConfigure]
  · simp [decodeCommand, hz, h, exists_whenZero_eq_ok]
  · simp [decodeCommand, hz, h]
  · simp [decodeCommand, hz, h]
  · simp [decodeCommand, hz, h, exists_decodeField]
  · simp [decodeCommand, hz, h, exists_decodeField]
  · simp [decodeCommand, hz, h, exists_decodePlain]
  · simp [decodeCommand, hz, h, exists_decodePlain]
  · simp [decodeCommand, hz, h, exists_decodePlain]
  · simp [decodeCommand, hz, h, exists_decodeReadState]

theorem exists_eventKindOf (opc : Byte) :
    (∃ k, eventKindOf opc = some k) ↔ opc ∈ [0x30#8, 0x31#8, 0x32#8, 0x33#8] := by
  unfold eventKindOf
  split_ifs <;> simp [*]

/-- An event word decodes exactly when R62 does not have it ignored. -/
theorem exists_decodeEvent (w : Word) : (∃ i, decodeEvent w = .ok i) ↔ ¬MalformedEventWord w := by
  change _ ↔ ¬(opcOf w ∉ [0x30#8, 0x31#8, 0x32#8, 0x33#8] ∨ lowOf w ≠ 0#24)
  rw [← exists_eventKindOf]
  unfold decodeEvent
  by_cases hlow : lowOf w = 0#24
  · cases hk : eventKindOf (opcOf w) <;> simp [hlow]
  · simp [hlow]

/-! ## What a decoded word stands for -/

/-- The command port decodes only well-formed instructions of its own: R62 refuses the encoding of every
other one. -/
theorem decodeCommand_legal {w : Word} {i : Instr} (h : decodeCommand w = .ok i) :
    i.wf = true ∧ i.port = .command := by
  have hlegal := (exists_decodeCommand w).mp ⟨i, h⟩
  rw [← encode_of_decodeCommand h, illegalCommandWord_iff] at hlegal
  cases i with
  | fieldRead x | fieldWrite x | readState x =>
    exact ⟨by simpa [encode, Instr.wf] using hlegal, rfl⟩
  | evtButton | evtChgIrq | evtThermal | evtHostAck => simp [encode, eventOpc] at hlegal
  | _ => exact ⟨rfl, rfl⟩

/-- The event kinds are read from their own opcodes (spec/30_encoding.md R53). -/
theorem eventKindOf_eq_some {opc : Byte} {k : EventKind} (h : eventKindOf opc = some k) :
    opc = eventOpc k := by
  unfold eventKindOf at h
  split_ifs at h with h30 h31 h32 h33 <;> cases h <;> assumption

theorem decodeEvent_eq_ok {w : Word} {i : Instr} (h : decodeEvent w = .ok i) :
    lowOf w = 0#24 ∧ ∃ k, opcOf w = eventOpc k ∧ i = evtInstr k := by
  unfold decodeEvent at h
  split at h
  case isTrue hlow =>
    split at h
    case h_1 k hk => cases h; exact ⟨hlow, k, eventKindOf_eq_some hk, rfl⟩
    case h_2 => cases h
  case isFalse => cases h

/-- The word of an event is its opcode over 0s (spec/30_encoding.md R53). -/
theorem encode_evtInstr (k : EventKind) : encode (evtInstr k) = packWord (eventOpc k) 0#7 0#8 0#8 := by
  cases k <;> rfl

theorem evtInstr_legal (k : EventKind) : (evtInstr k).wf = true ∧ (evtInstr k).port = .event := by
  cases k <;> exact ⟨rfl, rfl⟩

/-- A word the event port decodes is the encoding of its instruction (spec/30_encoding.md R53). -/
theorem encode_of_decodeEvent {w : Word} {i : Instr} (h : decodeEvent w = .ok i) : encode i = w := by
  obtain ⟨hlow, k, hk, rfl⟩ := decodeEvent_eq_ok h
  obtain ⟨hz, ha, hs, hm⟩ := (lowOf_eq_zero w).mp hlow
  rw [encode_evtInstr, ← packWord_fields w hz, hk, ha, hs, hm]

/-- Settles O2: on either port the decoded word is the packing of its fields, which are those of the
instruction, and R62 leaves a command word only operands in their range. -/
theorem encodeOfDecode : Obligations.EncodeOfDecode := by
  intro p w i h
  cases p with
  | command => exact ⟨encode_of_decodeCommand h, decodeCommand_legal h⟩
  | event =>
    obtain ⟨-, k, -, rfl⟩ := decodeEvent_eq_ok h
    exact ⟨encode_of_decodeEvent h, evtInstr_legal k⟩

/-! ## A step that takes an illegal word -/

theorem stepCommand_illegal {w : Word} (h : IllegalCommandWord w) (s : State) :
    stepCommand w s = .next (s.finish .illegalCommand) := by
  unfold stepCommand
  split
  case h_1 i hi => exact absurd h ((exists_decodeCommand w).mp ⟨i, hi⟩)
  case h_2 => rfl

theorem stepEvent_malformed {w : Word} (h : MalformedEventWord w) (s : State) :
    stepEvent w s = .next s := by
  unfold stepEvent
  split
  case h_1 i hi => exact absurd h ((exists_decodeEvent w).mp ⟨i, hi⟩)
  case h_2 => rfl

/-- TRANSFER of no message is BAD_SEQUENCE (spec/30_encoding.md R62). -/
theorem exec_transfer_zero {s : State} (h : s.bus.ready = true) (a : Addr7) :
    exec (.transfer a 0#8) s = .next (s.finish .badSequence) := by
  have hv : transferValid s.par (descList s.ports.desc 0) = false := rfl
  change Host.Outcome.next (transferOn a (descList s.ports.desc 0) s.ports.data s).commit = _
  rw [transferOn_invalid h a hv]
  rfl

/-- Settles O4: the decoder answers exactly where R62 has no objection, and a step of a word it refuses
only takes the word from its port and, for a command, writes the result. -/
theorem illegalWordsHaveNoEffect : Obligations.IllegalWordsHaveNoEffect := by
  refine ⟨exists_decodeCommand, fun s w he hc hw => ?_, fun s a hr => ?_, exists_decodeEvent,
    fun s w rest he hw => ?_⟩
  · rw [step_command he hc, stepCommand_illegal hw]
    rfl
  · rw [exec_transfer_zero hr]
    rfl
  · rw [step_event he, stepEvent_malformed hw]
    rfl

end Sys2Proof.Machine
end

section
/-! SUPPORT. Every command ends with a result word of the layout of spec/30_encoding.md R56. -/

namespace Sys2Proof.Machine

/-- How command `i` may end (spec/30_encoding.md R56): PH, MSG and BYTE only with NO_ACK or TIMEOUT, TXN
only with an error of FIELD_WRITE. -/
structure Result.Ends (i : Instr) (r : Result) : Prop where
  info : r.code ≠ .noAck → r.code ≠ .timeout → r.ph = false ∧ r.msg = 0#8 ∧ r.byte = 0#8
  txn : r.txn = true → r.code ≠ .ok ∧ ∃ f, i = .fieldWrite f

/-- The state of a command's end: the result word is that of a result the command may end with. -/
def EndsCommand (i : Instr) (t : State) : Prop := ∃ r : Result, t.ports.result = r.word ∧ r.Ends i

section

variable {i : Instr}

/-- A code alone may end any command. -/
theorem plain_ends (c : ResCode) : Result.Ends i { code := c } := ⟨fun _ _ => ⟨rfl, rfl, rfl⟩, nofun⟩

theorem TxnError.ends {lo hi : Nat} {r : Result} {s : State} (h : TxnError lo hi r s) : r.Ends i where
  info := fun hna hto => (h.code.elim hna fun ⟨hc, _⟩ => hto hc).elim
  txn := fun ht => absurd h.txn (by simp [ht])

/-- TXN is written by FIELD_WRITE, on an error (spec/41_register_interface.md R91). -/
theorem Result.Ends.withTxn {r : Result} (h : r.Ends i) {t : Bool}
    (ht : t = true → r.code ≠ .ok ∧ ∃ f, i = .fieldWrite f) : (r.withTxn t).Ends i := ⟨h.info, ht⟩

theorem finish_ends {r : Result} (h : r.Ends i) (s : State) : EndsCommand i (s.finish r) := ⟨r, rfl, h⟩

/-! ## Transactions -/

theorem transferOn_res_ends (a : Addr7) {ds : List Half} (hn : ds.length ≤ 256) (buf : Memory)
    (s : State) : (transferOn a ds buf s).res.Ends i := by
  cases hr : s.bus.ready with
  | false => rw [transferOn_notReady hr]; exact plain_ends _
  | true =>
    cases hv : transferValid s.par ds with
    | false => rw [transferOn_invalid hr a hv]; exact plain_ends _
    | true =>
      obtain hok | herr := transferOn_ends a ds buf s hv hn hr
      · rw [hok]; exact plain_ends _
      · exact herr.ends

theorem regReadOn_res_ends (a : Addr7) (r len : Byte) (s : State) : (regReadOn a r len s).res.Ends i :=
  transferOn_res_ends a (by simp [readDescs]) _ s

theorem regWriteOn_res_ends (a : Addr7) (r len : Byte) (data : Memory) (s : State) :
    (regWriteOn a r len data s).res.Ends i :=
  transferOn_res_ends a (by simp [writeDescs]) _ s

theorem readFieldByte_res_ends (f : FieldId) (s : State) : (readFieldByte f s).res.Ends i :=
  regReadOn_res_ends _ _ _ s

theorem writeFieldBack_res_ends (f : FieldId) (raw : Nat) (old : Byte) (s : State) (b : Byte) :
    (writeFieldBack f raw old s).res.Ends (.fieldWrite b) := by
  have he := regWriteOn_res_ends (i := .fieldWrite b) s.par.chargerAddr (fieldDesc s.par f).reg 1#8
    (Memory.write [] 0 ((fieldDesc s.par f).insert old (BitVec.ofNat 8 raw))) s
  simp only [writeFieldBack]
  split
  case isTrue => exact he
  case isFalse hok => exact he.withTxn fun _ => ⟨by simpa [Result.isOk] using hok, b, rfl⟩

theorem fieldWriteOn_res_ends (f : FieldId) (p : Nat) (s : State) (b : Byte) :
    (fieldWriteOn f p s).res.Ends (.fieldWrite b) := by
  simp only [fieldWriteOn]
  split
  case isTrue => exact writeFieldBack_res_ends ..
  case isFalse => exact (readFieldByte_res_ends f s).withTxn nofun

/-! ## The ends of the commands -/

theorem regReadCommit_ends (len : Byte) {e : TxnEnd} (h : e.res.Ends i) :
    EndsCommand i (regReadCommit len e) := by
  unfold regReadCommit
  split <;> exact finish_ends h _

theorem fieldReadCommit_ends (f : FieldId) {e : ByteRead} (h : e.res.Ends i) :
    EndsCommand i (fieldReadCommit f e) := by
  unfold fieldReadCommit
  split <;> exact finish_ends h _

theorem fieldWriteCommit_ends (f : FieldId) {e : FieldWriteEnd} (h : e.res.Ends i) :
    EndsCommand i (fieldWriteCommit f e) := by
  unfold fieldWriteCommit
  split <;> exact finish_ends h _

theorem probeResult_ends (present : Bool) : (probeResult present).Ends i := by
  cases present <;> exact plain_ends _

theorem bootEnd_ends (now : Word) (e : ByteRead) : EndsCommand i (bootEnd now e) := by
  unfold bootEnd
  split <;> exact finish_ends (plain_ends _) _

/-- The TIMEOUT of a blocked iteration has no info (spec/43_button_debouncer.md R125). -/
theorem blockedResult_ends (p : Params) (now : Word) (b : Btn) : (blockedResult p now b).Ends i := by
  unfold blockedResult
  split_ifs <;> exact plain_ends _

theorem runStep_ends (now : Word) (level : Bool) (e : EventBits) (s : State) :
    EndsCommand i (runStep now level e s) := by
  unfold runStep loopStep
  split_ifs
  · exact finish_ends (plain_ends _) _
  · exact finish_ends (blockedResult_ends _ _ _) _
  · exact finish_ends (plain_ends _) _

/-- Every command, in every state, goes on to a state with its result (spec/60_exceptions.md R127, R132). -/
theorem exec_endsCommand (hi : i.port = .command) (s : State) :
    ∃ t, exec i s = .next t ∧ EndsCommand i t := by
  cases i with
  | configure rate => exact ⟨_, rfl, finish_ends (plain_ends _) _⟩
  | transfer a n =>
    have hn : (descList s.ports.desc n.toNat).length ≤ 256 := by
      rw [descList_length]; exact n.isLt.le
    exact ⟨_, rfl, finish_ends (transferOn_res_ends a hn _ s) _⟩
  | regRead a r len => exact ⟨_, rfl, regReadCommit_ends len (regReadOn_res_ends a r len s)⟩
  | regWrite a r len => exact ⟨_, rfl, finish_ends (regWriteOn_res_ends a r len _ s) _⟩
  | fieldRead f =>
    simp only [exec, execFieldRead]
    split
    · exact ⟨_, rfl, fieldReadCommit_ends _ (readFieldByte_res_ends _ s)⟩
    · exact ⟨_, rfl, finish_ends (plain_ends _) s⟩
  | fieldWrite f =>
    simp only [exec, execFieldWrite]
    split
    · exact ⟨_, rfl, fieldWriteCommit_ends _ (fieldWriteOn_res_ends _ _ s f)⟩
    · exact ⟨_, rfl, finish_ends (plain_ends _) s⟩
  | probe => exact ⟨_, rfl, finish_ends (probeResult_ends _) _⟩
  | ctrlBoot =>
    simp only [exec, execCtrlBoot]
    split
    · exact ⟨_, rfl, bootEnd_ends _ _⟩
    · exact ⟨_, rfl, finish_ends (plain_ends _) s⟩
  | ctrlStep =>
    simp only [exec, execCtrlStep]
    split
    · exact ⟨_, rfl, finish_ends (plain_ends _) s⟩
    · exact ⟨_, rfl, finish_ends (plain_ends _) _⟩
    · exact ⟨_, rfl, runStep_ends _ _ _ _⟩
  | readState sel =>
    simp only [exec, execReadState]
    split
    · exact ⟨_, rfl, finish_ends (plain_ends _) _⟩
    · exact ⟨_, rfl, finish_ends (plain_ends _) s⟩
  | evtButton | evtChgIrq | evtThermal | evtHostAck => cases hi

end

/-- The codes are those of R127. -/
theorem ResCode.code_le (c : ResCode) : c.code ≤ 6 := by cases c <;> decide

theorem ResCode.code_eq_zero {c : ResCode} (h : c.code = 0) : c = .ok := by
  cases c with
  | ok => rfl
  | _ => cases h

/-- Settles O5: each command ends with `finish` of a result whose info fields are only those of a failed
transaction, and the result word has the layout of R56. -/
theorem everyCommandWritesItsResult : Obligations.EveryCommandWritesItsResult := by
  refine ⟨fun c ph txn msg byte => Result.word_fields ⟨c, ph, msg, byte, txn⟩, rfl, fun i s hi => ?_⟩
  obtain ⟨t, ht, r, hr, hinfo, htxn⟩ := exec_endsCommand hi s
  refine ⟨t, _, _, _, _, _, ht, hr ▸ r.word_fields, r.code.code_le, fun hna hto => ?_, fun hx => ?_⟩
  · obtain ⟨hph, hmsg, hbyte⟩ := hinfo (fun h => hna (by rw [h]; rfl)) (fun h => hto (by rw [h]; rfl))
    simp [hph, hmsg, hbyte]
  · obtain ⟨hok, hf⟩ := htxn hx
    exact ⟨fun h => hok (ResCode.code_eq_zero h), hf⟩

end Sys2Proof.Machine
end

section
/-! SUPPORT. The clock wait, one byte, and CONFIGURE: their exact runs, and what they leave of the bus. -/

namespace Sys2Proof.Machine

/-! ## The wait for the clock (spec/40_softbus.md R67) -/

theorem samplesOf_stretchEvents (b : Bool) (k : Nat) :
    samplesOf (stretchEvents b k) = List.replicate k false ++ [b] := by
  induction k with
  | zero => rfl
  | succ k ih => simp only [stretchEvents, samplesOf, ih, List.replicate_succ, List.cons_append]

theorem waitSclHigh_quiet {s : State} (h : s.bus.detecting = true ∨ s.bus.mode ≠ .openDrain) :
    waitSclHigh s = .done () s := if_pos (by simpa using h)

theorem waitSclHigh_openDrain {s : State} (hd : s.bus.detecting = false) (hm : s.bus.mode = .openDrain) :
    waitSclHigh s = pollScl s.par.stretchLimit s := if_neg (by simp [hd, hm])

/-- Settles O21: outside open-drain mode there is no wait; in it the polling loop reads up to its bound. -/
theorem clockStretchWaitIsBounded : Obligations.ClockStretchWaitIsBounded := by
  refine ⟨fun _ h => waitSclHigh_quiet h, fun s k hd hm hk hg => ?_, fun s hd hm hg => ?_⟩
  · rw [← samplesOf_stretchEvents] at hg
    obtain ⟨t, ht, hled⟩ := pollScl_rises k _ hk hg
    have hb := pollScl_bus s.par.stretchLimit s
    rw [ht] at hb
    refine ⟨t, (waitSclHigh_openDrain hd hm).trans ht, ?_, hb, hled.ran.trace⟩
    simpa [samplesOf_stretchEvents] using hled.ran.env
  · rw [List.replicate_succ', ← samplesOf_stretchEvents] at hg
    obtain ⟨t, ht, hled⟩ := pollScl_holds _ hg
    have hb := pollScl_bus s.par.stretchLimit s
    rw [ht] at hb
    refine ⟨t, (waitSclHigh_openDrain hd hm).trans ht, ?_, hb, hled.ran.trace⟩
    simpa [samplesOf_stretchEvents] using hled.ran.env

/-! ## One byte -/

theorem sclRise_shift {s t : State} {u : Unit} (h : sclRise s = .done u t) : t.bus.shift = s.bus.shift := by
  have hb := sclRise_bus s
  rw [h] at hb
  rw [show t.bus = _ from hb]

theorem writeBit_shift {b : Bool} {s t : State} {u : Unit} (h : writeBit b s = .done u t) :
    t.bus.shift = s.bus.shift := by
  obtain ⟨_, v, hw, hv⟩ := Wave.andThen_done h
  cases hv
  have hs : v.bus.shift = _ := sclRise_shift hw
  exact hs

theorem readBit_shift {b : Bool} {s t : State} (h : readBit s = .done b t) :
    t.bus.shift = s.bus.shift := by
  obtain ⟨_, v, hw, hv⟩ := Wave.andThen_done h
  cases hv
  have hs : v.bus.shift = _ := sclRise_shift hw
  exact hs

theorem writeBits_shift {v : Byte} {n : Nat} {s t : State} {u : Unit} (h : writeBits v n s = .done u t) :
    t.bus.shift = s.bus.shift := by
  induction n generalizing s with
  | zero => cases h; rfl
  | succ n ih =>
    obtain ⟨_, w, hw, hv⟩ := Wave.andThen_done h
    exact (ih hv).trans (writeBit_shift (s := setBit n s) hw)

/-- The shift register holds a byte sent to its end (spec/40_softbus.md R73). -/
theorem writeByte_shift {v : Byte} {a : Bool} {s t : State} (h : writeByte v s = .done a t) :
    t.bus.shift = v := by
  obtain ⟨_, u, hu, hr⟩ := Wave.andThen_done h
  obtain ⟨_, x, hx, hf⟩ := Wave.andThen_done hr
  cases hf
  exact (readBit_shift hx).trans (writeBits_shift (s := setShift v s) hu)

/-- The shift register holds a byte received (spec/40_softbus.md R74). -/
theorem readByte_shift {last : Bool} {v : Byte} {s t : State} (h : readByte last s = .done v t) :
    t.bus.shift = v := by
  obtain ⟨w, u, _, hr⟩ := Wave.andThen_done h
  obtain ⟨_, x, hx, hf⟩ := Wave.andThen_done hr
  cases hf
  exact writeBit_shift (s := setShift v u) hx

/-- Settles O22: the exact run of a byte sent and of a byte received. -/
theorem bytesAreSentAndReceivedMsbFirst : Obligations.BytesAreSentAndReceivedMsbFirst := by
  constructor
  · intro od s v ack h hg
    obtain ⟨t, ht, hran⟩ := writeByte_ran v ack h hg
    exact ⟨t, ht, hran.trace, (writeByte_done ht).1, writeByte_shift ht⟩
  · intro od s v last h hg
    obtain ⟨t, ht, hran⟩ := readByte_ran v last h hg
    exact ⟨t, ht, hran.trace, (readByte_done ht).1, readByte_shift ht⟩

/-! ## Push-pull mode -/

/-- A write outside the bus makes no line event. -/
theorem noSclSample_of_same {s t : State} (hb : t.bus = s.bus) (ht : t.trace = s.trace) :
    NoSclSample s t := fun hm => ⟨by rw [hb, hm], [], ht, fun _ => List.not_mem_nil⟩

theorem noSclSample_cmdRel : CmdRel NoSclSample where
  refl := noSclSample_txnRel.refl
  trans := NoSclSample.trans
  transferOn := noSclSample_txnRel.transferOn
  ctl := fun _ _ => noSclSample_of_same rfl rfl
  btn := fun _ _ => noSclSample_of_same rfl rfl
  out := fun _ _ => noSclSample_of_same rfl rfl
  flags := fun _ _ => noSclSample_of_same rfl rfl
  finish := fun _ _ => noSclSample_of_same rfl rfl
  val := fun _ _ => noSclSample_of_same rfl rfl
  data := fun _ _ _ => noSclSample_of_same rfl rfl
  latch := fun _ _ => noSclSample_of_same rfl rfl

/-- Settles O23: a waveform samples the clock only in open-drain mode, and no instruction but CONFIGURE
and CTRL_BOOT changes the mode. -/
theorem pushPullNeverSamplesTheClock : Obligations.PushPullNeverSamplesTheClock :=
  fun _ _ _ hm hc hb ht => (noSclSample_cmdRel.exec hc hb ht hm).2

/-! ## CONFIGURE -/

theorem detectLow_bus (n : Nat) (s : State) : (detectLow n s).2.bus = s.bus := by
  induction n generalizing s with
  | zero => rfl
  | succ n ih =>
    unfold detectLow
    split
    · exact ih _
    · rfl

theorem configureEnd_bus (low : Bool) (s : State) : (configureEnd low s).bus = { s.bus with
    mode := detectedMode low, detecting := false, ready := true, busOwned := false
    sclDrv := (detectedMode low).idle, sdaDrv := (detectedMode low).idle } := by
  cases low <;> rfl

/-- What CONFIGURE writes of the bus (spec/40_softbus.md R75): the lines rest at the idle levels of the
mode it finds. -/
theorem configure_bus_eq (rate : Rate) (s : State) : (configure rate s).bus = { s.bus with
    rate := rate, mode := (configure rate s).bus.mode, detecting := false, ready := true, busOwned := false
    sclDrv := (configure rate s).bus.mode.idle, sdaDrv := (configure rate s).bus.mode.idle } := by
  simp only [configure, configureEnd_bus, detectLow_bus, (configureBegin_eq rate s).2.1]

/-! ## The frame of a command whose ports change -/

/-- Ports written after a bus operation might have been written before it, where they are none the bus
works on. -/
theorem BusOnly.onPorts {s t : State} (h : BusOnly s t) (f : Ports → Ports)
    (hf : ∀ p e, f { p with evt := e } = { f p with evt := e }) :
    BusOnly (s.onPorts f) (t.onPorts f) where
  ctl := h.ctl
  btn := h.btn
  out := h.out
  par := h.par
  ports := by
    simp only [onPorts_ports]
    rw [h.ports, hf]
  moves := h.moves
  flags := h.flags
  calm := fun hc => by
    have hevt : ∀ p, (f p).evt = p.evt := fun p => congrArg (·.evt) (hf p p.evt)
    simp only [Calm, onPorts_ports, onPorts_ev, hevt] at hc ⊢
    exact h.calm hc
  trace := h.trace

/-- Settles O24: the exact run of the detection, with the mode of a ready bus after it. -/
theorem configureDetectsTheDriveMode : Obligations.ConfigureDetectsTheDriveMode := by
  intro s rate k low hk hg
  obtain ⟨henv, htrace, hready⟩ := configure_ran rate hk hg
  obtain ⟨-, -, hmode⟩ := hready
  have hbus := configure_bus_eq rate s
  refine ⟨_, rfl, ?_, htrace, ?_, (busOnly_confRel.configure rate s).onPorts _ fun _ _ => rfl⟩
  · rw [finish_bus, hbus, hmode]
    cases low <;> rfl
  · rw [finish_env, henv]
    cases low <;> simp

end Sys2Proof.Machine
end

section
/-! SUPPORT. A valid TRANSFER as its messages run under the mask, and the events during it and during
CONFIGURE: each line event is one instant of the event port (log 4). -/

namespace Sys2Proof.Machine

/-! ## Instants -/

theorem arriveN_add (mask : Bool) (m n : Nat) (q : List Arrival) (l : Latches) :
    arriveN mask (m + n) q l = arriveN mask n (arriveN mask m q l).1 (arriveN mask m q l).2 := by
  induction m generalizing q l with
  | zero => rw [Nat.zero_add]; rfl
  | succ m ih => rw [Nat.succ_add]; exact ih _ _

/-- Instants under the mask leave the flags alone. -/
theorem arriveN_masked_flag (n : Nat) (q : List Arrival) (l : Latches) :
    (arriveN true n q l).2.flag = l.flag := by
  induction n generalizing q l with
  | zero => rfl
  | succ n ih => exact (ih _ _).trans (arrive_masked_flag q l)

/-- The mask stays, and each line event made was one instant of the event port. -/
structure Delivers (s t : State) : Prop where
  mask : t.bus.irqMask = s.bus.irqMask
  instants : Instants s.bus.irqMask s t t.ports.evt t.ev

theorem Delivers.trans {s t u : State} (h : Delivers s t) (h' : Delivers t u) : Delivers s u := by
  obtain ⟨hm, new, ht, ha⟩ := h
  obtain ⟨hm', new', ht', ha'⟩ := h'
  refine ⟨hm'.trans hm, new' ++ new, by rw [ht', ht, List.append_assoc], ?_⟩
  rw [List.length_append, Nat.add_comm, arriveN_add, ← ha, ← hm]
  exact ha'

/-- A write of the bus that leaves the mask is no instant. -/
theorem onBus_delivers {s : State} {f : Bus → Bus} (h : (f s.bus).irqMask = s.bus.irqMask) :
    Delivers s (s.onBus f) := ⟨h, [], rfl, rfl⟩

theorem drive_delivers (l : Line) (v : Level) (s : State) : Delivers s (drive l v s) :=
  ⟨by cases l <;> rfl, [.drive l v], rfl, rfl⟩

theorem sample_delivers (l : Line) (s : State) : Delivers s (sample l s) :=
  ⟨rfl, [.sample l (sampled s)], rfl, rfl⟩

theorem delivers_confRel : ConfRel Delivers where
  refl := fun _ => ⟨rfl, [], rfl, rfl⟩
  trans := Delivers.trans
  drive := drive_delivers
  wait := fun d _ => ⟨rfl, [.wait d], rfl, rfl⟩
  sampleScl := fun s _ _ _ => sample_delivers .scl s
  sampleSda := fun s _ => sample_delivers .sda s
  inner := fun s _ h => onBus_delivers (h s.bus).irqMask
  sample := fun l s _ => sample_delivers l s
  setup := fun s _ h => onBus_delivers (h s.bus).2.2

/-! ## The two commands -/

/-- A valid TRANSFER on a ready bus runs its messages under the mask, then unmasks, and writes the data
port and the result (spec/40_softbus.md R78, R82). -/
theorem exec_transfer_runs {s : State} {a : Addr7} {n : Byte} {T : Txn} (hr : s.bus.ready = true)
    (hv : ValidTransfer s.par s.ports.desc n.toNat)
    (hT : messages a (descList s.ports.desc n.toNat) 0 0 s.ports.data s.maskIrq = T) :
    exec (.transfer a n) s = .next ((T.st.unmask.setData T.buf).finish T.close.res) := by
  simp only [exec, execTransfer, transferOn_runs hr a ((transferValid_iff _ _ _).mpr hv), hT]
  cases T <;> rfl

/-- Settles O19: every line primitive of a transaction and of CONFIGURE is one instant at an unchanged
mask; a transaction runs under the mask and delivers what is pending at its end. -/
theorem eventsWaitForTheTransfer : Obligations.EventsWaitForTheTransfer := by
  constructor
  · intro s a n hr hv
    obtain ⟨-, new, htrace, hinst⟩ :=
      delivers_confRel.messages a (descList s.ports.desc n.toNat) 0 0 s.ports.data s.maskIrq
    have hflag := (congrArg (·.2.flag) hinst).trans (arriveN_masked_flag _ _ _)
    exact ⟨_, _, exec_transfer_runs hr hv rfl, ⟨new, htrace, hinst⟩, hflag,
      congrArg (EventBits.union · _) hflag, rfl, rfl⟩
  · intro s rate
    obtain ⟨hmask, hinst⟩ := delivers_confRel.configure rate s
    exact ⟨_, rfl, hmask, hinst⟩

end Sys2Proof.Machine
end

section
/-! SUPPORT. TRANSFER: which are run, and what one leaves that completes, is refused or is held. -/

namespace Sys2Proof.Machine

/-! ## A bus that is not ready -/

theorem readFieldByte_notReady {s : State} (h : s.bus.ready = false) (f : FieldId) :
    readFieldByte f s = ⟨.busNotReady, (regBuf (fieldDesc s.par f).reg).read 1, s⟩ := by
  simp only [readFieldByte, regReadOn, transferOn_notReady h]

theorem exec_transfer_notReady {s : State} (h : s.bus.ready = false) (a : Addr7) (n : Byte) :
    exec (.transfer a n) s = .next (s.finish .busNotReady) := by
  simp only [exec, execTransfer, transferOn_notReady h]
  rfl

theorem exec_regRead_notReady {s : State} (h : s.bus.ready = false) (a : Addr7) (r len : Byte) :
    exec (.regRead a r len) s = .next (s.finish .busNotReady) := by
  simp only [exec, execRegRead, regReadOn, transferOn_notReady h]
  rfl

theorem exec_regWrite_notReady {s : State} (h : s.bus.ready = false) (a : Addr7) (r len : Byte) :
    exec (.regWrite a r len) s = .next (s.finish .busNotReady) := by
  simp only [exec, execRegWrite, regWriteOn, transferOn_notReady h]

theorem exec_fieldRead_notReady {s : State} (h : s.bus.ready = false) {f : Byte} (hf : f.toNat ≤ 20) :
    exec (.fieldRead f) s = .next (s.finish .busNotReady) := by
  obtain ⟨id, hid⟩ := fieldOf_some hf
  simp only [exec, execFieldRead, hid, readFieldByte_notReady h]
  rfl

theorem exec_fieldWrite_notReady {s : State} (h : s.bus.ready = false) {f : Byte} (hf : f.toNat ≤ 20) :
    exec (.fieldWrite f) s = .next (s.finish .busNotReady) := by
  obtain ⟨id, hid⟩ := fieldOf_some hf
  simp only [exec, execFieldWrite, hid, fieldWriteOn, readFieldByte_notReady h]
  rfl

/-- The part identifier that was not read counts as absent (spec/41_register_interface.md R92). -/
theorem exec_probe_notReady {s : State} (h : s.bus.ready = false) :
    exec .probe s = .next ((s.setVal 0#32).finish .hardwareAbsent) := by
  simp only [exec, execProbe, readFieldByte_notReady h]
  rfl

/-- Settles O26: a transaction on a bus that is not ready ends before anything else, and with it every
command made of one. -/
theorem unconfiguredBusIsNotReady : Obligations.UnconfiguredBusIsNotReady :=
  fun _ h => ⟨exec_transfer_notReady h, exec_regRead_notReady h, exec_regWrite_notReady h,
    fun _ hf => ⟨exec_fieldRead_notReady h hf, exec_fieldWrite_notReady h hf⟩, exec_probe_notReady h⟩

/-! ## RS of the first descriptor (spec/40_softbus.md R77, R79) -/

theorem descSP_flipRS (d : Half) : descSP (d ^^^ 0x8000#16) = descSP d := by simp [descSP]

theorem descRD_flipRS (d : Half) : descRD (d ^^^ 0x8000#16) = descRD d := by simp [descRD]

theorem descZ_flipRS (d : Half) : descZ (d ^^^ 0x8000#16) = descZ d := by
  simp [descZ, BitVec.extractLsb'_xor]

theorem descLen_flipRS (d : Half) : descLen (d ^^^ 0x8000#16) = descLen d := by
  simp [descLen, BitVec.extractLsb'_xor]

/-- Validity reads RS of a descriptor only after another one. -/
theorem transferValid_flipRS (p : Params) (d : Half) (rest : List Half) :
    transferValid p ((d ^^^ 0x8000#16) :: rest) = transferValid p (d :: rest) := by
  cases rest <;> simp only [transferValid, descsValid, descValid, followValid, descSP_flipRS,
    descRD_flipRS, descZ_flipRS, descLen_flipRS, List.length_cons]

/-- The first message has its address phase whatever its RS. -/
theorem message_flipRS (a : Addr7) (off : Nat) (d : Half) (buf : Memory) (s : State) :
    message a off 0 (d ^^^ 0x8000#16) buf s = message a off 0 d buf s := by
  have hbody : messageBody off 0 (d ^^^ 0x8000#16) = messageBody off 0 d := by
    funext b t
    simp only [messageBody, descRD_flipRS, descLen_flipRS]
  have hstop : messageStop 0 (d ^^^ 0x8000#16) = messageStop 0 d := by
    funext b t
    simp only [messageStop, descSP_flipRS]
  simp only [message, messageAddress, beq_self_eq_true, Bool.true_or, if_true, descRD_flipRS, hbody, hstop]

theorem transferOn_flipRS (a : Addr7) (d : Half) (rest : List Half) (buf : Memory) (s : State) :
    transferOn a ((d ^^^ 0x8000#16) :: rest) buf s = transferOn a (d :: rest) buf s := by
  simp only [transferOn, transferValid_flipRS, messages, message_flipRS, descLen_flipRS]

/-! ## Which transfers are run -/

theorem exec_transfer_invalid {s : State} {n : Byte} (hr : s.bus.ready = true) (a : Addr7)
    (hv : ¬ValidTransfer s.par s.ports.desc n.toNat) :
    exec (.transfer a n) s = .next (s.finish .badSequence) := by
  have hv : transferValid s.par (descList s.ports.desc n.toNat) = false :=
    Bool.eq_false_iff.mpr fun h => hv ((transferValid_iff _ _ _).mp h)
  simp only [exec, execTransfer, transferOn_invalid hr a hv]
  rfl

/-- The messages of a TRANSFER end, if with an error, with one of theirs. -/
theorem transfer_errs (a : Addr7) (c : Cells 16) (n : Byte) (buf : Memory) (s : State) :
    (messages a (descList c n.toNat) 0 0 buf s).Errs 0 n.toNat := by
  have h := messages_errs a (descList c n.toNat) 0 0 buf s
  rw [descList_length, Nat.zero_add] at h
  exact h n.isLt.le

/-- A transaction whose messages are begun does not end with BAD_SEQUENCE. -/
theorem Txn.Errs.close_code {lo hi : Nat} {T : Txn} (h : T.Errs lo hi) :
    T.close.res.code ≠ .badSequence := by
  cases T with
  | go b t => exact nofun
  | stop r b t =>
    obtain hc | ⟨hc, -⟩ := h.code
    · exact hc.symm ▸ nofun
    · exact hc.symm ▸ nofun

theorem Result.code_of_word_eq {r : Result} {w : Word} (h : r.word = w) :
    (w.extractLsb' 0 4).toNat = r.code.code := h ▸ r.word_fields.code

theorem ResCode.code_eq_four {c : ResCode} (h : c.code = 4) : c = .badSequence := by
  cases c with
  | badSequence => rfl
  | _ => cases h

/-- Settles O25: the check of a TRANSFER is R77; what passes it makes a start and ends with no such code. -/
theorem invalidTransferIsBadSequence : Obligations.InvalidTransferIsBadSequence := by
  refine ⟨fun s a n hr hv => exec_transfer_invalid hr a hv, fun s a n hr hv => ?_, ?_⟩
  · refine ⟨_, exec_transfer_runs hr hv rfl, fun hw => ?_, fun ht => ?_⟩
    · have hcode : 4 = _ := Result.code_of_word_eq hw
      exact (transfer_errs a s.ports.desc n s.ports.data s.maskIrq).close_code
        (ResCode.code_eq_four hcode.symm)
    · obtain ⟨rest, hd⟩ := descList_cons (c := s.ports.desc) hv.1.1
      obtain ⟨e, new, htr⟩ := messages_trace a (s.ports.desc.read 0) rest 0 s.ports.data s.maskIrq
      rw [← hd] at htr
      have hlen := congrArg List.length (htr.symm.trans ht)
      simp only [List.length_append, List.length_cons, maskIrq_trace] at hlen
      omega
  · exact fun s a d rest buf => transferOn_flipRS a d rest buf s

end Sys2Proof.Machine
end

section
/-! SUPPORT. What a valid TRANSFER leaves, whatever the peer does, and its exact run where every byte is
acknowledged, where one is refused, and where the clock is held. -/

namespace Sys2Proof.Machine

/-! ## The frame of a register command (BusCommand) -/

/-- A bus operation and then writes of the data port, the value and the result are a register command. -/
theorem busCommand_of_run {s u t : State} (hbus : BusOnly s u) (hsetup : SameSetup s u)
    (hmask : s.bus.irqMask = false → u.bus.irqMask = false) (ht : t = withPortsOf t u) :
    BusCommand (withPortsOf t s) t := by
  have hframe : BusOnly (withPortsOf t s) (withPortsOf t u) := hbus.onPorts _ fun _ _ => rfl
  have hb : t.bus = u.bus := congrArg (·.bus) ht
  obtain ⟨hmode, hready, hrate, hdet⟩ := hsetup
  rw [← ht] at hframe
  exact ⟨hframe, ⟨by rw [hb]; exact hmode, by rw [hb]; exact hready, by rw [hb]; exact hrate,
    by rw [hb]; exact hdet⟩, fun h => by rw [hb]; exact hmask h⟩

/-! ## The end of a TRANSFER -/

section

variable (s : State) (a : Addr7) (n : Byte)

theorem transfer_busOnly : BusOnly s
    (messages a (descList s.ports.desc n.toNat) 0 0 s.ports.data s.maskIrq).st :=
  (maskIrq_busOnly s).trans (busOnly_lineRel.messages a _ 0 0 _ _)

theorem transfer_sameSetup : SameSetup s
    (messages a (descList s.ports.desc n.toNat) 0 0 s.ports.data s.maskIrq).st :=
  (sameSetup_txnRel.mask s).trans (sameSetup_txnRel.messages a _ 0 0 _ _)

variable {s a n}

/-- A TRANSFER leaves all but the bus side, the data port and the result (spec/40_softbus.md R82). -/
theorem transfer_frame {T : Txn} {t : State}
    (hT : messages a (descList s.ports.desc n.toNat) 0 0 s.ports.data s.maskIrq = T)
    (ht : t = (T.st.unmask.setData T.buf).finish T.close.res) :
    BusCommand (withPortsOf t s) t ∧ t.ports.val = s.ports.val := by
  subst hT ht
  have hb := transfer_busOnly s a n
  refine ⟨busCommand_of_run (hb.trans (unmask_busOnly _)) ?_ (fun _ => rfl) rfl, congrArg (·.val) hb.ports⟩
  exact (transfer_sameSetup s a n).trans (sameSetup_txnRel.unmask _)

/-- After the last message the bus is owned iff it has no stop (spec/40_softbus.md R78, R79). -/
theorem transfer_owned {buf b : Memory} {u v : State}
    (hv : ValidTransfer s.par s.ports.desc n.toNat)
    (hm : messages a (descList s.ports.desc n.toNat) 0 0 buf u = .go b v) :
    v.bus.busOwned = true ↔ (s.ports.desc.read (n.toNat - 1)).getLsbD 14 = false := by
  have hne : descList s.ports.desc n.toNat ≠ [] := descList_ne_nil hv.1.1
  have hds := transferValid_descs ((transferValid_iff _ _ _).mpr hv)
  have hl := messages_leaves a _ hds hne 0 0 buf (s := u) (.inl rfl)
  rw [hm, descList_last hne] at hl
  cases hsp : (s.ports.desc.read (n.toNat - 1)).getLsbD 14 with
  | true =>
    have hidle : Idle v := by simpa only [Txn.Leaves, descSP, hsp, if_true] using hl
    simp [hidle.1]
  | false =>
    have hheld : Held v := by
      simpa only [Txn.Leaves, descSP, hsp, Bool.false_eq_true, if_false] using hl
    simp [hheld.1]

/-- After an error the bus is stopped and its lines are idle (spec/40_softbus.md R80, R81). -/
theorem transfer_stopped {b : Memory} {r : Result} {u : State}
    (hv : ValidTransfer s.par s.ports.desc n.toNat) (hd : s.bus.detecting = false)
    (hmode : s.bus.mode ≠ .unknown)
    (hm : messages a (descList s.ports.desc n.toNat) 0 0 s.ports.data s.maskIrq = .stop r b u) :
    u.bus.busOwned = false ∧ u.bus.sclDrv = s.bus.mode.idle ∧ u.bus.sdaDrv = s.bus.mode.idle := by
  have hds := transferValid_descs ((transferValid_iff _ _ _).mpr hv)
  have hl := messages_leaves a _ hds (descList_ne_nil hv.1.1) 0 0 s.ports.data (s := s.maskIrq) (.inl rfl)
  have hs := transfer_sameSetup s a n
  rw [hm] at hl hs
  have hidle : Idle u := hl
  exact ⟨hidle.1, hidle.levels hs hd hmode⟩

end

/-! ## Whatever the peer answers -/

/-- Settles O28: a transaction goes through to OK or stops at an error of one of its messages. -/
theorem transferEndsCleanly : Obligations.TransferEndsCleanly := by
  intro s a n hinv hports hr hv
  have hbuf := (messages_buf a (descList s.ports.desc n.toNat) 0 0 s.maskIrq hports.1).2
  have herrs := transfer_errs a s.ports.desc n s.ports.data s.maskIrq
  have hsetup := transfer_sameSetup s a n
  cases hm : messages a (descList s.ports.desc n.toNat) 0 0 s.ports.data s.maskIrq with
  | go b u =>
    rw [hm] at hbuf
    obtain ⟨hframe, hval⟩ := transfer_frame hm rfl
    exact ⟨_, _, _, _, _, exec_transfer_runs hr hv hm, Result.ok.word_fields, .inl rfl,
      fun _ => transfer_owned (v := u) hv hm, nofun, nofun, hbuf, rfl, hframe, hval⟩
  | stop r b u =>
    rw [hm] at hbuf herrs hsetup
    obtain ⟨-, hmsg, htxn, hcode⟩ := herrs
    obtain ⟨hframe, hval⟩ := transfer_frame hm rfl
    obtain ⟨howned, hscl, hsda⟩ := transfer_stopped hv hinv.detecting (hinv.ready.mp hr) hm
    refine ⟨_, _, _, _, _, exec_transfer_runs hr hv hm, htxn ▸ r.word_fields, ?_, ?_,
      fun _ => ⟨howned, hscl, hsda, hmsg⟩, ?_, hbuf, rfl, hframe, hval⟩
    · exact hcode.elim (fun h => .inr (.inl (by rw [h]; rfl))) fun h => .inr (.inr (by rw [h.1]; rfl))
    · exact fun h => absurd (ResCode.code_eq_zero h) (by obtain h | ⟨h, -⟩ := hcode <;> simp [h])
    · intro h
      obtain hna | ⟨-, hod⟩ := hcode
      · rw [hna] at h; cases h
      · exact hsetup.mode.symm.trans hod

/-! ## Every byte acknowledged -/

/-- A TRANSFER on a course of its parts (spec/40_softbus.md R67, R78 to R81). -/
theorem transfer_follows {od : Bool} {s : State} {a : Addr7} {n : Byte} {peer : Memory}
    {es : List LineEvent} {e : Ending} {got : List Part} (h : BusReady od s) (hp : PortsWf s)
    (hc : Course s.par.stretchLimit od
      (transferParts a (descList s.ports.desc n.toNat) s.ports.data peer) es e got)
    (hg : s.env.gives (samplesOf es)) :
    ∃ b u, u.trace = es.reverse ++ s.trace ∧ Took got peer s.ports.data b ∧
      (e = .ok → messages a (descList s.ports.desc n.toNat) 0 0 s.ports.data s.maskIrq = .go b u) ∧
      (e ≠ .ok →
        messages a (descList s.ports.desc n.toNat) 0 0 s.ports.data s.maskIrq = .stop e.result b u) := by
  obtain ⟨b, u, hled, htook, hok, hstop⟩ :=
    messages_follows peer a (descList s.ports.desc n.toNat) 0 0 (s := s.maskIrq) hp.1 h es e got hc hg
  exact ⟨b, u, hled.ran.trace, htook, hok, fun he => (hstop he).1⟩

/-- Settles O27: the messages run through their frame, or through a course of it, to the end. -/
theorem transferRunsItsFrame : Obligations.TransferRunsItsFrame := by
  constructor
  · intro od s a n peer h hp hv hg
    obtain ⟨b, u, hm, hran, -, hread⟩ := messages_ran peer a (descList s.ports.desc n.toNat) 0 0
      (s := s.maskIrq) hp.1 h hg
    obtain ⟨hframe, hval⟩ := transfer_frame hm rfl
    exact ⟨_, exec_transfer_runs h.1 hv hm, Result.word_plain.1, hran.trace,
      fun i hi => (hread i).trans (if_pos hi),
      fun i hi => (hread i).trans (if_neg (by simp [hi])), transfer_owned (v := u) hv hm, rfl, hframe, hval⟩
  · intro od s a n peer es got h hp hv hc hg
    obtain ⟨b, u, htrace, htook, hok, -⟩ := transfer_follows h hp hc hg
    have hm := hok rfl
    exact ⟨_, exec_transfer_runs h.1 hv hm, Result.word_plain.1, htrace, htook.2, (transfer_frame hm rfl).2⟩

/-! ## A refused byte, a held clock -/

theorem noAck_fields (ph : Bool) {j k : Nat} (hj : j < 256) (hk : k < 256) :
    ResultFields (Result.noAck ph j k).word 1 ph j k false := by
  have h := (Result.noAck ph j k).word_fields
  rwa [show (Result.noAck ph j k).msg.toNat = j from Nat.mod_eq_of_lt hj,
    show (Result.noAck ph j k).byte.toNat = k from Nat.mod_eq_of_lt hk] at h

theorem timeout_fields (ph : Bool) {j k : Nat} (hj : j < 256) (hk : k < 256) :
    ResultFields (Result.timeout ph j k).word 3 ph j k false := by
  have h := (Result.timeout ph j k).word_fields
  rwa [show (Result.timeout ph j k).msg.toNat = j from Nat.mod_eq_of_lt hj,
    show (Result.timeout ph j k).byte.toNat = k from Nat.mod_eq_of_lt hk] at h

/-- `MSG` and `BYTE` of an error of a TRANSFER fit their fields. -/
theorem transfer_ending_fits {limit : Nat} {od : Bool} {a : Addr7} {c : Cells 16} {n : Byte}
    {buf peer : Memory} {es : List LineEvent} {e : Ending} {got : List Part}
    (hc : Course limit od (transferParts a (descList c n.toNat) buf peer) es e got) : e.Fits 256 := by
  refine hc.ending_fits fun y hy => ?_
  obtain ⟨hmsg, hbyte⟩ := partsFrom_placed a _ 0 0 buf peer y hy
  rw [descList_length] at hmsg
  exact ⟨by have := n.isLt; omega, hbyte⟩

/-- A TRANSFER on a course that ends early. -/
theorem transfer_endsEarly {od : Bool} {s : State} {a : Addr7} {n : Byte} {peer : Memory}
    {es : List LineEvent} {e : Ending} {got : List Part} (h : BusReady od s) (hp : PortsWf s)
    (hv : ValidTransfer s.par s.ports.desc n.toNat)
    (hc : Course s.par.stretchLimit od
      (transferParts a (descList s.ports.desc n.toNat) s.ports.data peer) es e got)
    (hg : s.env.gives (samplesOf es)) (he : e ≠ .ok) :
    ∃ t, exec (.transfer a n) s = .next t ∧ t.ports.result = e.result.word ∧
      EndedEarly got peer es s t := by
  obtain ⟨b, u, htrace, htook, -, hstop⟩ := transfer_follows h hp hc hg
  have hm := hstop he
  obtain ⟨howned, hscl, hsda⟩ := transfer_stopped hv h.2.1 h.mode_ne hm
  exact ⟨_, exec_transfer_runs h.1 hv hm, rfl, htrace, howned, hscl, hsda, rfl, htook.2,
    (transfer_frame hm rfl).2⟩

/-! An error in the first message ends the transaction there. -/

theorem messages_stop_of_address {a : Addr7} {d : Half} {rest : List Half} {buf b : Memory} {r : Result}
    {s u : State} (h : addressPhase a (descRD d) 0 buf (setMsg 0 s) = .stop r b u) :
    messages a (d :: rest) 0 0 buf s = .stop r b u := by
  simp only [messages, message, messageAddress, beq_self_eq_true, Bool.true_or, if_true, h, Txn.andThen]

theorem messages_stop_of_write {a : Addr7} {d : Half} {rest : List Half} {buf b c : Memory} {r : Result}
    {s t u : State} (hd : descRD d = false) (ha : addressPhase a false 0 buf (setMsg 0 s) = .go b t)
    (hw : writePhase b 0 0 (descLen d) 0 t = .stop r c u) :
    messages a (d :: rest) 0 0 buf s = .stop r c u := by
  simp only [messages, message, messageAddress, messageBody, beq_self_eq_true, Bool.true_or, if_true, hd,
    ha, Txn.andThen, Bool.false_eq_true, if_false, hw]

/-- A refused write frame is its address phase and then its data. -/
theorem writeRefused_phases (a : Addr7) (data : Memory) (k : Nat) : writeRefused a data k =
    [.start, .send (addrByte a false) true] ++
      (sendBytes data (0 + 0) k ++ [.send (data.read (0 + 0 + k)) false, .stop]) := by
  simp [writeRefused, addrFrame, addrByte_eq]

/-- The first message, a write, whose byte `k` is refused. -/
theorem messages_refused_write {od : Bool} {a : Addr7} {d : Half} {rest : List Half} {buf : Memory}
    {s : State} {k : Nat} (h : BusReady od s) (hd : descRD d = false) (hk : k < descLen d)
    (hg : s.env.gives (frameAnswers od (writeRefused a buf k))) :
    ∃ u, messages a (d :: rest) 0 0 buf s = .stop (.noAck true 0 k) buf u ∧
      u.trace = (frameEvents od (writeRefused a buf k)).reverse ++ s.trace := by
  rw [writeRefused_phases, frameAnswers_append, Env.gives_append] at hg
  have h0 := setMsg_ran 0 s
  obtain ⟨t, ht, hr⟩ := addressPhase_ran a false 0 buf (h.ran h0) hg.1
  obtain ⟨u, hu, hs, -⟩ := writePhase_refused buf 0 0 k (descLen d) 0 hk ((h.ran h0).ran hr)
    (by rw [hr.env]; exact hg.2)
  rw [Nat.zero_add] at hu
  refine ⟨u, messages_stop_of_write hd ht hu, ?_⟩
  rw [writeRefused_phases, frameEvents_append]
  exact ((h0.trans hr).trans hs).trace

/-- The address byte of the first message, in the words of spec/30_encoding.md R57. -/
theorem addressRefused_eq (a : Addr7) (d : Half) : addressRefused a (d.extractLsb' 13 1) =
    [.start, .send (addrByte a (descRD d)) false, .stop] := by
  have h : BitVec.ofBool (descRD d) = d.extractLsb' 13 1 := by
    apply BitVec.eq_of_getLsbD_eq
    intro i hi
    obtain rfl : i = 0 := by omega
    simp [descRD]
  simp [addressRefused, addrFrame, addrByte_eq, h]

/-- The first message whose address byte is refused. -/
theorem messages_refused_address {od : Bool} {a : Addr7} {d : Half} {rest : List Half} {buf : Memory}
    {s : State} (h : BusReady od s)
    (hg : s.env.gives (frameAnswers od (addressRefused a (d.extractLsb' 13 1)))) :
    ∃ u, messages a (d :: rest) 0 0 buf s = .stop (.noAck false 0 0) buf u ∧
      u.trace = (frameEvents od (addressRefused a (d.extractLsb' 13 1))).reverse ++ s.trace := by
  rw [addressRefused_eq] at hg ⊢
  have h0 := setMsg_ran 0 s
  obtain ⟨u, hu, hs, -⟩ := addressPhase_refused a (descRD d) 0 buf (h.ran h0) hg
  exact ⟨u, messages_stop_of_address hu, (h0.trans hs).trace⟩

/-- Settles O29: the refused byte ends its phase, and with it the transaction, after its stop. -/
theorem refusedByteStopsTheTransfer : Obligations.RefusedByteStopsTheTransfer := by
  refine ⟨fun od s a k h hv hd hk hg => ?_, fun od s a n rw h hv hrw hg => ?_, ?_⟩
  · obtain ⟨u, hm, htrace⟩ := messages_refused_write (rest := []) (s := s.maskIrq) h hd hk hg
    obtain ⟨howned, hscl, hsda⟩ := transfer_stopped (n := 1#8) hv h.2.1 h.mode_ne hm
    have hk256 : k < 256 := hk.trans (BitVec.isLt _)
    exact ⟨_, exec_transfer_runs (n := 1#8) h.1 hv hm, noAck_fields true (by decide) hk256, htrace, howned,
      hscl, hsda, rfl⟩
  · subst hrw
    obtain ⟨rest, hds⟩ := descList_cons (c := s.ports.desc) hv.1.1
    obtain ⟨u, hm, htrace⟩ := messages_refused_address (rest := rest) (buf := s.ports.data)
      (s := s.maskIrq) h hg
    rw [← hds] at hm
    obtain ⟨howned, hscl, hsda⟩ := transfer_stopped hv h.2.1 h.mode_ne hm
    exact ⟨_, exec_transfer_runs h.1 hv hm, noAck_fields false (by decide) (by decide), htrace, howned,
      hscl, hsda, rfl⟩
  · intro od s a n peer es ph msg byte got h hp hv hc hg
    obtain ⟨t, ht, hres, hend⟩ := transfer_endsEarly h hp hv hc hg nofun
    obtain ⟨hmsg, hbyte⟩ := transfer_ending_fits hc
    exact ⟨t, ht, hres ▸ noAck_fields ph hmsg hbyte, hend⟩

/-- The first START with the clock held in it (spec/40_softbus.md R69, R81). -/
theorem messages_held_start {a : Addr7} {d : Half} {rest : List Half} {buf : Memory} {s : State}
    (h : BusReady true s) (hg : s.env.gives (List.replicate (s.par.stretchLimit + 1) false)) :
    ∃ u, messages a (d :: rest) 0 0 buf s = .stop (.timeout false 0 0) buf u ∧
      u.trace = (heldStartEvents s.par.stretchLimit).reverse ++ s.trace := by
  have h0 : Led [] s (setMsg 0 s) := onBus_led ⟨rfl, rfl, rfl, rfl, rfl, rfl, rfl⟩
  have hheld : Stretched s.par.stretchLimit (Sym.start.events true) false
      ([.drive .sda .float, .wait .half, .drive .scl .float] ++ stretchEvents false s.par.stretchLimit) :=
    .hold _ (es := [.drive .sda .float, .wait .half, .drive .scl .float]) _ (by simp)
  rw [List.replicate_succ', ← samplesOf_stretchEvents] at hg
  obtain ⟨t, hled, ht⟩ := start_follows (h.led h0) false _ hheld hg
  have ht : start (setMsg 0 s) = .timeout t := ht
  refine ⟨releaseBus t, messages_stop_of_address (by simp only [addressPhase, ht]; rfl), ?_⟩
  have hall := (h0.trans hled).trans (releaseBus_led ((h.led h0).led hled))
  rw [hall.ran.trace]
  simp [heldStartEvents, releaseEvents, hiLevel]

/-- Settles O30: a held clock ends the waveform, and with it the transaction, in which both lines are
released. -/
theorem heldClockAbortsTheTransfer : Obligations.HeldClockAbortsTheTransfer := by
  constructor
  · intro s a n h hv hg
    obtain ⟨rest, hds⟩ := descList_cons (c := s.ports.desc) hv.1.1
    obtain ⟨u, hm, htrace⟩ := messages_held_start (a := a) (d := s.ports.desc.read 0) (rest := rest)
      (buf := s.ports.data) (s := s.maskIrq) h hg
    rw [← hds] at hm
    obtain ⟨howned, hscl, hsda⟩ := transfer_stopped hv h.2.1 h.mode_ne hm
    have hmode : s.bus.mode = .openDrain := h.2.2
    rw [hmode] at hscl hsda
    exact ⟨_, exec_transfer_runs h.1 hv hm, timeout_fields false (by decide) (by decide), htrace, howned,
      hscl, hsda, rfl⟩
  · intro od s a n peer es ph msg byte got h hp hv hc hg
    obtain ⟨t, ht, hres, hend⟩ := transfer_endsEarly h hp hv hc hg nofun
    obtain ⟨hmsg, hbyte⟩ := transfer_ending_fits hc
    exact ⟨t, ht, hres ▸ timeout_fields ph hmsg hbyte, hend⟩

end Sys2Proof.Machine
end

section
/-! SUPPORT. The affine transform of a field and its clamped inverse (spec/41_register_interface.md R87,
R89). -/

namespace Sys2Proof

variable {d : FieldDesc}

theorem FieldDesc.encodePhys_below {p : Nat} (h : p < d.offset) : d.encodePhys p = 0 := if_pos h

theorem FieldDesc.encodePhys_above {p : Nat} (h : d.offset ≤ p) :
    d.encodePhys p = min ((p - d.offset) / d.step) d.top := if_neg (by omega)

/-- The inverse rounds down. -/
theorem FieldDesc.decodeRaw_encodePhys_le {p : Nat} (h : d.offset ≤ p) :
    d.decodeRaw (d.encodePhys p) ≤ p := by
  have hclamp : d.encodePhys p * d.step ≤ (p - d.offset) / d.step * d.step := by
    rw [FieldDesc.encodePhys_above h]
    exact Nat.mul_le_mul_right _ (Nat.min_le_left _ _)
  have hround : (p - d.offset) / d.step * d.step ≤ p - d.offset := Nat.div_mul_le_self _ _
  unfold FieldDesc.decodeRaw
  omega

/-- The inverse of a physical value that a raw value has is that raw value. -/
theorem FieldDesc.encodePhys_decodeRaw {raw : Nat} (hs : 1 ≤ d.step) (hr : raw ≤ d.top) :
    d.encodePhys (d.decodeRaw raw) = raw := by
  have hoff : d.offset ≤ d.decodeRaw raw := Nat.le_add_left _ _
  rw [FieldDesc.encodePhys_above hoff, FieldDesc.decodeRaw, Nat.add_sub_cancel, Nat.mul_div_cancel _ hs,
    Nat.min_eq_left hr]

/-- Settles O34: the inverse's two branches, that it rounds down, and that it undoes the transform. -/
theorem affineTransformLaws : Obligations.AffineTransformLaws :=
  ⟨fun _ _ => rfl, fun _ _ => FieldDesc.encodePhys_below, fun _ _ => FieldDesc.encodePhys_above,
    fun _ _ _ h _ => FieldDesc.decodeRaw_encodePhys_le h, fun _ _ => FieldDesc.encodePhys_decodeRaw⟩

/-- Settles O35: a place scaled by the source's step and offset, at the width of the worked examples. -/
theorem sourceScalesAreFixed : Obligations.SourceScalesAreFixed := by
  refine ⟨fun _ _ => ⟨rfl, rfl⟩, fun t hcurrent hvoltage => ?_⟩
  simp only [FieldTable.get, FieldPlace.scaled, FieldDesc.encodePhys, FieldDesc.top, hcurrent, hvoltage]
  decide

end Sys2Proof
end

section
/-! SUPPORT. The register commands around their transactions: what they leave alone whatever the peer
answers, and the exact run of REG_READ and REG_WRITE (spec/41_register_interface.md R84 to R86). -/

namespace Sys2Proof.Machine

/-! ## Frames -/

theorem BusOnly.val {s t : State} (h : BusOnly s t) : t.ports.val = s.ports.val := congrArg (·.val) h.ports

theorem BusOnly.data {s t : State} (h : BusOnly s t) : t.ports.data = s.ports.data :=
  congrArg (·.data) h.ports

theorem BusCommand.trans {s t u : State} (h : BusCommand s t) (h' : BusCommand t u) : BusCommand s u :=
  ⟨h.bus.trans h'.bus, h.setup.trans h'.setup, fun hm => h'.mask (h.mask hm)⟩

/-- A write of the ports after a bus operation might have been made before it. -/
theorem BusCommand.onPorts {s t : State} (h : BusCommand s t) (f : Ports → Ports)
    (hf : ∀ p e, f { p with evt := e } = { f p with evt := e }) :
    BusCommand (s.onPorts f) (t.onPorts f) :=
  ⟨h.bus.onPorts f hf, ⟨h.setup.mode, h.setup.ready, h.setup.rate, h.setup.detecting⟩, h.mask⟩

/-- Writes of the data port, the value and the result after a bus operation. -/
theorem BusCommand.withPorts {s u t : State} (h : BusCommand s u) (ht : t = withPortsOf t u) :
    BusCommand (withPortsOf t s) t := busCommand_of_run h.bus h.setup h.mask ht

theorem transferOn_busCommand (a : Addr7) (ds : List Half) (buf : Memory) (s : State) :
    BusCommand s (transferOn a ds buf s).st :=
  ⟨busOnly_txnRel.transferOn a ds buf s, sameSetup_txnRel.transferOn a ds buf s, transferOn_mask a ds buf s⟩

theorem regReadOn_busCommand (a : Addr7) (r len : Byte) (s : State) :
    BusCommand s (regReadOn a r len s).st := transferOn_busCommand _ _ _ s

theorem regWriteOn_busCommand (a : Addr7) (r len : Byte) (data : Memory) (s : State) :
    BusCommand s (regWriteOn a r len data s).st := transferOn_busCommand _ _ _ s

theorem readFieldByte_busCommand (f : FieldId) (s : State) : BusCommand s (readFieldByte f s).st :=
  regReadOn_busCommand _ _ _ s

theorem fieldWriteOn_busCommand (f : FieldId) (p : Nat) (s : State) :
    BusCommand s (fieldWriteOn f p s).st := by
  have hr := readFieldByte_busCommand f s
  unfold fieldWriteOn
  dsimp only
  split
  · exact hr.trans (regWriteOn_busCommand _ _ _ _ _)
  · exact hr

/-! ## Results -/

section

variable {i : Instr} {r : Result}

/-- A command that ends OK has no info in its result (spec/30_encoding.md R56). -/
theorem Result.Ends.eq_ok (h : r.Ends i) (hk : r.isOk = true) : r = .ok := by
  have hcode : r.code = .ok := eq_of_beq hk
  obtain ⟨hph, hmsg, hbyte⟩ := h.info (by simp [hcode]) (by simp [hcode])
  have htxn : r.txn = false := eq_false_of_ne_true fun ht => (h.txn ht).1 hcode
  obtain ⟨code, ph, msg, byte, txn⟩ := r
  subst hcode hph hmsg hbyte htxn
  rfl

theorem Result.Ends.word_of_isOk (h : r.Ends i) (hk : r.isOk = true) : r.word = 0#32 := by
  rw [h.eq_ok hk, Result.ok_word]

end

/-! ## The ends of the commands -/

theorem regReadCommit_ok {len : Byte} {e : TxnEnd} (h : e.res.isOk = true) : regReadCommit len e =
    (e.st.setData (Memory.copy e.buf 1 e.st.ports.data 0 len.toNat)).finish e.res := if_pos h

theorem regReadCommit_err {len : Byte} {e : TxnEnd} (h : ¬e.res.isOk = true) :
    regReadCommit len e = e.st.finish e.res := if_neg h

theorem regReadCommit_withPorts (len : Byte) (e : TxnEnd) :
    regReadCommit len e = withPortsOf (regReadCommit len e) e.st := by
  unfold regReadCommit
  split <;> rfl

theorem fieldReadCommit_ok {f : FieldId} {e : ByteRead} (h : e.res.isOk = true) : fieldReadCommit f e =
    (e.st.setVal ((fieldDesc e.st.par f).physWord (rawOf e.st.par f e.byte).toNat)).finish e.res := if_pos h

theorem fieldWriteCommit_ok {f : FieldId} {e : FieldWriteEnd} (h : e.res.isOk = true) :
    fieldWriteCommit f e = (e.st.setVal ((fieldDesc e.st.par f).physWord e.raw)).finish e.res := if_pos h

theorem fieldWriteCommit_err {f : FieldId} {e : FieldWriteEnd} (h : ¬e.res.isOk = true) :
    fieldWriteCommit f e = e.st.finish e.res := if_neg h

/-! ## What each command leaves alone -/

/-- REG_READ writes the data port below `LEN`, and only if it ends OK (spec/41_register_interface.md R85). -/
theorem exec_regRead_frame {s : State} (hp : PortsWf s) (a : Addr7) (r len : Byte) :
    ∃ t, exec (.regRead a r len) s = .next t ∧ BusCommand (withPortsOf t s) t ∧
      t.ports.val = s.ports.val ∧ (t.ports.result ≠ 0#32 → t.ports.data = s.ports.data) ∧
      ∀ i, len.toNat ≤ i → t.ports.data.read i = s.ports.data.read i := by
  have hbus := regReadOn_busCommand a r len s
  have hdata := hbus.bus.data
  refine ⟨_, rfl, hbus.withPorts (regReadCommit_withPorts len _), ?_⟩
  by_cases hk : (regReadOn a r len s).res.isOk = true
  · rw [regReadCommit_ok hk]
    have hres := (regReadOn_res_ends (i := .regRead a r len) a r len s).word_of_isOk hk
    refine ⟨hbus.bus.val, fun hne => absurd hres hne, fun i hi => ?_⟩
    rw [finish_ports, setData_ports, hdata, Memory.read_copy _ _ _ _ hp.1, if_neg (by omega)]
  · rw [regReadCommit_err hk]
    exact ⟨hbus.bus.val, fun _ => hdata, fun i _ => congrArg (Memory.read · i) hdata⟩

theorem exec_regWrite_frame (s : State) (a : Addr7) (r len : Byte) :
    ∃ t, exec (.regWrite a r len) s = .next t ∧ BusCommand (withPortsOf t s) t ∧
      t.ports.val = s.ports.val ∧ t.ports.data = s.ports.data :=
  have hbus := regWriteOn_busCommand a r len s.ports.data s
  ⟨_, rfl, hbus.withPorts rfl, hbus.bus.val, hbus.bus.data⟩

/-- A bus operation that ends a field command: the value port is written, and only if it ended OK
(spec/41_register_interface.md R90, R91). -/
theorem fieldCommand_frame {i : Instr} {r : Result} {v : Word} {s u t : State} (hbus : BusCommand s u)
    (hends : r.Ends i) (ht : t = if r.isOk then (u.setVal v).finish r else u.finish r) :
    BusCommand (withPortsOf t s) t ∧ t.ports.data = s.ports.data ∧
      (t.ports.result ≠ 0#32 → t.ports.val = s.ports.val) := by
  subst ht
  split
  · rename_i hk
    exact ⟨hbus.withPorts rfl, hbus.bus.data, fun hne => absurd (hends.word_of_isOk hk) hne⟩
  · exact ⟨hbus.withPorts rfl, hbus.bus.data, fun _ => hbus.bus.val⟩

theorem exec_fieldRead_frame (s : State) {f : Byte} {id : FieldId} (hid : fieldOf f = some id) :
    ∃ t, exec (.fieldRead f) s = .next t ∧ BusCommand (withPortsOf t s) t ∧
      t.ports.data = s.ports.data ∧ (t.ports.result ≠ 0#32 → t.ports.val = s.ports.val) := by
  simp only [exec, execFieldRead, hid]
  exact ⟨_, rfl, fieldCommand_frame (readFieldByte_busCommand id s)
    (readFieldByte_res_ends (i := .fieldRead f) id s) rfl⟩

theorem exec_fieldWrite_frame (s : State) {f : Byte} {id : FieldId} (hid : fieldOf f = some id) :
    ∃ t, exec (.fieldWrite f) s = .next t ∧ BusCommand (withPortsOf t s) t ∧
      t.ports.data = s.ports.data ∧ (t.ports.result ≠ 0#32 → t.ports.val = s.ports.val) := by
  simp only [exec, execFieldWrite, hid]
  exact ⟨_, rfl, fieldCommand_frame (fieldWriteOn_busCommand id _ s) (fieldWriteOn_res_ends id _ s f) rfl⟩

theorem exec_probe_frame (s : State) :
    ∃ t, exec .probe s = .next t ∧ BusCommand (withPortsOf t s) t ∧ t.ports.data = s.ports.data :=
  have hbus := readFieldByte_busCommand .partId s
  ⟨_, rfl, hbus.withPorts rfl, hbus.bus.data⟩

/-! ## Operands out of range -/

/-- A register read is no valid transfer outside `1 ≤ len ≤ MAX_LEN`, whatever the parameters. -/
theorem readDescs_invalid {p : Params} {len : Byte} (h : len.toNat = 0 ∨ p.maxLen < len.toNat) :
    transferValid p (readDescs len) = false := by
  have hbad : descValid p.maxLen (mkDesc true true true len) = false := by
    obtain h | h := h <;> simp [descValid, h]
  simp [transferValid, readDescs, descsValid, hbad]

/-- A register write is no valid transfer above `MAX_LEN`, whatever the parameters. -/
theorem writeDescs_invalid {p : Params} {len : Byte} (h : p.maxLen < len.toNat) :
    transferValid p (writeDescs len) = false := by
  have hbad : descValid p.maxLen (mkDesc false true false len) = false := by simp [descValid, h]
  simp [transferValid, writeDescs, descsValid, hbad]

section

variable {s : State} {len f : Byte}

theorem exec_regRead_badLength (hr : s.bus.ready = true) (a : Addr7) (r : Byte)
    (h : len.toNat = 0 ∨ s.par.maxLen < len.toNat) :
    exec (.regRead a r len) s = .next (s.finish .badSequence) := by
  simp only [exec, execRegRead, regReadOn, transferOn_invalid hr a (readDescs_invalid h)]
  rfl

theorem exec_regWrite_badLength (hr : s.bus.ready = true) (a : Addr7) (r : Byte)
    (h : s.par.maxLen < len.toNat) :
    exec (.regWrite a r len) s = .next (s.finish .badSequence) := by
  simp only [exec, execRegWrite, regWriteOn, transferOn_invalid hr a (writeDescs_invalid h)]

theorem exec_fieldRead_illegal (h : 20 < f.toNat) :
    exec (.fieldRead f) s = .next (s.finish .illegalCommand) := by
  simp only [exec, execFieldRead, fieldOf_none h]

theorem exec_fieldWrite_illegal (h : 20 < f.toNat) :
    exec (.fieldWrite f) s = .next (s.finish .illegalCommand) := by
  simp only [exec, execFieldWrite, fieldOf_none h]

end

/-- Settles O33: each command is a bus operation and then the writes of its end, and an operand out of
range leads to no bus operation. -/
theorem registerCommandFrames : Obligations.RegisterCommandFrames := by
  refine ⟨fun _ a r len hp => exec_regRead_frame hp a r len, exec_regWrite_frame,
    fun _ a r _ hr => ⟨exec_regRead_badLength hr a r, exec_regWrite_badLength hr a r⟩, fun s f hf => ?_,
    fun _ _ hf => ⟨exec_fieldRead_illegal hf, exec_fieldWrite_illegal hf⟩, exec_probe_frame⟩
  obtain ⟨id, hid⟩ := fieldOf_some hf
  exact ⟨exec_fieldRead_frame s hid, exec_fieldWrite_frame s hid⟩

/-! ## The exact runs of REG_READ and REG_WRITE -/

/-- Settles O31: the transaction's run, and its bytes moved to the data port. -/
theorem regReadFillsTheDataPort : Obligations.RegReadFillsTheDataPort := by
  intro od s a r len peer h hp hw h1 h2 hg
  obtain ⟨b, u, he, hran, howned, -, -, hread⟩ := regReadOn_ran a r len peer h hw h1 h2 hg
  have hbus := regReadOn_busCommand a r len s
  rw [he] at hbus
  have hdata (i : Nat) : (Memory.copy b 1 u.ports.data 0 len.toNat).read i =
      if i < len.toNat then b.read (1 + i) else s.ports.data.read i := by
    rw [hbus.bus.data, Memory.read_copy _ _ _ _ hp.1]
    simp
  refine ⟨(u.setData (Memory.copy b 1 u.ports.data 0 len.toNat)).finish .ok, ?_, Result.ok_word, hran.trace,
    fun i hi => ?_, fun i hi => ?_, howned, hbus.bus.val, hbus.withPorts rfl⟩
  · simp only [exec, execRegRead, he]
    rfl
  · exact ((hdata i).trans (if_pos hi)).trans (hread i hi)
  · exact (hdata i).trans (if_neg (by omega))

/-- Settles O32: the run of the whole transaction, and of one refused at a data byte. -/
theorem regWriteSendsTheDataPort : Obligations.RegWriteSendsTheDataPort := by
  constructor
  · intro od s a r len h hw h2 hg
    obtain ⟨b, u, he, hran, howned, -⟩ := regWriteOn_ran a r len s.ports.data h hw h2 hg
    have hbus := regWriteOn_busCommand a r len s.ports.data s
    rw [he] at hbus
    exact ⟨u.finish .ok, by simp only [exec, execRegWrite, he], hran.trace, howned,
      hbus.onPorts _ fun _ _ => rfl⟩
  · intro od s a r len k h hw hk h2 hg
    obtain ⟨b, u, he, hran, howned⟩ := regWriteOn_refused a r len s.ports.data h hw hk h2 hg
    exact ⟨u.finish (.noAck true 1 k), by simp only [exec, execRegWrite, he],
      noAck_fields true (by decide) (hk.trans len.isLt), hran.trace, howned⟩

end Sys2Proof.Machine
end

section
/-! SUPPORT. The field commands and PROBE around the reads and writes of the charging IC's registers
(spec/41_register_interface.md R90 to R92). -/

namespace Sys2Proof.Machine

/-! ## The ends of the field commands -/

section

variable {f : Byte} {id : FieldId} {s u : State} {res : Result} {b : Byte} {raw : Nat}

theorem exec_fieldRead_ok (hid : fieldOf f = some id) (he : readFieldByte id s = ⟨res, b, u⟩)
    (hk : res.isOk = true) : exec (.fieldRead f) s =
      .next ((u.setVal ((fieldDesc u.par id).physWord (rawOf u.par id b).toNat)).finish res) := by
  simp only [exec, execFieldRead, hid, he]
  exact congrArg _ (fieldReadCommit_ok hk)

theorem exec_fieldWrite_ok (hid : fieldOf f = some id)
    (he : fieldWriteOn id s.ports.val.toNat s = ⟨res, raw, u⟩) (hk : res.isOk = true) :
    exec (.fieldWrite f) s = .next ((u.setVal ((fieldDesc u.par id).physWord raw)).finish res) := by
  simp only [exec, execFieldWrite, hid, he]
  exact congrArg _ (fieldWriteCommit_ok hk)

theorem exec_fieldWrite_err (hid : fieldOf f = some id)
    (he : fieldWriteOn id s.ports.val.toNat s = ⟨res, raw, u⟩) (hk : ¬res.isOk = true) :
    exec (.fieldWrite f) s = .next (u.finish res) := by
  simp only [exec, execFieldWrite, hid, he]
  exact congrArg _ (fieldWriteCommit_err hk)

end

/-! ## The two transactions of a field write -/

section

variable {f : FieldId} {phys : Nat} {s u : State} {res : Result} {old : Byte}

/-- A field write ends where its read fails (spec/41_register_interface.md R91). -/
theorem fieldWriteOn_readFails (he : readFieldByte f s = ⟨res, old, u⟩) (hk : ¬res.isOk = true) :
    fieldWriteOn f phys s = ⟨res, (fieldDesc s.par f).encodePhys phys, u⟩ := by
  have hends := readFieldByte_res_ends (i := .probe) f s
  rw [he] at hends
  have htxn : res.withTxn false = res := by
    have : res.txn = false := eq_false_of_ne_true fun ht => nomatch (hends.txn ht).2
    rw [Result.withTxn, ← this]
  simp only [fieldWriteOn, he, hk, htxn]
  rfl

/-- After its read a field write is a register write of the merged byte; an error of it has TXN 1
(spec/41_register_interface.md R91). -/
theorem fieldWriteOn_writes {new : Byte} {W : TxnEnd} (hw : s.par.wf = true)
    (he : readFieldByte f s = ⟨res, old, u⟩) (hk : res.isOk = true) (hm : FieldMerged s.par f phys old new)
    (hW : regWriteOn s.par.chargerAddr (s.par.fields.get f).reg 1#8 (Memory.write [] 0 new) u = W) :
    fieldWriteOn f phys s = ⟨if W.res.isOk then W.res else W.res.withTxn true,
      (fieldDesc s.par f).encodePhys phys, W.st⟩ := by
  have hpar : u.par = s.par := by
    have := readFieldByte_par f s
    rwa [he] at this
  have hins := insert_merged (Params.wf_field hw f) (encodePhys_le _ phys) hm
  subst hW
  simp only [fieldWriteOn, he, hk, if_true, writeFieldBack, hpar, fieldDesc, hins]

end

/-! ## Exact runs -/

/-- Settles O36: the run of the field's register read, and the value of the field's bits. -/
theorem fieldReadReturnsThePhysicalValue : Obligations.FieldReadReturnsThePhysicalValue := by
  intro od s f id b h hw hid hg
  obtain ⟨u, he, hran, howned, -⟩ := readFieldByte_ran id b h hw hg
  have hbus := readFieldByte_busCommand id s
  rw [he] at hbus
  have hwf := Params.wf_field hw id
  refine ⟨_, exec_fieldRead_ok hid he rfl, Result.ok_word, ?_, hran.trace, howned, hbus.bus.data,
    hbus.withPorts rfl⟩
  have hraw : (rawOf s.par id b).toNat = rawBits (s.par.fields.get id) b := extract_toNat hwf b
  rw [hbus.bus.par, hraw]
  exact physWord_toNat hwf (rawBits_le _ b)

/-- Settles O37: the runs of the two transactions, and the value of the raw bits written. -/
theorem fieldWriteReplacesOnlyTheField : Obligations.FieldWriteReplacesOnlyTheField := by
  intro od s f id old new raw h hw hid hraw hm hg
  subst hraw
  obtain ⟨u, he, hran, howned, -⟩ := fieldWriteOn_ran id s.ports.val.toNat h hw hm hg
  have hbus := fieldWriteOn_busCommand id s.ports.val.toNat s
  rw [he] at hbus
  refine ⟨_, exec_fieldWrite_ok hid he rfl, Result.ok_word, ?_, hran.trace, howned, hbus.bus.data,
    hbus.withPorts rfl⟩
  rw [hbus.bus.par]
  exact physWord_toNat (Params.wf_field hw id) (encodePhys_le _ _)

/-! ## FIELD_WRITE against REG_READ and REG_WRITE -/

/-- REG_WRITE on a state with other contents in its ports sends those, and leaves what it would have left
with them. -/
theorem exec_regWrite_otherPorts (d : Cells 16) (m : Memory) (v x : Word) (a : Addr7) (r len : Byte)
    (s : State) : exec (.regWrite a r len) (otherPorts d m v x s) =
      .next (otherPorts d m v (regWriteOn a r len m s).res.word (regWriteOn a r len m s).st) := by
  have hdata : (otherPorts d m v x s).ports.data = m := rfl
  simp only [exec, execRegWrite, hdata, regWriteOn, (otherPorts_unseen d m v x).transferOn]
  rfl

/-- The result word of an error, without and with TXN. -/
theorem Result.Ends.error_fields {i : Instr} {r : Result} (h : r.Ends i) (hi : ∀ f, i ≠ .fieldWrite f)
    (hk : ¬r.isOk = true) : ∃ code ph msg byte, code ≠ 0 ∧ ResultFields r.word code ph msg byte false ∧
      ResultFields (r.withTxn true).word code ph msg byte true := by
  have hcode : r.code.code ≠ 0 := fun h0 => hk (beq_iff_eq.mpr (ResCode.code_eq_zero h0))
  have htxn : r.txn = false := eq_false_of_ne_true fun ht =>
    have ⟨f, hf⟩ := (h.txn ht).2
    hi f hf
  exact ⟨_, _, _, _, hcode, htxn ▸ r.word_fields, (r.withTxn true).word_fields⟩

/-- A REG_READ of a field's register that fails leaves what the field's byte read leaves. -/
theorem ReadsRegister.failed {f : FieldId} {s r : State} (h : ReadsRegister (s.par.fields.get f).reg s r)
    (hk : ¬(readFieldByte f s).res.isOk = true) :
    r = (readFieldByte f s).st.finish (readFieldByte f s).res :=
  (Host.Outcome.next.inj h).symm.trans (regReadCommit_err hk)

/-- A REG_READ of a field's register leaves what the field's byte read leaves but for the ports. -/
theorem ReadsRegister.otherPorts {f : FieldId} {s r : State}
    (h : ReadsRegister (s.par.fields.get f).reg s r) :
    ∃ d m v x, r = Machine.otherPorts d m v x (readFieldByte f s).st := by
  obtain rfl := Host.Outcome.next.inj h
  exact ⟨_, _, _, _, regReadCommit_withPorts _ _⟩

section

variable {s r : State} {f : Byte} {id : FieldId}

/-- The read transaction of a FIELD_WRITE fails as the REG_READ of the field's register does. -/
theorem exec_fieldWrite_readFails (hid : fieldOf f = some id)
    (hr : ReadsRegister (s.par.fields.get id).reg s r) (hne : r.ports.result ≠ 0#32) :
    exec (.fieldWrite f) s = .next r ∧ r.ports.result.getLsbD 24 = false := by
  obtain ⟨-, -, hres, -⟩ := hr.fieldByte rfl
  have hk : ¬(readFieldByte id s).res.isOk = true := fun hk => hne (hres.mpr hk)
  obtain ⟨_, _, _, _, -, hfields, -⟩ :=
    (readFieldByte_res_ends (i := .probe) id s).error_fields (fun _ => nofun) hk
  rw [hr.failed hk]
  exact ⟨exec_fieldWrite_err hid (fieldWriteOn_readFails rfl hk) hk, hfields.txn⟩

/-- The write transaction of a FIELD_WRITE goes as the REG_WRITE of the merged byte after the REG_READ of
the field's register does. -/
theorem exec_fieldWrite_writes {w : State} {new : Byte} (hp : PortsWf s) (hw : s.par.wf = true)
    (hid : fieldOf f = some id) (hr : ReadsRegister (s.par.fields.get id).reg s r)
    (h0 : r.ports.result = 0#32)
    (hm : FieldMerged s.par id s.ports.val.toNat (r.ports.data.read 0) new)
    (hx : exec (.regWrite s.par.chargerAddr (s.par.fields.get id).reg 1#8)
      (r.onPorts fun p => { p with data := Memory.write [] 0 new }) = .next w) :
    ∃ t, exec (.fieldWrite f) s = .next t ∧ t.trace = w.trace ∧ t.bus = w.bus ∧ t.ev = w.ev ∧
      t.env = w.env ∧ (w.ports.result = 0#32 → t.ports.result = 0#32) ∧
      (w.ports.result ≠ 0#32 → t.ports.val = s.ports.val ∧
        ∃ code ph msg byte, code ≠ 0 ∧ ResultFields w.ports.result code ph msg byte false ∧
          ResultFields t.ports.result code ph msg byte true) := by
  obtain ⟨-, -, hres, hdata⟩ := hr.fieldByte rfl
  have hk := hres.mp h0
  rw [(hdata hp).2 hk] at hm
  obtain ⟨d, m, v, x, rfl⟩ := hr.otherPorts
  have hw' := (exec_regWrite_otherPorts d (Memory.write [] 0 new) v x _ _ _
    (readFieldByte id s).st).symm.trans hx
  obtain rfl := Host.Outcome.next.inj hw'
  have hends := regWriteOn_res_ends (i := .probe) s.par.chargerAddr (s.par.fields.get id).reg 1#8
    (Memory.write [] 0 new) (readFieldByte id s).st
  have hval := ((readFieldByte_busCommand id s).trans (regWriteOn_busCommand s.par.chargerAddr
    (s.par.fields.get id).reg 1#8 (Memory.write [] 0 new) _)).bus.val
  generalize hW : regWriteOn s.par.chargerAddr (s.par.fields.get id).reg 1#8 (Memory.write [] 0 new)
    (readFieldByte id s).st = W at hends hval ⊢
  have he := fieldWriteOn_writes hw rfl hk hm hW
  by_cases hWk : W.res.isOk = true
  · rw [if_pos hWk] at he
    have hword := hends.word_of_isOk hWk
    exact ⟨_, exec_fieldWrite_ok hid he hWk, rfl, rfl, rfl, rfl, fun _ => hword, fun hne => absurd hword hne⟩
  · rw [if_neg hWk] at he
    exact ⟨_, exec_fieldWrite_err hid he hWk, rfl, rfl, rfl, rfl, fun hz => absurd hz (Result.word_ne hWk),
      fun _ => ⟨hval, hends.error_fields (fun _ => nofun) hWk⟩⟩

/-- Settles O38: the read transaction against REG_READ, the write transaction against REG_WRITE, and the
exact runs of the two refusals. -/
theorem fieldWriteNamesTheFailedTransaction : Obligations.FieldWriteNamesTheFailedTransaction := by
  refine ⟨fun s r f id hp hw hid hr => ⟨exec_fieldWrite_readFails hid hr, fun new w h0 hm hx =>
    exec_fieldWrite_writes hp hw hid hr h0 hm hx⟩, fun od s f id h hw hid hg => ?_,
    fun od s f id old new h hw hid hm hg => ?_⟩
  · obtain ⟨b, u, he, hran⟩ := readFieldByte_refused id h hw hg
    have hbus := readFieldByte_busOnly id s
    rw [he] at hbus
    exact ⟨_, exec_fieldWrite_err hid (fieldWriteOn_readFails he nofun) nofun,
      noAck_fields false (by decide) (by decide), hran.trace, hbus.val⟩
  · rw [frameAnswers_append, Env.gives_append] at hg
    obtain ⟨hgr, hgw⟩ := hg
    obtain ⟨u, he, hran, -, -⟩ := readFieldByte_ran id old h hw hgr
    have hbus := readFieldByte_busOnly id s
    rw [he] at hbus
    have hpar : u.par = s.par := hbus.par
    rw [← hran.env, ← writeRefused_eq] at hgw
    obtain ⟨b, v, hW, -, -⟩ := regWriteOn_refused s.par.chargerAddr (s.par.fields.get id).reg 1#8 _
      (h.ran hran) (hpar ▸ hw) (by decide) (hpar ▸ (Params.wf_limits hw).2) hgw
    have hwrite := busOnly_txnRel.regWriteOn s.par.chargerAddr (s.par.fields.get id).reg 1#8
      (Memory.write [] 0 new) u
    rw [hW] at hwrite
    exact ⟨_, exec_fieldWrite_err hid (fieldWriteOn_writes hw he rfl hm hW) nofun,
      ((Result.noAck true 1 0).withTxn true).word_fields, (hbus.trans hwrite).val⟩

end

/-! ## PROBE -/

/-- The two ends of PROBE: present or absent, the value port and the result say the same
(spec/41_register_interface.md R92; log 13). -/
theorem exec_probe (s : State) : ∃ t, exec .probe s = .next t ∧
    t.trace = (readFieldByte .partId s).st.trace ∧
    (probePresent (readFieldByte .partId s) = true → t.ports.val = 1#32 ∧ t.ports.result = 0#32) ∧
    (probePresent (readFieldByte .partId s) = false → t.ports.val = 0#32 ∧ t.ports.result = 6#32) := by
  refine ⟨_, rfl, rfl, fun h => ?_, fun h => ?_⟩
  · simp only [finish_ports, setVal_ports, h]
    exact ⟨rfl, rfl⟩
  · simp only [finish_ports, setVal_ports, h]
    exact ⟨rfl, rfl⟩

/-- Settles O39: the run of the identifier's read, and the comparison of its field. -/
theorem probeComparesThePartIdentifier : Obligations.ProbeComparesThePartIdentifier := by
  refine ⟨fun od s b h hw hg => ?_, fun od s h hw hg => ?_, fun s t ht => ?_⟩
  · obtain ⟨u, he, hran, -, -⟩ := readFieldByte_ran .partId b h hw hg
    have hbus := readFieldByte_busOnly .partId s
    obtain ⟨t, ht, htrace, hpresent, habsent⟩ := exec_probe s
    rw [he] at hbus htrace hpresent habsent
    have hraw : (rawOf s.par .partId b).toNat = rawBits s.par.fields.partId b :=
      extract_toNat (Params.wf_field hw .partId) b
    have hfound : probePresent ⟨.ok, b, u⟩ = true ↔
        rawBits s.par.fields.partId b * s.par.fields.partId.step + s.par.fields.partId.offset =
          s.par.partIdExpected := by
      unfold probePresent
      rw [show (⟨.ok, b, u⟩ : ByteRead).st.par = s.par from hbus.par]
      simp only [hraw]
      exact beq_iff_eq
    exact ⟨t, ht, htrace.trans hran.trace, fun hyes => hpresent (hfound.mpr hyes),
      fun hno => habsent (eq_false_of_ne_true fun h => hno (hfound.mp h))⟩
  · obtain ⟨b, u, he, -⟩ := readFieldByte_refused .partId h hw hg
    obtain ⟨t, ht, -, -, habsent⟩ := exec_probe s
    rw [he] at habsent
    exact ⟨t, ht, habsent rfl⟩
  · obtain ⟨t', ht', -, hpresent, habsent⟩ := exec_probe s
    obtain rfl := Host.Outcome.next.inj (ht'.symm.trans ht)
    cases hfound : probePresent (readFieldByte .partId s) with
    | true => exact .inl (hpresent hfound)
    | false => exact .inr (habsent hfound)

end Sys2Proof.Machine
end

section
/-! SUPPORT. The controller's commands against other contents of the data ports: every phase of CTRL_BOOT
and CTRL_STEP goes the same with them and leaves them (spec/42_charge_controller.md R99, R106, R116). -/

namespace Sys2Proof.Machine

/-! ## The phases that `Unseen` does not yet speak of -/

namespace Unseen

variable {F : State → State}

theorem park (h : Unseen F) (s : State) : park (F s) = F (Machine.park s) := by
  unfold Machine.park; rw [h.onCtl, h.onOut]

theorem snapshot (h : Unseen F) (s : State) : snapshot (F s) = F (Machine.snapshot s) := h.onEv _ _

theorem keepEvents (h : Unseen F) (e : EventBits) (s : State) :
    keepEvents e (F s) = F (Machine.keepEvents e s) := h.onEv _ _

/-- The end of the blocking, if this iteration ends it. -/
theorem unblockIf (h : Unseen F) (c : Prop) [Decidable c] (s : State) :
    (if c then (F s).onBtn Btn.unblock else F s) = F (if c then s.onBtn Btn.unblock else s) := by
  rw [h.onBtn]; split <;> rfl

end Unseen

/-! ## Whole commands -/

/-- The data ports given other contents, the result left as it is. -/
def otherData (d : Cells 16) (m : Memory) (v : Word) (s : State) : State :=
  otherPorts d m v s.ports.result s

section

variable (d : Cells 16) (m : Memory) (v x : Word)

/-- A command's result is written over whatever stood in its port. -/
theorem finish_otherPorts (r : Result) (s : State) :
    (otherPorts d m v x s).finish r = otherData d m v (s.finish r) := rfl

theorem bootEnd_otherPorts (now : Word) (e : ByteRead) :
    bootEnd now ⟨e.res, e.byte, otherPorts d m v x e.st⟩ = otherData d m v (bootEnd now e) := by
  have h := otherPorts_unseen d m v x
  have hp : probePresent ⟨e.res, e.byte, otherPorts d m v x e.st⟩ = probePresent e := rfl
  unfold bootEnd
  rw [hp]
  split
  · rw [h.bootRun, finish_otherPorts]
  · rw [h.park, finish_otherPorts]

theorem blockedStep_otherPorts (now : Word) (e : EventBits) (s : State) :
    blockedStep now e (otherPorts d m v x s) = otherData d m v (blockedStep now e s) := by
  have h := otherPorts_unseen d m v x
  unfold blockedStep
  rw [h.par, h.btn, h.unblockIf, h.keepEvents, h.updateOutputs, finish_otherPorts]

theorem activeStep_otherPorts (now : Word) (e : EventBits) (fired : Bool) (s : State) :
    activeStep now e fired (otherPorts d m v x s) = otherData d m v (activeStep now e fired s) := by
  have h := otherPorts_unseen d m v x
  unfold activeStep
  rw [h.thermalPhase, h.pollPhase, h.faultTransitions, h.holdPhase, h.updateOutputs, finish_otherPorts]

theorem loopStep_otherPorts (now : Word) (level : Bool) (e : EventBits) (s : State) :
    loopStep now level e (otherPorts d m v x s) = otherData d m v (loopStep now level e s) := by
  have h := otherPorts_unseen d m v x
  unfold loopStep
  rw [h.btn, h.par, h.debouncePhase]
  split
  · exact blockedStep_otherPorts d m v x now e _
  · exact activeStep_otherPorts d m v x now e _ _

theorem runStep_otherPorts (now : Word) (level : Bool) (e : EventBits) (s : State) :
    runStep now level e (otherPorts d m v x s) = otherData d m v (runStep now level e s) := by
  have h := otherPorts_unseen d m v x
  unfold runStep
  rw [h.ctl, h.flashTimer]
  split
  · rw [h.updateOutputs, finish_otherPorts]
  · rw [h.dwellTimer, h.ssdPhase, loopStep_otherPorts]

theorem execCtrlBoot_otherPorts {s t : State} (ht : execCtrlBoot s = .next t) :
    execCtrlBoot (otherPorts d m v x s) = .next (otherData d m v t) := by
  have h := otherPorts_unseen d m v x
  unfold execCtrlBoot at ht ⊢
  rw [h.ctl]
  by_cases hphase : s.ctl.phase = .boot
  · rw [if_pos hphase] at ht ⊢
    cases ht
    rw [h.bootProbe, bootEnd_otherPorts]
    rfl
  · rw [if_neg hphase] at ht ⊢
    cases ht
    rfl

theorem execCtrlStep_otherPorts {s t : State} (ht : execCtrlStep s = .next t) :
    execCtrlStep (otherPorts d m v x s) = .next (otherData d m v t) := by
  have h := otherPorts_unseen d m v x
  unfold execCtrlStep at ht ⊢
  rw [h.ctl, h.snapshot]
  cases hphase : s.ctl.phase with
  | boot => rw [hphase] at ht; cases ht; rfl
  | parked => rw [hphase] at ht; cases ht; rfl
  | run =>
    rw [hphase] at ht
    cases ht
    exact congrArg _ (runStep_otherPorts d m v x _ _ _ _)

end

/-- Settles O58: neither command sees the contents of the data ports. -/
theorem controllerIgnoresTheDataPorts : Obligations.ControllerIgnoresTheDataPorts := by
  rintro i s t u d m v x (rfl | rfl) ht hu
  · exact Host.Outcome.next.inj (hu.symm.trans (execCtrlBoot_otherPorts d m v x ht))
  · exact Host.Outcome.next.inj (hu.symm.trans (execCtrlStep_otherPorts d m v x ht))

end Sys2Proof.Machine
end

section
/-! SUPPORT. The main loop's commands outside their phases, steps that are no power-on, and event words at a
line primitive. -/

namespace Sys2Proof.Machine

/-! ## CTRL_STEP outside phase Run -/

/-- CTRL_STEP before boot (spec/42_charge_controller.md R106). -/
theorem exec_ctrlStep_boot {s : State} (h : s.ctl.phase = .boot) :
    exec .ctrlStep s = .next (s.finish .illegalCommand) := by
  simp only [exec, execCtrlStep, h]

/-- CTRL_STEP of a parked block (R106). -/
theorem exec_ctrlStep_parked {s : State} (h : s.ctl.phase = .parked) :
    exec .ctrlStep s = .next ((snapshot s).finish .ok) := by
  simp only [exec, execCtrlStep, h]

/-- Settles O42: neither phase reaches the loop. -/
theorem stepBeforeBootAndParked : Obligations.StepBeforeBootAndParked :=
  ⟨fun _ h => exec_ctrlStep_boot h, fun _ h => exec_ctrlStep_parked h⟩

/-- CTRL_BOOT outside phase Boot (R99). -/
theorem exec_ctrlBoot_illegal {s : State} (h : s.ctl.phase ≠ .boot) :
    exec .ctrlBoot s = .next (s.finish .illegalCommand) := by
  simp only [exec, execCtrlBoot, if_neg h]

/-- CTRL_BOOT in phase Boot (R99). -/
theorem exec_ctrlBoot_boot {s : State} (h : s.ctl.phase = .boot) :
    exec .ctrlBoot s = .next (bootEnd s.ports.nowMs (bootProbe s)) := by
  simp only [exec, execCtrlBoot, if_pos h]

/-! ## Steps that are no power-on -/

/-- A step that takes a word, or whose act of the environment is no power-on, runs one of the main loop's
two commands or leaves the main loop's state alone. -/
theorem step_mainLoop_or_sameCore {s t : State} (ht : step s = .next t)
    (hcase : (∃ w rest, s.ports.evt = ⟨0, w⟩ :: rest) ∨ s.ports.cmd ≠ none ∨
      ∀ rest, s.env.moves ≠ .powerOn :: rest) :
    SameCore s t ∨ exec .ctrlBoot (takeCommand s) = .next t ∨ exec .ctrlStep (takeCommand s) = .next t := by
  have htake : SameCore s (takeCommand s) := onPorts_sameCore _ s
  obtain ⟨w, rest, he⟩ | hcase := hcase
  · exact .inl (step_due_sameCore he ht)
  obtain ⟨w, rest, _, he, _, _⟩ | ⟨w, rest, he, _⟩ | ⟨_, i, _, _, hx⟩ | ⟨_, _, rfl⟩ |
    ⟨hc, m, rest, hm, rfl⟩ | ⟨_, _, rfl⟩ := step_cases ht
  · exact .inl (step_due_sameCore (dueEvent_eq_some he) ht)
  · exact .inl (step_due_sameCore (dueEvent_eq_some he) ht)
  · by_cases hb : i = .ctrlBoot
    · exact .inr (.inl (hb ▸ hx))
    by_cases hs : i = .ctrlStep
    · exact .inr (.inr (hs ▸ hx))
    · exact .inl (htake.trans (exec_sameCore hb hs hx))
  · exact .inl (htake.finish _)
  · have hne : m ≠ .powerOn := fun h => hcase.resolve_left (fun hn => hn hc) rest (h ▸ hm)
    exact .inl ((onEnv_sameCore _ s).trans (move_sameCore hne _))
  · exact .inl (tick_busOnly s).sameCore

/-- The outputs of a parked block (R100). -/
theorem parked_out {s : State} (hi : CtlInv s) (h : s.ctl.phase = .parked) :
    s.out = ⟨false, .off, 0#3, false, false, true⟩ := by
  obtain ⟨hsleep, hmode, hon⟩ := hi.stopped (by rw [h]; decide)
  have hrail : s.out.powerRail = false := by simpa [hsleep] using hi.rail
  have hfan : s.out.fanMode = .off := by rw [hi.fan, hsleep]; rfl
  have hpend : s.ctl.ssdPending ≠ true := fun hp => by simpa [hsleep] using (hi.pending hp).1
  have hreq : s.out.shutdownReq = false := by simpa using mt hi.request hpend
  have hlow : s.out.lowPower = true := hi.parked.mpr h
  calc s.out = ⟨s.out.powerRail, s.out.fanMode, s.out.ledMode, s.out.ledOn, s.out.shutdownReq,
        s.out.lowPower⟩ := rfl
    _ = _ := by rw [hrail, hfan, hmode, hon, hreq, hlow]

/-- Settles O17: in phase Parked CTRL_BOOT is illegal and CTRL_STEP only consumes the event flags. -/
theorem onlyResetLeavesParked : Obligations.OnlyResetLeavesParked := by
  refine ⟨fun s t ht hcase hp => ?_, fun s hi hp => parked_out hi hp⟩
  have htake : SameCore s (takeCommand s) := onPorts_sameCore _ s
  have hp' : (takeCommand s).ctl.phase = .parked := hp
  have hsame : SameCore s t := by
    obtain h | h | h := step_mainLoop_or_sameCore ht hcase
    · exact h
    · rw [exec_ctrlBoot_illegal (by rw [hp']; decide)] at h
      cases h
      exact htake.finish _
    · rw [exec_ctrlStep_parked hp'] at h
      cases h
      exact (htake.trans (onEv_sameCore _ _)).finish _
  exact ⟨hsame.ctl, hsame.out, hsame.btn⟩

/-! ## Event words (R93) -/

/-- An event word that decodes presents an event, and runs as its latch. -/
theorem decodeEvent_presents {w : Word} {i : Instr} (h : decodeEvent w = .ok i) :
    ∃ k, eventOf w = some k ∧ ∀ s, exec i s = .next (s.latch k) := by
  unfold decodeEvent at h
  split at h
  · rename_i hlow
    split at h
    · rename_i k hk
      cases h
      refine ⟨k, by rw [eventOf, if_pos hlow, hk], fun s => ?_⟩
      cases k <;> rfl
    · cases h
  · cases h

/-- A due event word latches in the instant that passes just as it would in a step before it. -/
theorem tick_due {s : State} {w : Word} {rest : List Arrival} {k : EventKind}
    (he : s.ports.evt = ⟨0, w⟩ :: rest) (hk : eventOf w = some k) :
    ((s.onPorts fun p => { p with evt := rest }).latch k).tick = s.tick := by
  have ha : arrive s.bus.irqMask s.ports.evt s.ev =
      arrive s.bus.irqMask rest (s.ev.latch s.bus.irqMask k) := by
    rw [he, arrive, Latches.present, hk]
  simp only [State.tick, ha]
  rfl

/-- Settles O18: each word's instruction is the latch of its kind, and every line primitive begins with an
instant, in which a due word makes that same latch. -/
theorem eventWordsOnlyLatch : Obligations.EventWordsOnlyLatch := by
  refine ⟨fun s hm => ?_, fun s hm => ?_, fun s t w rest i he hd ht => ?_⟩
  · simp [exec, execEvtButton, execEvtChgIrq, execEvtThermal, execEvtHostAck, State.latch, State.onEv,
      Latches.latch, EventBits.raise, hm]
  · simp [exec, execEvtButton, execEvtChgIrq, execEvtThermal, execEvtHostAck, State.latch, State.onEv,
      Latches.latch, EventBits.raise, hm]
  · obtain ⟨k, hk, hx⟩ := decodeEvent_presents (w := w) hd
    rw [hx] at ht
    cases ht
    have htick := tick_due he hk
    refine ⟨fun l v => ?_, fun d => ?_, fun l => ?_⟩
    · rw [drive, drive, htick]
    · rw [wait, wait, htick]
    · rw [sample, sample, htick]
      rfl

end Sys2Proof.Machine
end

section
/-! SUPPORT. The percentage of spec/42_charge_controller.md R105. -/

namespace Sys2Proof.Machine

/-- Inside a band of rising breakpoints the percentage is linear (R105). -/
theorem pctFrom_band {l : List Nat} {i lo k a b mV : Nat} (hs : (lo :: l).Pairwise (· < ·))
    (ha : (lo :: l)[k]? = some a) (hb : (lo :: l)[k + 1]? = some b) (hle : a ≤ mV) (hlt : mV < b) :
    pctFrom i lo l mV = 32 * (i + k) + 32 * (mV - a) / (b - a) := by
  induction l generalizing i lo k with
  | nil => simp at hb
  | cons hi rest ih =>
    cases k with
    | zero =>
      simp only [List.getElem?_cons_zero, List.getElem?_cons_succ, Option.some.injEq, zero_add] at ha hb
      subst ha hb
      rw [pctFrom, if_pos hlt]
      rfl
    | succ k =>
      have hmem : a ∈ hi :: rest := List.mem_of_getElem? ha
      have hrise : (hi :: rest).Pairwise (· < ·) := hs.of_cons
      have hia : hi ≤ a := by
        obtain rfl | hr := List.mem_cons.mp hmem
        · exact le_rfl
        · exact (List.rel_of_pairwise_cons hrise hr).le
      rw [pctFrom, if_neg (by omega), ih hrise ha hb]
      ring_nf

/-- From band `i` of at most eight on, the percentage is at least the band's, but for the last count. -/
theorem le_pctFrom (l : List Nat) {i lo mV : Nat} (h : i + l.length ≤ 8) :
    32 * i ≤ pctFrom i lo l mV + 1 := by
  induction l generalizing i lo with
  | nil => simp only [pctFrom, List.length_nil] at h ⊢; omega
  | cons hi rest ih =>
    rw [pctFrom]
    split
    · rw [Nat.add_assoc]
      exact Nat.le_add_right _ _
    · have := ih (i := i + 1) (lo := hi) (by simp only [List.length_cons] at h; omega)
      omega

/-- The percentage does not fall from one breakpoint on. -/
theorem pctFrom_mono (l : List Nat) {i lo mV mV' : Nat} (h : i + l.length ≤ 8) (hlo : lo ≤ mV)
    (hle : mV ≤ mV') : pctFrom i lo l mV ≤ pctFrom i lo l mV' := by
  induction l generalizing i lo with
  | nil => exact le_rfl
  | cons hi rest ih =>
    simp only [List.length_cons] at h
    rw [pctFrom, pctFrom]
    by_cases h' : mV' < hi
    · rw [if_pos h', if_pos (by omega)]
      simp only [Config.band]
      gcongr
    · rw [if_neg h']
      by_cases hm : mV < hi
      · have hband : 32 * (mV - lo) / (hi - lo) < 32 := by
          rw [Nat.div_lt_iff_lt_mul (by omega)]
          omega
        have := le_pctFrom rest (i := i + 1) (lo := hi) (mV := mV') (by omega)
        rw [if_pos hm]
        simp only [Config.band]
        omega
      · rw [if_neg hm]
        exact ih (by omega) (by omega)

/-- Below the first breakpoint the percentage of a charge that is not terminated is 0 (R105). -/
theorem pct_low {mV : Nat} {cs : ChargeState} (hcs : cs ≠ .terminated) (h : mV < 2684) :
    pct mV cs = 0 := by
  cases cs with
  | terminated => exact absurd rfl hcs
  | _ => exact if_pos h

/-- From the first breakpoint on it is that of the bands (R105). -/
theorem pct_bands {mV : Nat} {cs : ChargeState} (hcs : cs ≠ .terminated) (h : 2684 ≤ mV) :
    pct mV cs = pctFrom 0 2684 Config.breakpoints.tail mV := by
  cases cs with
  | terminated => exact absurd rfl hcs
  | _ => exact if_neg (by omega)

/-- From the last breakpoint on the percentage is full. -/
theorem pct_full {mV : Nat} (h : 4204 ≤ mV) (cs : ChargeState) : pct mV cs = 255 := by
  by_cases hcs : cs = .terminated
  · rw [hcs]; rfl
  · have hge : ∀ b, b ≤ 4204 → ¬mV < b := fun b hb => by omega
    rw [pct_bands hcs (by omega)]
    simp [Config.breakpoints, pctFrom, hge]

/-- A higher voltage has no lower percentage. -/
theorem pct_mono {mV mV' : Nat} (h : mV ≤ mV') (cs : ChargeState) : pct mV cs ≤ pct mV' cs := by
  by_cases hcs : cs = .terminated
  · rw [hcs]; exact le_rfl
  by_cases hlo : mV < 2684
  · rw [pct_low hcs hlo]; exact Nat.zero_le _
  · rw [pct_bands hcs (by omega), pct_bands hcs (by omega)]
    exact pctFrom_mono _ (by decide) (by omega) h

theorem breakpoints_rise : Config.breakpoints.Pairwise (· < ·) := by decide

/-- The eight bands of R105 and their widths. -/
theorem band_widths : ∀ i < 8, ∀ lo ∈ Config.breakpoints[i]?, ∀ hi ∈ Config.breakpoints[i + 1]?,
    2684 ≤ lo ∧ lo < hi ∧ [180, 200, 200, 180, 200, 180, 200, 180][i]? = some (hi - lo) := by decide

/-- Settles O46: the breakpoints rise, so each band's arm of the recursion is the one that is taken. -/
theorem percentageIsPiecewiseLinear : Obligations.PercentageIsPiecewiseLinear := by
  refine ⟨fun _ => rfl, fun mV cs hcs h => pct_low hcs h, fun mV cs h => pct_full h cs, ?_,
    fun mV mV' cs h => pct_mono h cs, fun mV cs => pct_le mV cs⟩
  intro mV i lo hi cs hcs hi8 hlo hhi hle hlt
  obtain ⟨hmin, hrise, hwidth⟩ := band_widths i hi8 lo hlo hi hhi
  have hband : ∀ m, lo ≤ m → m < hi → pct m cs = 32 * i + 32 * (m - lo) / (hi - lo) := fun m hm hm' => by
    rw [pct_bands hcs (by omega)]
    exact (pctFrom_band breakpoints_rise hlo hhi hm hm').trans (by rw [zero_add])
  exact ⟨hband mV hle hlt, by simpa using hband lo le_rfl hrise, hwidth⟩

end Sys2Proof.Machine
end

section
/-! SUPPORT. The frames of CTRL_BOOT and CTRL_STEP, and the statements that hold whatever an iteration does:
a boot runs or parks, an iteration's frame and its LED, and ShippingMode (spec/42_charge_controller.md R99,
R100, R106, R111, R119). -/

namespace Sys2Proof.Machine

/-! ## The frame of a controller command -/

theorem CtlCommand.refl (s : State) : CtlCommand s s := ⟨rfl, rfl, rfl, ⟨[], rfl⟩, id, id⟩

theorem CtlCommand.trans {s t u : State} (h : CtlCommand s t) (h' : CtlCommand t u) : CtlCommand s u where
  ports := by rw [h'.ports, h.ports]
  par := h'.par.trans h.par
  moves := h'.moves.trans h.moves
  trace := traceGrows.trans h.trace h'.trace
  mask := fun hm => h'.mask (h.mask hm)
  calm := fun hc => h'.calm (h.calm hc)

/-- A bus operation that leaves events unmasked keeps the frame. -/
theorem BusOnly.ctlCommand {s t : State} (h : BusOnly s t)
    (hm : s.bus.irqMask = false → t.bus.irqMask = false) : CtlCommand s t where
  ports := by rw [h.ports]
  par := h.par
  moves := h.moves
  trace := h.trace
  mask := hm
  calm := fun hc => ⟨(h.calm hc).2, by rw [(h.calm hc).1]; exact hc.2⟩

/-- CONFIGURE leaves the mask alone (spec/40_softbus.md R75). -/
theorem configure_irqMask (rate : Rate) (s : State) :
    (configure rate s).bus.irqMask = s.bus.irqMask := by rw [configure_bus_eq]

theorem ctlCommand_ctlRel : CtlRel CtlCommand where
  refl := CtlCommand.refl
  trans := CtlCommand.trans
  transferOn a ds buf s :=
    (busOnly_txnRel.transferOn a ds buf s).ctlCommand (transferOn_mask a ds buf s)
  configure rate s :=
    (busOnly_confRel.configure rate s).ctlCommand fun hm => (configure_irqMask rate s).trans hm
  ctl _ _ := ⟨rfl, rfl, rfl, ⟨[], rfl⟩, id, id⟩
  btn _ _ := ⟨rfl, rfl, rfl, ⟨[], rfl⟩, id, id⟩
  out _ _ := ⟨rfl, rfl, rfl, ⟨[], rfl⟩, id, id⟩
  flags _ _ := ⟨rfl, rfl, rfl, ⟨[], rfl⟩, id, id⟩
  finish _ _ := ⟨rfl, rfl, rfl, ⟨[], rfl⟩, id, id⟩

theorem sameSetup_loopRel : LoopRel SameSetup where
  refl := SameSetup.refl
  trans := SameSetup.trans
  transferOn := sameSetup_txnRel.transferOn
  ctl _ _ := ⟨rfl, rfl, rfl, rfl⟩
  btn _ _ := ⟨rfl, rfl, rfl, rfl⟩
  out _ _ := ⟨rfl, rfl, rfl, rfl⟩
  flags _ _ := ⟨rfl, rfl, rfl, rfl⟩
  finish _ _ := ⟨rfl, rfl, rfl, rfl⟩

/-- The result word is none of the outputs. -/
theorem LedSays.finish {now : Word} {t : State} (h : LedSays now t) (r : Result) :
    LedSays now (t.finish r) := h

/-! ## CTRL_BOOT (R99, R100) -/

/-- A boot that finds the charging IC runs, and only the first poll touches the rest of the controller. -/
theorem bootRun_ctl (now : Word) (s : State) : ∃ u, u.ctl = { s.ctl with phase := .run } ∧ u.out = s.out ∧
    u.par = s.par ∧ bootRun now s = updateOutputs now (poll now u) := by
  have hw := bootWrites_sameCore s
  exact ⟨(bootWrites s).onCtl fun c => { c with phase := .run }, by rw [onCtl_ctl, hw.ctl],
    by rw [onCtl_out, hw.out], by rw [onCtl_par, hw.par], rfl⟩

/-- CTRL_BOOT leaves the bus as its CONFIGURE set it up. -/
theorem bootEnd_setup (s : State) :
    (bootEnd s.ports.nowMs (bootProbe s)).bus.ready = true ∧
      (bootEnd s.ports.nowMs (bootProbe s)).bus.rate = s.par.busRate := by
  have hs : SameSetup (configure s.par.busRate s) (bootEnd s.ports.nowMs (bootProbe s)) :=
    (sameSetup_loopRel.readFieldByte _ _).trans (sameSetup_loopRel.bootEnd _ _)
  exact ⟨by rw [hs.ready, configure_bus_eq], by rw [hs.rate, configure_bus_eq]⟩

theorem bootEnd_btn (now : Word) (e : ByteRead) : (bootEnd now e).btn = e.st.btn := by
  unfold bootEnd
  split
  · rw [finish_btn, bootRun_btn]
  · rw [finish_btn, park, onOut_btn, onCtl_btn]

/-- Settles O40: the two ends of CTRL_BOOT, on the bus its CONFIGURE leaves. -/
theorem bootRunsOrParks : Obligations.BootRunsOrParks := by
  refine ⟨fun s h => exec_ctrlBoot_illegal h, fun s h => ?_⟩
  have hx := exec_ctrlBoot_boot h
  have hc := bootProbe_sameCore s
  obtain ⟨hready, hrate⟩ := bootEnd_setup s
  refine ⟨_, hx, ctlCommand_ctlRel.execCtrlBoot hx, hready, hrate,
    (bootEnd_btn _ _).trans hc.btn, ?_⟩
  unfold bootEnd
  split
  · obtain ⟨u, hu, ho, -, hrun⟩ := bootRun_ctl s.ports.nowMs (bootProbe s).st
    have hpoll := (poll_shape s.ports.nowMs u).1
    rw [hu, hc.ctl] at hpoll
    rw [hrun]
    refine .inr ⟨?_, ?_, ?_, ?_, ?_, ?_, (updateOutputs_led _ _).finish _, rfl⟩
    · rw [finish_ctl, updateOutputs_ctl, hpoll]
    · rw [finish_ctl, updateOutputs_ctl, hpoll]
    · rw [finish_ctl, updateOutputs_ctl, hpoll]
    · rw [finish_ctl, updateOutputs_ctl, hpoll]
    · rw [finish_ctl, updateOutputs_ctl, hpoll]
    · rw [finish_out, updateOutputs_out, poll_out, ho, hc.out]
  · exact .inl ⟨by rw [finish_ctl, park, onOut_ctl, onCtl_ctl, hc.ctl],
      by rw [finish_out, park, onOut_out, onCtl_out, hc.out], rfl⟩

/-! ## The frame of an iteration (R106, R116) -/

/-- The phase and the low-power output are the same: no part of an iteration writes them. -/
structure SamePhase (s t : State) : Prop where
  phase : t.ctl.phase = s.ctl.phase
  lowPower : t.out.lowPower = s.out.lowPower

theorem SamePhase.trans {s t u : State} (h : SamePhase s t) (h' : SamePhase t u) : SamePhase s u :=
  ⟨h'.phase.trans h.phase, h'.lowPower.trans h.lowPower⟩

theorem afterTimers_samePhase (s : State) : SamePhase s (afterTimers s) := by
  obtain ⟨-, -, -, -, -, hphase, hlow⟩ := afterTimers_view (s := s)
  exact ⟨hphase, hlow⟩

theorem afterPoll_samePhase (s : State) : SamePhase s (afterPoll s) := by
  obtain ⟨hctl, hout, -⟩ := afterPoll_shape s
  exact (afterTimers_samePhase s).trans ⟨by rw [hctl], by rw [hout]⟩

theorem faultTransitions_samePhase (now : Word) (s : State) : SamePhase s (faultTransitions now s) := by
  unfold faultTransitions
  (repeat' split) <;> constructor <;> simp

theorem arbitrate_samePhase (now : Word) (s : State) : SamePhase s (arbitrate now s) := by
  unfold arbitrate
  (repeat' split) <;> constructor <;> simp [startFlash, requestShutdown]

theorem holdPhase_samePhase (now : Word) (fired : Bool) (s : State) :
    SamePhase s (holdPhase now fired s) := by
  unfold holdPhase
  split
  · exact SamePhase.trans (t := s.onBtn (Btn.block now)) ⟨rfl, rfl⟩ (arbitrate_samePhase now _)
  · exact ⟨rfl, rfl⟩

/-- What phase 8 makes of the state that the phases before it leave (R119). -/
def iterEnd (now : Word) (u : State) : State := (updateOutputs now u).finish .ok

@[simp] theorem iterEnd_ctl (now : Word) (u : State) : (iterEnd now u).ctl = u.ctl := rfl
@[simp] theorem iterEnd_btn (now : Word) (u : State) : (iterEnd now u).btn = u.btn := rfl
@[simp] theorem iterEnd_bus (now : Word) (u : State) : (iterEnd now u).bus = u.bus := rfl
@[simp] theorem iterEnd_ev (now : Word) (u : State) : (iterEnd now u).ev = u.ev := rfl
@[simp] theorem iterEnd_trace (now : Word) (u : State) : (iterEnd now u).trace = u.trace := rfl
@[simp] theorem iterEnd_result (now : Word) (u : State) : (iterEnd now u).ports.result = 0#32 := rfl

/-- Only the LED outputs change. -/
theorem iterEnd_out (now : Word) (u : State) : (iterEnd now u).out =
    { u.out with ledMode := (iterEnd now u).out.ledMode, ledOn := (iterEnd now u).out.ledOn } :=
  updateOutputs_out now u

theorem iterEnd_led (now : Word) (u : State) : LedSays now (iterEnd now u) := updateOutputs_led now u

/-- The LED of a fault pattern that starts now is lit. -/
theorem iterEnd_flash {now : Word} {u : State} (h : u.ctl.flashActive = true)
    (hs : u.ctl.flashStart = now) : (iterEnd now u).out = { u.out with ledMode := 5#3, ledOn := true } :=
  updateOutputs_flash now u h hs

theorem iterEnd_eq (now : Word) (u : State) : iterEnd now u = { u with
    out := { u.out with ledMode := (iterEnd now u).out.ledMode, ledOn := (iterEnd now u).out.ledOn }
    ports := { u.ports with result := 0#32 } } := by
  rw [← iterEnd_out]; rfl

theorem iterEnd_samePhase (now : Word) (u : State) : SamePhase u (iterEnd now u) :=
  ⟨rfl, by rw [iterEnd_out]⟩

/-- An iteration in ShippingMode (R111). -/
theorem execCtrlStep_shipping {s : State} (h : s.ctl.phase = .run) (hs : s.ctl.pstate = .shippingMode) :
    exec .ctrlStep s = .next (iterEnd s.ports.nowMs (quietState s)) := by
  rw [execCtrlStep_run h, runStep, if_pos (by exact hs), flashTimer_snapshot]
  rfl

/-- A blocked iteration (R106 phase 3). -/
theorem execCtrlStep_blocked {s : State} (h : s.ctl.phase = .run) (hs : s.ctl.pstate ≠ .shippingMode)
    (hb : s.btn.awaitRelease = true) : exec .ctrlStep s = .next (blockedStep s.ports.nowMs s.ev.flag
      (debouncePhase s.ports.nowMs s.ports.btnLevel (afterTimers s))) := by
  rw [execCtrlStep_loop h hs, loopStep, if_pos (by rw [afterTimers_btn]; exact hb)]

/-- How a blocked iteration ends: OK, or TIMEOUT (R125). -/
theorem blockedResult_word (p : Params) (now : Word) (b : Btn) :
    (blockedResult p now b).word = 0#32 ∨ (blockedResult p now b).word = 3#32 := by
  unfold blockedResult
  split_ifs
  · exact .inl rfl
  · exact .inr (by decide)
  · exact .inl rfl

/-- What every iteration of a running controller leaves of the phase, the LED and the result. -/
structure RunEnd (s t : State) : Prop extends SamePhase s t where
  led : LedSays s.ports.nowMs t
  result : t.ports.result = 0#32 ∨ t.ports.result = 3#32

theorem iterEnd_runEnd {s u : State} (h : SamePhase s u) : RunEnd s (iterEnd s.ports.nowMs u) :=
  ⟨h.trans (iterEnd_samePhase _ u), iterEnd_led _ u, .inl rfl⟩

theorem blockedStep_runEnd {s u : State} (e : EventBits) (h : SamePhase s u) :
    RunEnd s (blockedStep s.ports.nowMs e u) := by
  obtain ⟨hctl, -, hout, -⟩ := blockedStep_parts s.ports.nowMs e u
  exact ⟨h.trans ⟨by rw [hctl], by rw [hout]⟩, (updateOutputs_led _ _).finish _, blockedResult_word _ _ _⟩

theorem execCtrlStep_runEnd {s : State} (h : s.ctl.phase = .run) :
    ∃ t, exec .ctrlStep s = .next t ∧ RunEnd s t := by
  by_cases hs : s.ctl.pstate = .shippingMode
  · exact ⟨_, execCtrlStep_shipping h hs, iterEnd_runEnd (u := quietState s) ⟨rfl, rfl⟩⟩
  by_cases hb : s.btn.awaitRelease = true
  · exact ⟨_, execCtrlStep_blocked h hs hb,
      blockedStep_runEnd _ ((afterTimers_samePhase s).trans ⟨rfl, rfl⟩)⟩
  · exact ⟨_, execCtrlStep_afterPoll ⟨h, hs, by simpa using hb⟩,
      iterEnd_runEnd ((afterPoll_samePhase s).trans
        ((faultTransitions_samePhase _ _).trans (holdPhase_samePhase _ _ _)))⟩

/-- Settles O43: the frame is that of every part of an iteration, and each way through it ends with the
outputs of phase 8. -/
theorem stepFrameAndLed : Obligations.StepFrameAndLed := by
  intro s h
  obtain ⟨t, hx, hend⟩ := execCtrlStep_runEnd h
  exact ⟨t, hx, ctlCommand_ctlRel.toLoopRel.execCtrlStep hx, sameSetup_loopRel.execCtrlStep hx,
    hend.phase.trans h, hend.lowPower, hend.led, hend.result⟩

/-! ## ShippingMode (R111) -/

/-- CTRL_BOOT keeps the power state (R99). -/
theorem execCtrlBoot_pstate {s t : State} (h : exec .ctrlBoot s = .next t) :
    t.ctl.pstate = s.ctl.pstate := by
  by_cases hb : s.ctl.phase = .boot
  · obtain ⟨u, hu, -, -, -, -, hcase⟩ := bootRunsOrParks.2 s hb
    cases hu.symm.trans h
    obtain ⟨hctl, -⟩ | ⟨-, hp, -⟩ := hcase
    · rw [hctl]
    · exact hp
  · cases (exec_ctrlBoot_illegal hb).symm.trans h
    rfl

/-- No CTRL_STEP leaves ShippingMode. -/
theorem execCtrlStep_ships {s t : State} (hs : s.ctl.pstate = .shippingMode)
    (h : exec .ctrlStep s = .next t) : t.ctl.pstate = .shippingMode := by
  cases hp : s.ctl.phase with
  | boot => cases (exec_ctrlStep_boot hp).symm.trans h; exact hs
  | parked => cases (exec_ctrlStep_parked hp).symm.trans h; exact hs
  | run => cases (execCtrlStep_shipping hp hs).symm.trans h; exact hs

/-- Settles O52: in ShippingMode an iteration is the flash timer and the outputs, and no other part of a step
but a power-on touches the power state. -/
theorem shippingModeIsTerminal : Obligations.ShippingModeIsTerminal := by
  refine ⟨fun s h hs => ⟨_, execCtrlStep_shipping h hs, iterEnd_led _ _, iterEnd_eq _ _⟩,
    fun s t ht hcase hs => ?_⟩
  obtain h | h | h := step_mainLoop_or_sameCore ht hcase
  · rw [h.ctl]; exact hs
  · exact (execCtrlBoot_pstate h).trans hs
  · exact execCtrlStep_ships (s := takeCommand s) hs h

end Sys2Proof.Machine
end

section
/-! SUPPORT. An iteration that is not blocked, from the state its fault transitions leave, and the transitions
of iterations that do not poll: the hold, the thermal alert, the battery fault and the dwell
(spec/42_charge_controller.md R106 to R116). -/

namespace Sys2Proof.Machine

/-! ## Phases 7 and 8 -/

theorem iterEnd_startFlash (now : Word) (u : State) : (iterEnd now (startFlash now u)).out =
    { u.out with ledMode := 5#3, ledOn := true } := iterEnd_flash (by rfl) (by rfl)

/-- An iteration that is not blocked, from phase 7 on. -/
theorem execCtrlStep_unblocked {s : State} (h : Unblocked s) : exec .ctrlStep s =
    .next (iterEnd s.ports.nowMs (holdPhase s.ports.nowMs
      (s.btn.debounce s.par s.ports.nowMs s.ports.btnLevel).1 (afterFaults s))) :=
  execCtrlStep_afterPoll h

/-- The debouncer has taken its sample when the hold is looked at. -/
theorem afterFaults_btn (s : State) : (afterFaults s).btn = buttonAfter s := by
  obtain ⟨-, -, hb⟩ := afterPoll_shape s
  rw [afterFaults_eq, faultTransitions_btn, hb]

theorem afterFaults_par (s : State) : (afterFaults s).par = s.par := by
  rw [afterFaults_eq, faultTransitions_par, afterPoll_par]

/-- An iteration without a hold. -/
theorem execCtrlStep_noHold {s : State} (h : Unblocked s) (hf : ¬HoldFires s) :
    exec .ctrlStep s = .next (iterEnd s.ports.nowMs (afterFaults s)) := by
  rw [execCtrlStep_unblocked h, debounce_no_fire hf, holdPhase_none]

/-- The state in which a hold is arbitrated: the button blocked from now on (spec/43_button_debouncer.md
R125). -/
def heldState (s : State) : State := (afterFaults s).onBtn (Btn.block s.ports.nowMs)

theorem heldState_ctl (s : State) : (heldState s).ctl = (afterFaults s).ctl := onBtn_ctl _ _
theorem heldState_out (s : State) : (heldState s).out = (afterFaults s).out := onBtn_out _ _
theorem heldState_trace (s : State) : (heldState s).trace = (afterFaults s).trace := onBtn_trace _ _
theorem heldState_par (s : State) : (heldState s).par = s.par := (onBtn_par _ _).trans (afterFaults_par s)

/-- An iteration with a hold (R109). -/
theorem execCtrlStep_hold {s : State} (h : Unblocked s) (hf : HoldFires s) :
    exec .ctrlStep s = .next (iterEnd s.ports.nowMs (arbitrate s.ports.nowMs (heldState s))) := by
  rw [execCtrlStep_unblocked h, (debounce_fires_iff s).mpr hf]
  rfl

/-- The button after a hold, whatever the hold leads to. -/
theorem arbitrate_heldState_btn {s : State} (hf : HoldFires s) :
    (arbitrate s.ports.nowMs (heldState s)).btn = heldButton s := by
  rw [arbitrate_btn, heldState, onBtn_btn, afterFaults_btn, debounce_fire_btn hf]
  rfl

/-- Where the fault transitions leave CoolingDown or ShippingMode a hold only blocks the button. -/
theorem execCtrlStep_fault {s : State} (h : Unblocked s)
    (hp : (afterFaults s).ctl.pstate = .coolingDown ∨ (afterFaults s).ctl.pstate = .shippingMode) :
    ∃ f : Btn → Btn, (∀ b, (f b).state = b.state) ∧
      exec .ctrlStep s = .next (iterEnd s.ports.nowMs ((afterFaults s).onBtn f)) := by
  by_cases hf : HoldFires s
  · refine ⟨Btn.block s.ports.nowMs, fun _ => rfl, ?_⟩
    rw [execCtrlStep_hold h hf]
    obtain hp | hp := hp
    · rw [arbitrate_cooling (by exact hp)]; rfl
    · rw [arbitrate_shipping (by exact hp)]; rfl
  · exact ⟨id, fun _ => rfl, execCtrlStep_noHold h hf⟩

/-! ## Phases 4 to 6 without a poll or a fault -/

/-- Outside CoolingDown a poll that is due is made (R106 phase 5). -/
theorem afterPoll_due {s : State} (h : PollDue s) (hc : (afterTimers s).ctl.pstate ≠ .coolingDown) :
    afterPoll s = poll s.ports.nowMs (beforePoll s) := by
  obtain ⟨-, -, -, -, -, hpar, hctl⟩ := beforePoll_rest s
  obtain ⟨-, -, hlast, -⟩ := afterTimers_view (s := s)
  exact pollPhase_due h (by rw [hctl]; exact hc) (by rw [hctl]; exact hlast) hpar

/-- None is made that is not due. -/
theorem afterPoll_not_due {s : State} (h : ¬PollDue s) : afterPoll s = beforePoll s := by
  obtain ⟨-, -, -, -, -, hpar, hctl⟩ := beforePoll_rest s
  obtain ⟨-, -, hlast, -⟩ := afterTimers_view (s := s)
  have hlast' : (beforePoll s).ctl.lastPoll = s.ctl.lastPoll := by rw [hctl]; exact hlast
  simp only [PollDue, not_or] at h
  unfold afterPoll pollPhase
  rw [if_neg (by rw [hpar, hlast']; simp [h.1, h.2])]

/-- With no poll, no alert and no battery fault phases 4 to 6 are the debouncer's sample (R106). -/
theorem afterFaults_quiet {s : State} (hn : NoFault s) (hc : (afterTimers s).ctl.overTemp = false) :
    afterFaults s = debouncePhase s.ports.nowMs s.ports.btnLevel (afterTimers s) := by
  obtain ⟨hstatus, hvalid, hlast, -⟩ := afterTimers_view (s := s)
  exact phases_quiet hn hc hvalid hstatus hlast (afterTimers_par s)

/-- The sample of the debouncer after the timers. -/
theorem debouncePhase_afterTimers (s : State) :
    debouncePhase s.ports.nowMs s.ports.btnLevel (afterTimers s) =
      { afterTimers s with btn := buttonAfter s } := by
  simp only [debouncePhase, State.onBtn, afterTimers_btn, afterTimers_par]
  rfl

/-- Outside CoolingDown, with no soft shutdown pending, the timers leave all as it is (R106 phase 2). -/
theorem afterFaults_idle {s : State} (hc : s.ctl.pstate ≠ .coolingDown) (hp : s.ctl.ssdPending = false)
    (hn : NoFault s) : afterFaults s = { quietState s with btn := buttonAfter s } := by
  have ht := afterTimers_quiet hc hp
  rw [afterFaults_quiet hn (by rw [ht]; exact hn.cool), debouncePhase_afterTimers, ht]

/-- No soft shutdown is pending outside Powered. -/
theorem pending_off {s : State} (hi : CtlInv s) (h : s.ctl.pstate ≠ .powered) :
    s.ctl.ssdPending = false := by
  simpa using fun hp => h (hi.pending hp).1

/-- Settles O57: nothing acts but the debouncer, the flash timer and the outputs. -/
theorem quietStepOnlyDebounces : Obligations.QuietStepOnlyDebounces := by
  intro s _ hu hc hp hn hf
  refine ⟨_, execCtrlStep_noHold hu hf, ?_⟩
  rw [afterFaults_idle hc hp hn]
  exact iterEnd_eq _ _

/-! ## A hold in Sleeping (R108, R109) -/

/-- A hold in Sleeping gives Powered where the precondition holds, and else starts the fault pattern. -/
theorem arbitrate_sleeping (now : Word) {s : State} (h : s.ctl.pstate = .sleeping) :
    PowerOnWords s.ctl ∧ arbitrate now s = enterPowered s ∨
      ¬PowerOnWords s.ctl ∧ arbitrate now s = startFlash now s := by
  rw [← powerOnAllowed_iff]
  cases hp : s.ctl.powerOnAllowed with
  | true => exact .inl ⟨rfl, arbitrate_powered h hp⟩
  | false => exact .inr ⟨by decide, arbitrate_refused h hp⟩

theorem enterPowered_ev {s : State} (hc : Calm s) : (enterPowered s).ev = s.ev := by
  rw [enterPowered, ((ctlWrite_busOnly _ _ _).calm (by exact hc)).1]
  rfl

/-- With no event word on its way nothing is latched by a hold in Sleeping. -/
theorem arbitrate_sleeping_ev {now : Word} {s : State} (h : s.ctl.pstate = .sleeping) (hc : Calm s) :
    (arbitrate now s).ev = s.ev := by
  obtain ⟨-, ha⟩ | ⟨-, ha⟩ := arbitrate_sleeping now h <;> rw [ha]
  · exact enterPowered_ev hc
  · rfl

/-- Settles O47: the hold is arbitrated on the controller the fault transitions leave. -/
theorem holdPowersOnIffAllowed : Obligations.HoldPowersOnIffAllowed := by
  refine ⟨fun s hu hf hs => ⟨_, execCtrlStep_hold hu hf, rfl, ?_⟩, fun s hi hu hs hf hn => ?_⟩
  · rw [iterEnd_ctl]
    obtain ⟨hw, ha⟩ | ⟨hw, ha⟩ := arbitrate_sleeping s.ports.nowMs (s := heldState s) hs
    · have hp : (enterPowered (heldState s)).ctl.pstate = .powered := by rw [enterPowered_ctl]
      rw [ha]
      exact ⟨iff_of_true hp hw, .inl hp⟩
    · have hp : (startFlash s.ports.nowMs (heldState s)).ctl.pstate = .sleeping := hs
      rw [ha]
      exact ⟨iff_of_false (by rw [hp]; decide) hw, .inr hp⟩
  · have hidle := afterFaults_idle (by rw [hs]; decide) (pending_off hi (by rw [hs]; decide)) hn
    have hctl : (heldState s).ctl = { s.ctl with flashActive := flashStill s } := by
      rw [heldState_ctl, hidle]; rfl
    have hout : (heldState s).out = s.out := by rw [heldState_out, hidle]; rfl
    have htrace : (heldState s).trace = s.trace := by rw [heldState_trace, hidle]; rfl
    have hwords : PowerOnWords (heldState s).ctl ↔ PowerOnWords s.ctl := by rw [hctl]; rfl
    have hold := arbitrate_sleeping s.ports.nowMs (s := heldState s) (by rw [hctl]; exact hs)
    have hcalm : Calm s → (arbitrate s.ports.nowMs (heldState s)).ev.flag = .none := fun hc => by
      have hev : heldState s = { quietState s with btn := (buttonAfter s).block s.ports.nowMs } := by
        rw [heldState, hidle]; rfl
      rw [arbitrate_sleeping_ev (by rw [hctl]; exact hs) (by rw [hev]; exact hc), hev]
      rfl
    refine ⟨_, execCtrlStep_hold hu hf, rfl, arbitrate_heldState_btn hf, hcalm, fun hw => ?_, fun hw => ?_⟩
    · obtain ⟨-, ha⟩ | ⟨hn, -⟩ := hold
      · rw [iterEnd_out, iterEnd_ctl, ha, enterPowered_ctl, enterPowered_out, hctl, hout]
        exact ⟨rfl, rfl⟩
      · exact absurd (hwords.mpr hw) hn
    · obtain ⟨hy, -⟩ | ⟨-, ha⟩ := hold
      · exact absurd (hwords.mp hy) hw
      · rw [ha, iterEnd_startFlash]
        refine ⟨?_, ?_, htrace⟩
        · rw [iterEnd_ctl, startFlash, onCtl_ctl, hctl]
        · rw [hout]

end Sys2Proof.Machine
end

section
/-! SUPPORT. The fault transitions of an iteration and what it leaves of the polled view; the thermal alert,
the battery fault, the dwell and its end, and a due poll (spec/42_charge_controller.md R101 to R107, R113 to
R115). -/

namespace Sys2Proof.Machine

/-! ## The fault transitions of an iteration (R107) -/

/-- CoolingDown entered (R114). -/
structure Cools (s t : State) : Prop where
  result : t.ports.result = 0#32
  ctl : t.ctl = { (afterPoll s).ctl with
    pstate := .coolingDown, ssdPending := false, adcCont := false, coolStart := s.ports.nowMs
    flashActive := true, flashStart := s.ports.nowMs }
  out : t.out = ⟨false, .max, 5#3, true, false, s.out.lowPower⟩
  trace : t.trace = (enterCoolingDown s.ports.nowMs (afterPoll s)).trace

/-- ShippingMode entered (R115). -/
structure Ships (s t : State) : Prop where
  result : t.ports.result = 0#32
  ctl : t.ctl = { (afterPoll s).ctl with
    pstate := .shippingMode, ssdPending := false, adcCont := false, batfetOff := true
    flashActive := true, flashStart := s.ports.nowMs }
  out : t.out = ⟨false, .off, 5#3, true, false, s.out.lowPower⟩
  trace : t.trace = (enterShipping s.ports.nowMs (afterPoll s)).trace

/-- An over-temperature outside CoolingDown, whatever the hold. -/
theorem step_cools {s t : State} (hu : Unblocked s) (hx : exec .ctrlStep s = .next t)
    (hc : (afterPoll s).ctl.pstate ≠ .coolingDown) (ho : (afterPoll s).ctl.overTemp = true) :
    Cools s t := by
  have hfa : afterFaults s = enterCoolingDown s.ports.nowMs (afterPoll s) := faultTransitions_hot hc ho
  obtain ⟨f, -, hx'⟩ := execCtrlStep_fault hu (.inl (by rw [hfa, enterCoolingDown_ctl]))
  cases hx'.symm.trans hx
  refine ⟨rfl, by rw [iterEnd_ctl, onBtn_ctl, hfa, enterCoolingDown_ctl], ?_, by
    rw [iterEnd_trace, onBtn_trace, hfa]⟩
  rw [iterEnd_flash (by rw [onBtn_ctl, hfa, enterCoolingDown_ctl])
    (by rw [onBtn_ctl, hfa, enterCoolingDown_ctl]), onBtn_out, hfa, enterCoolingDown_out,
    ← (afterPoll_samePhase s).lowPower]

/-- A battery fault outside CoolingDown without an over-temperature, whatever the hold. -/
theorem step_ships {s t : State} (hu : Unblocked s) (hx : exec .ctrlStep s = .next t)
    (hc : (afterPoll s).ctl.pstate ≠ .coolingDown) (ho : (afterPoll s).ctl.overTemp = false)
    (hb : BatteryFault (afterPoll s).ctl) : Ships s t := by
  have hfa : afterFaults s = enterShipping s.ports.nowMs (afterPoll s) := faultTransitions_battery hc ho hb
  obtain ⟨f, -, hx'⟩ := execCtrlStep_fault hu (.inr (by rw [hfa, enterShipping_ctl]))
  cases hx'.symm.trans hx
  refine ⟨rfl, by rw [iterEnd_ctl, onBtn_ctl, hfa, enterShipping_ctl], ?_, by
    rw [iterEnd_trace, onBtn_trace, hfa]⟩
  rw [iterEnd_flash (by rw [onBtn_ctl, hfa, enterShipping_ctl])
    (by rw [onBtn_ctl, hfa, enterShipping_ctl]), onBtn_out, hfa, enterShipping_out,
    ← (afterPoll_samePhase s).lowPower]

theorem afterFaults_none {s : State} (ho : (afterPoll s).ctl.overTemp = false)
    (hb : ¬BatteryFault (afterPoll s).ctl) : afterFaults s = afterPoll s := faultTransitions_none ho hb

/-- No fault and no hold: the iteration ends as its poll phase leaves it. -/
theorem step_rests {s t : State} (hu : Unblocked s) (hx : exec .ctrlStep s = .next t)
    (ho : (afterPoll s).ctl.overTemp = false) (hb : ¬BatteryFault (afterPoll s).ctl)
    (hf : ¬HoldFires s) : t = iterEnd s.ports.nowMs (afterPoll s) := by
  rw [execCtrlStep_noHold hu hf, afterFaults_none ho hb] at hx
  exact (Host.Outcome.next.inj hx).symm

/-- A blocked iteration ends after its timers and its sample (R106 phase 3). -/
theorem step_blocked {s t : State} (hrun : s.ctl.phase = .run) (hs : s.ctl.pstate ≠ .shippingMode)
    (hb : s.btn.awaitRelease = true) (hx : exec .ctrlStep s = .next t) :
    t.bus = (afterTimers s).bus ∧ t.ctl = (afterTimers s).ctl ∧ t.trace = (afterTimers s).trace ∧
      t.out = { (afterTimers s).out with ledMode := t.out.ledMode, ledOn := t.out.ledOn } ∧
      t.btn.state = (buttonAfter s).state := by
  cases (execCtrlStep_blocked hrun hs hb).symm.trans hx
  obtain ⟨hctl, htrace, hout, hbtn, -⟩ := blockedStep_parts s.ports.nowMs s.ev.flag
    (debouncePhase s.ports.nowMs s.ports.btnLevel (afterTimers s))
  rw [debouncePhase_afterTimers] at *
  refine ⟨?_, hctl, htrace, hout, hbtn⟩
  simp only [blockedStep, updateOutputs, keepEvents, finish_bus, onOut_bus, onEv_bus]
  split <;> rfl

/-- What phases 6 to 8 leave of the controller's view, and that they only add lines. -/
structure KeepsView (u t : State) : Prop where
  status : t.ctl.status = u.ctl.status
  valid : t.ctl.statusValid = u.ctl.statusValid
  charging : t.ctl.charging = u.ctl.charging
  battery : t.ctl.battery = u.ctl.battery
  time : t.ctl.lastPoll = u.ctl.lastPoll
  overTemp : t.ctl.overTemp = u.ctl.overTemp
  lines : ∃ new, t.trace = new ++ u.trace

theorem KeepsView.trans {s t u : State} (h : KeepsView s t) (h' : KeepsView t u) : KeepsView s u :=
  ⟨h'.status.trans h.status, h'.valid.trans h.valid, h'.charging.trans h.charging,
    h'.battery.trans h.battery, h'.time.trans h.time, h'.overTemp.trans h.overTemp,
    traceGrows.trans h.lines h'.lines⟩

theorem faultTransitions_keepsView (now : Word) (s : State) : KeepsView s (faultTransitions now s) := by
  obtain ⟨hs, hv, hc, hb, hl, ho⟩ := faultTransitions_view now s
  exact ⟨hs, hv, hc, hb, hl, ho, traceGrows.faultTransitions now s⟩

theorem holdPhase_keepsView (now : Word) (f : Bool) (s : State) : KeepsView s (holdPhase now f s) := by
  obtain ⟨hs, hv, hc, hb, hl, ho⟩ := holdPhase_view now f s
  exact ⟨hs, hv, hc, hb, hl, ho, traceGrows.holdPhase now f s⟩

/-- An iteration that is not blocked ends OK with the view its poll phase leaves. -/
theorem step_keepsView {s t : State} (hu : Unblocked s) (hx : exec .ctrlStep s = .next t) :
    t.ports.result = 0#32 ∧ KeepsView (afterPoll s) t := by
  cases (execCtrlStep_unblocked hu).symm.trans hx
  have hk := (faultTransitions_keepsView s.ports.nowMs (afterPoll s)).trans
    (holdPhase_keepsView s.ports.nowMs (s.btn.debounce s.par s.ports.nowMs s.ports.btnLevel).1 _)
  exact ⟨rfl, hk.status, hk.valid, hk.charging, hk.battery, hk.time, hk.overTemp, hk.lines⟩

theorem KeepsView.polled {p : Params} {now : Word} {b1 b2 b3 : Byte} {u t : State} (h : KeepsView u t)
    (hp : PolledView p now b1 b2 b3 u.ctl) : PolledView p now b1 b2 b3 t.ctl :=
  hp.congr h.status h.valid h.charging h.battery h.time

/-- CTRL_STEP always answers. -/
theorem ctrlStep_answers (s : State) : ∃ t, exec .ctrlStep s = .next t := by
  cases h : s.ctl.phase with
  | boot => exact ⟨_, exec_ctrlStep_boot h⟩
  | parked => exact ⟨_, exec_ctrlStep_parked h⟩
  | run => exact ⟨_, execCtrlStep_run h⟩

/-! ## Outputs that the invariant keeps off -/

theorem request_off {s : State} (hi : CtlInv s) (h : s.ctl.pstate ≠ .powered) :
    s.out.shutdownReq = false := by
  simpa [pending_off hi h] using hi.request

theorem rail_off {s : State} (hi : CtlInv s) (h : s.ctl.pstate ≠ .powered) : s.out.powerRail = false := by
  simpa [h] using hi.rail

/-- Outside Powered no soft shutdown ends. -/
theorem noShutdownEnd_of_ne {s : State} (hi : CtlInv s) (h : s.ctl.pstate ≠ .powered) :
    NoShutdownEnd s := fun hp => absurd (hi.pending hp).1 h

/-! ## Alerts and faults without a poll -/

/-- A thermal event or a latched over-temperature is one when the fault transitions look at it. -/
theorem afterPoll_overTemp {s : State}
    (h : s.ev.flag.thermal = true ∨ (afterTimers s).ctl.overTemp = true) :
    (afterPoll s).ctl.overTemp = true := by
  obtain ⟨-, hkeep, -, -⟩ := pollPhase_keep s.ports.nowMs s.ev.flag (beforePoll s)
  obtain ⟨-, -, -, -, -, -, hctl⟩ := beforePoll_rest s
  refine hkeep ?_
  rw [hctl]
  simpa [or_comm] using h

/-- Settles O48: the alert is latched before the fault transitions, which come before the hold. -/
theorem thermalAlertCoolsDown : Obligations.ThermalAlertCoolsDown := by
  intro s hu hc ha
  obtain ⟨hover, hawake, hiso, -⟩ := afterTimers_keep hc
  obtain ⟨hshape, -, -⟩ := afterPoll_shape s
  obtain ⟨t, hx⟩ := ctrlStep_answers s
  have hot : (afterPoll s).ctl.overTemp = true := afterPoll_overTemp (by rwa [hover])
  have hcool := step_cools hu hx (by rw [afterPoll_pstate]; exact hawake) hot
  refine ⟨t, hx, hcool.result, ?_⟩
  rw [hcool.ctl]
  refine ⟨rfl, rfl, rfl, hot, rfl, rfl, rfl, ?_, hcool.out⟩
  rw [hshape]
  exact hiso

/-- Entering ShippingMode leaves nothing of what the timers of phase 2 do outside CoolingDown. -/
theorem afterTimers_shipped {s : State} (hi : CtlInv s) (hc : s.ctl.pstate ≠ .coolingDown) (now : Word) :
    { (afterTimers s).ctl with
      pstate := .shippingMode, ssdPending := false, adcCont := false, batfetOff := true
      flashActive := true, flashStart := now } =
    { s.ctl with
      pstate := .shippingMode, ssdPending := false, adcCont := false, batfetOff := true
      flashActive := true, flashStart := now } := by
  obtain hn | he := noShutdownEnd_or_ends s
  · rw [afterTimers_polls hi hn fun h => absurd h hc, timersState, dwellOver_of_ne hc]
  · rw [(afterTimers_shutdown hi he).1]

/-- Settles O49: without a poll the fault transitions see the view and the flag as they were. -/
theorem batteryFaultShips : Obligations.BatteryFaultShips := by
  intro s hi hu hc ho ha hp hb
  obtain ⟨hstatus, hvalid, -⟩ := afterTimers_view (s := s)
  obtain ⟨hover, hawake, -, -⟩ := afterTimers_keep hc
  have hctl : (afterPoll s).ctl = (afterTimers s).ctl := by
    obtain ⟨-, -, -, -, -, -, h⟩ := beforePoll_rest s
    rw [afterPoll_not_due hp, h, ha, Bool.or_false]
  obtain ⟨t, hx⟩ := ctrlStep_answers s
  have hship := step_ships hu hx (by rw [hctl]; exact hawake) (by rw [hctl, hover]; exact ho)
    (by unfold BatteryFault; rw [hctl, hstatus, hvalid]; exact hb)
  refine ⟨t, hx, hship.result, ?_, hship.out⟩
  rw [hship.ctl, hctl, afterTimers_shipped hi hc]

/-! ## The dwell (R104, R114) -/

/-- Inside the dwell the timers leave all as it is but for the flash timer. -/
theorem afterTimers_dwell {s : State} (hi : CtlInv s) (hc : s.ctl.pstate = .coolingDown)
    (hd : elapsed s.ports.nowMs s.ctl.coolStart < 120000) : afterTimers s = quietState s := by
  have hp := pending_off hi (by rw [hc]; decide)
  unfold afterTimers
  rw [flashTimer_snapshot, dwellTimer, if_neg fun h => Nat.not_le.mpr hd h.2, ssdPhase,
    if_neg (by simp [hp])]
  rfl

/-- In CoolingDown no poll is made and no fault transition taken (R106, R107). -/
theorem afterFaults_dwell {s : State} (h : (afterTimers s).ctl.pstate = .coolingDown) :
    afterFaults s = beforePoll s := by
  obtain ⟨-, -, -, -, -, -, hctl⟩ := beforePoll_rest s
  have hc : (beforePoll s).ctl.pstate = .coolingDown := by rw [hctl]; exact h
  rw [afterFaults_eq, afterPoll, pollPhase, if_neg (by simp [hc]), faultTransitions, if_pos hc]

/-- Settles O50: inside the dwell the iteration has only its debouncer, its alert and its outputs. -/
theorem coolingDownLastsItsDwell : Obligations.CoolingDownLastsItsDwell := by
  intro s hi hrun hc hd
  have ht := afterTimers_dwell hi hc hd
  have hawake : s.ctl.pstate ≠ .shippingMode := by rw [hc]; decide
  by_cases hb : s.btn.awaitRelease = true
  · obtain ⟨t, hx⟩ := ctrlStep_answers s
    obtain ⟨-, hctl, htrace, hout, hbtn⟩ := step_blocked hrun hawake hb hx
    rw [ht] at hctl htrace hout
    refine ⟨t, hx, hbtn, htrace, ?_, ?_, hout⟩
    · rw [hctl]; rfl
    · rw [hctl]; exact id
  · have hu : Unblocked s := ⟨hrun, hawake, by simpa using hb⟩
    have hfa : afterFaults s = beforePoll s := afterFaults_dwell (by rw [ht]; exact hc)
    obtain ⟨-, -, htrace, hout, hbtn, -, hctl⟩ := beforePoll_rest s
    rw [ht] at htrace hout hctl
    obtain ⟨f, hf, hx⟩ := execCtrlStep_fault hu (.inl (by rw [hfa, hctl]; exact hc))
    refine ⟨_, hx, ?_, ?_, ?_, ?_, ?_⟩
    · rw [iterEnd_btn, onBtn_btn, hf, afterFaults_btn]
    · rw [iterEnd_trace, onBtn_trace, hfa, htrace]; rfl
    · rw [iterEnd_ctl, onBtn_ctl, hfa, hctl]; rfl
    · rw [iterEnd_ctl, onBtn_ctl, hfa, hctl]
      intro ho
      simp [quietState, ho]
    · rw [iterEnd_out, onBtn_out, hfa, hout]; rfl

end Sys2Proof.Machine
end

section
/-! SUPPORT. An iteration that polls, whatever the peer answers, and the end of the dwell
(spec/42_charge_controller.md R101 to R107, R113). -/

namespace Sys2Proof.Machine

/-! ## The poll of an iteration -/

/-- The poll of an iteration in which no soft shutdown ends (R106 phase 5). -/
theorem afterPoll_polls {s : State} (hi : CtlInv s) (h : Polls s) :
    afterPoll s = poll s.ports.nowMs (pollStart s) := by
  have ht := afterTimers_polls hi h.shutdown h.dwell
  have hb : beforePoll s = pollStart s := by rw [beforePoll, ht, pollStart]
  rw [afterPoll_due h.due (by rw [ht]; exact dwellOver_awake _), hb]

/-- It runs outside CoolingDown. -/
theorem Polls.awake {s : State} (hi : CtlInv s) (h : Polls s) :
    (afterPoll s).ctl.pstate ≠ .coolingDown := by
  rw [afterPoll_pstate, afterTimers_polls hi h.shutdown h.dwell]
  exact dwellOver_awake _

/-- Settles O44: the view is that of the poll, and its flags lead to the fault transitions. -/
theorem pollUpdatesTheView : Obligations.PollUpdatesTheView := by
  intro od s b1 b2 b3 hi h hr hw hg
  obtain ⟨hran, hview, hot, -⟩ := pollStart_ran hr hw hg
  rw [← afterPoll_polls hi h] at hran hview hot
  obtain ⟨t, hx⟩ := ctrlStep_answers s
  obtain ⟨hres, hk⟩ := step_keepsView h.unblocked hx
  have hbat : BatteryFault (afterPoll s).ctl ↔ t.ctl.status.fault.battery = true := by
    rw [hk.status, BatteryFault, hview.valid]
    exact and_iff_right rfl
  refine ⟨t, hx, hres, hk.polled hview, ?_, ?_, fun ho => ?_, fun ho hb => ?_⟩
  · by_cases hq : t.ctl.overTemp = false ∧ t.ctl.status.fault.battery = false ∧ ¬HoldFires s
    · obtain ⟨ho, hb, hf⟩ := hq
      have ht := step_rests h.unblocked hx (hk.overTemp ▸ ho) (by rw [hbat, hb]; decide) hf
      exact ⟨[], by rw [ht, iterEnd_trace, hran.trace]; rfl, fun _ _ _ => rfl⟩
    · obtain ⟨new, hnew⟩ := hk.lines
      exact ⟨new, by rw [hnew, hran.trace, List.append_assoc], fun ho hb hf => absurd ⟨ho, hb, hf⟩ hq⟩
  · rw [hk.overTemp, hk.status, hview.status]
    exact hot
  · have hc := step_cools h.unblocked hx (h.awake hi) (hk.overTemp ▸ ho)
    rw [hc.ctl, hc.out]
    exact ⟨rfl, rfl, rfl, rfl⟩
  · have hs := step_ships h.unblocked hx (h.awake hi) (hk.overTemp ▸ ho) (hbat.mpr hb)
    rw [hs.ctl, hs.out]
    exact ⟨rfl, rfl, rfl⟩

/-! ## A poll that fails -/

theorem dwellOver_battery (c : Ctl) : BatteryFault (dwellOver c) ↔ BatteryFault c := by
  unfold dwellOver
  split <;> rfl

/-- What an iteration has before its fault transitions whose poll keeps the view. -/
theorem afterPoll_failed {s : State} (hi : CtlInv s) (h : Polls s)
    (hp : (poll s.ports.nowMs (pollStart s)).ctl = { (pollStart s).ctl with lastPoll := s.ports.nowMs }) :
    (afterPoll s).ctl = { dwellOver s.ctl with
        flashActive := flashStill s, lastPoll := s.ports.nowMs
        overTemp := (dwellOver s.ctl).overTemp || s.ev.flag.thermal } ∧
      (afterPoll s).out = (timersState s).out := by
  rw [afterPoll_polls hi h, hp, poll_out, pollStart_ctl]
  exact ⟨rfl, (pollStart_rest s).1⟩

/-- With no alert, no battery fault and no hold such an iteration leaves just that. -/
theorem step_failedPoll {s t : State} (hi : CtlInv s) (h : Polls s) (hx : exec .ctrlStep s = .next t)
    (hp : (poll s.ports.nowMs (pollStart s)).ctl = { (pollStart s).ctl with lastPoll := s.ports.nowMs })
    (ha : ¬Alert s) (hb : ¬BatteryFault s.ctl) (hf : ¬HoldFires s) :
    t = iterEnd s.ports.nowMs (afterPoll s) ∧
      t.ctl = { dwellOver s.ctl with lastPoll := s.ports.nowMs, flashActive := flashStill s } ∧
      t.out = { s.out with
        fanMode := t.ctl.pstate.fan
        shutdownReq := s.out.shutdownReq && decide (elapsed s.ports.nowMs s.ctl.ssdStart < 30)
        ledMode := t.out.ledMode, ledOn := t.out.ledOn } := by
  obtain ⟨hctl, hout⟩ := afterPoll_failed hi h hp
  simp only [Alert, not_or, Bool.not_eq_true] at ha
  obtain ⟨hth, hov⟩ := ha
  have ho : (afterPoll s).ctl.overTemp = false := by rw [hctl]; simp [hth, hov]
  have hbat : ¬BatteryFault (afterPoll s).ctl := by
    rw [← dwellOver_battery] at hb
    rw [hctl]
    exact hb
  have ht := step_rests h.unblocked hx ho hbat hf
  have hc : (afterPoll s).ctl =
      { dwellOver s.ctl with lastPoll := s.ports.nowMs, flashActive := flashStill s } := by
    rw [hctl, hth, Bool.or_false]
  refine ⟨ht, by rw [ht, iterEnd_ctl, hc], ?_⟩
  rw [ht, iterEnd_out, iterEnd_ctl, hout, hc]
  rfl

/-- A poll that failed as the register read `r` did (R101; spec/60_exceptions.md R130). -/
theorem step_pollFailed {s r t : State} (hi : CtlInv s) (h : Polls s) (hx : exec .ctrlStep s = .next t)
    (hp : PollFailed s.ports.nowMs r (pollStart s) (poll s.ports.nowMs (pollStart s))) :
    FailedPoll s r t := by
  obtain ⟨hres, hk⟩ := step_keepsView h.unblocked hx
  obtain ⟨hctl, -⟩ := afterPoll_failed hi h hp.ctl
  obtain ⟨hbus, -, -, htrace⟩ := busSide_lines hp.side
  rw [← afterPoll_polls hi h] at hbus htrace
  have hd : ∀ c : Ctl, (dwellOver c).status = c.status ∧ (dwellOver c).statusValid = c.statusValid ∧
      (dwellOver c).charging = c.charging ∧ (dwellOver c).battery = c.battery := fun c => by
    unfold dwellOver; split <;> exact ⟨rfl, rfl, rfl, rfl⟩
  obtain ⟨ds, dv, dc, db⟩ := hd s.ctl
  refine ⟨hres, ?_, ?_, ?_, ?_, ?_, ?_, fun ha hb hf => ?_⟩
  · rw [hk.status, hctl]; exact ds
  · rw [hk.valid, hctl]; exact dv
  · rw [hk.charging, hctl]; exact dc
  · rw [hk.battery, hctl]; exact db
  · rw [hk.time, hctl]
  · rw [htrace]; exact hk.lines
  · obtain ⟨ht, hc, ho⟩ := step_failedPoll hi h hx hp.ctl ha hb hf
    exact ⟨by rw [ht, iterEnd_trace, htrace], by rw [ht, iterEnd_bus, hbus], hc, ho⟩

/-- Whatever the peer answers a poll keeps the view or takes it whole from three register bytes (R101). -/
theorem poll_view_cases (now : Word) (s : State) :
    (poll now s).ctl = { s.ctl with lastPoll := now } ∨ ∃ b1 b2 b3, (poll now s).ctl =
      applyPoll s.par (rawOf s.par .status b1) (rawOf s.par .fault b2) (rawOf s.par .batteryAdc b3)
        { s.ctl with lastPoll := now } := by
  unfold poll pollRead
  dsimp only
  have h1 := (readFieldByte_busOnly .status (s.onCtl fun c => { c with lastPoll := now })).sameCore
  generalize readFieldByte .status (s.onCtl fun c => { c with lastPoll := now }) = e1 at *
  have h2 := h1.trans (readFieldByte_busOnly .fault e1.st).sameCore
  generalize readFieldByte .fault e1.st = e2 at *
  have h3 := h2.trans (readFieldByte_busOnly .batteryAdc e2.st).sameCore
  generalize readFieldByte .batteryAdc e2.st = e3 at *
  split
  · split
    · split
      · refine .inr ⟨e1.byte, e2.byte, e3.byte, ?_⟩
        rw [onCtl_ctl, h1.par, h2.par, h3.par, h3.ctl]
        rfl
      · exact .inl h3.ctl
    · exact .inl h2.ctl
  · exact .inl h1.ctl

/-- Two states with the same bus, parameters, environment and lines have one bus side. -/
theorem busSide_of_lines {s t : State} (hb : s.bus = t.bus) (hp : s.par = t.par) (he : s.env = t.env)
    (ht : s.trace = t.trace) : s.busSide = t.busSide := by
  simp only [State.busSide, hb, hp, he, ht]

theorem pollStart_busSide (s : State) : s.busSide = (pollStart s).busSide := by
  obtain ⟨-, hp, he, hb, ht, -, -⟩ := pollStart_rest s
  exact busSide_of_lines hb.symm hp.symm he.symm ht.symm

/-- A poll refused at its address keeps the view. -/
theorem pollStart_refused {od : Bool} {s : State} {b1 b2 : Byte} {pre : List Sym} (hr : BusReady od s)
    (hw : s.par.wf = true) (hpre : pre ∈ readsBefore s.par b1 b2)
    (hg : s.env.gives (frameAnswers od (pre ++ addressRefused s.par.chargerAddr 0#1))) :
    (poll s.ports.nowMs (pollStart s)).trace =
        (frameEvents od (pre ++ addressRefused s.par.chargerAddr 0#1)).reverse ++ s.trace ∧
      (poll s.ports.nowMs (pollStart s)).ctl = { (pollStart s).ctl with lastPoll := s.ports.nowMs } := by
  obtain ⟨-, hp, he, hb, ht, -, -⟩ := pollStart_rest s
  obtain ⟨hran, hctl⟩ := poll_refused (od := od) s.ports.nowMs (hr.congr hb) (by rw [hp]; exact hw)
    (by rw [hp]; exact hpre) (by rw [he, hp]; exact hg)
  exact ⟨by rw [hran.trace, hp, ht], hctl⟩

/-- Settles O45: the first register read that fails ends the poll with the view kept. -/
theorem failedPollKeepsTheView : Obligations.FailedPollKeepsTheView := by
  refine ⟨fun od s b1 b2 pre hi h ho hth hb hf hr hw hpre hg => ?_,
    fun s r1 r2 r3 hi h hpw hw h1 h2 h3 => ?_, fun s hi h hw => ?_⟩
  · obtain ⟨t, hx⟩ := ctrlStep_answers s
    obtain ⟨htrace, hctl⟩ := pollStart_refused hr hw hpre hg
    obtain ⟨ht, hc, hout⟩ := step_failedPoll hi h hx hctl (by simp [Alert, ho, hth]) hb hf
    refine ⟨t, hx, by rw [ht]; rfl, ?_, hc, hout⟩
    rw [ht, iterEnd_trace, afterPoll_polls hi h, htrace]
  · obtain ⟨t, hx⟩ := ctrlStep_answers s
    obtain ⟨f1, f2, f3, ok⟩ := poll_reads (now := s.ports.nowMs) (pollStart_busSide s) hpw h1 h2 h3
    refine ⟨t, hx, fun n1 => step_pollFailed hi h hx (f1 n1),
      fun y1 n2 => step_pollFailed hi h hx (f2 y1 n2),
      fun y1 y2 n3 => step_pollFailed hi h hx (f3 y1 y2 n3), fun y1 y2 y3 => ?_⟩
    obtain ⟨hside, hctl⟩ := ok y1 y2 y3
    obtain ⟨hres, hk⟩ := step_keepsView h.unblocked hx
    rw [← afterPoll_polls hi h] at hside hctl
    refine ⟨hres, (busSide_lines hside).2.2.2 ▸ hk.lines, hk.polled ?_⟩
    rw [hctl]
    exact applyPoll_view hw _ _ _ _ _ rfl
  · obtain ⟨t, hx⟩ := ctrlStep_answers s
    obtain ⟨hres, hk⟩ := step_keepsView h.unblocked hx
    obtain ⟨-, hp, -⟩ := pollStart_rest s
    obtain hc | ⟨b1, b2, b3, hc⟩ := poll_view_cases s.ports.nowMs (pollStart s)
    · have hfail := step_pollFailed (r := poll s.ports.nowMs (pollStart s)) hi h hx ⟨hc, rfl⟩
      exact ⟨t, hx, hres, hfail.time, .inl ⟨hfail.status, hfail.valid, hfail.charging, hfail.battery⟩⟩
    · have hview : PolledView s.par s.ports.nowMs b1 b2 b3 t.ctl := hk.polled <| by
        rw [afterPoll_polls hi h, hc, hp]
        exact applyPoll_view hw _ _ _ _ _ rfl
      exact ⟨t, hx, hres, hview.time, .inr ⟨b1, b2, b3, hview⟩⟩

/-! ## The end of the dwell (R104, R113) -/

/-- The timers of an iteration that ends the dwell. -/
theorem timersState_dwellEnds {s : State} (hi : CtlInv s) (hc : s.ctl.pstate = .coolingDown) :
    dwellOver s.ctl = { s.ctl with pstate := .sleeping, overTemp := false } ∧
      (timersState s).out = { s.out with powerRail := false, fanMode := .off, shutdownReq := false } := by
  have hne : s.ctl.pstate ≠ .powered := by rw [hc]; decide
  have hd : dwellOver s.ctl = { s.ctl with pstate := .sleeping, overTemp := false } := by
    rw [dwellOver, if_pos hc]
  refine ⟨hd, ?_⟩
  simp only [timersState, hd, request_off hi hne, rail_off hi hne, Bool.false_and, PState.fan]

/-- Settles O51: the end of the dwell clears the flag before the alert, the poll and the fault transitions. -/
theorem dwellEndsInSleeping : Obligations.DwellEndsInSleeping := by
  refine ⟨fun od s b1 b2 b3 hi hu hc hd hth hp hr hw hg hcool => ?_,
    fun s hi hu hc hd hth hp hb hf => ?_⟩
  · obtain ⟨hover, hout⟩ := timersState_dwellEnds hi hc
    have h : Polls s := ⟨hu, hp, noShutdownEnd_of_ne hi (by rw [hc]; decide), fun _ => hd⟩
    obtain ⟨hran, hview, hot, hshape⟩ := pollStart_ran hr hw hg
    rw [← afterPoll_polls hi h] at hran hview hot hshape
    have ho : (afterPoll s).ctl.overTemp = false := by simpa [hover, hth, hcool] using hot
    have hbat : BatteryFault (afterPoll s).ctl ↔ (decodedStatus s.par b1 b2).fault.battery = true := by
      rw [BatteryFault, hview.valid, hview.status]
      exact and_iff_right rfl
    obtain ⟨t, hx⟩ := ctrlStep_answers s
    obtain ⟨hres, hk⟩ := step_keepsView hu hx
    refine ⟨t, hx, hres, hk.overTemp.trans ho, hk.polled hview, fun hb hf => ?_, fun hb => ?_⟩
    · have ht := step_rests hu hx ho (by rw [hbat, hb]; decide) hf
      obtain ⟨-, hpout, hbtn⟩ := afterPoll_shape s
      refine ⟨by rw [ht, iterEnd_btn, hbtn], by rw [ht, iterEnd_trace, hran.trace], ?_, ?_⟩
      · rw [ht, iterEnd_ctl, hshape, hover, ho]
      · rw [ht, iterEnd_out, hpout, afterTimers_polls hi h.shutdown h.dwell, hout]
    · have hs := step_ships hu hx (h.awake hi) ho (hbat.mpr hb)
      exact ⟨by rw [hs.ctl], by rw [hs.ctl], hs.out⟩
  · obtain ⟨hover, hout⟩ := timersState_dwellEnds hi hc
    have htimers := afterTimers_polls hi (noShutdownEnd_of_ne hi (by rw [hc]; decide)) fun _ => hd
    obtain ⟨-, -, -, hpout, hbtn, -, hctl⟩ := beforePoll_rest s
    have hpoll := afterPoll_not_due hp
    have hc' : (afterPoll s).ctl =
        { s.ctl with pstate := .sleeping, overTemp := false, flashActive := flashStill s } := by
      rw [hpoll, hctl, hth, htimers, timersState, hover]
      rfl
    obtain ⟨t, hx⟩ := ctrlStep_answers s
    have ht := step_rests hu hx (by rw [hc']) (by rw [hc']; exact hb) hf
    refine ⟨t, hx, by rw [ht]; rfl, by rw [ht, iterEnd_btn, hpoll, hbtn], by rw [ht, iterEnd_ctl, hc'], ?_⟩
    rw [ht, iterEnd_out, hpoll, hpout, htimers, hout]

end Sys2Proof.Machine
end

section
/-! SUPPORT. The soft shutdown: a hold in Powered, and the timers of one that is pending
(spec/42_charge_controller.md R109, R110, R113). -/

namespace Sys2Proof.Machine

/-! ## The timers in Powered (R110) -/

/-- The timers in Powered where no soft shutdown ends: the flash timer and the request line's. -/
theorem afterTimers_powered {s : State} (hi : CtlInv s) (hn : NoShutdownEnd s)
    (hp : s.ctl.pstate = .powered) :
    (afterTimers s).ctl = { s.ctl with flashActive := flashStill s } ∧
      (afterTimers s).out = { s.out with
        shutdownReq := s.out.shutdownReq && decide (elapsed s.ports.nowMs s.ctl.ssdStart < 30) } := by
  have hd : dwellOver s.ctl = s.ctl := dwellOver_of_ne (by rw [hp]; decide)
  rw [afterTimers_polls hi hn fun h => by rw [hp] at h; cases h]
  refine ⟨by rw [timersState, hd], ?_⟩
  rw [timersState, hd, ← hi.fan]

/-- Timers that leave Powered found it, and ended no soft shutdown. -/
theorem powered_of_afterTimers {s : State} (hi : CtlInv s) (h : (afterTimers s).ctl.pstate = .powered) :
    NoShutdownEnd s ∧ s.ctl.pstate = .powered := by
  obtain hn | he := noShutdownEnd_or_ends s
  · refine ⟨hn, ?_⟩
    by_cases hc : s.ctl.pstate = .coolingDown
    · by_cases hd : elapsed s.ports.nowMs s.ctl.coolStart < 120000
      · rw [afterTimers_dwell hi hc hd] at h
        exact h
      · rw [afterTimers_polls hi hn fun _ => by omega] at h
        have hsleep : (dwellOver s.ctl).pstate = .sleeping := by rw [dwellOver, if_pos hc]
        exact absurd (hsleep.symm.trans h) nofun
    · rw [afterTimers_polls hi hn fun h => absurd h hc, timersState, dwellOver_of_ne hc] at h
      exact h
  · rw [(afterTimers_shutdown hi he).1] at h
    cases h

/-! ## A hold in Powered (R109) -/

/-- The controller before a hold in Powered: that before the iteration, but for the view and the flash
timer. -/
theorem afterFaults_powered {s : State} (hi : CtlInv s) (h : (afterFaults s).ctl.pstate = .powered) :
    afterFaults s = afterPoll s ∧
      (afterPoll s).ctl = { s.ctl with
        flashActive := flashStill s
        status := (afterPoll s).ctl.status, statusValid := (afterPoll s).ctl.statusValid
        charging := (afterPoll s).ctl.charging, battery := (afterPoll s).ctl.battery
        lastPoll := (afterPoll s).ctl.lastPoll } ∧
      (afterPoll s).out = { s.out with
        shutdownReq := s.out.shutdownReq && decide (elapsed s.ports.nowMs s.ctl.ssdStart < 30) } ∧
      NoShutdownEnd s ∧ s.ctl.pstate = .powered := by
  obtain ⟨hfa, hcool⟩ := faultTransitions_powered (now := s.ports.nowMs) (s := afterPoll s) h
  rw [afterFaults_eq, hfa, afterPoll_pstate] at h
  obtain ⟨hn, hp⟩ := powered_of_afterTimers hi h
  obtain ⟨hctl, hout⟩ := afterTimers_powered hi hn hp
  obtain ⟨hshape, hpout, -⟩ := afterPoll_shape s
  have hover : s.ctl.overTemp = false := by
    have h' := mt (fun ho => afterPoll_overTemp (s := s) (.inr ho)) (by rw [hcool]; decide)
    rw [hctl] at h'
    simpa using h'
  refine ⟨hfa, ?_, by rw [hpout, hout], hn, hp⟩
  rw [hctl, hcool, ← hover] at hshape
  exact hshape

/-- A poll phase sets the time of a poll that is due, and else keeps the view. -/
theorem afterPoll_time {s : State} (h : PollDue s) (hc : (afterTimers s).ctl.pstate ≠ .coolingDown) :
    (afterPoll s).ctl.lastPoll = s.ports.nowMs := by
  rw [afterPoll_due h hc, (poll_shape _ _).1]

theorem afterPoll_kept {s : State} (h : ¬PollDue s) :
    (afterPoll s).ctl.status = s.ctl.status ∧ (afterPoll s).ctl.statusValid = s.ctl.statusValid ∧
      (afterPoll s).ctl.charging = s.ctl.charging ∧ (afterPoll s).ctl.battery = s.ctl.battery ∧
      (afterPoll s).ctl.lastPoll = s.ctl.lastPoll := by
  obtain ⟨hstatus, hvalid, hlast, hbat, hcharging, -⟩ := afterTimers_view (s := s)
  obtain ⟨-, -, -, -, -, -, hctl⟩ := beforePoll_rest s
  rw [afterPoll_not_due h, hctl]
  exact ⟨hstatus, hvalid, hcharging, hbat, hlast⟩

/-- Settles O53: the timers, the poll and the fault transitions leave the controller in Powered, where the
hold is arbitrated. The second clause is the first one's case in which they leave Powered as it was. -/
theorem holdInPoweredShutsDown : Obligations.HoldInPoweredShutsDown := by
  refine (and_iff_left_of_imp fun hclause s hi hu hp hf hn hs => ?_).mpr fun s hi hu hf h => ?_
  · obtain ⟨hctl, -⟩ := afterTimers_powered hi hs hp
    have hfa := afterFaults_quiet hn (by rw [hctl]; exact hn.cool)
    have h : (afterFaults s).ctl.pstate = .powered := by
      rw [hfa, debouncePhase, onBtn_ctl, hctl]
      exact hp
    obtain ⟨t, hx, hres, hbtn, -, hkept, hpend, hhand, hoff⟩ := hclause s hi hu hf h
    obtain ⟨hst, hv, hch, hbat, hl⟩ := hkept hn.poll
    rw [hst, hv, hch, hbat, hl] at hpend hhand hoff
    refine ⟨t, hx, hres, hbtn, fun hp' => ⟨(hpend hp').1, ?_⟩, hhand, hoff⟩
    rw [(hpend hp').2]
    exact hi.rail.mpr hp
  · obtain ⟨hfa, hctl, hout, -, -⟩ := afterFaults_powered hi h
    have hpstate : (heldState s).ctl.pstate = .powered := h
    have hheld : (heldState s).ctl = (afterPoll s).ctl := by rw [heldState_ctl, hfa]
    have hpend : (heldState s).ctl.ssdPending = s.ctl.ssdPending := by rw [hheld, hctl]
    have hx := execCtrlStep_hold hu hf
    obtain ⟨hres, hk⟩ := step_keepsView hu hx
    refine ⟨_, hx, hres, arbitrate_heldState_btn hf, fun hp => ?_, fun hp => ?_, fun hp => ?_,
      fun hp hh => ?_, fun hh => ?_⟩
    · rw [hk.time]
      exact afterPoll_time hp (by rw [← afterPoll_pstate, ← hfa, h]; decide)
    · rw [hk.status, hk.valid, hk.charging, hk.battery, hk.time]
      exact afterPoll_kept hp
    · rw [arbitrate_pending hpstate (hpend.trans hp), iterEnd_out, iterEnd_ctl, hheld, heldState_out, hfa,
        hout]
      exact ⟨hctl, rfl⟩
    · rw [arbitrate_handshake hpstate (hpend.trans hp) (by rw [heldState_par]; exact hh), iterEnd_out,
        iterEnd_ctl, requestShutdown, onOut_ctl, onCtl_ctl, onOut_out, onCtl_out, hheld, heldState_out, hfa, hout, hctl]
      exact ⟨rfl, rfl⟩
    · have hp : s.ctl.ssdPending = false := by simpa [hh] using mt hi.pending
      rw [arbitrate_off hpstate (hpend.trans hp) (by rw [heldState_par]; exact hh), iterEnd_out,
        iterEnd_ctl, enterSleeping_ctl, enterSleeping_out, hheld, heldState_out, hfa, hout, hctl, ← hp]
      exact ⟨rfl, rfl⟩

end Sys2Proof.Machine
end

section
/-! SUPPORT. The timers of a pending soft shutdown, in every iteration (spec/42_charge_controller.md R110). -/

namespace Sys2Proof.Machine

/-! ## What an iteration with a pending soft shutdown leads to -/

/-- In every state but Powered the shutdown, the sampling, the rail and the request line are off. -/
theorem CtlInv.off {s : State} (hi : CtlInv s) (h : s.ctl.pstate ≠ .powered) :
    s.ctl.ssdPending = false ∧ s.ctl.adcCont = false ∧ s.out.powerRail = false ∧
      s.out.shutdownReq = false :=
  ⟨pending_off hi h, sampling_off hi h, rail_off hi h, request_off hi h⟩

/-- An iteration with no hold whose timers left Powered does not come back to it. -/
theorem step_not_powered {s t : State} (hrun : s.ctl.phase = .run) (hs : s.ctl.pstate ≠ .shippingMode)
    (hf : ¬HoldFires s) (ht : (afterTimers s).ctl.pstate ≠ .powered) (hx : exec .ctrlStep s = .next t) :
    t.ctl.pstate ≠ .powered := by
  by_cases hb : s.btn.awaitRelease = true
  · obtain ⟨-, hctl, -⟩ := step_blocked hrun hs hb hx
    rwa [hctl]
  · cases (execCtrlStep_noHold ⟨hrun, hs, by simpa using hb⟩ hf).symm.trans hx
    intro hp
    obtain ⟨hfa, -⟩ := faultTransitions_powered (now := s.ports.nowMs) (s := afterPoll s) hp
    rw [iterEnd_ctl, afterFaults_eq, hfa, afterPoll_pstate] at hp
    exact ht hp

/-- A hold while a soft shutdown is pending only blocks the button (R109). -/
theorem execCtrlStep_pending {s : State} (hu : Unblocked s) (hp : (afterFaults s).ctl.pstate = .powered)
    (hs : (afterFaults s).ctl.ssdPending = true) :
    ∃ f : Btn → Btn, exec .ctrlStep s = .next (iterEnd s.ports.nowMs ((afterFaults s).onBtn f)) := by
  by_cases hf : HoldFires s
  · refine ⟨Btn.block s.ports.nowMs, ?_⟩
    rw [execCtrlStep_hold hu hf, arbitrate_pending (by exact hp) (by exact hs)]
    rfl
  · exact ⟨id, execCtrlStep_noHold hu hf⟩

/-- A soft shutdown that does not end stays pending in Powered, or a fault transition ends it. -/
theorem step_pending {s t : State} (hi : CtlInv s) (hrun : s.ctl.phase = .run)
    (hp : s.ctl.ssdPending = true) (hn : NoShutdownEnd s) (hx : exec .ctrlStep s = .next t) :
    (t.ctl.pstate = .powered ∧ t.ctl.ssdPending = true ∧ t.ctl.ssdStart = s.ctl.ssdStart ∧
        t.out.powerRail = true ∧ t.out.shutdownReq =
          (s.out.shutdownReq && decide (elapsed s.ports.nowMs s.ctl.ssdStart < 30))) ∨
      (t.ctl.overTemp = true ∧ t.ctl.pstate = .coolingDown ∨
        BatteryFault t.ctl ∧ t.ctl.pstate = .shippingMode) := by
  obtain ⟨hpow, -⟩ := hi.pending hp
  have hrail : s.out.powerRail = true := hi.rail.mpr hpow
  obtain ⟨hctl, hout⟩ := afterTimers_powered hi hn hpow
  obtain ⟨hshape, hpout, -⟩ := afterPoll_shape s
  have hs : s.ctl.pstate ≠ .shippingMode := by rw [hpow]; decide
  by_cases hb : s.btn.awaitRelease = true
  · obtain ⟨-, hc, -, ho, -⟩ := step_blocked hrun hs hb hx
    refine .inl ?_
    rw [hc, ho, hctl, hout]
    exact ⟨hpow, hp, rfl, hrail, rfl⟩
  have hu : Unblocked s := ⟨hrun, hs, by simpa using hb⟩
  rw [hctl] at hshape
  rw [hout] at hpout
  have hap : (afterPoll s).ctl.pstate = .powered := by rw [hshape]; exact hpow
  have hawake : (afterPoll s).ctl.pstate ≠ .coolingDown := by rw [hap]; decide
  cases hov : (afterPoll s).ctl.overTemp with
  | true =>
    have hc := step_cools hu hx hawake hov
    exact .inr (.inl (by rw [hc.ctl]; exact ⟨hov, rfl⟩))
  | false =>
    by_cases hbat : BatteryFault (afterPoll s).ctl
    · have hc := step_ships hu hx hawake hov hbat
      exact .inr (.inr (by rw [hc.ctl]; exact ⟨hbat, rfl⟩))
    · have hfa := afterFaults_none hov hbat
      obtain ⟨f, hx'⟩ := execCtrlStep_pending hu (by rw [hfa, hap]) (by rw [hfa, hshape]; exact hp)
      cases hx'.symm.trans hx
      refine .inl ?_
      rw [iterEnd_out, iterEnd_ctl, onBtn_ctl, onBtn_out, hfa, hshape, hpout]
      exact ⟨hpow, hp, rfl, hrail, rfl⟩

/-! ## The timers alone -/

/-- Blocked or not, an iteration with no fault, no poll and no hold leaves what its timers do. -/
theorem step_timers {s t : State} (hrun : s.ctl.phase = .run) (hs : s.ctl.pstate ≠ .shippingMode)
    (hn : NoFault s) (hov : (afterTimers s).ctl.overTemp = false) (hf : ¬HoldFires s)
    (hx : exec .ctrlStep s = .next t) :
    t.ctl = (afterTimers s).ctl ∧ t.trace = (afterTimers s).trace ∧
      t.out = { (afterTimers s).out with ledMode := t.out.ledMode, ledOn := t.out.ledOn } := by
  by_cases hb : s.btn.awaitRelease = true
  · obtain ⟨-, hctl, htrace, hout, -⟩ := step_blocked hrun hs hb hx
    exact ⟨hctl, htrace, hout⟩
  · rw [execCtrlStep_noHold ⟨hrun, hs, by simpa using hb⟩ hf, afterFaults_quiet hn hov] at hx
    cases hx
    exact ⟨rfl, rfl, iterEnd_out _ _⟩

/-- The LED of an iteration that starts the fault pattern is lit (R119). -/
theorem step_flash {s t : State} (hrun : s.ctl.phase = .run) (hx : exec .ctrlStep s = .next t)
    (hfl : t.ctl.flashActive = true) (hst : t.ctl.flashStart = s.ports.nowMs) :
    t.out.ledMode = 5#3 ∧ t.out.ledOn = true := by
  obtain ⟨t', hx', hend⟩ := execCtrlStep_runEnd hrun
  cases hx'.symm.trans hx
  obtain ⟨hmode, hon⟩ := hend.led.1 hfl
  exact ⟨hmode, hon.mpr (by rw [hst, elapsed_self])⟩

/-- The poll of the iteration that ends a soft shutdown, on a peer that acknowledges (R101). -/
theorem afterPoll_shutdown {od : Bool} {s : State} {off : Byte × Byte} {b1 b2 b3 : Byte} (hi : CtlInv s)
    (he : ShutdownEnds s) (hp : PollDue s) (hr : BusReady od s) (hw : s.par.wf = true)
    (hm : FieldMerged s.par .adcContinuous s.par.adcOffValue off.1 off.2)
    (hg : s.env.gives (frameAnswers od
      (fieldWriteFrame s.par .adcContinuous off.1 off.2 ++ pollFrame s.par b1 b2 b3))) :
    PolledView s.par s.ports.nowMs b1 b2 b3 (afterPoll s).ctl ∧
      (afterPoll s).ctl.overTemp =
        (s.ctl.overTemp || s.ev.flag.thermal || (decodedStatus s.par b1 b2).fault.thermal) := by
  rw [frameAnswers_append, Env.gives_append] at hg
  obtain ⟨hctl, -⟩ := afterTimers_shutdown hi he
  have hran := afterTimers_shutdown_ran hi he hr hw hm hg.1
  obtain ⟨hbus, henv, htrace, -, -, hpar, hbctl⟩ := beforePoll_rest s
  rw [afterPoll_due hp (by rw [hctl]; exact nofun)]
  have hbran := hran.off hbus henv htrace
  obtain ⟨-, hpoll⟩ := poll_ran (od := od) s.ports.nowMs (hr.ran hbran) (by rw [hpar]; exact hw)
    (by rw [hbran.env, hpar]; exact hg.2)
  rw [hpar] at hpoll
  have hview := applyPoll_view hw s.ports.nowMs b1 b2 b3
    { (beforePoll s).ctl with lastPoll := s.ports.nowMs } rfl
  rw [← hpoll] at hview
  refine ⟨hview, ?_⟩
  rw [← hview.status, hpoll, hbctl, hctl]
  rfl

/-- Settles O54: a soft shutdown ends in the timers of phase 2, before the iteration blocks, polls or takes a
fault transition. -/
theorem softShutdownTimers : Obligations.SoftShutdownTimers := by
  refine ⟨fun s hi hrun he hf => ?_, fun s hi hrun hp hn => ?_,
    fun od s off b1 b2 b3 hi hu he hp ha hf hr hw hm hg hcool hbat => ?_, fun s hi hrun hp hn hf => ?_⟩
  · obtain ⟨t, hx⟩ := ctrlStep_answers s
    have hpow := (hi.pending he.1).1
    have hne := step_not_powered hrun (by rw [hpow]; decide) hf
      (by rw [(afterTimers_shutdown hi he).1]; exact nofun) hx
    exact ⟨t, hx, hne, (exec_ctlInv hi hx).off hne⟩
  · obtain ⟨t, hx⟩ := ctrlStep_answers s
    refine ⟨t, hx, (step_pending hi hrun hp hn hx).imp_right fun h => ?_⟩
    have hne : t.ctl.pstate ≠ .powered := by
      obtain ⟨-, h⟩ | ⟨-, h⟩ := h <;> rw [h] <;> decide
    obtain ⟨hpend, -, hrail, hreq⟩ := (exec_ctlInv hi hx).off hne
    exact ⟨h, hpend, hrail, hreq⟩
  · obtain ⟨hview, hov⟩ := afterPoll_shutdown hi he hp hr hw hm hg
    obtain ⟨hctl, hout⟩ := afterTimers_shutdown hi he
    obtain ⟨hshape, hpout, hbtn⟩ := afterPoll_shape s
    have hd : dwellOver s.ctl = s.ctl := dwellOver_of_ne (by rw [(hi.pending he.1).1]; decide)
    simp only [Alert, hd, not_or, Bool.not_eq_true] at ha
    obtain ⟨hth, hover⟩ := ha
    replace hov : (afterPoll s).ctl.overTemp = s.ctl.overTemp := by rw [hov, hover, hth, hcool]; rfl
    have hb : ¬BatteryFault (afterPoll s).ctl := by
      rw [BatteryFault, hview.status, hbat]
      exact fun h => absurd h.2 (by decide)
    obtain ⟨t, hx⟩ := ctrlStep_answers s
    cases step_rests hu hx (hov.trans hover) hb hf
    rw [hctl, hov, hview.valid, hview.time] at hshape
    refine ⟨_, hx, rfl, hbtn, hview, ?_, fun hack => ?_, fun hack => ?_, ?_⟩
    · rw [iterEnd_ctl, hshape]
    · rw [iterEnd_ctl, hshape]
      simp only [hack, if_true, and_self]
    · rw [iterEnd_ctl, hshape]
      simp only [hack, Bool.false_eq_true, if_false, and_self]
    · rw [iterEnd_out, hpout, hout]
  · have hpow := (hi.pending hp).1
    have hs : s.ctl.pstate ≠ .shippingMode := by rw [hpow]; decide
    obtain ⟨t, hx⟩ := ctrlStep_answers s
    obtain ⟨hover, -⟩ := afterTimers_keep (s := s) (by rw [hpow]; decide)
    obtain ⟨hctl, htrace, hout⟩ := step_timers hrun hs hn (hover.trans hn.cool) hf hx
    refine ⟨t, hx, fun hack => ?_, fun hack hlong => ?_, fun hack hshort => ?_⟩
    · obtain ⟨ht, ho⟩ := afterTimers_shutdown hi ⟨hp, .inl hack⟩
      rw [ht] at hctl
      rw [ho] at hout
      refine ⟨?_, hout⟩
      simpa only [hack, if_true] using hctl
    · obtain ⟨ht, ho⟩ := afterTimers_shutdown hi ⟨hp, .inr hlong⟩
      rw [ht] at hctl
      rw [ho] at hout
      simp only [hack, Bool.false_eq_true, if_false] at hctl
      obtain ⟨hmode, hon⟩ := step_flash hrun hx (by rw [hctl]) (by rw [hctl])
      refine ⟨hctl, ?_⟩
      rw [hout, hmode, hon]
    · have hne : NoShutdownEnd s := fun _ => ⟨hack, hshort⟩
      obtain ⟨ht, ho⟩ := afterTimers_powered hi hne hpow
      rw [ht] at hctl
      rw [ho] at hout
      refine ⟨hctl, ?_, hout⟩
      rw [htrace, afterTimers_polls hi hne fun h => by rw [hpow] at h; cases h]
      rfl

end Sys2Proof.Machine
end

section
/-! SUPPORT. The bus traffic of an iteration outside the dwell (spec/42_charge_controller.md R106 to R116). -/

namespace Sys2Proof.Machine

/-! ## An iteration in two parts -/

/-- What phases 1 to 5 leave in the controller, `start` being what the timers and `o` what the poll phase
left. -/
structure PolledAs (s : State) (start : PState) (o : PollOutcome) : Prop where
  start_cases : start = .sleeping ∨ start = .powered
  pstate : (afterPoll s).ctl.pstate = start
  adc : (afterPoll s).ctl.adcCont = true ↔ start = .powered
  pending : (afterPoll s).ctl.ssdPending = true → s.ctl.ssdPending = true
  overTemp : (afterPoll s).ctl.overTemp = true ↔ Alert s ∨ o.hot = true
  status : (afterPoll s).ctl.status = o.status
  valid : (afterPoll s).ctl.statusValid = o.valid
  mV : (afterPoll s).ctl.battery.mV.toNat = o.mV
  charging : (afterPoll s).ctl.charging = true ↔ o.status.chargeState ≠ .notCharging

/-- On a peer that answers as the frame `f` says, phases 6 to 8 make exactly that frame on the lines and end in
power state `p`. -/
def EntryMakes (od : Bool) (s : State) (f : List Sym) (p : PState) : Prop :=
  (afterPoll s).env.gives (frameAnswers od f) →
    ∃ t, exec .ctrlStep s = .next t ∧ t.trace = (frameEvents od f).reverse ++ (afterPoll s).trace ∧
      t.ctl.pstate = p

/-- An iteration makes the frame of its phases 1 to 5 and then that of its phases 6 to 8. -/
theorem stepMakes_of_entry {od : Bool} {s : State} {f g : List Sym} {p : PState}
    (hf : s.env.gives (frameAnswers od f) →
      Ran (frameAnswers od f) (frameEvents od f) s (afterPoll s) ∧ EntryMakes od s g p) :
    StepMakes od s (f ++ g) p := by
  intro hg
  rw [frameAnswers_append, Env.gives_append] at hg
  obtain ⟨hran, hentry⟩ := hf hg.1
  obtain ⟨t, hx, htrace, hp⟩ := hentry (by rw [hran.env]; exact hg.2)
  refine ⟨t, hx, ?_, hp⟩
  rw [htrace, hran.trace, frameEvents_append, List.reverse_append, List.append_assoc]

/-! ## The entry actions' writes -/

/-- The field write that ends continuous sampling, which only Powered has on (R113 to R115). -/
def samplingOff (p : Params) (off : Byte × Byte) (start : PState) : List Sym :=
  if start = .powered then fieldWriteFrame p .adcContinuous off.1 off.2 else []

section
variable {od : Bool} {s : State} {start : PState} {o : PollOutcome} {off on iso : Byte × Byte}

/-- The bus and the parameters phases 6 to 8 start from. -/
structure EntryReady (od : Bool) (s : State) : Prop where
  ready : BusReady od (afterPoll s)
  legal : (afterPoll s).par.wf = true

/-- The timers and the poll leave the controller outside CoolingDown. -/
theorem PolledAs.awake (h : PolledAs s start o) : (afterPoll s).ctl.pstate ≠ .coolingDown := by
  rw [h.pstate]
  obtain h | h := h.start_cases <;> rw [h] <;> decide

/-- An over-temperature, ahead of all else (R107, R114). -/
theorem entry_cools (hu : Unblocked s) (h : PolledAs s start o) (hr : EntryReady od s)
    (hm : FieldMerged s.par .adcContinuous s.par.adcOffValue off.1 off.2) (ha : Alert s ∨ o.hot = true) :
    EntryMakes od s (samplingOff s.par off start) .coolingDown := by
  intro hg
  obtain ⟨t, hx⟩ := ctrlStep_answers s
  have hc := step_cools hu hx h.awake
    (h.overTemp.mpr ha)
  refine ⟨t, hx, hc.trace.trans ?_, by rw [hc.ctl]⟩
  rw [← afterPoll_par s] at hm hg ⊢
  unfold samplingOff at hg ⊢
  split
  · rename_i hp
    rw [if_pos hp] at hg
    exact (enterCoolingDown_ran _ (h.adc.mpr hp) hr.ready hr.legal hm hg).trace
  · rename_i hp
    exact (enterCoolingDown_idle _ (by simpa [hp] using h.adc)).trace

/-- A battery fault without one (R107, R115). -/
theorem entry_ships (hu : Unblocked s) (h : PolledAs s start o) (hr : EntryReady od s)
    (hm : FieldMerged s.par .adcContinuous s.par.adcOffValue off.1 off.2)
    (hi : FieldMerged s.par .batfetControl s.par.isolateValue iso.1 iso.2)
    (ha : ¬Alert s) (hh : o.hot = false) (hv : o.valid = true) (hb : o.status.fault.battery = true) :
    EntryMakes od s
      (samplingOff s.par off start ++ fieldWriteFrame s.par .batfetControl iso.1 iso.2) .shippingMode := by
  intro hg
  obtain ⟨t, hx⟩ := ctrlStep_answers s
  have hc := step_ships hu hx h.awake
    (by simpa [ha, hh] using h.overTemp) ⟨h.valid.trans hv, by rw [h.status]; exact hb⟩
  refine ⟨t, hx, hc.trace.trans ?_, by rw [hc.ctl]⟩
  rw [← afterPoll_par s] at hm hi hg ⊢
  unfold samplingOff at hg ⊢
  split
  · rename_i hp
    rw [if_pos hp] at hg
    exact (enterShipping_ran _ (h.adc.mpr hp) hr.ready hr.legal hm hi hg).trace
  · rename_i hp
    rw [if_neg hp] at hg
    exact (enterShipping_isolates _ (by simpa [hp] using h.adc) hr.ready hr.legal hi hg).trace

/-- With no fault acting, the fault transitions leave what the poll phase left (R107). -/
theorem PolledAs.no_fault (h : PolledAs s start o) (ha : ¬Alert s) (hh : o.hot = false)
    (hb : ¬(o.valid = true ∧ o.status.fault.battery = true)) : afterFaults s = afterPoll s :=
  afterFaults_none (by simpa [ha, hh] using h.overTemp) (by
    rw [BatteryFault, h.valid, h.status]
    exact hb)

/-- Neither a fault nor a hold. -/
theorem entry_rests (hu : Unblocked s) (h : PolledAs s start o) (hfa : afterFaults s = afterPoll s)
    (hf : ¬HoldFires s) : EntryMakes od s [] start := fun _ =>
  ⟨_, execCtrlStep_noHold hu hf, by rw [iterEnd_trace, hfa]; rfl, by rw [iterEnd_ctl, hfa]; exact h.pstate⟩

/-- The precondition of R108 in the terms of the poll phase. -/
theorem PolledAs.allows_iff (h : PolledAs s .sleeping o) :
    PowerOnWords (afterPoll s).ctl ↔ o.Allows := by
  have hfault : ∀ f : FaultBits, (f.thermal = false ∧ f.battery = false ∧ f.charger = false ∧
      f.boost = false ∧ f.watchdog = false) ↔ f = ⟨false, false, false, false, false⟩ := fun f => by
    cases f
    simp
  rw [PowerOnWords, PollOutcome.Allows, h.valid, h.mV, h.charging, h.status, h.pstate, hfault]
  simp

/-- A hold in Sleeping with the precondition (R108, R112). -/
theorem entry_powers (hu : Unblocked s) (h : PolledAs s .sleeping o) (hr : EntryReady od s)
    (hm : FieldMerged s.par .adcContinuous s.par.adcOnValue on.1 on.2)
    (hfa : afterFaults s = afterPoll s) (hf : HoldFires s) (ha : o.Allows) :
    EntryMakes od s (fieldWriteFrame s.par .adcContinuous on.1 on.2) .powered := by
  intro hg
  have hheld : (heldState s).ctl = (afterPoll s).ctl := by rw [heldState_ctl, hfa]
  obtain ⟨-, har⟩ | ⟨hn, -⟩ := arbitrate_sleeping s.ports.nowMs (s := heldState s) (hheld ▸ h.pstate)
  · refine ⟨_, execCtrlStep_hold hu hf, ?_, by rw [iterEnd_ctl, har, enterPowered_ctl]⟩
    rw [iterEnd_trace, har, heldState, hfa]
    rw [← afterPoll_par s] at hm hg ⊢
    exact (enterPowered_ran (s := (afterPoll s).onBtn _) hr.ready hr.legal hm hg).trace
  · exact absurd (hheld ▸ h.allows_iff.mpr ha) hn

/-- A hold in Sleeping without it (R109). -/
theorem entry_refused (hu : Unblocked s) (h : PolledAs s .sleeping o)
    (hfa : afterFaults s = afterPoll s) (hf : HoldFires s) (ha : ¬o.Allows) :
    EntryMakes od s [] .sleeping := by
  intro _
  have hheld : (heldState s).ctl = (afterPoll s).ctl := by rw [heldState_ctl, hfa]
  obtain ⟨hw, -⟩ | ⟨-, har⟩ := arbitrate_sleeping s.ports.nowMs (s := heldState s) (hheld ▸ h.pstate)
  · exact absurd (h.allows_iff.mp (hheld ▸ hw)) ha
  · refine ⟨_, execCtrlStep_hold hu hf, ?_, ?_⟩
    · rw [iterEnd_trace, har, startFlash, onCtl_trace, heldState_trace, hfa]
      rfl
    · rw [iterEnd_ctl, har, startFlash, onCtl_ctl, hheld]
      exact h.pstate

/-- With a handshake a hold in Powered makes no line activity and stays there (R109). -/
theorem arbitrate_handshake_quiet {now : Word} {u : State} (hp : u.ctl.pstate = .powered)
    (hh : u.par.handshake = true) :
    (arbitrate now u).trace = u.trace ∧ (arbitrate now u).ctl.pstate = .powered := by
  cases hs : u.ctl.ssdPending with
  | true => rw [arbitrate_pending hp hs]; exact ⟨rfl, hp⟩
  | false => rw [arbitrate_handshake hp hs hh]; exact ⟨rfl, hp⟩

/-- A hold in Powered with a handshake (R109). -/
theorem entry_handshake (hu : Unblocked s) (h : PolledAs s .powered o)
    (hfa : afterFaults s = afterPoll s) (hf : HoldFires s) (hh : s.par.handshake = true) :
    EntryMakes od s [] .powered := by
  intro _
  obtain ⟨htrace, hp⟩ := arbitrate_handshake_quiet (now := s.ports.nowMs) (u := heldState s)
    (by rw [heldState_ctl, hfa, h.pstate]) (by rw [heldState_par]; exact hh)
  refine ⟨_, execCtrlStep_hold hu hf, ?_, by rw [iterEnd_ctl, hp]⟩
  rw [iterEnd_trace, htrace, heldState_trace, hfa]
  rfl

/-- A hold in Powered without one (R109, R113). -/
theorem entry_off (hi : CtlInv s) (hu : Unblocked s) (h : PolledAs s .powered o) (hr : EntryReady od s)
    (hm : FieldMerged s.par .adcContinuous s.par.adcOffValue off.1 off.2)
    (hfa : afterFaults s = afterPoll s) (hf : HoldFires s) (hh : s.par.handshake = false) :
    EntryMakes od s (samplingOff s.par off .powered) .sleeping := by
  intro hg
  have hp : (heldState s).ctl.pstate = .powered := by rw [heldState_ctl, hfa, h.pstate]
  have hs : (heldState s).ctl.ssdPending = false := by
    have hn : s.ctl.ssdPending ≠ true := fun hs => by simpa [hh] using (hi.pending hs).2
    rw [heldState_ctl, hfa]
    simpa using mt h.pending hn
  have har := arbitrate_off (now := s.ports.nowMs) hp hs (by rw [heldState_par]; exact hh)
  refine ⟨_, execCtrlStep_hold hu hf, ?_, by rw [iterEnd_ctl, har, enterSleeping_ctl]⟩
  rw [iterEnd_trace, har, heldState, hfa]
  rw [samplingOff, if_pos rfl, ← afterPoll_par s] at hg ⊢
  rw [← afterPoll_par s] at hm
  exact (enterSleeping_ran (s := (afterPoll s).onBtn _) (h.adc.mpr rfl) hr.ready hr.legal hm hg).trace

end

/-- Settles O55: the timers and the poll phase make their frame, and then the fault transitions or the hold
theirs. -/
theorem entryActionsWriteTheirFields : Obligations.EntryActionsWriteTheirFields := by
  intro od s off on iso pre start hi hr hw hrun hship hd hoff hon hiso htimers
  refine ⟨fun hb hg => ?_, fun hb o ho => ?_⟩
  · obtain ⟨hran, hp, -⟩ := afterTimers_makes hi hr hw hd hoff htimers hg
    obtain ⟨t, hx⟩ := ctrlStep_answers s
    obtain ⟨-, hctl, htrace, -⟩ := step_blocked hrun hship hb hx
    exact ⟨t, hx, by rw [htrace, hran.trace], by rw [hctl, hp]⟩
  · have hu : Unblocked s := ⟨hrun, hship, hb⟩
    have hmakes : s.env.gives (frameAnswers od (pre ++ o.frame)) →
        Ran (frameAnswers od (pre ++ o.frame)) (frameEvents od (pre ++ o.frame)) s (afterPoll s) ∧
          EntryReady od s ∧ PolledAs s start o := fun hg => by
      obtain ⟨hran, h1, h2, h3, h4, h5, h6, h7, h8, h9⟩ :=
        afterPoll_makes hi hr hw hship hd hoff htimers ho hg
      exact ⟨hran, ⟨hr.ran hran, by rw [afterPoll_par]; exact hw⟩, h1, h2, h3, h4, h5, h6, h7, h8, h9⟩
    have step : ∀ {g p}, (EntryReady od s → PolledAs s start o → EntryMakes od s g p) →
        StepMakes od s (pre ++ o.frame ++ g) p := fun he => stepMakes_of_entry fun hg => by
      obtain ⟨hran, hready, hpolled⟩ := hmakes hg
      exact ⟨hran, he hready hpolled⟩
    have step_nil : ∀ {p}, (EntryReady od s → PolledAs s start o → EntryMakes od s [] p) →
        StepMakes od s (pre ++ o.frame) p := fun he => by
      rw [← List.append_nil (pre ++ o.frame)]
      exact step he
    refine ⟨fun ha => step fun hr' h => entry_cools hu h hr' hoff ha, fun ha hh hv hbat => ?_,
      fun ha hh hbat => ⟨fun hf => ?_, fun hf hs hal => ?_, fun hf hs hal => ?_, fun hf hs hsh => ?_,
        fun hf hs hsh => ?_⟩⟩
    · rw [List.append_assoc (pre ++ o.frame)]
      exact step fun hr' h => entry_ships hu h hr' hoff hiso ha hh hv hbat
    · exact step_nil fun _ h => entry_rests hu h (h.no_fault ha hh hbat) hf
    · subst hs
      exact step fun hr' h => entry_powers hu h hr' hon (h.no_fault ha hh hbat) hf hal
    · subst hs
      exact step_nil fun _ h => entry_refused hu h (h.no_fault ha hh hbat) hf hal
    · subst hs
      exact step_nil fun _ h => entry_handshake hu h (h.no_fault ha hh hbat) hf hsh
    · subst hs
      exact step fun hr' h => entry_off hi hu h hr' hoff (h.no_fault ha hh hbat) hf hsh

end Sys2Proof.Machine
end

section
/-! SUPPORT. CTRL_BOOT and the charging IC: what its probe finds decides, and the bus traffic of a boot that
runs (spec/42_charge_controller.md R99 to R101; spec/70_reset_and_hazards.md R150). -/

namespace Sys2Proof.Machine

/-! ## The two ends of CTRL_BOOT -/

/-- A probe finds the charging IC iff its read is OK and the byte holds the expected identifier (R92). -/
theorem probePresent_iff {e : ByteRead} (hw : e.st.par.wf = true) :
    probePresent e = true ↔ e.res.isOk = true ∧ PartExpected e.st.par e.byte := by
  have h := extract_toNat (Params.wf_field hw .partId) e.byte
  simp only [probePresent, rawOf, fieldDesc, FieldDesc.decodeRaw, h, Bool.and_eq_true, beq_iff_eq]
  rfl

/-- A boot that does not find the charging IC parks with just the lines of its probe (R99, R100). -/
theorem bootEnd_parks {now : Word} {s : State} {e : ByteRead} (hs : SameCore s e.st)
    (h : ¬probePresent e = true) : BootParks s e.st (bootEnd now e) := by
  rw [bootEnd, if_neg h]
  exact ⟨rfl, by rw [finish_ctl, park, onOut_ctl, onCtl_ctl, hs.ctl],
    by rw [finish_out, park, onOut_out, onCtl_out, hs.out], rfl, rfl⟩

/-- A boot that finds it runs, with what the bus does after its probe on the lines (R99). -/
theorem bootEnd_runs {now : Word} {e : ByteRead} (h : probePresent e = true) :
    (bootEnd now e).ctl.phase = .run ∧ (bootEnd now e).ports.result = 0#32 ∧
      SameSetup e.st (bootEnd now e) ∧ ∃ new, (bootEnd now e).trace = new ++ e.st.trace := by
  refine ⟨?_, ?_, sameSetup_loopRel.bootEnd now e, traceGrows.bootEnd now e⟩
  · obtain ⟨u, hu, -, -, hrun⟩ := bootRun_ctl now e.st
    rw [bootEnd, if_pos h, hrun, finish_ctl, updateOutputs_ctl, (poll_shape now u).1, hu]
  · rw [bootEnd, if_pos h]
    rfl

/-! ## The traffic of a boot that runs -/

theorem bootFrame_eq (p : Params) (b : Byte) (cc pc tc cv : Byte × Byte) (b1 b2 b3 : Byte) :
    bootFrame p b cc pc tc cv b1 b2 b3 = readFrame p.chargerAddr p.fields.partId.reg b ++
      (bootWriteFrame p cc pc tc cv ++ pollFrame p b1 b2 b3) := by
  simp only [bootFrame, bootWriteFrame, List.flatten_cons, List.flatten_nil, List.append_nil,
    List.append_assoc]

/-- A boot's outputs change only in the LED (R119). -/
theorem bootRun_out (now : Word) (s : State) : (bootRun now s).out = { s.out with
    ledMode := (bootRun now s).out.ledMode, ledOn := (bootRun now s).out.ledOn } := by
  obtain ⟨u, -, hout, -, hrun⟩ := bootRun_ctl now s
  rw [hrun, updateOutputs_out, poll_out, hout]

/-- The field writes and the first poll on a peer that acknowledges (R99, R101). -/
theorem bootRun_ran {od : Bool} {s : State} (now : Word) {cc pc tc cv : Byte × Byte} {b1 b2 b3 : Byte}
    (h : BusReady od s) (hw : s.par.wf = true)
    (m1 : FieldMerged s.par .chargeCurrent s.par.chargeCurrent cc.1 cc.2)
    (m2 : FieldMerged s.par .prechargeCurrent s.par.prechargeCurrent pc.1 pc.2)
    (m3 : FieldMerged s.par .terminationCurrent s.par.terminationCurrent tc.1 tc.2)
    (m4 : FieldMerged s.par .chargeVoltage s.par.chargeVoltage cv.1 cv.2)
    (hg : s.env.gives (frameAnswers od (bootWriteFrame s.par cc pc tc cv ++ pollFrame s.par b1 b2 b3))) :
    (bootRun now s).trace = (frameEvents od
        (bootWriteFrame s.par cc pc tc cv ++ pollFrame s.par b1 b2 b3)).reverse ++ s.trace ∧
      (bootRun now s).ctl = applyPoll s.par (rawOf s.par .status b1) (rawOf s.par .fault b2)
        (rawOf s.par .batteryAdc b3) { s.ctl with phase := .run, lastPoll := now } := by
  rw [frameAnswers_append, Env.gives_append] at hg
  have hwrites := bootWrites_ran h hw m1 m2 m3 m4 hg.1
  obtain ⟨hctl, -, -, hpar⟩ := bootWrites_sameCore s
  rw [bootRun, updateOutputs, onOut_trace, onOut_ctl, frameEvents_append]
  generalize bootWrites s = w at *
  obtain ⟨hpoll, hview⟩ := poll_ran (od := od) (b1 := b1) (b2 := b2) (b3 := b3)
    (s := w.onCtl fun c => { c with phase := .run }) now ((h.ran hwrites).congr rfl)
    (by rw [onCtl_par, hpar]; exact hw) (by rw [onCtl_par, onCtl_env, hpar, hwrites.env]; exact hg.2)
  rw [onCtl_par, hpar] at hpoll hview
  rw [hview, onCtl_ctl, hctl, hpoll.trace, onCtl_trace, hwrites.trace, List.reverse_append, List.append_assoc]
  exact ⟨rfl, rfl⟩

/-- Settles O41: the probe is the read of PART_ID on the bus CONFIGURE leaves, and what it finds decides. -/
theorem bootNeedsTheChargingIC : Obligations.BootNeedsTheChargingIC := by
  refine ⟨fun s k low b hboot hw hk hg => ?_, fun s c r hboot hw hpw hc hr => ?_⟩
  · obtain ⟨u, he, hready, hpar, hctl, hout, henv, htrace, hfound⟩ := bootProbe_ran hw hk hg
    have hx := exec_ctrlBoot_boot hboot
    have hsame := bootProbe_sameCore s
    rw [he] at hx hsame
    refine ⟨fun hne => ⟨_, hx, ?_⟩, fun hexp => ⟨_, hx, ?_⟩,
      fun cc pc tc cv b1 b2 b3 hexp m1 m2 m3 m4 hg' => ⟨_, hx, ?_⟩⟩
    · have hparks := bootEnd_parks (now := s.ports.nowMs) hsame (mt hfound.mp hne)
      exact ⟨hready.congr hparks.bus, hparks.result, hparks.ctl, hparks.out, hparks.trace.trans htrace⟩
    · obtain ⟨hrun, hres, hsetup, -⟩ := bootEnd_runs (now := s.ports.nowMs) (hfound.mpr hexp)
      exact ⟨⟨hsetup.ready.trans hready.1, hsetup.detecting.trans hready.2.1,
        hsetup.mode.trans hready.2.2⟩, hres, hrun⟩
    · obtain ⟨hrun, hres, -⟩ := bootEnd_runs (now := s.ports.nowMs) (hfound.mpr hexp)
      rw [bootFrame_eq, frameAnswers_append, ← List.append_assoc, Env.gives_append] at hg'
      rw [← hpar] at m1 m2 m3 m4 hw
      obtain ⟨ht, hview⟩ := bootRun_ran s.ports.nowMs hready hw m1 m2 m3 m4
        (by rw [henv, hpar]; exact hg'.2)
      have hend : bootEnd s.ports.nowMs ⟨.ok, b, u⟩ = (bootRun s.ports.nowMs u).finish .ok := by
        rw [bootEnd, if_pos (hfound.mpr hexp)]
      have hv := applyPoll_view hw s.ports.nowMs b1 b2 b3
        { u.ctl with phase := .run, lastPoll := s.ports.nowMs } rfl
      rw [← hview, hpar] at hv
      rw [hend] at hrun hres ⊢
      refine ⟨hres, hrun, ?_, by rw [finish_ctl]; exact hv, ?_, ?_, ?_, ?_⟩
      · rw [finish_trace, ht, htrace, bootFrame_eq, hpar]
        simp only [frameEvents_append, List.reverse_append, List.append_assoc]
      · rw [← hv.status, finish_ctl, hview, hctl]
        simp [applyPoll]
      · rw [finish_ctl, hview, hctl]
        rfl
      · rw [finish_out, bootRun_out, hout]
      · rw [finish_out, bootRun_out, hout]
  · obtain ⟨hside, hok, hbyte⟩ := bootProbe_reads hpw hc hr
    obtain ⟨hbus, -, -, htrace⟩ := busSide_lines hside
    have hsame := bootProbe_sameCore s
    have hfound := probePresent_iff (e := bootProbe s) (by rw [hsame.par]; exact hw)
    rw [hsame.par] at hfound
    have parks : ¬probePresent (bootProbe s) = true → BootParks s r (bootEnd s.ports.nowMs (bootProbe s)) :=
      fun h => by
        have hp := bootEnd_parks (now := s.ports.nowMs) hsame h
        exact ⟨hp.result, hp.ctl, hp.out, hp.trace.trans htrace.symm, hp.bus.trans hbus.symm⟩
    refine ⟨_, exec_ctrlBoot_boot hboot, fun hne => parks fun h => ?_, fun hz hne => parks fun h => ?_,
      fun hz hexp => ?_⟩
    · exact hne (hok.mpr (hfound.mp h).1)
    · exact hne (hbyte (hok.mp hz) ▸ (hfound.mp h).2)
    · obtain ⟨hrun, hres, -, hlines⟩ :=
        bootEnd_runs (now := s.ports.nowMs) (hfound.mpr ⟨hok.mp hz, hbyte (hok.mp hz) ▸ hexp⟩)
      exact ⟨hrun, hres, htrace ▸ hlines⟩

end Sys2Proof.Machine
end

section
/-! SUPPORT. The Button Debouncer sample by sample, a press over a run of samples, and the iterations of a
blocked loop (spec/43_button_debouncer.md R122 to R125). -/

namespace Sys2Proof.Machine

/-! ## One sample (R123) -/

/-- The level is the sample, and its time is now where it changed. -/
theorem sampleLevel_eq (now : Word) (level : Bool) (b : Btn) : b.sampleLevel now level =
    { b with lastRaw := level, rawSince := if level = b.lastRaw then b.rawSince else now } := by
  unfold Btn.sampleLevel
  by_cases h : level = b.lastRaw
  · subst h; simp
  · simp [h]

/-- A transition leaves the level, its time and the time of the blocking alone. -/
theorem advance_keeps (p : Params) (now : Word) (b : Btn) :
    (b.advance p now).2.lastRaw = b.lastRaw ∧ (b.advance p now).2.rawSince = b.rawSince ∧
      (b.advance p now).2.awaitSince = b.awaitSince := by
  unfold Btn.advance
  (repeat' split) <;> exact ⟨rfl, rfl, rfl⟩

section Transitions

variable {p : Params} {now : Word} {b c : Btn} {fired : Bool}

/-- A released button (R123). -/
theorem advance_released (h : b.advance p now = (fired, c)) (hs : b.state = .released) :
    fired = false ∧
      (c.state = .pressed ↔ b.lastRaw = false ∧ p.debounceMs ≤ elapsed now b.rawSince) ∧
      (c.state = .pressed ∨ c.state = .released) ∧
      c.pressStart = (if c.state = .pressed then b.rawSince else b.pressStart) := by
  simp only [Btn.advance, hs, Btn.stable, Bool.and_eq_true, decide_eq_true_eq, Bool.not_eq_true'] at h
  split at h <;> cases h
  next hc => exact ⟨rfl, iff_of_true rfl hc.symm, .inl rfl, rfl⟩
  next hc => exact ⟨rfl, by rw [hs, and_comm]; simpa using hc, .inr hs, by simp [hs]⟩

/-- A pressed button: the release is looked at before the hold, and needs the other level (R123). -/
theorem advance_pressed (h : b.advance p now = (fired, c)) (hs : b.state = .pressed) :
    c.pressStart = b.pressStart ∧
      (c.state = .released ↔ b.lastRaw = true ∧ p.debounceMs ≤ elapsed now b.rawSince) ∧
      (c.state = .held ↔ b.lastRaw = false ∧ p.holdMs < elapsed now b.pressStart) ∧
      (c.state = .held ∨ c.state = .pressed ∨ c.state = .released) ∧
      (fired = true ↔ c.state = .held) := by
  simp only [Btn.advance, hs, Btn.stable, Btn.holdPassed, Bool.and_eq_true, decide_eq_true_eq,
    Bool.not_eq_true'] at h
  split at h
  next hr => cases h; simp [hr]
  next hr =>
    split at h <;> cases h
    next hh => simp [hh]
    next hh =>
      exact ⟨rfl, by rw [hs, and_comm]; simpa using hr, by simpa [hs] using hh, .inr (.inl hs),
        by simp [hs]⟩

/-- A held button (R123). -/
theorem advance_held (h : b.advance p now = (fired, c)) (hs : b.state = .held) :
    fired = false ∧ c.pressStart = b.pressStart ∧
      (c.state = .released ↔ b.lastRaw = true ∧ p.debounceMs ≤ elapsed now b.rawSince) ∧
      (c.state = .held ∨ c.state = .released) := by
  simp only [Btn.advance, hs, Btn.stable, Bool.and_eq_true, decide_eq_true_eq] at h
  split at h <;> cases h
  next hc => exact ⟨rfl, rfl, iff_of_true rfl hc.symm, .inr rfl⟩
  next hc => exact ⟨rfl, rfl, by rw [hs, and_comm]; simpa using hc, .inl hs⟩

end Transitions

/-- Settles O59: the sample takes its level, and then at most one transition of its state is made. -/
theorem debounceTransitions : Obligations.DebounceTransitions := by
  intro p now level fired b c h
  have hblock : c.awaitRelease = b.awaitRelease := by
    simpa only [h] using debounce_awaitRelease p now level b
  obtain ⟨hlast, hsince, hawait⟩ := advance_keeps p now (b.sampleLevel now level)
  rw [Btn.debounce] at h
  rw [h, sampleLevel_eq] at hlast hsince hawait
  dsimp only at hlast hsince hawait
  rw [sampleLevel_eq, ← hsince] at h
  refine ⟨hlast, hsince, hblock, hawait, fun hs => (advance_released h hs).2, fun hs => ?_,
    fun hs => (advance_held h hs).2, ?_⟩
  · obtain ⟨hstart, hreleased, hheld, hstate, -⟩ := advance_pressed h hs
    exact ⟨hstart, hreleased, hheld, hstate⟩
  · cases hs : b.state with
    | released => simp [(advance_released h hs).1]
    | pressed =>
      obtain ⟨-, -, -, -, hfires⟩ := advance_pressed h hs
      simp [hfires]
    | held => simp [(advance_held h hs).1]

/-! ## A run of samples (R124) -/

section Runs

variable {p : Params} {now : Word} {level : Bool} {b : Btn}

/-- A sample fires on the transition from Pressed to Held and on no other (R124). -/
theorem debounce_fired_iff : (b.debounce p now level).1 = true ↔
    b.state = .pressed ∧ (b.debounce p now level).2.state = .held := by
  obtain ⟨-, -, -, -, -, -, -, hf⟩ := debounceTransitions p now level _ b _ rfl
  exact hf

/-- A press no low sample of which passes the threshold stays a press until it is released. -/
theorem debounce_stays_pressed (hs : b.state = .pressed)
    (hh : level = false → elapsed now b.pressStart ≤ p.holdMs)
    (hn : (b.debounce p now level).2.state ≠ .released) :
    (b.debounce p now level).2.state = .pressed ∧
      (b.debounce p now level).2.pressStart = b.pressStart := by
  obtain ⟨-, -, -, -, -, hp, -⟩ := debounceTransitions p now level _ b _ rfl
  obtain ⟨hstart, -, hheld, hstate⟩ := hp hs
  refine ⟨(hstate.resolve_left fun h => ?_).resolve_right hn, hstart⟩
  obtain ⟨hl, hlt⟩ := hheld.mp h
  exact Nat.not_lt.mpr (hh hl) hlt

end Runs

/-- A button that is never released stays held, without firing. -/
theorem samplesFire_of_held {p : Params} (xs : List (Word × Bool)) {b : Btn} (hs : b.state = .held)
    (hn : NeverReleased p xs b) :
    (samplesFire p xs b).1 = false ∧ (samplesFire p xs b).2.state = .held := by
  induction xs generalizing b with
  | nil => exact ⟨rfl, hs⟩
  | cons x xs ih =>
    obtain ⟨hx, hrest⟩ := hn
    obtain ⟨hfire, hend⟩ := ih ((debounce_of_held hs).resolve_right hx) hrest
    refine ⟨Bool.or_eq_false_iff.mpr ⟨?_, hfire⟩, hend⟩
    simp [← Bool.not_eq_true, debounce_fired_iff, hs]

/-- A press held for at most `HOLD_MS` does not fire. -/
theorem samplesFire_of_pressed {p : Params} (xs : List (Word × Bool)) {b : Btn} (hs : b.state = .pressed)
    (hh : ∀ x ∈ xs, x.2 = false → elapsed x.1 b.pressStart ≤ p.holdMs) (hn : NeverReleased p xs b) :
    (samplesFire p xs b).1 = false := by
  induction xs generalizing b with
  | nil => rfl
  | cons x xs ih =>
    obtain ⟨hx, hrest⟩ := hn
    obtain ⟨hhead, htail⟩ := List.forall_mem_cons.mp hh
    obtain ⟨hstate, hstart⟩ := debounce_stays_pressed hs hhead hx
    refine Bool.or_eq_false_iff.mpr ⟨?_, ih hstate (hstart ▸ htail) hrest⟩
    simp [← Bool.not_eq_true, debounce_fired_iff, hstate]

/-- Settles O60: a sample that fires leaves Pressed for Held, where no sample fires until a release. -/
theorem pressFiresAtMostOnce : Obligations.PressFiresAtMostOnce := by
  refine ⟨fun p now level b c h => ?_, fun p now level fired b c h hs => ?_,
    fun p xs b hs hn => ?_, fun p xs b => samplesFire_of_pressed xs⟩
  · simpa [h] using debounce_fired_iff (p := p) (now := now) (level := level) (b := b)
  · simpa [h] using debounce_of_held (p := p) (now := now) (level := level) hs
  · obtain ⟨hfire, hend⟩ := samplesFire_of_held xs hs hn
    exact ⟨Prod.ext hfire rfl, hend⟩

/-! ## A blocked iteration (R106 phase 3, R125) -/

/-- With no event word on its way `EnterSleeping` latches none. -/
theorem enterSleeping_ev {s : State} (hc : Calm s) : (enterSleeping s).ev = s.ev :=
  ((adcOff_busOnly (powerDown .sleeping .off s)).calm hc).1

/-- The timers leave the power state alone or come to Sleeping, and latch no event where none is on its
way (R106 phase 2). -/
theorem afterTimers_pstate_flag {s : State} (hi : CtlInv s) :
    ((afterTimers s).ctl.pstate = s.ctl.pstate ∨ (afterTimers s).ctl.pstate = .sleeping) ∧
      (Calm s → (afterTimers s).ev.flag = .none) := by
  obtain hn | he := noShutdownEnd_or_ends s
  · by_cases hd : s.ctl.pstate = .coolingDown → 120000 ≤ elapsed s.ports.nowMs s.ctl.coolStart
    · rw [afterTimers_polls hi hn hd]
      refine ⟨?_, fun _ => rfl⟩
      simp only [timersState, dwellOver]
      split
      · exact .inr rfl
      · exact .inl rfl
    · obtain ⟨hc, hlt⟩ := Classical.not_imp.mp hd
      rw [afterTimers_dwell hi hc (Nat.not_le.mp hlt)]
      exact ⟨.inl rfl, fun _ => rfl⟩
  · refine ⟨.inr (by rw [(afterTimers_shutdown hi he).1]), fun hc => ?_⟩
    have hev : (enterSleeping (quietState s)).ev.flag = .none := by
      rw [enterSleeping_ev (by exact hc)]; rfl
    rw [afterTimers_ends hi he]
    split
    · exact hev
    · exact hev

/-- The sample leaves the start of the release wait alone. -/
theorem buttonAfter_awaitSince (s : State) : (buttonAfter s).awaitSince = s.btn.awaitSince := by
  obtain ⟨-, -, -, hsince, -⟩ := debounceTransitions s.par s.ports.nowMs s.ports.btnLevel _ s.btn _ rfl
  exact hsince

/-- The button is released: the blocking ends with OK. -/
theorem blocked_released {p : Params} {now : Word} {b : Btn} (h : b.state = .released) :
    blockedEnds p now b = true ∧ blockedResult p now b = .ok := by
  simp [blockedEnds, blockedResult, h]

/-- The release wait has expired: it ends with TIMEOUT. -/
theorem blocked_expired {p : Params} {now : Word} {b : Btn} (h : b.state ≠ .released)
    (hw : p.releaseTimeoutMs ≤ elapsed now b.awaitSince) :
    blockedEnds p now b = true ∧ blockedResult p now b = .timeout false 0 0 := by
  simp [blockedEnds, blockedResult, Btn.waitExpired, h, hw]

/-- Neither: the loop stays blocked. -/
theorem blocked_waiting {p : Params} {now : Word} {b : Btn} (h : b.state ≠ .released)
    (hw : elapsed now b.awaitSince < p.releaseTimeoutMs) :
    blockedEnds p now b = false ∧ blockedResult p now b = .ok := by
  simp [blockedEnds, blockedResult, Btn.waitExpired, h, hw]

/-- The debouncer, the result and the event flags after a blocked iteration. -/
theorem step_blocked_ends {s t : State} (hrun : s.ctl.phase = .run) (hs : s.ctl.pstate ≠ .shippingMode)
    (hb : s.btn.awaitRelease = true) (hx : exec .ctrlStep s = .next t) :
    t.btn = (if blockedEnds s.par s.ports.nowMs (buttonAfter s) then (buttonAfter s).unblock
        else buttonAfter s) ∧
      t.ports.result = (blockedResult s.par s.ports.nowMs (buttonAfter s)).word ∧
      t.ev.flag = (afterTimers s).ev.flag.union { s.ev.flag with button := false, hostAck := false } := by
  cases (execCtrlStep_blocked hrun hs hb).symm.trans hx
  obtain ⟨-, -, -, -, hev⟩ := blockedStep_parts s.ports.nowMs s.ev.flag
    (debouncePhase s.ports.nowMs s.ports.btnLevel (afterTimers s))
  rw [hev, blockedStep_btn, debouncePhase_afterTimers]
  dsimp only
  rw [afterTimers_par]
  exact ⟨rfl, rfl, rfl⟩

/-- Settles O56: the sample and the release wait decide how the iteration ends, and the timers before them
are all that touches the controller. -/
theorem blockedLoopWaitsForRelease : Obligations.BlockedLoopWaitsForRelease := by
  intro s hi hrun hs hb
  obtain ⟨t, hx⟩ := ctrlStep_answers s
  obtain ⟨-, hctl, -⟩ := step_blocked hrun hs hb hx
  obtain ⟨hbtn, hres, hev⟩ := step_blocked_ends hrun hs hb hx
  obtain ⟨hstatus, -, hlast, -⟩ := afterTimers_view (s := s)
  obtain ⟨hpstate, hcalm⟩ := afterTimers_pstate_flag hi
  rw [← buttonAfter_awaitSince s]
  refine ⟨t, hx, fun hr => ?_, fun hr hw => ?_, fun hr hw => ?_, fun he => ?_, fun he => ?_, fun hc => ?_,
    by rw [hctl, hlast], by rw [hctl, hstatus], by rw [hctl]; exact hpstate⟩
  · obtain ⟨hends, hok⟩ := blocked_released (p := s.par) (now := s.ports.nowMs) hr
    rw [hbtn, hres, hends, hok]
    exact ⟨rfl, Result.ok_word⟩
  · obtain ⟨hends, htimeout⟩ := blocked_expired hr hw
    rw [hbtn, hres, hends, htimeout]
    exact ⟨rfl, timeout_fields false (by decide) (by decide)⟩
  · obtain ⟨hends, hok⟩ := blocked_waiting hr hw
    rw [hbtn, hres, hends, hok]
    exact ⟨rfl, Result.ok_word⟩
  · simp [hev, EventBits.union, he]
  · simp [hev, EventBits.union, he]
  · simp [hev, hcalm hc, EventBits.union, EventBits.none]

end Sys2Proof.Machine
end

section
/-! SUPPORT. Every step answers a next state, and what a step with no command and no act of the environment
leaves alone (spec/60_exceptions.md R127, R132, R133; spec/10_state.md R19, R29). -/

namespace Sys2Proof.Machine

/-! ## Every step answers -/

/-- An event word runs as a latch or is ignored (spec/30_encoding.md R53, R62). -/
theorem stepEvent_answers (w : Word) (s : State) : ∃ t, stepEvent w s = .next t := by
  unfold stepEvent
  split
  case h_1 i hi =>
    obtain ⟨k, hk⟩ := decodeEvent_latch hi
    exact ⟨_, hk s⟩
  case h_2 => exact ⟨_, rfl⟩

/-- A command word runs to its end or is illegal (R62, R132). -/
theorem stepCommand_answers (w : Word) (s : State) : ∃ t, stepCommand w s = .next t := by
  unfold stepCommand
  split
  case h_1 i hi =>
    obtain ⟨t, ht, -⟩ := exec_endsCommand (decodeCommand_legal hi).2 s
    exact ⟨t, ht⟩
  case h_2 => exact ⟨_, rfl⟩

/-- With no word waiting the environment acts or an instant passes. -/
theorem stepIdle_answers (s : State) : ∃ t, stepIdle s = .next t := by
  unfold stepIdle
  split
  · exact ⟨_, rfl⟩
  · exact ⟨_, rfl⟩

/-- Every step answers a next state (R127). -/
theorem step_answers (s : State) : ∃ t, step s = .next t := by
  unfold step
  split
  · exact stepEvent_answers _ _
  · split
    · exact stepCommand_answers _ _
    · exact stepIdle_answers s

/-! ## A step with no command and no act of the environment -/

/-- `t` is `s` but for the event latches and the words still to come on the event port. -/
def OnlyEventsMoved (s t : State) : Prop :=
  t = { s with ev := t.ev, ports := { s.ports with evt := t.ports.evt } }

/-- A due event word leaves its port, and at most latches its kind. -/
theorem step_due_onlyEventsMoved {s t : State} {w : Word} {rest : List Arrival}
    (he : s.ports.evt = ⟨0, w⟩ :: rest) (ht : step s = .next t) : OnlyEventsMoved s t := by
  obtain rfl | ⟨k, rfl⟩ := step_due he ht
  · rfl
  · rfl

/-- The block alone lets events arrive and does nothing else (spec/10_state.md R19, R29). -/
theorem step_onlyEventsMoved {s t : State} (hcmd : s.ports.cmd = none) (hmoves : s.env.moves = [])
    (ht : step s = .next t) : OnlyEventsMoved s t := by
  obtain ⟨w, rest, _, he, _, _⟩ | ⟨w, rest, he, _⟩ | ⟨w, _, hc, _, _⟩ | ⟨w, hc, _⟩ |
    ⟨_, m, rest, hm, _⟩ | ⟨_, _, rfl⟩ := step_cases ht
  · exact step_due_onlyEventsMoved (dueEvent_eq_some he) ht
  · exact step_due_onlyEventsMoved (dueEvent_eq_some he) ht
  · simp [hcmd] at hc
  · simp [hcmd] at hc
  · simp [hmoves] at hm
  · rfl

/-- Settles O7: each kind of step answers, and with neither a command nor an act of the environment a step
takes a due event word or lets an instant pass. -/
theorem noStepStops : Obligations.NoStepStops := by
  refine ⟨step_answers, fun s hcmd hmoves => ?_⟩
  obtain ⟨t, ht⟩ := step_answers s
  exact ⟨t, ht, step_onlyEventsMoved hcmd hmoves ht⟩

end Sys2Proof.Machine
end

section
/-! SUPPORT. The block right after a power-on: the values it has, what it does while nothing waits, what each
command does with the bus not yet brought up, and the invariants (spec/70_reset_and_hazards.md R146, R148;
spec/10_state.md R20 to R31). -/

namespace Sys2Proof.Machine

/-! ## A power-on (R146; log 16) -/

/-- A power-on leaves the state after reset as it is. -/
theorem resetOf_powerOn (p : Params) : (State.resetOf p).powerOn = State.resetOf p := rfl

/-- The state after reset and the one an act of the environment leaves are both after a power-on. -/
theorem after_powerOn {p : Params} {s : State}
    (h : s = State.resetOf p ∨ s = State.reset ∨ ∃ u : State, s = u.move .powerOn) :
    ∃ u : State, s = u.powerOn := by
  obtain rfl | rfl | ⟨u, rfl⟩ := h
  · exact ⟨_, (resetOf_powerOn p).symm⟩
  · exact ⟨_, (resetOf_powerOn Config.params).symm⟩
  · exact ⟨u, rfl⟩

/-! ## A step in which nothing happens (log 5) -/

/-- An instant with no event word on its way changes nothing. -/
theorem tick_of_no_event {s : State} (h : s.ports.evt = []) : s.tick = s := by
  have hp : { s.ports with evt := [] } = s.ports := by rw [← h]
  simp only [State.tick, h, arrive_nil, hp]

/-- With no word and no act of the environment the block waits (spec/10_state.md R19). -/
theorem step_waits {s : State} (hc : s.ports.cmd = none) (he : s.ports.evt = [])
    (hm : s.env.moves = []) : step s = .next s := by
  simp only [step, he, dueEvent, hc, stepIdle, hm, tick_of_no_event he]

/-- Settles O8: every state it speaks of is one after a power-on, which resets each element and leaves no
command. -/
theorem resetLeavesTheStatedValues : Obligations.ResetLeavesTheStatedValues := by
  intro p s h
  obtain ⟨u, rfl⟩ := after_powerOn h
  refine ⟨?bus, ?controller, ?button, ⟨rfl, rfl⟩, rfl, ⟨rfl, rfl⟩, step_waits rfl⟩
  case bus => exact ⟨rfl, rfl, rfl, rfl, rfl, rfl, rfl, rfl⟩
  case controller => exact ⟨rfl, rfl, rfl, rfl, rfl, rfl, rfl, rfl, rfl, rfl, rfl, rfl⟩
  case button => exact ⟨rfl, rfl, rfl, rfl⟩

/-! ## The commands right after reset (R148) -/

/-- Every state word reads 0 after reset (spec/10_state.md R31). -/
theorem reset_stateWord (p : Params) (w : StateWord) : stateWord (State.resetOf p) w = 0#32 := by
  cases w with
  | ctrlStatus => exact reset_ctrlStatus
  | busStatus => exact show busStatusWord .reset = 0#32 by decide
  | battery => exact show batteryWord Ctl.reset.battery = 0#32 by decide
  | outputs => exact show outputsWord .reset .reset = 0#32 by decide

theorem exec_readState_reset (p : Params) {sel : Byte} (h : sel.toNat ≤ 3) :
    exec (.readState sel) (State.resetOf p) =
      .next ((State.resetOf p).onPorts fun q => { q with val := 0#32, result := 0#32 }) := by
  obtain ⟨w, hw, -⟩ := stateWordOf_is (State.resetOf p) h
  rw [exec_readState_some hw, reset_stateWord]

/-- With events not masked an event word raises the flag of its kind (spec/10_state.md R29). -/
theorem exec_evtInstr_unmasked {s : State} (h : s.bus.irqMask = false) (k : EventKind) :
    exec (evtInstr k) s = .next (s.onEv fun l => { l with flag := l.flag.raise k }) := by
  have hl : s.latch k = s.onEv fun l => { l with flag := l.flag.raise k } := by
    simp only [State.latch, Latches.latch, h, Bool.false_eq_true, if_false]
  rw [← hl]
  cases k <;> rfl

/-- Both ends of CTRL_BOOT leave phase Boot (spec/42_charge_controller.md R99). -/
theorem bootEnd_phase (now : Word) (e : ByteRead) : (bootEnd now e).ctl.phase ≠ .boot := by
  by_cases h : probePresent e = true
  · rw [(bootEnd_runs h).1]
    decide
  · rw [bootEnd, if_neg h]
    exact nofun

/-- Settles O9: the bus is not ready, the phase is Boot and events are not masked. -/
theorem commandsRightAfterReset : Obligations.CommandsRightAfterReset := by
  rintro p _ rfl
  have hready : (State.resetOf p).bus.ready = false := rfl
  have hphase : (State.resetOf p).ctl.phase = .boot := rfl
  have hevt := exec_evtInstr_unmasked (s := State.resetOf p) rfl
  refine ⟨exec_ctrlStep_boot hphase, exec_transfer_notReady hready, exec_regRead_notReady hready,
    exec_regWrite_notReady hready,
    fun f hf => ⟨exec_fieldRead_notReady hready hf, exec_fieldWrite_notReady hready hf⟩,
    ⟨_, exec_probe_notReady hready, rfl, rfl⟩,
    fun rate => ⟨_, rfl, rfl, (configure_bus rate _).1⟩, fun sel => exec_readState_reset p,
    ⟨_, exec_ctrlBoot_boot hphase, (bootEnd_setup _).1, bootEnd_phase _ _⟩,
    hevt .button, hevt .chgIrq, hevt .thermal, hevt .hostAck⟩

/-! ## The invariants at reset -/

/-- Settles O12: a power-on leaves the bus idle and the controller asleep, with no line event yet and both
indexed ports empty. -/
theorem invariantsHoldAtReset : Obligations.InvariantsHoldAtReset := fun p =>
  ⟨powerOn_busInv (State.resetOf p), resetOf_ctlInv p, ⟨rfl, rfl, trivial⟩, ⟨rfl, rfl⟩⟩

end Sys2Proof.Machine
end
